-- ==== Sys2Proof/Word.lean ====
section
/-! DEFINITION. The words of the part: bytes, half words, authority time, identities, and the
index ranges of the table of Conventions (00_scope.md, "Indices"). -/

namespace Sys2Proof

/-- One byte of a message, frame or record (13.1). -/
abbrev Byte := BitVec 8

/-- A two-byte field: seeds, leases, holds, hints, parameters (R190). -/
abbrev Half := BitVec 16

/-- Authority time and every deadline: milliseconds modulo 2^32 (R60, R61). -/
abbrev Time := BitVec 32

/-- A member identity, its first transmitted byte the most significant (R105, R190). -/
abbrev Identity := BitVec 48

/-- A 7-bit short address 0x00..0x7F (R40). -/
abbrev Addr := Fin 128

/-- The index of a binding entry, 0..95 (R1). -/
abbrev EntryIx := Fin 96

/-- The number of an offer slot, 0..3 (R78). -/
abbrev SlotIx := Fin 4

/-- A member class, 0..15 (R63). -/
abbrev ClassIx := Fin 16

/-- The number of an admission rule, 0..15 (R104). -/
abbrev RuleIx := Fin 16

/-- The number of an extension block, 0..39 (R15). -/
abbrev BlockIx := Fin 40

/-- The number of a bucket of the identity index, 0..31 (R23). -/
abbrev BucketIx := Fin 32

/-- One whole byte on the member bus with its ninth clock (R135, R136): what the controller drives, which
a RECEIVING target stores, and what the controller answers on the ninth clock, which a SENDING target
looks at. A target that is not part of the transaction looks at neither. -/
structure BusByte where
  data : Byte
  ack : Bool
deriving DecidableEq, Repr

/-- What happens on the member bus between a START and a STOP (logs 5 and 6): a whole
byte, after whose ninth clock SCL is low, or SCL alone, where the controller pauses with it high or low (R144). -/
inductive BusActivity where
  | byte (b : BusByte)
  | sclRises
  | sclFalls
deriving DecidableEq, Repr

end Sys2Proof
end

