-- ==== Sys2Proof/Config.lean ====
section
/-! DEFINITION. What is fixed for every UZA96: capacities and hard-reset constants of the spec. The spec calls
no value undefined, so there is no free value here. -/

namespace Sys2Proof.Config

/-- The seed in force after hard reset (R25). -/
abbrev resetSeed : Half := 0xA5C3

/-- Entries one bucket holds at most (R23). -/
abbrev bucketCapacity : Nat := 4

/-- Bytes the receive buffer holds at most (R136). -/
abbrev receiveCapacity : Nat := 56

/-- Bytes the command frame buffer holds at most (R151). -/
abbrev frameCapacity : Nat := 60

/-- The bus-stuck limit in milliseconds (R144). -/
abbrev stuckLimit : Nat := 32

/-- The retry hint of RETRY_LATER(RESTRICTED) and RETRY_LATER(REHASH), in milliseconds (R88). -/
abbrev retryHint : Half := 1000

/-- The lowest assignable address (R41). -/
abbrev lowestAddress : Addr := 0x08

/-- The highest assignable address (R41). -/
abbrev highestAddress : Addr := 0x77

/-- The authority address that ASEL1 ASEL0 select (R41, pin table of 00_scope.md). -/
def authorityOf (asel : BitVec 2) : Addr :=
  Fin.ofNat 128 (0x0C + asel.toNat)

/-- DESIGN CHOICE (log 8), unsafe: the authority address before the first sample of ASEL1 and ASEL0. Nothing on the
pins shows it, because the part does not listen before that sample. -/
abbrev unsampledAuthority : Addr := 0x0C

end Sys2Proof.Config
end

