-- ==== Sys2Proof/Syntax.lean ====
section
/-! DEFINITION. The commands of the part: one constructor per row of spec/opcode_table.json, in the table's order. -/

namespace Sys2Proof

/-- The commands of the part. A row that is an operation granted by the engine carries the operation's fields, a row
that is an event on a pin carries what the pin brings (logs 5 to 8), every other row is its own event. -/
inductive Instr where
  /-- CLAIM (R81): a checked CLAIM request operation is granted. -/
  | claim (identity : Identity) (cls preferred : Byte) (descriptor : List Byte)
  /-- ACCEPT (R91). -/
  | accept (identity : Identity) (address token : Byte)
  /-- RENEW (R127). -/
  | renew (identity : Identity) (address : Byte)
  /-- RELEASE (R130). -/
  | release (identity : Identity) (address : Byte)
  /-- RESOLVE (R119). -/
  | resolve (identity : Identity)
  /-- WHOIS (R120). -/
  | whois (address : Byte)
  /-- DESCRIBE (R121). -/
  | describe (address offset : Byte)
  /-- ENUMERATE (R124). -/
  | enumerate (cls position generation : Byte)
  /-- QUERY (R126). -/
  | query
  /-- ADDRESS_BYTE (R134): the bus's activity since the last bus event, then a START or repeated START with its address byte, whose
  ninth clock leaves SCL low, then the activity after it in the same millisecond; `later` is the activity in each
  millisecond that follows (logs 5, 6). -/
  | addressByte (before : List BusActivity) (address : Addr) (read : Bool) (after : List BusActivity)
      (later : List (List BusActivity))
  /-- WRITE_END (R138): the bus's activity since the last bus event, then the STOP or repeated START that ends a write. -/
  | writeEnd (before : List BusActivity)
  /-- REQUEST_COMPLETION (R140). -/
  | requestCompletion
  /-- STRETCH_LIMIT_REACHED (R142). -/
  | stretchLimitReached
  /-- BUS_STUCK (R145). -/
  | busStuck
  /-- HOST_TRANSACTION_START (R150): CS# falls; the whole bytes received since (log 7). -/
  | hostTransactionStart (received : List Byte)
  /-- COMMAND_FRAME_END (R153): the whole bytes received since the last host event, then the CS# rise of a COMMAND
  transaction; `asel` is the level of ASEL1 ASEL0 at that rise, which an accepted RESET CLEAR samples (log 8). -/
  | commandFrameEnd (received : List Byte) (asel : BitVec 2)
  /-- READ_RESULT (R158): the whole bytes received since the last host event, then the CS# rise of a READ RESULT transaction. -/
  | readResult (received : List Byte)
  /-- READ_STATUS (R151): the whole bytes received since the last host event in a READ STATUS transaction, and whether CS#
  rises then. -/
  | readStatus (received : List Byte) (rise : Bool)
  /-- UNKNOWN_TRANSACTION (R150): the whole bytes received since the last host event, then the CS# rise of an UNKNOWN transaction, or
  of one in which no whole byte came (log 26). -/
  | unknownTransaction (received : List Byte)
  /-- COMMAND_COMPLETION (R156). -/
  | commandCompletion
  /-- READ_ENTRY (R160). -/
  | readEntry (index : Byte)
  /-- FIND_IDENTITY (R29). -/
  | findIdentity (identity : Identity)
  /-- READ_BUCKET (R30). -/
  | readBucket (bucket : Byte)
  /-- INSERT (R162); `length` is the descriptor-length argument. -/
  | insert (identity : Identity) (cls address pinned : Byte) (lease : Half) (length : Byte) (descriptor : List Byte)
  /-- MODIFY (R165); `length` is the descriptor-length argument. -/
  | modify (index generation selection cls pinned : Byte) (lease : Half) (address length : Byte)
      (descriptor : List Byte)
  /-- RETIRE (R167). -/
  | retire (index generation freeNow : Byte)
  /-- READ_ADDRESS (R57). -/
  | readAddress (address : Byte)
  /-- RESERVE (R54). -/
  | reserve (address : Byte)
  /-- UNRESERVE (R55). -/
  | unreserve (address : Byte)
  /-- UNQUARANTINE (R56). -/
  | unquarantine (address : Byte)
  /-- READ_QUARANTINE (R58). -/
  | readQuarantine (position : Byte)
  /-- READ_SLOT (R102). -/
  | readSlot (slot : Byte)
  /-- APPROVE (R97). -/
  | approve (slot generation address : Byte)
  /-- DENY (R98). -/
  | deny (slot generation : Byte)
  /-- READ_CLASS (R65). -/
  | readClass (cls : Byte)
  /-- WRITE_CLASS (R64). -/
  | writeClass (cls enabled : Byte) (lease hold : Half)
  /-- READ_CLASS_LIST (R125). -/
  | readClassList (cls position : Byte)
  /-- READ_RULE (R110). -/
  | readRule (rule : Byte)
  /-- WRITE_RULE (R109). -/
  | writeRule (rule valid : Byte) (value : Identity) (prefixLength classMatch action low high : Byte) (override : Half)
      (priority : Byte)
  /-- READ_PARAMETER (R172). -/
  | readParameter (identifier : Byte)
  /-- WRITE_PARAMETER (R170). -/
  | writeParameter (identifier : Byte) (value : Half)
  /-- READ_AUTHORITY (R168). -/
  | readAuthority
  /-- NEXT_CHANGE (R174). -/
  | nextChange
  /-- ACK_ALERT (R180). -/
  | ackAlert (tag : Byte)
  /-- READ_ALERT (R181). -/
  | readAlert
  /-- REHASH (R31): the command's first step operation is granted. -/
  | rehash (seed : Half)
  /-- REHASH_STEP (R32). -/
  | rehashStep
  /-- REHASH_ABORT_ENDING (R38). -/
  | rehashAbortEnding
  /-- ABORT (R157). -/
  | abort
  /-- RESET_KEEP (R185). -/
  | resetKeep
  /-- RESET_ASSERTED (R182): RESET# goes low, or power-on. -/
  | resetAsserted
  /-- RESET_END (R183): RESET# rises, or the power-on reset ends, with ASEL1 ASEL0 at this level. -/
  | resetEnd (asel : BitVec 2)
  /-- INITIALISATION_END (R184). -/
  | initialisationEnd
  /-- AUTHORITY_TIME_TICK (R60): a millisecond of CLKIN ends. -/
  | authorityTimeTick
  /-- OFFER_EXPIRY (R94): the OFFER expiry operation that names this entry and deadline is granted. -/
  | offerExpiry (entry : EntryIx) (deadline : Time)
  /-- APPROVAL_EXPIRY (R99). -/
  | approvalExpiry (slot : SlotIx) (deadline : Time)
  /-- REFUSAL_EXPIRY (R101). -/
  | refusalExpiry (slot : SlotIx) (deadline : Time)
  /-- LEASE_LAPSE (R72). -/
  | leaseLapse (entry : EntryIx) (deadline : Time)
  /-- REVALIDATION_END (R73). -/
  | revalidationEnd (entry : EntryIx) (deadline : Time)
  /-- HOLD_END (R74). -/
  | holdEnd (entry : EntryIx) (deadline : Time)
  /-- QUARANTINE_END (R47). -/
  | quarantineEnd (address : Addr) (endTime : Time)
  /-- COALESCING_TIMER_EXPIRY (R178). -/
  | coalescingTimerExpiry
  /-- STOP_CONDITION (R134): the bus's activity since the last bus event, then a STOP. -/
  | stopCondition (before : List BusActivity)
  /-- EXPIRY_OPERATION_COMPLETION (R70). -/
  | expiryOperationCompletion
  /-- STEP_OPERATION_COMPLETION (R32). -/
  | stepOperationCompletion
deriving DecidableEq, Repr

end Sys2Proof
end

