-- ==== Sys2Proof/WellFormed.lean ====
section
/-! DEFINITION. Which commands are well formed: the ones whose operands a message, a frame or a pin can bring. -/

namespace Sys2Proof

/-- A descriptor in a request or a command frame has at most 40 bytes (R137, 13.5). -/
def descriptorFits (descriptor : List Byte) : Bool :=
  descriptor.length ≤ 40

/-- A CLAIM, INSERT or MODIFY carries at most 40 descriptor bytes; a CLAIM's length byte has told the target the length
(R81), so only INSERT and MODIFY carry one of their own, which their operation checks. Every other operand is a
byte, a word or an index of the range its type gives. -/
def Instr.wellFormed : Instr → Bool
  | .claim _ _ _ d => descriptorFits d
  | .insert _ _ _ _ _ _ d => descriptorFits d
  | .modify _ _ _ _ _ _ _ _ d => descriptorFits d
  | .accept .. | .renew .. | .release .. | .resolve .. | .whois .. | .describe .. | .enumerate .. | .query ..
  | .addressByte .. | .writeEnd .. | .requestCompletion .. | .stretchLimitReached .. | .busStuck ..
  | .hostTransactionStart .. | .commandFrameEnd .. | .readResult .. | .readStatus .. | .unknownTransaction ..
  | .commandCompletion .. | .readEntry .. | .findIdentity .. | .readBucket .. | .retire .. | .readAddress ..
  | .reserve .. | .unreserve .. | .unquarantine .. | .readQuarantine .. | .readSlot .. | .approve .. | .deny ..
  | .readClass .. | .writeClass .. | .readClassList .. | .readRule .. | .writeRule .. | .readParameter ..
  | .writeParameter .. | .readAuthority .. | .nextChange .. | .ackAlert .. | .readAlert .. | .rehash ..
  | .rehashStep .. | .rehashAbortEnding .. | .abort .. | .resetKeep .. | .resetAsserted .. | .resetEnd ..
  | .initialisationEnd .. | .authorityTimeTick .. | .offerExpiry .. | .approvalExpiry .. | .refusalExpiry ..
  | .leaseLapse .. | .revalidationEnd .. | .holdEnd .. | .quarantineEnd .. | .coalescingTimerExpiry ..
  | .stopCondition .. | .expiryOperationCompletion .. | .stepOperationCompletion .. => true

end Sys2Proof
end

