-- ==== Sys2Proof/Decode.lean ====
section
/-! DEFINITION. Decoding of table words. No row of spec/opcode_table.json gives bits ("fields" is empty in all 65), so no word
spells a command (log 15). Requests and command frames are decoded from their bytes in Machine/Formats.lean. -/

namespace Sys2Proof

/-- The command a word of the opcode table spells: none, since no row gives bits (log 15). -/
def decodeTableWord (_nbits _w : Nat) : Option Instr :=
  none

end Sys2Proof
end

