-- ==== Sys2Proof/Machine/State.lean ====
section
/-! DEFINITION. Every piece of state the spec gives the part, as plain data, and the part right after reset. A field that the
spec calls absent in a state stands in the constructors of the states that have it, so an absent field has no
value. -/

namespace Sys2Proof.Machine

/-- The six states of a binding entry (R1, 1.2). -/
inductive EntryState where
  | vacant | awaiting | offered | bound | unverified | lapsed
deriving DecidableEq, Repr

/-- A binding entry's state with the fields present in it (R1): slot, address, lease duration in seconds, deadline. A BOUND
entry without a deadline is a pinned one (R76). -/
inductive EntryLife where
  | vacant
  | awaiting (slot : SlotIx)
  | offered (slot : SlotIx) (address : Addr) (lease : Half) (deadline : Time)
  | bound (address : Addr) (lease : Half) (deadline : Option Time)
  | unverified (address : Addr) (lease : Half) (deadline : Time)
  | lapsed (address : Addr) (lease : Half) (deadline : Time)
deriving DecidableEq, Repr

/-- A binding entry (R1). `inlineBytes` are the descriptor's first 8 bytes and `blocks` the extension blocks that hold the
rest, in byte order (R16); the descriptor length is computed from them (log 11). -/
structure Entry where
  life : EntryLife
  generation : Byte
  identity : Identity
  cls : ClassIx
  renewCount : Byte
  truncated : Bool
  inlineBytes : List Byte
  blocks : List BlockIx
deriving DecidableEq, Repr

/-- One record of the address map (R40): the state with the entry index or the end time it carries. -/
inductive AddrState where
  | fixed
  | reserved
  | free
  | offered (entry : EntryIx)
  | bound (entry : EntryIx)
  | held (entry : EntryIx)
  | quarantined (endTime : Time)
deriving DecidableEq, Repr

/-- One item of the quarantine queue (R44). -/
structure QuarantineItem where
  address : Addr
  endTime : Time
deriving DecidableEq, Repr

/-- What an occupied offer slot records (R78). -/
structure SlotClaim where
  identity : Identity
  cls : ClassIx
  low : Addr
  high : Addr
  override : Half
  deadline : Time
deriving DecidableEq, Repr

/-- An offer slot (R78, R79): a REFUSED slot names no entry. -/
inductive Slot where
  | free
  | awaiting (claim : SlotClaim) (entry : EntryIx)
  | offered (claim : SlotClaim) (entry : EntryIx)
  | refused (claim : SlotClaim)
deriving DecidableEq, Repr

/-- A record of the class table (R63): lease and hold times in seconds, the class list with its head at position 0. -/
structure ClassRecord where
  enabled : Bool
  lease : Half
  hold : Half
  members : List EntryIx
  generation : Byte
deriving DecidableEq, Repr

/-- The action of an admission rule (R104). -/
inductive Action where
  | allow | admitInRange | holdForHost | deny
deriving DecidableEq, Repr

/-- The fields of a valid admission rule (R104). `classMatch` none is ANY. -/
structure AdmissionRule where
  value : Identity
  prefixLength : Fin 49
  classMatch : Option ClassIx
  action : Action
  low : Addr
  high : Addr
  override : Half
  priority : Bool
deriving DecidableEq, Repr

/-- The values of DEFAULT_ACTION (R107): it has no range of its own, so ADMIT_IN_RANGE is none of them. -/
inductive DefaultAction where
  | allow | holdForHost | deny
deriving DecidableEq, Repr

/-- The admission state (R113): OPEN or RESTRICTED. -/
inductive Admission where
  | opened | restricted
deriving DecidableEq, Repr

/-- One flag for each alert cause (R177): the enables of ALERT_MASK, or the causes that are pending. -/
structure Causes where
  changes : Bool
  approval : Bool
  admission : Bool
  busFault : Bool
  done : Bool
deriving DecidableEq, Repr

/-- The thirteen global parameters (R169). -/
structure Params where
  offerTime : Half
  approvalTime : Half
  quarantineTime : Half
  revalidateTime : Half
  lowMark : Half
  highMark : Half
  coalesceCount : Half
  coalesceTime : Half
  stretchLimit : Half
  alertMask : Causes
  earlyReuse : Bool
  truncateDescriptors : Bool
  defaultAction : DefaultAction
deriving DecidableEq, Repr

/-- The owner of a deadline item: an entry or a slot (R67). -/
inductive Owner where
  | entry (index : EntryIx)
  | slot (number : SlotIx)
deriving DecidableEq, Repr

/-- The kind of a deadline item together with its owner (R67): four kinds are owned by entries, two by slots. -/
inductive ItemKind where
  | offer (entry : EntryIx)
  | lease (entry : EntryIx)
  | revalidate (entry : EntryIx)
  | hold (entry : EntryIx)
  | approval (slot : SlotIx)
  | refusal (slot : SlotIx)
deriving DecidableEq, Repr

/-- An item of the deadline list (R67). -/
structure DeadlineItem where
  kind : ItemKind
  deadline : Time
deriving DecidableEq, Repr

/-- A REHASH run in progress (2.4): present while the rehash mark is set. -/
structure RehashRun where
  newSeed : Half
  shadow : Vector (List EntryIx) 32
  cursor : EntryIx
deriving DecidableEq, Repr

/-- Table state: everything the table engine owns (1.4). A free extension block holds no bytes, because its contents are not
readable (R15, log 11). Buckets and the change set are sets, kept in ascending order. -/
structure Table where
  entries : Vector Entry 96
  pool : Vector (Option (List Byte)) 40
  seed : Half
  index : Vector (List EntryIx) 32
  run : Option RehashRun
  map : Vector AddrState 128
  quarantine : List QuarantineItem
  slots : Vector Slot 4
  classes : Vector ClassRecord 16
  rules : Vector (Option AdmissionRule) 16
  admission : Admission
  params : Params
  deadlines : List DeadlineItem
  changeSet : List EntryIx
deriving DecidableEq, Repr

/-- The blocks that submit operations to the engine (R20). -/
inductive Requester where
  | bus | host | expiry
deriving DecidableEq, Repr

/-- The engine's arbiter (R20): one waiting operation at most for each requester, held as the row that serves it, and the
last-granted mark. -/
structure Arbiter where
  bus : Option Instr
  host : Option Instr
  expiry : Option Instr
  lastGranted : Requester
deriving DecidableEq, Repr

/-- A member-bus answer before it is framed (13.3): its code and payload. -/
structure Answer where
  code : Byte
  payload : List Byte
deriving DecidableEq, Repr

/-- A result before it is framed (13.4): its code and payload. -/
structure Result where
  code : Byte
  payload : List Byte
deriving DecidableEq, Repr

/-- The operation in service and what its completion hands back (R19). READ ALERT and ACK ALERT have their results made at
the completion (R180, R181); a retention reset acts on the target there (R146); `step` is a REHASH step that does
not end the command. -/
inductive Service where
  | request (answer : Answer)
  | command (result : Result)
  | ackAlert (tag : Byte)
  | readAlert
  | retention (result : Result)
  | step
  | expiry
deriving DecidableEq, Repr

/-- The expiry unit (R60, R70). -/
structure ExpiryUnit where
  time : Time
  outstanding : Bool
deriving DecidableEq, Repr

/-- A timer that counts milliseconds (R133): idle, or running with the milliseconds left to its limit. -/
inductive Timer where
  | idle
  | running (left : Nat)
deriving DecidableEq, Repr

/-- The phases of the member bus target (R133). -/
inductive BusPhase where
  | unaddressed | receiving | sending | stretching | discarding
deriving DecidableEq, Repr

/-- The state of the answer buffer (R133). -/
inductive AnswerState where
  | empty | pending | ready
deriving DecidableEq, Repr

/-- The member bus target (R133). `acks`, `shifted` and `released` are the model's own record of SDA in the present
transaction (log 14): the ninth clocks answered, the bytes shifted out, and whether the controller's NACK ended
the shifting (R135). `coming` is the model's own too (log 5): the bus's activity in each millisecond to come of it. -/
structure Target where
  listening : Bool
  phase : BusPhase
  receive : List Byte
  overflow : Bool
  answer : List Byte
  answerState : AnswerState
  inFlight : Bool
  content : Option (List Byte)
  stretch : Timer
  stuck : Timer
  acks : List Bool
  shifted : List Byte
  released : Bool
  coming : List (List BusActivity)
deriving DecidableEq, Repr

/-- The command state (R149), with the command that is executing. -/
inductive CommandState where
  | idle
  | executing (command : Instr)
deriving DecidableEq, Repr

/-- The kind of the host transaction in progress (R149). -/
inductive TransactionKind where
  | none | command | readResult | readStatus | unknown
deriving DecidableEq, Repr

/-- The host command port (R149). `status` is the last captured status byte (R152); `content` and `contentHeld` are
a READ RESULT transaction's read content and whether it is the held result frame (R158); `selected` (the port
follows a transaction that CS# frames) and `sdo` (the bytes shifted out in it) are the model's own (log 14). -/
structure Port where
  ready : Bool
  command : CommandState
  sequence : Byte
  frame : List Byte
  overflow : Bool
  result : Option (List Byte)
  unread : Bool
  refused : Bool
  frameError : Bool
  abortRequest : Bool
  kind : TransactionKind
  selected : Bool
  status : Byte
  content : List Byte
  contentHeld : Bool
  sdo : List Byte
deriving DecidableEq, Repr

/-- The coalescing timer (R178). -/
inductive CoalescingTimer where
  | idle
  | running (left : Nat)
  | expired
deriving DecidableEq, Repr

/-- The alert unit (R175 to R179); `line` is yes while the part drives ALERT# low. -/
structure Alert where
  tag : Byte
  acknowledged : Byte
  admissionLatch : Bool
  busFaultLatch : Bool
  doneLatch : Bool
  timer : CoalescingTimer
  line : Bool
deriving DecidableEq, Repr

/-- Where the part stands with respect to a hard reset (R182, R184). -/
inductive PartLife where
  | inReset | initialising | running
deriving DecidableEq, Repr

/-- The whole part. `seen` is the table as the last completed operation left it, which is what every block but the engine
sees (R19, log 3); `pending` is the queue of commands. -/
structure State where
  life : PartLife
  authorityAddress : Addr
  table : Table
  seen : Table
  arbiter : Arbiter
  service : Option Service
  expiry : ExpiryUnit
  target : Target
  port : Port
  alert : Alert
  pending : List Instr
deriving DecidableEq, Repr

/-- The part never stops with a fault: the spec answers every malformed or refused message (log 17). -/
inductive Fault where
deriving DecidableEq, Repr

/-- Why the model has no meaning for a command. -/
inductive Refusal where
  /-- Raised by an arm of exec that has no meaning yet; safe. No arm raises it. -/
  | notModelled (mnemonic : String)
deriving DecidableEq, Repr

/-- An entry after hard reset (R22). -/
def Entry.reset : Entry :=
  { life := .vacant, generation := 0, identity := 0, cls := 0, renewCount := 0, truncated := false
    inlineBytes := [], blocks := [] }

/-- A class record after hard reset (R63). -/
def ClassRecord.reset : ClassRecord :=
  { enabled := true, lease := 600, hold := 60, members := [], generation := 0 }

/-- The global parameters after hard reset (R169). -/
def Params.reset : Params :=
  { offerTime := 500, approvalTime := 5000, quarantineTime := 30, revalidateTime := 120, lowMark := 8, highMark := 16
    coalesceCount := 4, coalesceTime := 20, stretchLimit := 2
    alertMask := { changes := true, approval := true, admission := true, busFault := true, done := true }
    earlyReuse := false, truncateDescriptors := false, defaultAction := .allow }

/-- The address map after hard reset (R40, R41): 0x00..0x07, 0x78..0x7F and the authority address are FIXED. -/
def resetMap (authority : Addr) : Vector AddrState 128 :=
  Vector.ofFn fun a => if a < 0x08 ∨ 0x77 < a ∨ a = authority then .fixed else .free

/-- The table after hard reset (R22, R23, R25, R40, R63, R67, R78, R104, R113, R169, R173). -/
def Table.reset (authority : Addr) : Table :=
  { entries := Vector.replicate 96 Entry.reset
    pool := Vector.replicate 40 none
    seed := Config.resetSeed
    index := Vector.replicate 32 []
    run := none
    map := resetMap authority
    quarantine := []
    slots := Vector.replicate 4 .free
    classes := Vector.replicate 16 ClassRecord.reset
    rules := Vector.replicate 16 none
    admission := .opened
    params := Params.reset
    deadlines := []
    changeSet := [] }

/-- The member bus target after hard reset (R133, log 14). -/
def Target.reset : Target :=
  { listening := false, phase := .unaddressed, receive := [], overflow := false, answer := [], answerState := .empty
    inFlight := false, content := none, stretch := .idle, stuck := .idle, acks := [], shifted := [], released := false
    coming := [] }

/-- The host command port after hard reset (R149, log 14). -/
def Port.reset : Port :=
  { ready := false, command := .idle, sequence := 0, frame := [], overflow := false, result := none, unread := false
    refused := false, frameError := false, abortRequest := false, kind := .none, selected := false, status := 0
    content := [], contentHeld := false, sdo := [] }

/-- The alert unit after hard reset (R175, R177, R178, R179). -/
def Alert.reset : Alert :=
  { tag := 0, acknowledged := 0, admissionLatch := false, busFaultLatch := false, doneLatch := false, timer := .idle
    line := false }

/-- The part in a hard reset, before ASEL1 and ASEL0 are sampled (R182; logs 8 and 9). -/
def State.reset : State :=
  { life := .inReset
    authorityAddress := Config.unsampledAuthority
    table := Table.reset Config.unsampledAuthority
    seen := Table.reset Config.unsampledAuthority
    arbiter := { bus := none, host := none, expiry := none, lastGranted := .expiry }
    service := none
    expiry := { time := 0, outstanding := false }
    target := Target.reset
    port := Port.reset
    alert := Alert.reset
    pending := [] }

end Sys2Proof.Machine
end

