-- ==== Sys2Proof/Machine/Formats.lean ====
section
/-! DEFINITION. Byte layouts (chapter 13): byte order, the CRC-8 and the CRC-16, state codes, answers and results and their
frames, and the decoding of requests and command frames. -/

namespace Sys2Proof.Machine

/-! ### Byte order (R190) -/

/-- `value` as `count` bytes, most significant first (R190). -/
def beBytes : Nat → Nat → List Byte
  | 0, _ => []
  | count + 1, value => BitVec.ofNat 8 (value / 256 ^ count) :: beBytes count value

/-- The number that bytes spell, most significant first (R190). -/
def beValue (bytes : List Byte) : Nat :=
  bytes.foldl (fun n b => n * 256 + b.toNat) 0

/-- A number as one byte (R190). -/
def byteOf (n : Nat) : Byte :=
  BitVec.ofNat 8 n

/-- A two-byte field. -/
def halfBytes (h : Half) : List Byte :=
  beBytes 2 h.toNat

/-- A four-byte field: authority time, deadlines, remaining milliseconds. -/
def timeBytes (t : Time) : List Byte :=
  beBytes 4 t.toNat

/-- An identity's six bytes, first byte first. -/
def identityBytes (i : Identity) : List Byte :=
  beBytes 6 i.toNat

/-- A two-byte field from its bytes. -/
def halfOf (bytes : List Byte) : Half :=
  BitVec.ofNat 16 (beValue bytes)

/-- An identity from its six bytes. -/
def identityOf (bytes : List Byte) : Identity :=
  BitVec.ofNat 48 (beValue bytes)

/-- A short address as a byte. -/
def addrByte (a : Addr) : Byte :=
  byteOf a.val

/-- A yes/no field (R190). -/
def yesNo (b : Bool) : Byte :=
  if b then 1 else 0

/-! ### Check byte and bucket function -/

/-- The bits of a byte, the most significant first. -/
def byteBits (b : Byte) : List Bool :=
  [b.getLsbD 7, b.getLsbD 6, b.getLsbD 5, b.getLsbD 4, b.getLsbD 3, b.getLsbD 2, b.getLsbD 1, b.getLsbD 0]

/-- One bit of a CRC: combined with the register's top bit, the register shifted left, the polynomial applied when the
combined bit is 1 (R24, R190). -/
def crcBit {w : Nat} (polynomial register : BitVec w) (bit : Bool) : BitVec w :=
  if xor bit register.msb then (register <<< 1) ^^^ polynomial else register <<< 1

/-- A CRC over bytes, from a starting value, with no final inversion. -/
def crcBytes {w : Nat} (polynomial start : BitVec w) (bytes : List Byte) : BitVec w :=
  (bytes.flatMap byteBits).foldl (crcBit polynomial) start

/-- The check byte: CRC-8 with polynomial 0x31 from 0xFF (R190). -/
def crc8 (bytes : List Byte) : Byte :=
  crcBytes 0x31 0xFF bytes

/-- The CRC-16 of the bucket function: polynomial 0x1021 from the seed, over the identity's bytes (R24). -/
def crc16 (seed : Half) (identity : Identity) : Half :=
  crcBytes 0x1021 seed (identityBytes identity)

/-- The bucket an identity selects under a seed: the low 5 bits of the CRC-16 (R24). -/
def bucketOf (seed : Half) (identity : Identity) : BucketIx :=
  Fin.ofNat 32 (crc16 seed identity).toNat

/-! ### State codes (13.3) -/

/-- The entry-state codes. -/
def EntryState.code : EntryState → Byte
  | .vacant => 0
  | .awaiting => 1
  | .offered => 2
  | .bound => 3
  | .unverified => 4
  | .lapsed => 5

/-- The address-state codes. -/
def AddrState.code : AddrState → Byte
  | .fixed => 0
  | .reserved => 1
  | .free => 2
  | .offered _ => 3
  | .bound _ => 4
  | .held _ => 5
  | .quarantined _ => 6

/-- The slot-state codes. -/
def Slot.code : Slot → Byte
  | .free => 0
  | .awaiting _ _ => 1
  | .offered _ _ => 2
  | .refused _ => 3

/-- The admission state as a byte. -/
def Admission.code : Admission → Byte
  | .opened => 0
  | .restricted => 1

/-- The action codes of the rule record (13.5). -/
def Action.code : Action → Byte
  | .allow => 0
  | .admitInRange => 1
  | .holdForHost => 2
  | .deny => 3

/-- DEFAULT_ACTION takes the action codes 0, 2 and 3 (R191). -/
def DefaultAction.code : DefaultAction → Byte
  | .allow => 0
  | .holdForHost => 2
  | .deny => 3

/-! ### Answers (13.3) -/

/-- Why a claim may be retried later (13.3). -/
inductive RetryReason where
  | approval | slots | restricted | rehash
deriving DecidableEq, Repr

/-- Why a request is denied (13.3). -/
inductive DenyReason where
  | cls | rule | host | pinned
deriving DecidableEq, Repr

/-- What is full (13.3). -/
inductive FullReason where
  | entries | bucket | descriptor | addresses
deriving DecidableEq, Repr

/-- Why a request is bad (13.3). -/
inductive BadReason where
  | check | length | kind | incomplete | argument
deriving DecidableEq, Repr

def RetryReason.code : RetryReason → Byte
  | .approval => 1
  | .slots => 2
  | .restricted => 3
  | .rehash => 4

def DenyReason.code : DenyReason → Byte
  | .cls => 1
  | .rule => 2
  | .host => 3
  | .pinned => 4

def FullReason.code : FullReason → Byte
  | .entries => 1
  | .bucket => 2
  | .descriptor => 3
  | .addresses => 4

def BadReason.code : BadReason → Byte
  | .check => 1
  | .length => 2
  | .kind => 3
  | .incomplete => 4
  | .argument => 5

/-- OK with the payload its request's row gives. -/
def Answer.ok (payload : List Byte) : Answer :=
  { code := 0x00, payload }

/-- The flags byte of an answer: REVIVED in bit 0, TRUNCATED in bit 1 (13.3). -/
def answerFlags (revived truncated : Bool) : Byte :=
  (if revived then 1 else 0) ||| (if truncated then 2 else 0)

/-- OFFER: address, token, remaining offer time, lease, flags. -/
def Answer.offer (address : Addr) (token : Byte) (ms lease : Half) (truncated : Bool) : Answer :=
  { code := 0x01, payload := [addrByte address, token] ++ halfBytes ms ++ halfBytes lease ++ [answerFlags false truncated] }

def Answer.retryLater (reason : RetryReason) (hint : Half) : Answer :=
  { code := 0x02, payload := reason.code :: halfBytes hint }

def Answer.denied (reason : DenyReason) : Answer :=
  { code := 0x03, payload := [reason.code] }

def Answer.full (reason : FullReason) : Answer :=
  { code := 0x04, payload := [reason.code] }

/-- The FULL(DESCRIPTOR) of a rejoin adds address, lease and flags; R84 names the flag REVIVED alone (log 18). -/
def Answer.fullRejoin (address : Addr) (lease : Half) (revived : Bool) : Answer :=
  { code := 0x04
    payload := [FullReason.descriptor.code, addrByte address] ++ halfBytes lease ++ [answerFlags revived false] }

def Answer.notFound : Answer :=
  { code := 0x05, payload := [] }

def Answer.mismatchClass (cls : ClassIx) : Answer :=
  { code := 0x06, payload := [1, byteOf cls.val] }

/-- MISMATCH(ADDRESS, current address), 0 for an AWAITING entry. -/
def Answer.mismatchAddress (address : Byte) : Answer :=
  { code := 0x06, payload := [2, address] }

def Answer.mismatchToken : Answer :=
  { code := 0x06, payload := [3, 0] }

def Answer.mismatchState (state : EntryState) : Answer :=
  { code := 0x06, payload := [4, state.code] }

def Answer.stale (generation : Byte) : Answer :=
  { code := 0x07, payload := [generation] }

def Answer.badRequest (reason : BadReason) : Answer :=
  { code := 0x08, payload := [reason.code] }

def Answer.busy : Answer :=
  { code := 0x0E, payload := [] }

def Answer.noAnswer : Answer :=
  { code := 0x0F, payload := [] }

/-- An answer on the bus: code, length, payload, check byte (13.3). -/
def Answer.bytes (a : Answer) : List Byte :=
  let body := a.code :: byteOf a.payload.length :: a.payload
  body ++ [crc8 body]

/-! ### Results (13.4) -/

/-- OK with the payload its command's row gives. -/
def Result.ok (payload : List Byte) : Result :=
  { code := 0x00, payload }

def Result.notFound (payload : List Byte) : Result :=
  { code := 0x01, payload }

def Result.stale (payload : List Byte) : Result :=
  { code := 0x02, payload }

def Result.full (reason : FullReason) : Result :=
  { code := 0x04, payload := [reason.code] }

def Result.bucketFull (bucket : BucketIx) : Result :=
  { code := 0x05, payload := [byteOf bucket.val] }

def Result.badArgument : Result :=
  { code := 0x06, payload := [] }

def Result.refusedState (payload : List Byte) : Result :=
  { code := 0x07, payload }

def Result.empty : Result :=
  { code := 0x08, payload := [] }

def Result.staleTag (tag : Byte) : Result :=
  { code := 0x09, payload := [tag] }

def Result.aborted (visited : Nat) : Result :=
  { code := 0x0A, payload := [byteOf visited] }

def Result.rehashOverflow (bucket : BucketIx) (entry : EntryIx) : Result :=
  { code := 0x0B, payload := [byteOf bucket.val, byteOf entry.val] }

/-- The NONE frame's code with no payload (R158). -/
def Result.none : Result :=
  { code := 0xFF, payload := [] }

/-- A result frame: code, sequence, length, payload, check byte (13.4). -/
def Result.bytes (r : Result) (sequence : Byte) : List Byte :=
  let body := r.code :: sequence :: byteOf r.payload.length :: r.payload
  body ++ [crc8 body]

/-! ### Requests (13.2, R137, R138) -/

/-- Whether a kind byte names a request kind (13.2). -/
def namesRequest (kind : Byte) : Bool :=
  0x10 ≤ kind.toNat && kind.toNat ≤ 0x18

/-- The request a kind and payload spell, none where the length is not allowed for the kind or a CLAIM's descriptor-length
byte disagrees (R137). -/
def requestOf (kind : Byte) (payload : List Byte) : Option Instr :=
  if kind = 0x10 then
    match payload with
    | i0 :: i1 :: i2 :: i3 :: i4 :: i5 :: cls :: preferred :: n :: descriptor =>
      if n.toNat = descriptor.length ∧ n.toNat ≤ 40 then
        some (.claim (identityOf [i0, i1, i2, i3, i4, i5]) cls preferred descriptor)
      else none
    | _ => none
  else if kind = 0x11 then
    match payload with
    | [i0, i1, i2, i3, i4, i5, address, token] => some (.accept (identityOf [i0, i1, i2, i3, i4, i5]) address token)
    | _ => none
  else if kind = 0x12 then
    match payload with
    | [i0, i1, i2, i3, i4, i5, address] => some (.renew (identityOf [i0, i1, i2, i3, i4, i5]) address)
    | _ => none
  else if kind = 0x13 then
    match payload with
    | [i0, i1, i2, i3, i4, i5, address] => some (.release (identityOf [i0, i1, i2, i3, i4, i5]) address)
    | _ => none
  else if kind = 0x14 then
    match payload with
    | [i0, i1, i2, i3, i4, i5] => some (.resolve (identityOf [i0, i1, i2, i3, i4, i5]))
    | _ => none
  else if kind = 0x15 then
    match payload with
    | [address] => some (.whois address)
    | _ => none
  else if kind = 0x16 then
    match payload with
    | [address, offset] => some (.describe address offset)
    | _ => none
  else if kind = 0x17 then
    match payload with
    | [cls, position, generation] => some (.enumerate cls position generation)
    | _ => none
  else if kind = 0x18 then
    match payload with
    | [] => some .query
    | _ => none
  else none

/-- The evaluation of the bytes a write leaves in the receive buffer, in the order of R138's cases 2 to 9; case 1, no byte, is
the presence probe and is settled before. -/
def evaluateRequest (bytes : List Byte) (overflow : Bool) : Except BadReason Instr :=
  if overflow then .error .length
  else match bytes with
    | kind :: length :: rest =>
      if rest = [] then .error .incomplete
      else if bytes.length < length.toNat + 3 then .error .incomplete
      else if length.toNat + 3 < bytes.length then .error .length
      else if bytes.getLastD 0 ≠ crc8 bytes.dropLast then .error .check
      else if namesRequest kind = false then .error .kind
      else match requestOf kind rest.dropLast with
        | some request => .ok request
        | none => .error .length
    | _ => .error .incomplete

/-! ### Command frames (13.5, R153) -/

/-- What a good command frame asks for: an operation of the engine, or RESET CLEAR, which submits none (R155). -/
inductive HostBody where
  | operation (command : Instr)
  | resetClear
deriving DecidableEq, Repr

/-- The command a code and its arguments spell, none where the code names no command or the length is not allowed for it
(13.5). -/
def commandOf (code : Byte) (arguments : List Byte) : Option HostBody :=
  if code = 0x01 then
    match arguments with
    | [index] => some (.operation (.readEntry index))
    | _ => none
  else if code = 0x02 then
    match arguments with
    | [i0, i1, i2, i3, i4, i5] => some (.operation (.findIdentity (identityOf [i0, i1, i2, i3, i4, i5])))
    | _ => none
  else if code = 0x03 then
    match arguments with
    | [bucket] => some (.operation (.readBucket bucket))
    | _ => none
  else if code = 0x04 then
    match arguments with
    | i0 :: i1 :: i2 :: i3 :: i4 :: i5 :: cls :: address :: pinned :: l0 :: l1 :: n :: descriptor =>
      if descriptor.length ≤ 40 then
        some (.operation (.insert (identityOf [i0, i1, i2, i3, i4, i5]) cls address pinned (halfOf [l0, l1]) n descriptor))
      else none
    | _ => none
  else if code = 0x05 then
    match arguments with
    | index :: generation :: selection :: cls :: pinned :: l0 :: l1 :: address :: n :: descriptor =>
      if descriptor.length ≤ 40 then
        some (.operation (.modify index generation selection cls pinned (halfOf [l0, l1]) address n descriptor))
      else none
    | _ => none
  else if code = 0x06 then
    match arguments with
    | [index, generation, freeNow] => some (.operation (.retire index generation freeNow))
    | _ => none
  else if code = 0x07 then
    match arguments with
    | [address] => some (.operation (.readAddress address))
    | _ => none
  else if code = 0x08 then
    match arguments with
    | [address] => some (.operation (.reserve address))
    | _ => none
  else if code = 0x09 then
    match arguments with
    | [address] => some (.operation (.unreserve address))
    | _ => none
  else if code = 0x0A then
    match arguments with
    | [address] => some (.operation (.unquarantine address))
    | _ => none
  else if code = 0x0B then
    match arguments with
    | [position] => some (.operation (.readQuarantine position))
    | _ => none
  else if code = 0x0C then
    match arguments with
    | [slot] => some (.operation (.readSlot slot))
    | _ => none
  else if code = 0x0D then
    match arguments with
    | [slot, generation, address] => some (.operation (.approve slot generation address))
    | _ => none
  else if code = 0x0E then
    match arguments with
    | [slot, generation] => some (.operation (.deny slot generation))
    | _ => none
  else if code = 0x0F then
    match arguments with
    | [cls] => some (.operation (.readClass cls))
    | _ => none
  else if code = 0x10 then
    match arguments with
    | [cls, enabled, l0, l1, h0, h1] => some (.operation (.writeClass cls enabled (halfOf [l0, l1]) (halfOf [h0, h1])))
    | _ => none
  else if code = 0x11 then
    match arguments with
    | [cls, position] => some (.operation (.readClassList cls position))
    | _ => none
  else if code = 0x12 then
    match arguments with
    | [rule] => some (.operation (.readRule rule))
    | _ => none
  else if code = 0x13 then
    match arguments with
    | [rule, valid, i0, i1, i2, i3, i4, i5, length, classMatch, action, low, high, o0, o1, priority] =>
      some (.operation (.writeRule rule valid (identityOf [i0, i1, i2, i3, i4, i5]) length classMatch action low high
        (halfOf [o0, o1]) priority))
    | _ => none
  else if code = 0x14 then
    match arguments with
    | [identifier] => some (.operation (.readParameter identifier))
    | _ => none
  else if code = 0x15 then
    match arguments with
    | [identifier, v0, v1] => some (.operation (.writeParameter identifier (halfOf [v0, v1])))
    | _ => none
  else if code = 0x16 then
    match arguments with
    | [] => some (.operation .readAuthority)
    | _ => none
  else if code = 0x17 then
    match arguments with
    | [] => some (.operation .nextChange)
    | _ => none
  else if code = 0x18 then
    match arguments with
    | [tag] => some (.operation (.ackAlert tag))
    | _ => none
  else if code = 0x19 then
    match arguments with
    | [] => some (.operation .readAlert)
    | _ => none
  else if code = 0x1A then
    match arguments with
    | [s0, s1] => some (.operation (.rehash (halfOf [s0, s1])))
    | _ => none
  else if code = 0x1B then
    match arguments with
    | [] => some (.operation .abort)
    | _ => none
  else if code = 0x1C then
    match arguments with
    | [] => some (.operation .resetKeep)
    | _ => none
  else if code = 0x1D then
    match arguments with
    | [] => some .resetClear
    | _ => none
  else none

/-- A good command frame: its sequence byte and what it asks for. -/
structure HostFrame where
  sequence : Byte
  body : HostBody
deriving DecidableEq, Repr

/-- The checks of a command frame at the CS# rise, in the order of R153; none is a frame error. -/
def checkFrame (bytes : List Byte) (overflow : Bool) : Option HostFrame :=
  match bytes with
  | code :: sequence :: length :: rest =>
    if rest = [] ∨ overflow = true ∨ bytes.length ≠ length.toNat + 4 ∨ bytes.getLastD 0 ≠ crc8 bytes.dropLast then none
    else (commandOf code rest.dropLast).map fun body => { sequence, body }
  | _ => none

/-- The kind of transaction that the first byte names (13.4, R150). -/
def kindOf (first : Byte) : TransactionKind :=
  if first = 0xC1 then .command
  else if first = 0xC2 then .readResult
  else if first = 0xC3 then .readStatus
  else .unknown

end Sys2Proof.Machine
end

