-- ==== Sys2Proof/Machine/Ops.lean ====
section
/-! DEFINITION. The named operations over table state that the rows share: authority time, the ordered collections, the
index, descriptors, leases, taking and retiring an entry, lapses, address choice, admission. -/

namespace Sys2Proof.Machine

/-! ### Authority time (R61, R62) -/

/-- A deadline is due at a time when (time − deadline) mod 2^32 is below 2^31 (R61). -/
def due (now deadline : Time) : Bool :=
  (now - deadline).toNat < 2 ^ 31

/-- The remaining time of a deadline, in milliseconds, 0 when due (R61). -/
def remaining (now deadline : Time) : Nat :=
  if due now deadline then 0 else (deadline - now).toNat

/-- A is earlier than B when (B − A) mod 2^32 lies in 1..2^31 − 1 (R45, R61). -/
def earlier (a b : Time) : Bool :=
  1 ≤ (b - a).toNat && (b - a).toNat < 2 ^ 31

/-- Remaining time in seconds, rounded up and capped at 65534 (R61). -/
def remainingSeconds (now deadline : Time) : Half :=
  BitVec.ofNat 16 (min 65534 ((remaining now deadline + 999) / 1000))

/-- Remaining time as a two-byte count of milliseconds: hints and offer times. -/
def remainingHalf (now deadline : Time) : Half :=
  BitVec.ofNat 16 (remaining now deadline)

/-- Remaining time as four bytes of milliseconds, in host results (R190). -/
def remainingBytes (now deadline : Time) : List Byte :=
  beBytes 4 (remaining now deadline)

/-- A duration in seconds as a deadline (R62). -/
def afterSeconds (now : Time) (seconds : Half) : Time :=
  now + BitVec.ofNat 32 (seconds.toNat * 1000)

/-- A duration in milliseconds as a deadline (R62). -/
def afterMs (now : Time) (ms : Half) : Time :=
  now + BitVec.ofNat 32 ms.toNat

/-- A lease duration as an OFFER answer carries it, capped at 65534 (R85, R90). -/
def cappedLease (lease : Half) : Half :=
  BitVec.ofNat 16 (min 65534 lease.toNat)

/-! ### Ordered collections -/

/-- The insert rule of R45 and R68: directly behind the last item that qualifies, at the head when none does. -/
def insertBehind {α : Type} (qualifies : α → Bool) (x : α) : List α → List α
  | [] => [x]
  | y :: ys => if (y :: ys).any qualifies then y :: insertBehind qualifies x ys else x :: y :: ys

/-- A set of indices in ascending order, with one more member. -/
def insertAscending {n : Nat} (x : Fin n) : List (Fin n) → List (Fin n)
  | [] => [x]
  | y :: ys => if x < y then x :: y :: ys else if x = y then y :: ys else y :: insertAscending x ys

/-- The owner of an item (R67). -/
def ItemKind.owner : ItemKind → Owner
  | .offer i | .lease i | .revalidate i | .hold i => .entry i
  | .approval j | .refusal j => .slot j

/-- The kinds that a REHASH run defers (R36). -/
def ItemKind.deferred : ItemKind → Bool
  | .offer _ | .approval _ | .hold _ | .refusal _ => true
  | .lease _ | .revalidate _ => false

/-! ### Fields of an entry (R1) -/

/-- The state of an entry. -/
def EntryLife.state : EntryLife → EntryState
  | .vacant => .vacant
  | .awaiting _ => .awaiting
  | .offered _ _ _ _ => .offered
  | .bound _ _ _ => .bound
  | .unverified _ _ _ => .unverified
  | .lapsed _ _ _ => .lapsed

/-- The address, present in OFFERED, BOUND, UNVERIFIED, LAPSED. -/
def EntryLife.address : EntryLife → Option Addr
  | .offered _ a _ _ | .bound a _ _ | .unverified a _ _ | .lapsed a _ _ => some a
  | .vacant | .awaiting _ => none

/-- The slot, present in AWAITING and OFFERED. -/
def EntryLife.slot : EntryLife → Option SlotIx
  | .awaiting j | .offered j _ _ _ => some j
  | .vacant | .bound _ _ _ | .unverified _ _ _ | .lapsed _ _ _ => none

/-- The lease duration, present where the address is. -/
def EntryLife.lease : EntryLife → Option Half
  | .offered _ _ l _ | .bound _ l _ | .unverified _ l _ | .lapsed _ l _ => some l
  | .vacant | .awaiting _ => none

/-- The deadline, present in OFFERED, unpinned BOUND, UNVERIFIED, LAPSED. -/
def EntryLife.deadline : EntryLife → Option Time
  | .offered _ _ _ d | .unverified _ _ d | .lapsed _ _ d => some d
  | .bound _ _ d => d
  | .vacant | .awaiting _ => none

/-- Pinned: BOUND without a lease (R76). -/
def EntryLife.pinned : EntryLife → Bool
  | .bound _ _ none => true
  | _ => false

/-- VACANT. -/
def EntryLife.isVacant : EntryLife → Bool
  | .vacant => true
  | _ => false

/-! ### Reading and writing records -/

namespace Table

def entry (t : Table) (i : EntryIx) : Entry :=
  t.entries.get i

def setEntry (t : Table) (i : EntryIx) (e : Entry) : Table :=
  { t with entries := t.entries.set i e }

def setLife (t : Table) (i : EntryIx) (life : EntryLife) : Table :=
  t.setEntry i { t.entry i with life }

def addr (t : Table) (a : Addr) : AddrState :=
  t.map.get a

def setAddr (t : Table) (a : Addr) (s : AddrState) : Table :=
  { t with map := t.map.set a s }

def slot (t : Table) (j : SlotIx) : Slot :=
  t.slots.get j

def setSlot (t : Table) (j : SlotIx) (s : Slot) : Table :=
  { t with slots := t.slots.set j s }

def classRecord (t : Table) (c : ClassIx) : ClassRecord :=
  t.classes.get c

def setClass (t : Table) (c : ClassIx) (r : ClassRecord) : Table :=
  { t with classes := t.classes.set c r }

def bucket (t : Table) (b : BucketIx) : List EntryIx :=
  t.index.get b

def setBucket (t : Table) (b : BucketIx) (l : List EntryIx) : Table :=
  { t with index := t.index.set b l }

/-- Adds an index to the change set; an index already present leaves it as it was (R173). -/
def addChange (t : Table) (i : EntryIx) : Table :=
  { t with changeSet := insertAscending i t.changeSet }

/-! ### Counts and searches -/

/-- The lowest-numbered VACANT entry (R8). -/
def lowestVacant (t : Table) : Option EntryIx :=
  (List.finRange 96).find? fun i => (t.entry i).life.isVacant

/-- The lowest-numbered FREE slot (R80). -/
def lowestFreeSlot (t : Table) : Option SlotIx :=
  (List.finRange 4).find? fun j => t.slot j = .free

/-- The vacant-entry count (R112). -/
def vacantCount (t : Table) : Nat :=
  (List.finRange 96).countP fun i => (t.entry i).life.isVacant

/-- The count of entries in a state (R168). -/
def countEntries (t : Table) (s : EntryState) : Nat :=
  (List.finRange 96).countP fun i => (t.entry i).life.state = s

/-- The count of addresses whose state has a code (R126, R168). -/
def countAddrs (t : Table) (code : Byte) : Nat :=
  (List.finRange 128).countP fun a => (t.addr a).code = code

/-- The count of slots whose state has a code (R80, R168). -/
def countSlots (t : Table) (code : Byte) : Nat :=
  (List.finRange 4).countP fun j => (t.slot j).code = code

/-- The free extension blocks, in ascending number (R15, R16). -/
def freeBlocks (t : Table) : List BlockIx :=
  (List.finRange 40).filter fun b => (t.pool.get b).isNone

/-- Lookup by identity (R27): the entry of the identity's bucket that holds the identity. An entry that holds nothing is not
found, even when its record still carries the identity. -/
def lookup (t : Table) (identity : Identity) : Option EntryIx :=
  (t.bucket (bucketOf t.seed identity)).find? fun i =>
    !(t.entry i).life.isVacant && (t.entry i).identity = identity

/-- The REFUSED slot that holds an identity (R82). -/
def refusedSlot (t : Table) (identity : Identity) : Option SlotIx :=
  (List.finRange 4).find? fun j =>
    match t.slot j with
    | .refused c => c.identity = identity
    | _ => false

/-- The depth of the deepest bucket of an index (R31, R33). -/
def depth (index : Vector (List EntryIx) 32) : Nat :=
  index.toList.foldl (fun d b => max d b.length) 0

/-! ### Deadline list (R68, R69) and quarantine queue (R45, R46) -/

/-- Insert: behind the last item whose deadline is not later (R68). -/
def placeItem (t : Table) (item : DeadlineItem) : Table :=
  { t with deadlines := insertBehind (fun x => !earlier item.deadline x.deadline) item t.deadlines }

/-- Remove the owner's item; the items behind close up (R68). -/
def removeItem (t : Table) (owner : Owner) : Table :=
  { t with deadlines := t.deadlines.filter fun x => x.kind.owner ≠ owner }

/-- Move: the owner's item is removed and inserted afresh (R68). -/
def moveItem (t : Table) (item : DeadlineItem) : Table :=
  (t.removeItem item.kind.owner).placeItem item

/-- An address joins the quarantine queue, with its end time copied into its record (R44, R45). -/
def quarantineAddr (t : Table) (a : Addr) (endTime : Time) : Table :=
  { t.setAddr a (.quarantined endTime) with
    quarantine := insertBehind (fun x => !earlier endTime x.endTime) { address := a, endTime } t.quarantine }

/-- An address leaves the quarantine queue from any position for another state (R46). -/
def unqueueAddr (t : Table) (a : Addr) (s : AddrState) : Table :=
  { t.setAddr a s with quarantine := t.quarantine.filter fun x => x.address ≠ a }

/-- An address that was in use is released: FREE with the free-now flag or when QUARANTINE_TIME is 0, else quarantined (R14, R43). -/
def releaseAddr (t : Table) (now : Time) (freeNow : Bool) (a : Addr) : Table :=
  if freeNow || t.params.quarantineTime = 0 then t.setAddr a .free
  else t.quarantineAddr a (afterSeconds now t.params.quarantineTime)

/-! ### Class lists (R123) -/

/-- Append at the tail of a class list; the class generation advances. -/
def appendMember (t : Table) (c : ClassIx) (i : EntryIx) : Table :=
  let r := t.classRecord c
  t.setClass c { r with members := r.members ++ [i], generation := r.generation + 1 }

/-- Removal from a class list; the class generation advances. -/
def removeMember (t : Table) (c : ClassIx) (i : EntryIx) : Table :=
  let r := t.classRecord c
  t.setClass c { r with members := r.members.filter (· ≠ i), generation := r.generation + 1 }

/-! ### Descriptors (R16 to R18) -/

/-- The blocks a descriptor of a length needs (R16). -/
def blocksNeeded (length : Nat) : Nat :=
  if length ≤ 8 then 0 else if length ≤ 24 then 1 else 2

/-- What is stored of a descriptor when `available` blocks can be used: all of it, or its first bytes with the truncated flag,
or nothing at all with TRUNCATE_DESCRIPTORS off (R17, R18). -/
def fitDescriptor (truncate : Bool) (available : Nat) (descriptor : List Byte) : Option (List Byte × Bool) :=
  if blocksNeeded descriptor.length ≤ available then some (descriptor, false)
  else if truncate then some (descriptor.take (8 + 16 * available), true)
  else none

/-- The descriptor of an entry, assembled from the inline bytes and its blocks in list order (R16). -/
def descriptor (t : Table) (i : EntryIx) : List Byte :=
  (t.entry i).inlineBytes ++ (t.entry i).blocks.flatMap fun b => (t.pool.get b).getD []

/-- Blocks turn free, their contents with them (R15). -/
def emptyBlocks (pool : Vector (Option (List Byte)) 40) : List BlockIx → Vector (Option (List Byte)) 40
  | [] => pool
  | b :: bs => emptyBlocks (pool.set b none) bs

/-- The entry's blocks return to the pool, free at once, and no descriptor byte is left (R14, R15, R18). -/
def dropDescriptor (t : Table) (i : EntryIx) : Table :=
  let e := t.entry i
  { t with pool := emptyBlocks t.pool e.blocks }.setEntry i
    { e with inlineBytes := [], blocks := [], truncated := false }

/-- Stores the bytes beyond the eighth in the listed blocks, 16 to a block, in list order (R16). -/
def fillBlocks (pool : Vector (Option (List Byte)) 40) : List BlockIx → List Byte → Vector (Option (List Byte)) 40
  | [], _ => pool
  | b :: bs, bytes => fillBlocks (pool.set b (some (bytes.take 16))) bs (bytes.drop 16)

/-- Stores a descriptor that fits, in the lowest-numbered free blocks (R16, R17). -/
def storeDescriptor (t : Table) (i : EntryIx) (bytes : List Byte) (truncated : Bool) : Table :=
  let blocks := t.freeBlocks.take (blocksNeeded bytes.length)
  { t with pool := fillBlocks t.pool blocks (bytes.drop 8) }.setEntry i
    { t.entry i with inlineBytes := bytes.take 8, blocks, truncated }

/-- What a replacement of an entry's descriptor would store, its own blocks counted as free (R18). -/
def fitReplacement (t : Table) (i : EntryIx) (bytes : List Byte) : Option (List Byte × Bool) :=
  fitDescriptor t.params.truncateDescriptors ((t.entry i).blocks.length + t.freeBlocks.length) bytes

/-- Replaces an entry's descriptor by what fits; the index joins the change set when stored bytes or flag differ (R18). -/
def replaceDescriptor (t : Table) (i : EntryIx) (bytes : List Byte) (truncated : Bool) : Table :=
  let stored := (t.dropDescriptor i).storeDescriptor i bytes truncated
  if t.descriptor i = bytes ∧ (t.entry i).truncated = truncated then stored else stored.addChange i

/-! ### Admission state (R112, R113) -/

/-- The evaluation at the end of an operation that changed the vacant-entry count, and of a watermark write (R113, R114). -/
def evaluateAdmission (t : Table) : Table :=
  match t.admission with
  | .opened => if t.vacantCount < t.params.lowMark.toNat then { t with admission := .restricted } else t
  | .restricted => if t.params.highMark.toNat ≤ t.vacantCount then { t with admission := .opened } else t

/-! ### Taking, leasing, lapsing, retiring -/

/-- Taking an entry (R8): generation, identity, class, renew count, descriptor, bucket, change set. The target state is given by
the caller (R9). -/
def takeEntry (t : Table) (i : EntryIx) (identity : Identity) (cls : ClassIx) (life : EntryLife) (bytes : List Byte)
    (truncated : Bool) : Table :=
  let e := t.entry i
  let taken := t.setEntry i { e with life, generation := e.generation + 1, identity, cls, renewCount := 0 }
  let stored := taken.storeDescriptor i bytes truncated
  let b := bucketOf t.seed identity
  (stored.setBucket b (insertAscending i (stored.bucket b))).addChange i

/-- A lease start (R5): BOUND with the deadline now plus the lease duration, and the LEASE item in its place. -/
def startLease (t : Table) (now : Time) (i : EntryIx) (a : Addr) (lease : Half) : Table :=
  let deadline := afterSeconds now lease
  (t.setLife i (.bound a lease (some deadline))).moveItem { kind := .lease i, deadline }

/-- Retiring an entry (R14), whatever the cause: its bucket, class list, deadline item, slot, address, descriptor and change set.
A slot turns FREE; DENY makes it REFUSED afterwards (R10). -/
def retireEntry (t : Table) (now : Time) (freeNow : Bool) (i : EntryIx) : Table :=
  let e := t.entry i
  let b := bucketOf t.seed e.identity
  let unindexed := t.setBucket b ((t.bucket b).filter (· ≠ i))
  let released :=
    match e.life with
    | .vacant => unindexed
    | .awaiting j => (unindexed.setSlot j .free).removeItem (.slot j)
    | .offered j a _ _ => (unindexed.setSlot j .free).setAddr a .free
    | .bound a _ _ | .unverified a _ _ => (unindexed.removeMember e.cls i).releaseAddr now freeNow a
    | .lapsed a _ _ => unindexed.releaseAddr now freeNow a
  (((released.removeItem (.entry i)).dropDescriptor i).setLife i .vacant).addChange i

/-- Retiring an entry as the whole of an operation's change of the vacant-entry count (R14, R113). -/
def retireAndEvaluate (t : Table) (now : Time) (freeNow : Bool) (i : EntryIx) : Table :=
  (t.retireEntry now freeNow i).evaluateAdmission

/-- A lapse (R12, R72, R73): the entry leaves its class list and becomes LAPSED with its address HELD, or is retired at once when
the class hold time is 0 outside a REHASH run (R37). -/
def lapseEntry (t : Table) (now : Time) (i : EntryIx) (a : Addr) (lease : Half) : Table :=
  let c := (t.entry i).cls
  let hold := (t.classRecord c).hold
  let deadline := afterSeconds now hold
  let lapsed := ((t.removeMember c i).setLife i (.lapsed a lease deadline)).setAddr a (.held i)
  if hold = 0 ∧ t.run = none then lapsed.retireAndEvaluate now false i
  else (lapsed.moveItem { kind := .hold i, deadline }).addChange i

/-- What RENEW and a rejoin CLAIM do to the lease and state of a BOUND, UNVERIFIED or LAPSED entry (R12, R13, R83, R128), and
whether it was revived. -/
def renewLease (t : Table) (now : Time) (i : EntryIx) : Table × Bool :=
  match (t.entry i).life with
  | .bound a lease (some _) => (t.startLease now i a lease, false)
  | .unverified a lease _ => ((t.startLease now i a lease).addChange i, false)
  | .lapsed a lease _ =>
    ((((t.startLease now i a lease).setAddr a (.bound i)).appendMember (t.entry i).cls i).addChange i, true)
  | _ => (t, false)

/-- The renew count advances by 1 and stops at 255 (R4). -/
def countRenewal (t : Table) (i : EntryIx) : Table :=
  let e := t.entry i
  t.setEntry i { e with renewCount := if e.renewCount = 255 then 255 else e.renewCount + 1 }

/-- The lease an answer carries for an entry: the remaining time in seconds, 0xFFFF when pinned (R61). -/
def leaseSeconds (t : Table) (now : Time) (i : EntryIx) : Half :=
  match (t.entry i).life.deadline with
  | some d => remainingSeconds now d
  | none => 0xFFFF

/-! ### Address choice (R49 to R51) -/

/-- An address lies within an allowed range. -/
def inRange (low high a : Addr) : Bool :=
  low ≤ a && a ≤ high

/-- Steps 1 to 4 of R50: the preference (none at APPROVE), the lowest FREE address, early reuse, or none. -/
def chooseAddr (t : Table) (low high : Addr) (preferred : Option Addr) : Option Addr :=
  let preference := preferred.filter fun a => a ≠ 0 && inRange low high a && t.addr a = .free
  let lowest := (List.finRange 128).find? fun a => inRange low high a && t.addr a = .free
  let reuse := if t.params.earlyReuse then (t.quarantine.map (·.address)).find? (inRange low high) else none
  (preference.or lowest).or reuse

/-- A chosen address turns OFFERED and names its entry; an early-reused one leaves the queue (R51, R53). -/
def offerAddr (t : Table) (a : Addr) (i : EntryIx) : Table :=
  t.unqueueAddr a (.offered i)

/-- The lease duration fixed when an entry enters OFFERED or is inserted: the override or argument when nonzero, otherwise the
class lease time in force (R5). -/
def fixedLease (t : Table) (cls : ClassIx) (override : Half) : Half :=
  if override = 0 then (t.classRecord cls).lease else override

end Table

/-! ### Admission verdict (R104 to R107) -/

/-- The verdict of a new claim (R106). -/
structure Verdict where
  action : Action
  low : Addr
  high : Addr
  override : Half
  priority : Bool
deriving DecidableEq, Repr

/-- The leading bits of two identities are equal (R105). -/
def leadingBitsEqual (length : Nat) (a b : Identity) : Bool :=
  a >>> (48 - length) = b >>> (48 - length)

/-- A valid admission rule matches a claim's identity and class (R105). -/
def AdmissionRule.matchesClaim (r : AdmissionRule) (identity : Identity) (cls : ClassIx) : Bool :=
  leadingBitsEqual r.prefixLength r.value identity && (r.classMatch = none || r.classMatch = some cls)

/-- The verdict a deciding admission rule gives (R106): its range counts for ADMIT_IN_RANGE alone. -/
def AdmissionRule.verdict (r : AdmissionRule) : Verdict :=
  if r.action = .admitInRange then
    { action := r.action, low := r.low, high := r.high, override := r.override, priority := r.priority }
  else
    { action := r.action, low := Config.lowestAddress, high := Config.highestAddress, override := r.override
      priority := r.priority }

/-- DEFAULT_ACTION as an action (R107). -/
def DefaultAction.action : DefaultAction → Action
  | .allow => .allow
  | .holdForHost => .holdForHost
  | .deny => .deny

/-- The verdict when no valid admission rule matches (R107). -/
def DefaultAction.verdict (d : DefaultAction) : Verdict :=
  { action := d.action, low := Config.lowestAddress, high := Config.highestAddress, override := 0, priority := false }

/-- The admission verdict of a new claim: the first valid admission rule that matches, in ascending number, or the default
(R106, R107). -/
def Table.verdict (t : Table) (identity : Identity) (cls : ClassIx) : Verdict :=
  match (t.rules.toList.filterMap id).find? fun r => r.matchesClaim identity cls with
  | some r => r.verdict
  | none => t.params.defaultAction.verdict

end Sys2Proof.Machine
end

