-- ==== Sys2Proof/Machine/Operands.lean ====
section
/-! DEFINITION. The operand forms of requests and commands: indices, addresses, yes/no fields, classes, actions, guards; and the
records and causes that results carry. -/

namespace Sys2Proof.Machine

/-! ### Arguments -/

/-- A one-byte argument as an index below `n`: none where it is out of range. -/
def indexOf (n : Nat) (b : Byte) : Option (Fin n) :=
  if h : b.toNat < n then some ⟨b.toNat, h⟩ else none

/-- A short address argument: none above 0x7F. -/
def addrOf (b : Byte) : Option Addr :=
  indexOf 128 b

/-- A yes/no argument: none unless 0 or 1 (R190). -/
def yesNoOf (b : Byte) : Option Bool :=
  if b = 0 then some false else if b = 1 then some true else none

/-- The class match of an admission rule: 0xFF is ANY, any other value above 15 is refused (R190). -/
def classMatchOf (b : Byte) : Option (Option ClassIx) :=
  if b = 0xFF then some none else (indexOf 16 b).map some

/-- The action of an admission rule (13.5). -/
def actionOf (b : Byte) : Option Action :=
  match b.toNat with
  | 0 => some .allow
  | 1 => some .admitInRange
  | 2 => some .holdForHost
  | 3 => some .deny
  | _ => none

/-- The value of DEFAULT_ACTION: the action codes 0, 2 and 3 (R191). -/
def defaultActionOf (v : Half) : Option DefaultAction :=
  match v.toNat with
  | 0 => some .allow
  | 2 => some .holdForHost
  | 3 => some .deny
  | _ => none

/-- An off/on value (R191). -/
def offOnOf (v : Half) : Option Bool :=
  if v = 0 then some false else if v = 1 then some true else none

/-- The five enables of ALERT_MASK from a value 0..31 (R191). -/
def causesOf (v : Half) : Option Causes :=
  if v.toNat < 32 then
    some { changes := v.getLsbD 0, approval := v.getLsbD 1, admission := v.getLsbD 2, busFault := v.getLsbD 3
           done := v.getLsbD 4 }
  else none

/-- The range an admission rule may hold: 0x08 ≤ low ≤ high ≤ 0x77 (R104, R109). -/
def ruleRangeOf (low high : Byte) : Option (Addr × Addr) :=
  match addrOf low, addrOf high with
  | some l, some h => if Config.lowestAddress ≤ l ∧ l ≤ h ∧ h ≤ Config.highestAddress then some (l, h) else none
  | _, _ => none

/-! ### Codes and bits of records -/

/-- The bit positions of the causes (R191). -/
def Causes.bits (c : Causes) : Byte :=
  (if c.changes then 1 else 0) ||| (if c.approval then 2 else 0) ||| (if c.admission then 4 else 0) |||
    (if c.busFault then 8 else 0) ||| (if c.done then 16 else 0)

/-- The class match as a byte (R190). -/
def classMatchByte : Option ClassIx → Byte
  | none => 0xFF
  | some c => byteOf c.val

/-- The entry an address names, in OFFERED, BOUND and HELD (R40). -/
def AddrState.entry : AddrState → Option EntryIx
  | .offered i | .bound i | .held i => some i
  | .fixed | .reserved | .free | .quarantined _ => none

/-- The record of an occupied slot (R78). -/
def Slot.claim : Slot → Option SlotClaim
  | .free => none
  | .awaiting c _ | .offered c _ | .refused c => some c

/-- The entry a slot names, in AWAITING and OFFERED (R78, R79). -/
def Slot.entry : Slot → Option EntryIx
  | .awaiting _ i | .offered _ i => some i
  | .free | .refused _ => none

/-- AWAITING. -/
def Slot.isAwaiting : Slot → Bool
  | .awaiting _ _ => true
  | _ => false

/-- An optional index as a byte, 0 where absent (R190). -/
def indexByte {n : Nat} (i : Option (Fin n)) : Byte :=
  (i.map fun k => byteOf k.val).getD 0

namespace Table

/-- The generation of the entry an optional index names, 0 where absent. -/
def generationOf (t : Table) (i : Option EntryIx) : Byte :=
  (i.map fun k => (t.entry k).generation).getD 0

/-- The entry record that READ ENTRY and NEXT CHANGE return (13.6): absent fields are zero. -/
def entryRecord (t : Table) (now : Time) (i : EntryIx) : List Byte :=
  let e := t.entry i
  let bytes := t.descriptor i
  [byteOf i.val, e.life.state.code, e.generation] ++ identityBytes e.identity ++
  [byteOf e.cls.val, indexByte e.life.address, indexByte e.life.slot,
    (if e.life.pinned then 1 else 0) ||| (if e.truncated then 2 else 0)] ++
  halfBytes (e.life.lease.getD 0) ++ timeBytes (e.life.deadline.getD 0) ++
  beBytes 4 ((e.life.deadline.map (remaining now)).getD 0) ++
  [e.renewCount, byteOf bytes.length, byteOf e.blocks.length, indexByte e.blocks[0]?, indexByte e.blocks[1]?] ++
  bytes ++ List.replicate (40 - bytes.length) 0

/-- The rule record (13.5): an invalid admission rule reads as zeros (R104). -/
def ruleRecord (t : Table) (r : RuleIx) : List Byte :=
  match t.rules.get r with
  | none => byteOf r.val :: List.replicate 15 0
  | some a =>
    [byteOf r.val, 1] ++ identityBytes a.value ++
    [byteOf a.prefixLength.val, classMatchByte a.classMatch, a.action.code, addrByte a.low, addrByte a.high] ++
    halfBytes a.override ++ [yesNo a.priority]

/-- The fields of a class that WRITE CLASS writes, as its result and READ CLASS carry them (R64, R65). -/
def classFields (t : Table) (c : ClassIx) : List Byte :=
  let r := t.classRecord c
  [byteOf c.val, yesNo r.enabled] ++ halfBytes r.lease ++ halfBytes r.hold

/-- IN_USE caused by an identity (13.4): the entry's address and that address's state, 0 for an AWAITING entry (log 19). -/
def inUseIdentity (t : Table) (i : EntryIx) : Result :=
  let a := (t.entry i).life.address
  { code := 0x03
    payload := [1, indexByte a, (a.map fun k => (t.addr k).code).getD 0, byteOf i.val, (t.entry i).generation] }

/-- IN_USE caused by an address (13.4): the entry fields are those of the entry the address names, or 0. -/
def inUseAddr (t : Table) (a : Addr) : Result :=
  let i := (t.addr a).entry
  { code := 0x03, payload := [2, addrByte a, (t.addr a).code, indexByte i, t.generationOf i] }

/-- REFUSED_STATE of an address command: the address, then its state code (13.4). -/
def refusedAddr (t : Table) (a : Addr) : Result :=
  Result.refusedState [addrByte a, (t.addr a).code]

/-! ### Guards -/

/-- The guard of a command on a named entry, in the order of R6. -/
def guardEntry (t : Table) (index generation : Byte) : Except Result EntryIx :=
  match indexOf 96 index with
  | none => .error .badArgument
  | some i =>
    let e := t.entry i
    if e.life.isVacant then .error (.notFound [])
    else if e.generation ≠ generation then .error (.stale [e.generation])
    else .ok i

/-- The guard of APPROVE and DENY, in the order of R96: the slot with its claim and entry. -/
def guardSlot (t : Table) (slot generation : Byte) : Except Result (SlotIx × SlotClaim × EntryIx) :=
  match indexOf 4 slot with
  | none => .error .badArgument
  | some j =>
    match t.slot j with
    | .awaiting c i =>
      if (t.entry i).generation ≠ generation then .error (.stale [byteOf i.val, (t.entry i).generation])
      else .ok (j, c, i)
    | other => .error (.refusedState [other.code])

end Table

/-! ### Global parameters (R169 to R172, R191) -/

/-- The global parameters by identifier (R191). -/
inductive Param where
  | offerTime | approvalTime | quarantineTime | revalidateTime | lowMark | highMark | coalesceCount | coalesceTime
  | stretchLimit | alertMask | earlyReuse | truncateDescriptors | defaultAction
deriving DecidableEq, Repr

/-- The parameter an identifier names (R191). -/
def paramOf (identifier : Byte) : Option Param :=
  match identifier.toNat with
  | 0x01 => some .offerTime
  | 0x02 => some .approvalTime
  | 0x03 => some .quarantineTime
  | 0x04 => some .revalidateTime
  | 0x05 => some .lowMark
  | 0x06 => some .highMark
  | 0x07 => some .coalesceCount
  | 0x08 => some .coalesceTime
  | 0x09 => some .stretchLimit
  | 0x0A => some .alertMask
  | 0x0B => some .earlyReuse
  | 0x0C => some .truncateDescriptors
  | 0x0D => some .defaultAction
  | _ => none

/-- The value of a parameter as its two bytes carry it (R191). -/
def Params.value (p : Params) : Param → Half
  | .offerTime => p.offerTime
  | .approvalTime => p.approvalTime
  | .quarantineTime => p.quarantineTime
  | .revalidateTime => p.revalidateTime
  | .lowMark => p.lowMark
  | .highMark => p.highMark
  | .coalesceCount => p.coalesceCount
  | .coalesceTime => p.coalesceTime
  | .stretchLimit => p.stretchLimit
  | .alertMask => p.alertMask.bits.zeroExtend 16
  | .earlyReuse => if p.earlyReuse then 1 else 0
  | .truncateDescriptors => if p.truncateDescriptors then 1 else 0
  | .defaultAction => p.defaultAction.code.zeroExtend 16

/-- A write of a parameter, none where the value is outside the range of R169 or a watermark disagrees with the other one in
force (R112, R170). -/
def Params.write (p : Params) (which : Param) (v : Half) : Option Params :=
  let n := v.toNat
  match which with
  | .offerTime => if 50 ≤ n ∧ n ≤ 5000 then some { p with offerTime := v } else none
  | .approvalTime => if 100 ≤ n ∧ n ≤ 60000 then some { p with approvalTime := v } else none
  | .quarantineTime => if n ≤ 3600 then some { p with quarantineTime := v } else none
  | .revalidateTime => if 1 ≤ n ∧ n ≤ 3600 then some { p with revalidateTime := v } else none
  | .lowMark => if n ≤ 96 ∧ n ≤ p.highMark.toNat then some { p with lowMark := v } else none
  | .highMark => if n ≤ 96 ∧ p.lowMark.toNat ≤ n then some { p with highMark := v } else none
  | .coalesceCount => if 1 ≤ n ∧ n ≤ 96 then some { p with coalesceCount := v } else none
  | .coalesceTime => if n ≤ 1000 then some { p with coalesceTime := v } else none
  | .stretchLimit => if n ≤ 25 then some { p with stretchLimit := v } else none
  | .alertMask => (causesOf v).map fun c => { p with alertMask := c }
  | .earlyReuse => (offOnOf v).map fun b => { p with earlyReuse := b }
  | .truncateDescriptors => (offOnOf v).map fun b => { p with truncateDescriptors := b }
  | .defaultAction => (defaultActionOf v).map fun d => { p with defaultAction := d }

/-- Whether a parameter is a watermark, whose write evaluates the admission state (R114). -/
def Param.isMark : Param → Bool
  | .lowMark | .highMark => true
  | _ => false

end Sys2Proof.Machine
end

