-- ==== Sys2Proof/Machine/Flags.lean ====
section
/-! DEFINITION. The flags the part shows: the status byte, the alert causes, ripeness, the ALERT# condition, and how the alert
unit takes events. -/

namespace Sys2Proof.Machine

/-- One flag at its bit of the status byte (13.4). -/
def flagBit (set : Bool) (bit : Byte) : Byte :=
  if set then bit else 0

/-- EXECUTING (R149). -/
def CommandState.isExecuting : CommandState → Bool
  | .executing _ => true
  | .idle => false

/-- The status byte (R152, 13.4). RESTRICTED and REHASH show the table as of the last completed operation. -/
def State.statusByte (s : State) : Byte :=
  flagBit s.port.ready 0x80 ||| flagBit s.port.command.isExecuting 0x40 ||| flagBit s.port.unread 0x20 |||
    flagBit s.port.refused 0x10 ||| flagBit s.port.frameError 0x08 ||| flagBit s.alert.line 0x04 |||
    flagBit (s.seen.admission = .restricted) 0x02 ||| flagBit s.seen.run.isSome 0x01

/-- The change set is ripe (R178). -/
def ripe (t : Table) (timer : CoalescingTimer) : Bool :=
  t.changeSet ≠ [] &&
    (t.params.coalesceCount.toNat ≤ t.changeSet.length || timer = .expired || t.params.coalesceTime = 0)

/-- The count of AWAITING slots (R103). -/
def Table.awaitingSlots (t : Table) : Nat :=
  (List.finRange 4).countP fun j => (t.slot j).isAwaiting

/-- The causes that are pending (R177). -/
def Alert.pending (a : Alert) (t : Table) : Causes :=
  { changes := ripe t a.timer, approval := 0 < t.awaitingSlots, admission := a.admissionLatch
    busFault := a.busFaultLatch, done := a.doneLatch }

/-- At least one enabled cause is pending (R177, R179). -/
def Causes.anyEnabled (pending mask : Causes) : Bool :=
  (pending.changes && mask.changes) || (pending.approval && mask.approval) || (pending.admission && mask.admission) ||
    (pending.busFault && mask.busFault) || (pending.done && mask.done)

/-- The ALERT# condition (R179). -/
def Alert.condition (a : Alert) (t : Table) : Bool :=
  a.tag ≠ a.acknowledged && (a.pending t).anyEnabled t.params.alertMask

/-- A look at the ALERT# condition: the line follows it at once (R179). -/
def Alert.look (a : Alert) (t : Table) : Alert :=
  { a with line := a.condition t }

/-- One advance of the alert tag, which skips the acknowledged tag (R175). -/
def Alert.advance (a : Alert) : Alert :=
  { a with tag := if a.tag + 1 = a.acknowledged then a.tag + 2 else a.tag + 1 }

/-- Several advances of the alert tag (R176). -/
def Alert.advances (a : Alert) : Nat → Alert
  | 0 => a
  | n + 1 => a.advance.advances n

/-- The indices an operation added to the change set that were not in it before (R173). -/
def newChanges (before after : Table) : Nat :=
  (after.changeSet.filter fun i => i ∉ before.changeSet).length

/-- The slots that entered AWAITING in an operation (R103). -/
def newAwaiting (before after : Table) : Nat :=
  (List.finRange 4).countP fun j => (after.slot j).isAwaiting && !(before.slot j).isAwaiting

/-- The coalescing timer at an operation's completion (R178). -/
def CoalescingTimer.atCompletion (timer : CoalescingTimer) (before after : Table) : CoalescingTimer :=
  if after.changeSet = [] then .idle
  else match timer with
    | .idle =>
      if 0 < newChanges before after ∧ ripe after .idle = false then .running after.params.coalesceTime.toNat else .idle
    | other => other

/-- The events of one operation, taken all together at its completion, with its command-completion event if it ends a command;
then the line is looked at (R176 to R179). `before` and `after` are the table before and after the operation. -/
def Alert.take (a : Alert) (before after : Table) (completion : Bool) : Alert :=
  let admission : Bool := before.admission ≠ after.admission
  let advanced := a.advances (newChanges before after + newAwaiting before after + admission.toNat + completion.toNat)
  { advanced with
    admissionLatch := a.admissionLatch || admission
    doneLatch := a.doneLatch || completion
    timer := a.timer.atCompletion before after }.look after

/-- A bus-fault event (R145, R176): the tag advances and BUSFAULT is latched. -/
def Alert.busFault (a : Alert) (t : Table) : Alert :=
  { a.advance with busFaultLatch := true }.look t

/-- A successful acknowledgement (R180). It stops the coalescing timer, and CHANGES follows ripeness as R178 says it does then: a set
below COALESCE_COUNT whose timer was EXPIRED is ripe no more, and CHANGES is not pending, though R180 has CHANGES remain pending if it
was. The two rules differ there; that R178 prevails is the model's choice (DEDUCED, safe, log 27). -/
def Alert.acknowledge (a : Alert) (tag : Byte) (t : Table) : Alert :=
  { a with acknowledged := tag, admissionLatch := false, busFaultLatch := false, doneLatch := false, timer := .idle }.look t

/-- The coalescing timer's state as READ ALERT reports it (13.5). -/
def CoalescingTimer.code : CoalescingTimer → Byte
  | .idle => 0
  | .running _ => 1
  | .expired => 2

/-- The READ ALERT payload (R181, 13.5). -/
def Alert.report (a : Alert) (t : Table) : List Byte :=
  [a.tag, a.acknowledged, (a.pending t).bits, yesNo a.line, byteOf t.changeSet.length, a.timer.code,
    t.params.alertMask.bits]

end Sys2Proof.Machine
end

