-- ==== Sys2Proof/Machine/Engine.lean ====
section
/-! DEFINITION. The table engine's service (R19 to R21): the arbiter, the grant of an operation, its completion, and the expiry
unit's look for the next due candidate. A row that is an operation is its grant; a row that cannot happen in the
present state changes nothing (log 1). -/

namespace Sys2Proof.Machine

/-- The outcome of a command. -/
abbrev Step := Host.Outcome State Fault Refusal

/-! ### Arbiter (R20) -/

/-- The operation a requester has waiting. -/
def Arbiter.waiting (a : Arbiter) : Requester → Option Instr
  | .bus => a.bus
  | .host => a.host
  | .expiry => a.expiry

/-- The rotation bus → host → expiry → bus, starting from the requester after the last-granted one. -/
def Requester.rotation : Requester → List Requester
  | .bus => [.host, .expiry, .bus]
  | .host => [.expiry, .bus, .host]
  | .expiry => [.bus, .host, .expiry]

/-- The requester the next grant goes to: the first in the rotation that has an operation waiting. -/
def Arbiter.next (a : Arbiter) : Option Requester :=
  a.lastGranted.rotation.find? fun r => (a.waiting r).isSome

/-- A requester's operation leaves the arbiter. -/
def Arbiter.remove (a : Arbiter) : Requester → Arbiter
  | .bus => { a with bus := none }
  | .host => { a with host := none }
  | .expiry => { a with expiry := none }

/-- The engine grants a requester's waiting operation, which is the row `i`: it is open to grants, idle, and the rotation
reaches that requester (R20, R22). -/
def State.grants (s : State) (r : Requester) (i : Instr) : Bool :=
  s.life = .running && s.service.isNone && s.arbiter.next = some r && s.arbiter.waiting r = some i

/-- The part with an operation of a requester in service: the mark names the requester, and the operation has changed the table
to `table` (R19, R20). -/
def State.served (s : State) (r : Requester) (table : Table) (service : Service) : State :=
  { s with table, service := some service, arbiter := { s.arbiter.remove r with lastGranted := r } }

/-- The grant of a request operation with its answer and the table it leaves. -/
def State.grantRequest (s : State) (i : Instr) (outcome : Answer × Table) : Step :=
  if s.grants .bus i then .next (s.served .bus outcome.2 (.request outcome.1)) else .next s

/-- The grant of an operation of the host port. -/
def State.grantHost (s : State) (i : Instr) (outcome : Service × Table) : Step :=
  if s.grants .host i then .next (s.served .host outcome.2 outcome.1) else .next s

/-- The grant of a command operation with its result and the table it leaves. -/
def State.grantCommand (s : State) (i : Instr) (outcome : Result × Table) : Step :=
  s.grantHost i (.command outcome.1, outcome.2)

/-- The grant of an expiry operation with the table it leaves. -/
def State.grantExpiry (s : State) (i : Instr) (table : Table) : Step :=
  if s.grants .expiry i then .next (s.served .expiry table .expiry) else .next s

/-! ### The expiry unit (R36, R70, R71) -/

/-- The expiry operation that a deadline item calls for, as its row. -/
def DeadlineItem.row (x : DeadlineItem) : Instr :=
  match x.kind with
  | .offer i => .offerExpiry i x.deadline
  | .lease i => .leaseLapse i x.deadline
  | .revalidate i => .revalidationEnd i x.deadline
  | .hold i => .holdEnd i x.deadline
  | .approval j => .approvalExpiry j x.deadline
  | .refusal j => .refusalExpiry j x.deadline

/-- The due candidate of the deadline list: outside a run the head when due, during a run the first due item whose kind is not
deferred (R36, R70). -/
def Table.dueItem (t : Table) (now : Time) : Option DeadlineItem :=
  match t.run with
  | none => t.deadlines.head?.filter fun x => due now x.deadline
  | some _ => t.deadlines.find? fun x => due now x.deadline && !x.kind.deferred

/-- The due candidate of the quarantine queue: its head when due (R47, R70). -/
def Table.dueQuarantine (t : Table) (now : Time) : Option QuarantineItem :=
  t.quarantine.head?.filter fun x => due now x.endTime

/-- The expiry operation to submit, if any: the earlier of two candidates, the deadline item when their times are equal (R70). -/
def Table.dueCandidate (t : Table) (now : Time) : Option Instr :=
  match t.dueItem now, t.dueQuarantine now with
  | none, none => none
  | some x, none => some x.row
  | none, some q => some (.quarantineEnd q.address q.endTime)
  | some x, some q => if earlier q.endTime x.deadline then some (.quarantineEnd q.address q.endTime) else some x.row

/-- The expiry unit looks for a due candidate while its mark is clear, and submits one expiry operation (R70). Before the end of
initialisation it does not look (R184). -/
def State.lookForDue (s : State) : State :=
  if s.life = .running ∧ s.expiry.outstanding = false then
    match s.seen.dueCandidate s.expiry.time with
    | some i => { s with arbiter := { s.arbiter with expiry := some i }, expiry := { s.expiry with outstanding := true } }
    | none => s
  else s

/-- The check of a deadline item at service: the item is still in the list with the same kind, owner and deadline, it is due, and
its kind is not deferred (R36, R71). -/
def Table.itemStands (t : Table) (now : Time) (x : DeadlineItem) : Bool :=
  t.deadlines.contains x && due now x.deadline && !(t.run.isSome && x.kind.deferred)

/-! ### Completion (R19, R140, R156) -/

/-- An operation ends: the table it left becomes the one every other block sees, and the alert unit takes its events, all
together (R19, R176). -/
def State.endService (s : State) (completion : Bool) : State :=
  { s with service := none, seen := s.table, alert := s.alert.take s.seen s.table completion }

/-- The completion of a command places its result, sets result-unread and returns the port to IDLE; the abort request is cleared
(R156, R157). -/
def Port.place (p : Port) (r : Result) : Port :=
  { p with result := some (r.bytes p.sequence), unread := true, command := .idle, abortRequest := false }

end Sys2Proof.Machine
end

