-- ==== Sys2Proof/Machine/Addresses.lean ====
section
/-! DEFINITION. The host address commands (3.4): RESERVE, UNRESERVE, UNQUARANTINE, READ ADDRESS, READ QUARANTINE. -/

namespace Sys2Proof.Machine

/-- RESERVE (R54). -/
def serveReserve (now : Time) (t : Table) (address : Byte) : Result × Table :=
  match addrOf address with
  | none => (.badArgument, t)
  | some a =>
    let prior := (t.addr a).code
    match t.addr a with
    | .fixed => (.badArgument, t)
    | .free => (.ok ([addrByte a, prior] ++ beBytes 4 0), t.setAddr a .reserved)
    | .quarantined endTime => (.ok ([addrByte a, prior] ++ remainingBytes now endTime), t.unqueueAddr a .reserved)
    | .reserved => (.ok ([addrByte a, prior] ++ beBytes 4 0), t)
    | .offered _ | .bound _ | .held _ => (t.inUseAddr a, t)

/-- RESERVE (R54). -/
def execReserve (address : Byte) (s : State) : Step :=
  s.grantCommand (.reserve address) (serveReserve s.expiry.time s.table address)

/-- UNRESERVE (R55). -/
def serveUnreserve (t : Table) (address : Byte) : Result × Table :=
  match addrOf address with
  | none => (.badArgument, t)
  | some a =>
    match t.addr a with
    | .fixed => (.badArgument, t)
    | .reserved => (.ok [addrByte a], t.setAddr a .free)
    | .free | .quarantined _ | .offered _ | .bound _ | .held _ => (t.refusedAddr a, t)

/-- UNRESERVE (R55). -/
def execUnreserve (address : Byte) (s : State) : Step :=
  s.grantCommand (.unreserve address) (serveUnreserve s.table address)

/-- UNQUARANTINE (R56). -/
def serveUnquarantine (now : Time) (t : Table) (address : Byte) : Result × Table :=
  match addrOf address with
  | none => (.badArgument, t)
  | some a =>
    match t.addr a with
    | .quarantined endTime => (.ok (addrByte a :: remainingBytes now endTime), t.unqueueAddr a .free)
    | .fixed | .reserved | .free | .offered _ | .bound _ | .held _ => (t.refusedAddr a, t)

/-- UNQUARANTINE (R56). -/
def execUnquarantine (address : Byte) (s : State) : Step :=
  s.grantCommand (.unquarantine address) (serveUnquarantine s.expiry.time s.table address)

/-- The position of an address in the quarantine queue, 0 being the head. -/
def queuePosition (t : Table) (a : Addr) : Nat :=
  t.quarantine.findIdx fun x => x.address = a

/-- READ ADDRESS (R57): fields that do not apply to the state are zero. -/
def serveReadAddress (now : Time) (authority : Addr) (t : Table) (address : Byte) : Result :=
  match addrOf address with
  | none => .badArgument
  | some a =>
    let i := (t.addr a).entry
    .ok ([addrByte a, (t.addr a).code, yesNo (a = authority), indexByte i, t.generationOf i] ++
      match t.addr a with
      | .quarantined endTime => remainingBytes now endTime ++ [byteOf (queuePosition t a)]
      | _ => beBytes 4 0 ++ [0])

/-- READ ADDRESS (R57). -/
def execReadAddress (address : Byte) (s : State) : Step :=
  s.grantCommand (.readAddress address) (serveReadAddress s.expiry.time s.authorityAddress s.table address, s.table)

/-- READ QUARANTINE (R58): up to 8 items from a position. -/
def serveReadQuarantine (now : Time) (t : Table) (position : Byte) : Result :=
  if 110 < position.toNat then .badArgument
  else
    let items := (t.quarantine.drop position.toNat).take 8
    .ok ([byteOf t.quarantine.length, byteOf items.length] ++
      items.flatMap fun x => addrByte x.address :: remainingBytes now x.endTime)

/-- READ QUARANTINE (R58). -/
def execReadQuarantine (position : Byte) (s : State) : Step :=
  s.grantCommand (.readQuarantine position) (serveReadQuarantine s.expiry.time s.table position, s.table)

end Sys2Proof.Machine
end

