-- ==== Sys2Proof/Machine/Alerts.lean ====
section
/-! DEFINITION. The alert commands and the coalescing timer's expiry (chapter 11). The results of ACK ALERT and READ ALERT are
made at their completions, in COMMAND_COMPLETION (R180, R181). -/

namespace Sys2Proof.Machine

/-- ACK_ALERT (R180): its operation changes no table state; the tag is compared at the completion. -/
def execAckAlert (tag : Byte) (s : State) : Step :=
  s.grantHost (.ackAlert tag) (.ackAlert tag, s.table)

/-- READ_ALERT (R181): its operation changes no table state; the report is made at the completion. -/
def execReadAlert (s : State) : Step :=
  s.grantHost .readAlert (.readAlert, s.table)

/-- COALESCING_TIMER_EXPIRY (R178, R179): the timer has run its length and turns EXPIRED; the line is looked at. -/
def execCoalescingTimerExpiry (s : State) : Step :=
  if s.alert.timer = .running 0 then .next { s with alert := { s.alert with timer := .expired }.look s.seen } else .next s

end Sys2Proof.Machine
end

