-- ==== Sys2Proof/Machine/Entries.lean ====
section
/-! DEFINITION. The host commands on entries and the index: READ ENTRY, INSERT, MODIFY, RETIRE, READ AUTHORITY (chapter 10), FIND
IDENTITY and READ BUCKET (chapter 2), NEXT CHANGE (chapter 11). -/

namespace Sys2Proof.Machine

/-! ### Reading -/

/-- READ ENTRY (R160). -/
def serveReadEntry (now : Time) (t : Table) (index : Byte) : Result :=
  match indexOf 96 index with
  | none => .badArgument
  | some i => .ok (t.entryRecord now i)

/-- READ ENTRY (R160). -/
def execReadEntry (index : Byte) (s : State) : Step :=
  s.grantCommand (.readEntry index) (serveReadEntry s.expiry.time s.table index, s.table)

/-- FIND IDENTITY (R29). -/
def serveFindIdentity (t : Table) (identity : Identity) : Result :=
  let b := byteOf (bucketOf t.seed identity).val
  match t.lookup identity with
  | none => .notFound [b]
  | some i => .ok [byteOf i.val, (t.entry i).generation, (t.entry i).life.state.code, b]

/-- FIND IDENTITY (R29). -/
def execFindIdentity (identity : Identity) (s : State) : Step :=
  s.grantCommand (.findIdentity identity) (serveFindIdentity s.table identity, s.table)

/-- READ BUCKET (R30): the bucket is kept ascending. -/
def serveReadBucket (t : Table) (bucket : Byte) : Result :=
  match indexOf 32 bucket with
  | none => .badArgument
  | some b =>
    .ok ([byteOf b.val, byteOf (t.bucket b).length] ++
      (t.bucket b).flatMap fun i => [byteOf i.val, (t.entry i).generation])

/-- READ BUCKET (R30). -/
def execReadBucket (bucket : Byte) (s : State) : Step :=
  s.grantCommand (.readBucket bucket) (serveReadBucket s.table bucket, s.table)

/-! ### INSERT (R161, R162) -/

/-- The REFUSED slot that holds an identity turns FREE and its REFUSAL item is removed (R101, R162). -/
def clearRefusal (t : Table) (identity : Identity) : Table :=
  match t.refusedSlot identity with
  | some j => (t.setSlot j .free).removeItem (.slot j)
  | none => t

/-- An INSERT that passes its checks (R162). -/
def insertEntry (now : Time) (t : Table) (i : EntryIx) (identity : Identity) (cls : ClassIx) (a : Addr) (pinned : Bool)
    (lease : Half) (bytes : List Byte) (cut : Bool) : Table :=
  let duration := t.fixedLease cls lease
  let taken := (t.takeEntry i identity cls (.bound a duration none) bytes cut).setAddr a (.bound i)
  let leased := if pinned then taken else taken.startLease now i a duration
  (clearRefusal (leased.appendMember cls i) identity).evaluateAdmission

/-- INSERT (R161): checks 1 to 7, then the take (R162). -/
def serveInsert (now : Time) (t : Table) (identity : Identity) (cls address pinned : Byte) (lease : Half) (length : Byte)
    (descriptor : List Byte) : Result × Table :=
  match indexOf 16 cls, addrOf address, yesNoOf pinned with
  | some c, some a, some pin =>
    if 40 < length.toNat ∨ length.toNat ≠ descriptor.length then (.badArgument, t)
    else match t.lookup identity with
      | some i => (t.inUseIdentity i, t)
      | none =>
        if t.addr a = .fixed then (.badArgument, t)
        else if t.addr a ≠ .free ∧ t.addr a ≠ .reserved then (t.inUseAddr a, t)
        else if Config.bucketCapacity ≤ (t.bucket (bucketOf t.seed identity)).length then
          (.bucketFull (bucketOf t.seed identity), t)
        else match t.lowestVacant with
          | none => (.full .entries, t)
          | some i => match Table.fitDescriptor t.params.truncateDescriptors t.freeBlocks.length descriptor with
            | none => (.full .descriptor, t)
            | some (bytes, cut) =>
              let inserted := insertEntry now t i identity c a pin lease bytes cut
              (.ok ([byteOf i.val, (inserted.entry i).generation, addrByte a] ++ halfBytes (t.fixedLease c lease) ++
                [yesNo cut]), inserted)
  | _, _, _ => (.badArgument, t)

/-- INSERT (R162). -/
def execInsert (identity : Identity) (cls address pinned : Byte) (lease : Half) (length : Byte) (descriptor : List Byte)
    (s : State) : Step :=
  s.grantCommand (.insert identity cls address pinned lease length descriptor)
    (serveInsert s.expiry.time s.table identity cls address pinned lease length descriptor)

/-! ### MODIFY (R164, R165) -/

/-- The selected fields of a MODIFY with values in range: none is a field that is not selected. -/
structure Edit where
  cls : Option ClassIx
  pinned : Option Bool
  lease : Option Half
  descriptor : Option (List Byte)
  address : Option Addr
deriving DecidableEq, Repr

/-- A selected field's value: none where the value is out of range. -/
def selected {α : Type} (isSelected : Bool) (value : Option α) : Option (Option α) :=
  if isSelected then value.map some else some none

/-- Check 2 of R164: the selection byte and the range of each selected value. The values of fields that are not selected are
ignored, the descriptor-length argument among them (13.5, log 20). -/
def editOf (t : Table) (selection cls pinned : Byte) (lease : Half) (address length : Byte) (descriptor : List Byte) :
    Option Edit :=
  if selection.toNat < 32 then do
    let cls ← selected (selection.getLsbD 0) (indexOf 16 cls)
    let pinned ← selected (selection.getLsbD 1) (yesNoOf pinned)
    let lease ← selected (selection.getLsbD 2) (if lease = 0 then none else some lease)
    let descriptor ← selected (selection.getLsbD 3)
      (if length.toNat ≤ 40 ∧ length.toNat = descriptor.length then some descriptor else none)
    let address ← selected (selection.getLsbD 4) ((addrOf address).filter fun a => t.addr a ≠ .fixed)
    pure { cls, pinned, lease, descriptor, address }
  else none

/-- Step 1 of R165: the lease duration; the running deadline is not moved. -/
def editLease (t : Table) (i : EntryIx) (lease : Option Half) : Table :=
  match lease, (t.entry i).life with
  | some l, .bound a _ d => t.setLife i (.bound a l d)
  | some l, .unverified a _ d => t.setLife i (.unverified a l d)
  | _, _ => t

/-- Step 2 of R165: setting the pin removes the item and makes an UNVERIFIED entry BOUND; clearing it on a pinned entry starts a
lease; otherwise nothing changes. -/
def editPin (now : Time) (t : Table) (i : EntryIx) (pinned : Option Bool) : Table :=
  match pinned, (t.entry i).life with
  | some true, .bound a l (some _) => ((t.setLife i (.bound a l none)).removeItem (.entry i)).addChange i
  | some true, .unverified a l _ => ((t.setLife i (.bound a l none)).removeItem (.entry i)).addChange i
  | some false, .bound a l none => (t.startLease now i a l).addChange i
  | _, _ => t

/-- Step 3 of R165: a different class moves the entry to the tail of the new class list. -/
def editClass (t : Table) (i : EntryIx) (cls : Option ClassIx) : Table :=
  match cls with
  | some c =>
    let old := (t.entry i).cls
    if c = old then t
    else (((t.removeMember old i).appendMember c i).setEntry i { t.entry i with cls := c }).addChange i
  | none => t

/-- Step 4 of R165: the descriptor is replaced by R18. -/
def editDescriptor (t : Table) (i : EntryIx) (stored : Option (List Byte × Bool)) : Table :=
  match stored with
  | some (bytes, cut) => t.replaceDescriptor i bytes cut
  | none => t

/-- The life of a BOUND or UNVERIFIED entry at another address. -/
def EntryLife.movedTo (b : Addr) : EntryLife → EntryLife
  | .bound _ l d => .bound b l d
  | .unverified _ l d => .unverified b l d
  | other => other

/-- Step 5 of R165: a different address is bound and the old one released by R43. -/
def editAddress (now : Time) (t : Table) (i : EntryIx) (address : Option Addr) : Table :=
  match address, (t.entry i).life.address with
  | some b, some a =>
    if b = a then t
    else
      let moved := (t.setLife i ((t.entry i).life.movedTo b)).setAddr b (.bound i)
      (moved.releaseAddr now false a).addChange i
  | _, _ => t

/-- The MODIFY result's fields, as the operation leaves them (R165). -/
def modifyPayload (t : Table) (i : EntryIx) : List Byte :=
  let e := t.entry i
  [byteOf i.val, e.generation, e.life.state.code, byteOf e.cls.val, indexByte e.life.address, yesNo e.life.pinned] ++
    halfBytes (e.life.lease.getD 0) ++ [byteOf (t.descriptor i).length, yesNo e.truncated]

/-- The fields of a MODIFY applied in order, each seeing the ones before it (R165). -/
def applyEdit (now : Time) (t : Table) (i : EntryIx) (edit : Edit) (stored : Option (List Byte × Bool)) : Table :=
  let leased := editLease t i edit.lease
  let pinned := editPin now leased i edit.pinned
  let moved := editClass pinned i edit.cls
  let described := editDescriptor moved i stored
  editAddress now described i edit.address

/-- Checks 3 and 4 of R164, then the change (R165). -/
def serveEdit (now : Time) (t : Table) (i : EntryIx) (edit : Edit) : Result × Table :=
  let taken := edit.address.filter fun a => some a ≠ (t.entry i).life.address && t.addr a ≠ .free
  match taken with
  | some a => (t.inUseAddr a, t)
  | none =>
    match edit.descriptor.map (t.fitReplacement i) with
    | some none => (.full .descriptor, t)
    | stored =>
      let after := applyEdit now t i edit stored.join
      (.ok (modifyPayload after i), after)

/-- MODIFY (R164): the guard, the state, the selection and values, then R165. -/
def serveModify (now : Time) (t : Table) (index generation selection cls pinned : Byte) (lease : Half)
    (address length : Byte) (descriptor : List Byte) : Result × Table :=
  match t.guardEntry index generation with
  | .error r => (r, t)
  | .ok i =>
    match (t.entry i).life with
    | .bound _ _ _ | .unverified _ _ _ =>
      match editOf t selection cls pinned lease address length descriptor with
      | none => (.badArgument, t)
      | some edit => serveEdit now t i edit
    | .vacant | .awaiting _ | .offered _ _ _ _ | .lapsed _ _ _ => (.refusedState [(t.entry i).life.state.code], t)

/-- MODIFY (R165). -/
def execModify (index generation selection cls pinned : Byte) (lease : Half) (address length : Byte)
    (descriptor : List Byte) (s : State) : Step :=
  s.grantCommand (.modify index generation selection cls pinned lease address length descriptor)
    (serveModify s.expiry.time s.table index generation selection cls pinned lease address length descriptor)

/-! ### RETIRE (R167) -/

/-- RETIRE (R167): the guard, the free-now flag, then the retirement. -/
def serveRetire (now : Time) (t : Table) (index generation freeNow : Byte) : Result × Table :=
  match t.guardEntry index generation with
  | .error r => (r, t)
  | .ok i =>
    match yesNoOf freeNow with
    | none => (.badArgument, t)
    | some free =>
      let e := t.entry i
      let after := t.retireAndEvaluate now free i
      (.ok [byteOf i.val, e.generation, e.life.state.code, indexByte e.life.address,
        (e.life.address.map fun a => (after.addr a).code).getD 0], after)

/-- RETIRE (R167). -/
def execRetire (index generation freeNow : Byte) (s : State) : Step :=
  s.grantCommand (.retire index generation freeNow) (serveRetire s.expiry.time s.table index generation freeNow)

/-! ### READ AUTHORITY (R168) -/

/-- The READ AUTHORITY summary (R168, 13.5). -/
def serveReadAuthority (now : Time) (authority : Addr) (t : Table) : Result :=
  .ok (timeBytes now ++ [addrByte authority] ++ halfBytes t.seed ++ [t.admission.code] ++
    ([.vacant, .awaiting, .offered, .bound, .unverified, .lapsed].map fun st => byteOf (t.countEntries st)) ++
    [byteOf ((List.finRange 96).countP fun i => (t.entry i).life.pinned)] ++
    ([AddrState.free, .reserved, .quarantined 0, .offered 0, .bound 0, .held 0].map fun st => byteOf (t.countAddrs st.code)) ++
    [byteOf t.freeBlocks.length] ++ ([0, 1, 2, 3].map fun c => byteOf (t.countSlots c)) ++
    [byteOf t.deadlines.length, byteOf t.changeSet.length])

/-- READ AUTHORITY (R168). -/
def execReadAuthority (s : State) : Step :=
  s.grantCommand .readAuthority (serveReadAuthority s.expiry.time s.authorityAddress s.table, s.table)

/-! ### NEXT CHANGE (R174) -/

/-- NEXT CHANGE (R174): the change set is kept ascending, so its head is the lowest index. -/
def serveNextChange (now : Time) (t : Table) : Result × Table :=
  match t.changeSet with
  | [] => (.empty, t)
  | i :: rest => (.ok (t.entryRecord now i ++ [byteOf rest.length]), { t with changeSet := rest })

/-- NEXT CHANGE (R174). -/
def execNextChange (s : State) : Step :=
  s.grantCommand .nextChange (serveNextChange s.expiry.time s.table)

end Sys2Proof.Machine
end

