-- ==== Sys2Proof/Machine/Expiries.lean ====
section
/-! DEFINITION. The seven expiry operations (R47, R71 to R74, R94, R99, R101), each of which checks its item again at the grant,
and their completion (R70). -/

namespace Sys2Proof.Machine

/-- An expiry operation's table: the effect when the item still stands, else no change (R71). -/
def Table.expire (t : Table) (now : Time) (item : DeadlineItem) (effect : Table) : Table :=
  if t.itemStands now item then effect else t

/-- An offer expiry (R94): the OFFERED entry retires, its address and slot turn FREE. -/
def offerExpired (now : Time) (t : Table) (i : EntryIx) : Table :=
  match (t.entry i).life with
  | .offered _ _ _ _ => t.retireAndEvaluate now false i
  | _ => t

/-- OFFER_EXPIRY (R94). -/
def execOfferExpiry (entry : EntryIx) (deadline : Time) (s : State) : Step :=
  s.grantExpiry (.offerExpiry entry deadline)
    (s.table.expire s.expiry.time { kind := .offer entry, deadline } (offerExpired s.expiry.time s.table entry))

/-- An approval expiry (R99): the slot's entry retires and the slot turns FREE. -/
def approvalExpired (now : Time) (t : Table) (j : SlotIx) : Table :=
  match t.slot j with
  | .awaiting _ i => t.retireAndEvaluate now false i
  | _ => t

/-- APPROVAL_EXPIRY (R99). -/
def execApprovalExpiry (slot : SlotIx) (deadline : Time) (s : State) : Step :=
  s.grantExpiry (.approvalExpiry slot deadline)
    (s.table.expire s.expiry.time { kind := .approval slot, deadline } (approvalExpired s.expiry.time s.table slot))

/-- A refusal expiry (R101): the slot turns FREE and the item is removed. -/
def refusalExpired (t : Table) (j : SlotIx) : Table :=
  (t.setSlot j .free).removeItem (.slot j)

/-- REFUSAL_EXPIRY (R101). -/
def execRefusalExpiry (slot : SlotIx) (deadline : Time) (s : State) : Step :=
  s.grantExpiry (.refusalExpiry slot deadline)
    (s.table.expire s.expiry.time { kind := .refusal slot, deadline } (refusalExpired s.table slot))

/-- A lease lapse (R72). -/
def leaseLapsed (now : Time) (t : Table) (i : EntryIx) : Table :=
  match (t.entry i).life with
  | .bound a lease (some _) => t.lapseEntry now i a lease
  | _ => t

/-- LEASE_LAPSE (R72). -/
def execLeaseLapse (entry : EntryIx) (deadline : Time) (s : State) : Step :=
  s.grantExpiry (.leaseLapse entry deadline)
    (s.table.expire s.expiry.time { kind := .lease entry, deadline } (leaseLapsed s.expiry.time s.table entry))

/-- A revalidation end (R73): the effects of a lease lapse. -/
def revalidationEnded (now : Time) (t : Table) (i : EntryIx) : Table :=
  match (t.entry i).life with
  | .unverified a lease _ => t.lapseEntry now i a lease
  | _ => t

/-- REVALIDATION_END (R73). -/
def execRevalidationEnd (entry : EntryIx) (deadline : Time) (s : State) : Step :=
  s.grantExpiry (.revalidationEnd entry deadline)
    (s.table.expire s.expiry.time { kind := .revalidate entry, deadline } (revalidationEnded s.expiry.time s.table entry))

/-- A hold end (R74): the LAPSED entry retires. -/
def holdEnded (now : Time) (t : Table) (i : EntryIx) : Table :=
  match (t.entry i).life with
  | .lapsed _ _ _ => t.retireAndEvaluate now false i
  | _ => t

/-- HOLD_END (R74). -/
def execHoldEnd (entry : EntryIx) (deadline : Time) (s : State) : Step :=
  s.grantExpiry (.holdEnd entry deadline)
    (s.table.expire s.expiry.time { kind := .hold entry, deadline } (holdEnded s.expiry.time s.table entry))

/-- A quarantine end (R47): an address still QUARANTINED with that end time, which is due, turns FREE. -/
def quarantineEnded (now : Time) (t : Table) (a : Addr) (endTime : Time) : Table :=
  if t.addr a = .quarantined endTime ∧ due now endTime = true then t.unqueueAddr a .free else t

/-- QUARANTINE_END (R47). -/
def execQuarantineEnd (address : Addr) (endTime : Time) (s : State) : Step :=
  s.grantExpiry (.quarantineEnd address endTime) (quarantineEnded s.expiry.time s.table address endTime)

/-- EXPIRY_OPERATION_COMPLETION (R70): the outstanding mark clears and the unit looks again. -/
def execExpiryOperationCompletion (s : State) : Step :=
  match s.service with
  | some .expiry =>
    let ended := s.endService false
    .next { ended with expiry := { ended.expiry with outstanding := false } }.lookForDue
  | _ => .next s

end Sys2Proof.Machine
end

