-- ==== Sys2Proof/Machine/Rehash.lean ====
section
/-! DEFINITION. The REHASH run (chapter 2): its first step, a later step with the switch and the overflow, the ending of an aborted
run, the ABORT command, and the completion of a step that does not end the command. -/

namespace Sys2Proof.Machine

/-- The switch (R33): the new seed and the shadow index come into force and the command completes. -/
def switchIndex (t : Table) (newSeed : Half) (shadow : Vector (List EntryIx) 32) : Service × Table :=
  (.command (.ok (byteOf (Table.depth shadow) :: halfBytes newSeed)),
    { t with seed := newSeed, index := shadow, run := none })

/-- What a step does once its visit is over (R32): the switch after entry 95, else the cursor moves on. -/
def advanceCursor (t : Table) (newSeed : Half) (shadow : Vector (List EntryIx) 32) (k : EntryIx) : Service × Table :=
  if h : k.val + 1 < 96 then (.step, { t with run := some { newSeed, shadow, cursor := ⟨k.val + 1, h⟩ } })
  else switchIndex t newSeed shadow

/-- A step operation's visit of the entry at the cursor (R32, R34). -/
def visitEntry (t : Table) (r : RehashRun) : Service × Table :=
  let k := r.cursor
  if (t.entry k).life.isVacant then advanceCursor t r.newSeed r.shadow k
  else
    let b := bucketOf r.newSeed (t.entry k).identity
    let held := r.shadow.get b
    if Config.bucketCapacity ≤ held.length then (.command (.rehashOverflow b k), { t with run := none })
    else advanceCursor t r.newSeed (r.shadow.set b (insertAscending k held)) k

/-- The first step of REHASH (R31): an equal seed completes the command, a different one begins a run and visits entry 0. -/
def serveRehash (t : Table) (seed : Half) : Service × Table :=
  if seed = t.seed then (.command (.ok (byteOf (Table.depth t.index) :: halfBytes t.seed)), t)
  else visitEntry t { newSeed := seed, shadow := Vector.replicate 32 [], cursor := 0 }

/-- REHASH (R31). -/
def execRehash (seed : Half) (s : State) : Step :=
  s.grantHost (.rehash seed) (serveRehash s.table seed)

/-- A later step of a run (R32). There is always a run when one is granted; without one it changes nothing (log 23). -/
def serveRehashStep (t : Table) : Service × Table :=
  match t.run with
  | some r => visitEntry t r
  | none => (.step, t)

/-- REHASH_STEP (R32). -/
def execRehashStep (s : State) : Step :=
  s.grantHost .rehashStep (serveRehashStep s.table)

/-- The ending operation of an aborted run (R38): the entries visited are those below the cursor. -/
def serveRehashAbortEnding (t : Table) : Service × Table :=
  (.command (.aborted ((t.run.map fun r => r.cursor.val).getD 0)), { t with run := none })

/-- REHASH_ABORT_ENDING (R38). -/
def execRehashAbortEnding (s : State) : Step :=
  s.grantHost .rehashAbortEnding (serveRehashAbortEnding s.table)

/-- Whether a command is REHASH. -/
def isRehash : Instr → Bool
  | .rehash _ => true
  | _ => false

/-- Whether the port is executing a REHASH (R157). -/
def Port.executingRehash (p : Port) : Bool :=
  match p.command with
  | .executing i => isRehash i
  | .idle => false

/-- An ABORT that arrives while a command executes (R157): during a REHASH the abort request is set, else nothing happens. The two
marks that its accepted frame clears (R155, R157) are cleared in `Port.acceptAbort`, not here: the model's choice (log 10). -/
def Port.requestAbort (p : Port) : Port :=
  { p with abortRequest := p.abortRequest || p.executingRehash }

/-- ABORT (R157): the operation of an ABORT accepted in IDLE is granted; while a REHASH executes the row is the abort request
itself, which COMMAND_FRAME_END also makes at the CS# rise; while any other command executes it changes nothing (log 10), nor does it
in IDLE with no ABORT waiting, or with one that the arbiter does not grant (log 1). -/
def execAbort (s : State) : Step :=
  if s.arbiter.host = some .abort then s.grantCommand .abort (.ok [], s.table)
  else .next { s with port := s.port.requestAbort }

/-- What the port submits after a step that does not end the command (R32, R38). -/
def Port.nextStep (p : Port) : Instr :=
  if p.abortRequest then .rehashAbortEnding else .rehashStep

/-- STEP_OPERATION_COMPLETION (R32, R38): no result and no command-completion event (R156, R176). -/
def execStepOperationCompletion (s : State) : Step :=
  match s.service with
  | some .step =>
    let ended := s.endService false
    .next { ended with arbiter := { ended.arbiter with host := some ended.port.nextStep } }.lookForDue
  | _ => .next s

end Sys2Proof.Machine
end

