-- ==== Sys2Proof/Machine/BusTarget.lean ====
section
/-! DEFINITION. The member bus target (chapter 8): data bytes, the end of a write, the address byte, the completion of a request,
the stretch limit and the stuck bus. -/

namespace Sys2Proof.Machine

/-! ### Data bytes (R135, R136, R146) -/

/-- The byte a read shifts out at a position: the read content, then 0xFF (R141). -/
def contentAt (content : List Byte) (position : Nat) : Byte :=
  content.getD position 0xFF

/-- One whole byte on the bus, with its ninth clock. RECEIVING stores and acknowledges, or NACKs from the 57th on (R136); SENDING
shifts out the read content until the controller's NACK (R135); DISCARDING NACKs (R146). -/
def Target.byte (t : Target) (b : BusByte) : Target :=
  match t.phase with
  | .receiving =>
    if t.receive.length < Config.receiveCapacity then { t with receive := t.receive ++ [b.data], acks := t.acks ++ [true] }
    else { t with overflow := true, acks := t.acks ++ [false] }
  | .sending =>
    if t.released then t
    else { t with shifted := t.shifted ++ [contentAt (t.content.getD []) t.shifted.length], released := !b.ack }
  | .discarding => { t with acks := t.acks ++ [false] }
  | .unaddressed | .stretching => t

/-! ### SCL and the bus-stuck timer (R144) -/

/-- The phases in which the bus-stuck timer watches SCL (R144). -/
def BusPhase.watched : BusPhase → Bool
  | .receiving | .sending | .discarding => true
  | .unaddressed | .stretching => false

/-- The bus-stuck timer at an edge of SCL: a fall starts it in the phases that it watches, a rise returns it to idle (R144). -/
def Target.watch (t : Target) (sclLow : Bool) : Target :=
  { t with stuck := if sclLow && t.phase.watched then .running Config.stuckLimit else .idle }

/-- One piece of the bus's activity. The last edge of a whole byte is the fall after its ninth clock (log 5). -/
def Target.hear (t : Target) : BusActivity → Target
  | .byte b => (t.byte b).watch true
  | .sclRises => t.watch false
  | .sclFalls => t.watch true

/-- The bus's activity between two rows. -/
def Target.hears (t : Target) (l : List BusActivity) : Target :=
  l.foldl Target.hear t

/-- The bus's activity up to the end of a millisecond, as the row that opened the transaction gave it (log 5). -/
def Target.hearsMillisecond (t : Target) : Target :=
  { t.hears (t.coming.headD []) with coming := t.coming.tail }

/-- The part after the bus's activity, which the target alone takes part in. -/
def State.hears (s : State) (l : List BusActivity) : State :=
  { s with target := s.target.hears l }

/-! ### The end of a transaction (R134, R138, R139) -/

/-- The target out of the transaction (R134): the receive buffer empty, no read content, both timers idle, no activity to come. -/
def Target.leave (t : Target) : Target :=
  { t with
    phase := .unaddressed, receive := [], overflow := false, content := none, stretch := .idle, stuck := .idle, coming := [] }

/-- The target writes a BAD_REQUEST answer of its own (R138, R145). -/
def Target.refuse (t : Target) (reason : BadReason) : Target :=
  { t with answer := (Answer.badRequest reason).bytes, answerState := .ready }

/-- A good message is accepted: the old answer stops being readable, PENDING, in flight (R139). -/
def Target.accept (t : Target) : Target :=
  { t with answer := [], answerState := .pending, inFlight := true }

/-- The evaluation of the bytes held when a write ends (R138), with the request operation of a good message submitted (R139). -/
def State.evaluateWrite (s : State) : State :=
  if s.target.receive = [] then s
  else match evaluateRequest s.target.receive s.target.overflow with
    | .error reason => { s with target := s.target.refuse reason }
    | .ok request => { s with target := s.target.accept, arbiter := { s.arbiter with bus := some request } }

/-- A STOP or repeated START after some activity: a write in RECEIVING is evaluated, any other phase ends without effect
(R134, R138, R146). -/
def State.endTransaction (s : State) (before : List BusActivity) : State :=
  let heard := s.hears before
  let settled := if heard.target.phase = .receiving then heard.evaluateWrite else heard
  { settled with target := settled.target.leave }

/-- WRITE_END (R138): the STOP or repeated START that ends a write. -/
def execWriteEnd (before : List BusActivity) (s : State) : Step :=
  .next (s.endTransaction before)

/-- STOP_CONDITION (R134): a STOP; one that ends a write is handled by R138. -/
def execStopCondition (before : List BusActivity) (s : State) : Step :=
  .next (s.endTransaction before)

/-! ### The address byte (R134, R141, R142) -/

/-- The read content fixed when a read enters SENDING, by the answer state (R141). -/
def Target.readContent (t : Target) : List Byte :=
  match t.answerState with
  | .empty => Answer.noAnswer.bytes
  | .ready => t.answer
  | .pending => Answer.busy.bytes

/-- A read enters SENDING with its content (R141). -/
def Target.send (t : Target) (content : List Byte) : Target :=
  { t with phase := .sending, content := some content, stretch := .idle }

/-- A stretch ends: SCL is released, the read sends, and the bus-stuck timer restarts (R142, R144). -/
def Target.release (t : Target) (content : List Byte) : Target :=
  { t.send content with stuck := .running Config.stuckLimit }

/-- What the target does with an address byte at its ninth clock, in UNADDRESSED (R134). -/
def Target.address (t : Target) (authority : Addr) (limit : Half) (a : Addr) (read : Bool) : Target :=
  let fresh := { t with shifted := [], released := false }
  if a ≠ authority ∨ t.listening = false then { fresh with acks := [false] }
  else if read then
    if t.answerState = .pending ∧ limit ≠ 0 then
      { fresh with acks := [true], phase := .stretching, stretch := .running limit.toNat }
    else { fresh with acks := [true] }.send t.readContent
  else if t.answerState = .pending then { fresh with acks := [false] }
  else { fresh with acks := [true], phase := .receiving, receive := [], overflow := false }

/-- The address byte answered, SCL low after its ninth clock, and the activity behind it, in UNADDRESSED. -/
def State.addressed (s : State) (address : Addr) (read : Bool) (after : List BusActivity) (later : List (List BusActivity)) :
    State :=
  let answered := s.target.address s.authorityAddress s.seen.params.stretchLimit address read
  { s with target := { (answered.watch true).hears after with coming := later } }

/-- ADDRESS_BYTE (R134): the transaction open before ends, the target answers the address byte, then takes part in what
follows. The part in reset does nothing (R182). -/
def execAddressByte (before : List BusActivity) (address : Addr) (read : Bool) (after : List BusActivity)
    (later : List (List BusActivity)) (s : State) : Step :=
  if s.life = .inReset then .next s else .next ((s.endTransaction before).addressed address read after later)

/-! ### Completion, stretch limit, stuck bus (R140, R142, R145) -/

/-- The answer of a request is written (R140); a stretched read goes on with it (R142). -/
def Target.deliver (t : Target) (answer : List Byte) : Target :=
  let written := { t with answer, answerState := .ready, inFlight := false }
  if t.phase = .stretching then written.release answer else written

/-- REQUEST_COMPLETION (R140). -/
def execRequestCompletion (s : State) : Step :=
  match s.service with
  | some (.request a) =>
    let ended := s.endService false
    .next { ended with target := ended.target.deliver a.bytes }.lookForDue
  | _ => .next s

/-- STRETCH_LIMIT_REACHED (R142, R143): BUSY is the read content. -/
def execStretchLimitReached (s : State) : Step :=
  if s.target.phase = .stretching ∧ s.target.stretch = .running 0 then
    .next { s with target := s.target.release Answer.busy.bytes }
  else .next s

/-- The target abandons its part in a transaction (R145). -/
def Target.abandon (t : Target) : Target :=
  let settled := if t.phase = .receiving ∧ t.receive ≠ [] then t.refuse .incomplete else t
  settled.leave

/-- BUS_STUCK (R145): the transaction is abandoned and the alert unit takes one bus-fault event. -/
def execBusStuck (s : State) : Step :=
  if s.target.phase.watched = true ∧ s.target.stuck = .running 0 then
    .next { s with target := s.target.abandon, alert := s.alert.busFault s.seen }
  else .next s

end Sys2Proof.Machine
end

