-- ==== Sys2Proof/Machine/Resets.lean ====
section
/-! DEFINITION. Hard reset and initialisation, the millisecond of authority time, and the retention reset (chapter 12, R60). -/

namespace Sys2Proof.Machine

/-! ### Hard reset (R182 to R184) -/

/-- A hard reset begins: every item of state takes its hard-reset value and every operation is abandoned (R182). The queue of
commands is outside the part and stays. -/
def State.hardReset (s : State) : State :=
  { State.reset with pending := s.pending }

/-- A hard reset ends: ASEL1 and ASEL0 select the authority address, which is FIXED, and initialisation begins (R183, R184). -/
def State.endReset (s : State) (asel : BitVec 2) : State :=
  let authority := Config.authorityOf asel
  { s with life := .initialising, authorityAddress := authority, table := Table.reset authority, seen := Table.reset authority }

/-- RESET_ASSERTED (R182). -/
def execResetAsserted (s : State) : Step :=
  .next s.hardReset

/-- RESET_END (R183). -/
def execResetEnd (asel : BitVec 2) (s : State) : Step :=
  if s.life = .inReset then .next (s.endReset asel) else .next s

/-- INITIALISATION_END (R184): listening and ready together; the expiry unit begins to look. -/
def execInitialisationEnd (s : State) : Step :=
  if s.life = .initialising then
    .next { s with life := .running, target := { s.target with listening := true }
                   port := { s.port with ready := true } }.lookForDue
  else .next s

/-! ### The millisecond (R60, R133, R144, R178) -/

/-- A millisecond of a running timer (log 4). -/
def Timer.tick : Timer → Timer
  | .idle => .idle
  | .running left => .running (left - 1)

/-- A millisecond of the coalescing timer (R178, log 4). -/
def CoalescingTimer.tick : CoalescingTimer → CoalescingTimer
  | .idle => .idle
  | .running left => .running (left - 1)
  | .expired => .expired

/-- Every counter of CLKIN's milliseconds moves on by one (R60, R142, R144, R178). -/
def State.countMillisecond (s : State) : State :=
  { s with
    expiry := { s.expiry with time := s.expiry.time + 1 }
    target := { s.target with stretch := s.target.stretch.tick, stuck := s.target.stuck.tick }
    alert := { s.alert with timer := s.alert.timer.tick } }

/-- AUTHORITY_TIME_TICK (R60, R70): the bus's activity in the millisecond (R144), then its end. Time stands at 0 throughout a hard
reset (R183). -/
def execAuthorityTimeTick (s : State) : Step :=
  if s.life = .inReset then .next s
  else .next { s with target := s.target.hearsMillisecond }.countMillisecond.lookForDue

/-! ### The retention reset (R185 to R189) -/

/-- The table while a retention reset walks the entries, with its two counts (R186, R188). -/
structure Walk where
  table : Table
  unverified : Nat
  retired : Nat
deriving DecidableEq, Repr

/-- What a retention reset does to one entry (R186), by the state it holds. -/
def Walk.visit (now : Time) (w : Walk) (i : EntryIx) : Walk :=
  let t := w.table
  match (t.entry i).life with
  | .awaiting _ | .offered _ _ _ _ | .lapsed _ _ _ =>
    { w with table := t.retireEntry now false i, retired := w.retired + 1 }
  | .bound a lease (some _) =>
    let deadline := afterSeconds now t.params.revalidateTime
    { w with table := ((t.setLife i (.unverified a lease deadline)).moveItem { kind := .revalidate i, deadline }).addChange i
             unverified := w.unverified + 1 }
  | .vacant | .bound _ _ none | .unverified _ _ _ => w

/-- The kinds of deadline item that a retention reset leaves in the list (R187). -/
def ItemKind.kept : ItemKind → Bool
  | .lease _ | .revalidate _ => true
  | .offer _ | .hold _ | .approval _ | .refusal _ => false

/-- Every slot FREE, no OFFER, APPROVAL, REFUSAL or HOLD item (R187), and the admission state set afresh (R117). -/
def Table.settleRetention (t : Table) : Table :=
  { t with
    slots := Vector.replicate 4 .free
    deadlines := t.deadlines.filter fun x => x.kind.kept
    admission := if t.vacantCount < t.params.lowMark.toNat then .restricted else .opened }

/-- The retention reset's effect on the table, with its result (R186 to R188). -/
def serveResetKeep (now : Time) (t : Table) : Service × Table :=
  let walked := (List.finRange 96).foldl (Walk.visit now) { table := t, unverified := 0, retired := 0 }
  (.retention (.ok [byteOf walked.unverified, byteOf walked.retired]), walked.table.settleRetention)

/-- RESET_KEEP (R185): its effect on the target comes with its completion (R146). -/
def execResetKeep (s : State) : Step :=
  s.grantHost .resetKeep (serveResetKeep s.expiry.time s.table)

/-- The target's phase after a retention reset (R146). -/
def Target.retainPhase (t : Target) : Target :=
  match t.phase with
  | .receiving => { t with phase := .discarding, receive := [], overflow := false }
  | .stretching => t.release Answer.noAnswer.bytes
  | .unaddressed | .sending | .discarding => t

/-- What a retention reset does to the target at its completion (R146): the answer and the request in flight are lost. -/
def Target.retain (t : Target) : Target :=
  { t with answer := [], answerState := .empty, inFlight := false }.retainPhase

/-- The target and its waiting request at the completion of a retention reset (R146, R189). -/
def State.retainTarget (s : State) : State :=
  { s with target := s.target.retain, arbiter := { s.arbiter with bus := none } }

end Sys2Proof.Machine
end

