-- ==== Sys2Proof/Machine/HostPort.lean ====
section
/-! DEFINITION. The host command port (chapter 9): transactions, the frame checks, acceptance, and the completion of a command. -/

namespace Sys2Proof.Machine

/-! ### Bytes of a transaction (R150, R151, R158) -/

/-- A result is held and no command executes (R158). -/
def Port.holdsResult (p : Port) : Bool :=
  !p.command.isExecuting && p.result.isSome

/-- The read content of a READ RESULT transaction (R158): the held frame, or the NONE frame with the current sequence. -/
def Port.readContent (p : Port) : List Byte :=
  if p.command.isExecuting then Result.none.bytes p.sequence else p.result.getD (Result.none.bytes p.sequence)

/-- The first whole byte (R150): the captured status has been shifted out, the byte names the kind, and a READ RESULT's content is
fixed. READ STATUS captures again at the end of each whole byte (R151). -/
def State.firstByte (s : State) (b : Byte) : State :=
  let p := { s.port with kind := kindOf b, sdo := s.port.sdo ++ [s.port.status] }
  match kindOf b with
  | .readResult => { s with port := { p with content := p.readContent, contentHeld := p.holdsResult } }
  | .readStatus => { s with port := { p with status := s.statusByte } }
  | .none | .command | .unknown => { s with port := p }

/-- A byte of a COMMAND transaction after the first (R151). -/
def Port.storeByte (p : Port) (b : Byte) : Port :=
  if p.frame.length < Config.frameCapacity then { p with frame := p.frame ++ [b] } else { p with overflow := true }

/-- One whole byte received in a transaction, and the byte shifted out with it (R150, R151, R158). -/
def State.hostByte (s : State) (b : Byte) : State :=
  let p := s.port
  match p.kind with
  | .none => s.firstByte b
  | .command => { s with port := { p.storeByte b with sdo := p.sdo ++ [0xFF] } }
  | .readResult => { s with port := { p with sdo := p.sdo ++ [contentAt p.content (p.sdo.length - 1)] } }
  | .readStatus => { s with port := { p with sdo := p.sdo ++ [p.status], status := s.statusByte } }
  | .unknown => { s with port := { p with sdo := p.sdo ++ [0xFF] } }

/-- The whole bytes received between two host events, in a transaction that the port follows (R159). -/
def State.hostBytes (s : State) (l : List Byte) : State :=
  if s.port.selected then l.foldl State.hostByte s else s

/-- CS# falls (R150): the status byte is captured. -/
def State.selectPort (s : State) : State :=
  { s with port := { s.port with
      kind := .none, selected := true, status := s.statusByte, frame := [], overflow := false, content := []
      contentHeld := false, sdo := [] } }

/-- CS# rises (R150): no transaction, no bytes held. -/
def Port.deselect (p : Port) : Port :=
  { p with kind := .none, selected := false, frame := [], overflow := false, content := [], contentHeld := false }

/-- HOST_TRANSACTION_START (R150): the part in reset ignores SCK, SDI and CS# (R159). -/
def execHostTransactionStart (received : List Byte) (s : State) : Step :=
  if s.life = .inReset then .next s else .next (s.selectPort.hostBytes received)

/-- The end of a transaction of one of some kinds: the whole bytes received, then what the CS# rise does. A transaction of another
kind, or one that the port does not follow, is not this event (log 1). -/
def State.endOfKind (s : State) (kinds : List TransactionKind) (received : List Byte) (rise : State → State) : Step :=
  let heard := s.hostBytes received
  if heard.port.selected = true ∧ heard.port.kind ∈ kinds then .next (rise heard) else .next s

/-! ### Command frames (R153 to R155) -/

/-- Acceptance in IDLE (R155): the result discarded, the sequence taken, EXECUTING; both marks clear. -/
def Port.acceptCommand (p : Port) (sequence : Byte) (i : Instr) : Port :=
  { p with result := none, unread := false, sequence, command := .executing i, refused := false, frameError := false }

/-- A command accepted in IDLE with its operation submitted (R155). -/
def State.submitCommand (s : State) (sequence : Byte) (i : Instr) : State :=
  { s with port := s.port.acceptCommand sequence i, arbiter := { s.arbiter with host := some i } }

/-- An ABORT accepted in EXECUTING (R155, R157): both marks clear; a REHASH gets the abort request. -/
def Port.acceptAbort (p : Port) : Port :=
  { p.requestAbort with refused := false, frameError := false }

/-- A good frame taken by the command state (R154, R155). RESET CLEAR begins and ends a hard reset at once (R159, R182). -/
def State.takeFrame (s : State) (f : HostFrame) (asel : BitVec 2) : State :=
  match s.port.command, f.body with
  | .idle, .operation i => s.submitCommand f.sequence i
  | .idle, .resetClear => s.hardReset.endReset asel
  | .executing _, .operation .abort => { s with port := s.port.acceptAbort }
  | .executing _, _ => { s with port := { s.port with refused := true } }

/-- The CS# rise of a COMMAND transaction (R153, R154). -/
def State.endFrame (s : State) (asel : BitVec 2) : State :=
  let ended := { s with port := s.port.deselect }
  if s.port.ready = false then { ended with port := { ended.port with refused := true } }
  else match checkFrame s.port.frame s.port.overflow with
    | none => { ended with port := { ended.port with frameError := true } }
    | some f => ended.takeFrame f asel

/-- COMMAND_FRAME_END (R153). -/
def execCommandFrameEnd (received : List Byte) (asel : BitVec 2) (s : State) : Step :=
  s.endOfKind [.command] received fun heard => heard.endFrame asel

/-! ### The other transactions (R150, R151, R158) -/

/-- The whole of the held result frame has been shifted out, behind the status byte (R158). -/
def Port.readWhole (p : Port) : Bool :=
  p.contentHeld && decide (p.content.length + 1 ≤ p.sdo.length)

/-- The CS# rise of a READ RESULT transaction (R158). -/
def Port.endRead (p : Port) : Port :=
  { p.deselect with unread := p.unread && !p.readWhole }

/-- READ_RESULT (R158). -/
def execReadResult (received : List Byte) (s : State) : Step :=
  s.endOfKind [.readResult] received fun heard => { heard with port := heard.port.endRead }

/-- READ_STATUS (R151): the transaction goes on unless CS# rises. -/
def execReadStatus (received : List Byte) (rise : Bool) (s : State) : Step :=
  s.endOfKind [.readStatus] received fun heard => if rise then { heard with port := heard.port.deselect } else heard

/-- UNKNOWN_TRANSACTION (R150): no state but the transaction's own changes. A transaction with no whole byte, whose kind is still
none, ends here too, with the same effect (log 26). -/
def execUnknownTransaction (received : List Byte) (s : State) : Step :=
  s.endOfKind [.unknown, .none] received fun heard => { heard with port := heard.port.deselect }

/-! ### Completion (R156, R180, R181) -/

/-- A command's operation ends with a result and a command-completion event (R156). -/
def State.completeCommand (s : State) (r : Result) : State :=
  { s.endService true with port := s.port.place r }

/-- A successful acknowledgement (R180): the result is OK with the tag, and the command has no completion event of its own. -/
def State.acknowledge (s : State) (tag : Byte) : State :=
  let ended := s.endService false
  { ended with port := s.port.place (.ok [tag]), alert := ended.alert.acknowledge tag s.table }

/-- ACK ALERT at its completion (R180): an equal tag acknowledges; a different one is answered STALE_TAG with the tag after the
command's own completion event. -/
def State.completeAck (s : State) (tag : Byte) : State :=
  if tag = (s.endService false).alert.tag then s.acknowledge tag
  else s.completeCommand (.staleTag (s.endService true).alert.tag)

/-- READ ALERT at its completion (R181): the report follows its own completion event. -/
def State.completeReport (s : State) : State :=
  s.completeCommand (.ok ((s.endService true).alert.report s.table))

/-- COMMAND_COMPLETION (R156): the operation that ends a command completes. -/
def execCommandCompletion (s : State) : Step :=
  match s.service with
  | some (.command r) => .next (s.completeCommand r).lookForDue
  | some (.retention r) => .next ((s.completeCommand r).retainTarget).lookForDue
  | some (.ackAlert tag) => .next (s.completeAck tag).lookForDue
  | some .readAlert => .next s.completeReport.lookForDue
  | some (.request _) | some .step | some .expiry | none => .next s

end Sys2Proof.Machine
end

