-- ==== Sys2Proof/Machine/Policy.lean ====
section
/-! DEFINITION. The host commands on slots (5.6), classes (4.2, 7.2), admission rules (6.2) and global parameters (10.6). -/

namespace Sys2Proof.Machine

/-! ### Offer slots -/

/-- READ SLOT (R102): fields absent in the slot's state are zero. -/
def serveReadSlot (now : Time) (t : Table) (slot : Byte) : Result :=
  match indexOf 4 slot with
  | none => .badArgument
  | some j =>
    let st := t.slot j
    let address : Option Addr :=
      match st with
      | .offered _ i => (t.entry i).life.address
      | _ => none
    let fields : List Byte :=
      match st.claim with
      | none => List.replicate 18 0
      | some c =>
        identityBytes c.identity ++ [byteOf c.cls.val, indexByte st.entry, t.generationOf st.entry, indexByte address,
          addrByte c.low, addrByte c.high] ++ halfBytes c.override ++ remainingBytes now c.deadline
    .ok ([byteOf j.val, st.code] ++ fields)

/-- READ SLOT (R102). -/
def execReadSlot (slot : Byte) (s : State) : Step :=
  s.grantCommand (.readSlot slot) (serveReadSlot s.expiry.time s.table slot, s.table)

/-- An APPROVE that has its address turns the AWAITING claim into an offer (R97). -/
def approveClaim (now : Time) (t : Table) (j : SlotIx) (c : SlotClaim) (i : EntryIx) (a : Addr) : Table :=
  let deadline := afterMs now t.params.offerTime
  let lease := t.fixedLease (t.entry i).cls c.override
  let offered := (t.setLife i (.offered j a lease deadline)).offerAddr a i
  let slotted := (offered.removeItem (.slot j)).setSlot j (.offered { c with deadline } i)
  (slotted.placeItem { kind := .offer i, deadline }).addChange i

/-- The address of an APPROVE: a named one is checked by R52, otherwise the allocator runs R50 from step 2 (R97). -/
def approveAddr (t : Table) (c : SlotClaim) (address : Byte) : Except Result Addr :=
  if address = 0 then
    match t.chooseAddr c.low c.high none with
    | some a => .ok a
    | none => .error (.full .addresses)
  else
    match addrOf address with
    | none => .error .badArgument
    | some a =>
      if Table.inRange c.low c.high a = false ∨ t.addr a = .fixed then .error .badArgument
      else if t.addr a ≠ .free then .error (t.inUseAddr a)
      else .ok a

/-- APPROVE (R96, R97). -/
def serveApprove (now : Time) (t : Table) (slot generation address : Byte) : Result × Table :=
  match t.guardSlot slot generation with
  | .error r => (r, t)
  | .ok (j, c, i) =>
    match approveAddr t c address with
    | .error r => (r, t)
    | .ok a =>
      (.ok ([byteOf j.val, byteOf i.val, (t.entry i).generation, addrByte a] ++ halfBytes t.params.offerTime),
        approveClaim now t j c i a)

/-- APPROVE (R97). -/
def execApprove (slot generation address : Byte) (s : State) : Step :=
  s.grantCommand (.approve slot generation address) (serveApprove s.expiry.time s.table slot generation address)

/-- DENY retires the AWAITING entry; its slot turns REFUSED with the REFUSAL item in place of the APPROVAL one (R98). -/
def denyClaim (now : Time) (t : Table) (j : SlotIx) (c : SlotClaim) (i : EntryIx) : Table :=
  let deadline := afterMs now t.params.approvalTime
  let refused := (t.retireEntry now false i).setSlot j (.refused { c with deadline })
  (refused.moveItem { kind := .refusal j, deadline }).evaluateAdmission

/-- DENY (R96, R98). -/
def serveDeny (now : Time) (t : Table) (slot generation : Byte) : Result × Table :=
  match t.guardSlot slot generation with
  | .error r => (r, t)
  | .ok (j, c, i) => (.ok (byteOf j.val :: halfBytes t.params.approvalTime), denyClaim now t j c i)

/-- DENY (R98). -/
def execDeny (slot generation : Byte) (s : State) : Step :=
  s.grantCommand (.deny slot generation) (serveDeny s.expiry.time s.table slot generation)

/-! ### Classes -/

/-- The count of LAPSED entries of a class (R65). -/
def lapsedOf (t : Table) (c : ClassIx) : Nat :=
  (List.finRange 96).countP fun i => (t.entry i).life.state = .lapsed && (t.entry i).cls = c

/-- READ CLASS (R65). -/
def serveReadClass (t : Table) (cls : Byte) : Result :=
  match indexOf 16 cls with
  | none => .badArgument
  | some c =>
    let r := t.classRecord c
    .ok (t.classFields c ++ [r.generation, byteOf r.members.length, byteOf (lapsedOf t c)])

/-- READ CLASS (R65). -/
def execReadClass (cls : Byte) (s : State) : Step :=
  s.grantCommand (.readClass cls) (serveReadClass s.table cls, s.table)

/-- WRITE CLASS (R64, R190). -/
def serveWriteClass (t : Table) (cls enabled : Byte) (lease hold : Half) : Result × Table :=
  match indexOf 16 cls, yesNoOf enabled with
  | some c, some en =>
    if lease = 0 then (.badArgument, t)
    else
      let after := t.setClass c { t.classRecord c with enabled := en, lease, hold }
      (.ok (after.classFields c), after)
  | _, _ => (.badArgument, t)

/-- WRITE CLASS (R64). -/
def execWriteClass (cls enabled : Byte) (lease hold : Half) (s : State) : Step :=
  s.grantCommand (.writeClass cls enabled lease hold) (serveWriteClass s.table cls enabled lease hold)

/-- One item of a READ CLASS LIST result (R125). -/
def classListItem (t : Table) (i : EntryIx) : List Byte :=
  let e := t.entry i
  [byteOf i.val, e.generation, e.life.state.code, yesNo e.life.pinned, indexByte e.life.address]

/-- READ CLASS LIST (R125): up to 8 items from a position. -/
def serveReadClassList (t : Table) (cls position : Byte) : Result :=
  match indexOf 16 cls with
  | none => .badArgument
  | some c =>
    if 95 < position.toNat then .badArgument
    else
      let r := t.classRecord c
      let items := (r.members.drop position.toNat).take 8
      .ok ([byteOf c.val, r.generation, byteOf r.members.length, byteOf items.length] ++ items.flatMap (classListItem t))

/-- READ CLASS LIST (R125). -/
def execReadClassList (cls position : Byte) (s : State) : Step :=
  s.grantCommand (.readClassList cls position) (serveReadClassList s.table cls position, s.table)

/-! ### Admission rules -/

/-- READ RULE (R110). -/
def serveReadRule (t : Table) (rule : Byte) : Result :=
  match indexOf 16 rule with
  | none => .badArgument
  | some r => .ok (t.ruleRecord r)

/-- READ RULE (R110). -/
def execReadRule (rule : Byte) (s : State) : Step :=
  s.grantCommand (.readRule rule) (serveReadRule s.table rule, s.table)

/-- The fields of a valid admission rule, none where one is out of range (R109). -/
def ruleOf (value : Identity) (length classMatch action low high : Byte) (override : Half) (priority : Byte) :
    Option AdmissionRule := do
  let prefixLength ← indexOf 49 length
  let classMatch ← classMatchOf classMatch
  let action ← actionOf action
  let priority ← yesNoOf priority
  let range ← ruleRangeOf low high
  pure { value, prefixLength, classMatch, action, low := range.1, high := range.2, override, priority }

/-- An admission rule takes the given fields, or none for an invalid one (R109). -/
def Table.setRule (t : Table) (r : RuleIx) (rule : Option AdmissionRule) : Table :=
  { t with rules := t.rules.set r rule }

/-- WRITE RULE (R109): with valid no the other fields are not looked at and read as zero from then on. -/
def serveWriteRule (t : Table) (rule valid : Byte) (value : Identity) (length classMatch action low high : Byte)
    (override : Half) (priority : Byte) : Result × Table :=
  match indexOf 16 rule, yesNoOf valid with
  | some r, some false => (.ok ((t.setRule r none).ruleRecord r), t.setRule r none)
  | some r, some true =>
    match ruleOf value length classMatch action low high override priority with
    | none => (.badArgument, t)
    | some a => (.ok ((t.setRule r (some a)).ruleRecord r), t.setRule r (some a))
  | _, _ => (.badArgument, t)

/-- WRITE RULE (R109). -/
def execWriteRule (rule valid : Byte) (value : Identity) (prefixLength classMatch action low high : Byte) (override : Half)
    (priority : Byte) (s : State) : Step :=
  s.grantCommand (.writeRule rule valid value prefixLength classMatch action low high override priority)
    (serveWriteRule s.table rule valid value prefixLength classMatch action low high override priority)

/-! ### Global parameters -/

/-- The identifier and value that READ and WRITE PARAMETER carry (13.5). -/
def parameterPayload (p : Params) (identifier : Byte) (which : Param) : List Byte :=
  identifier :: halfBytes (p.value which)

/-- READ PARAMETER (R172). -/
def serveReadParameter (t : Table) (identifier : Byte) : Result :=
  match paramOf identifier with
  | none => .badArgument
  | some which => .ok (parameterPayload t.params identifier which)

/-- READ PARAMETER (R172). -/
def execReadParameter (identifier : Byte) (s : State) : Step :=
  s.grantCommand (.readParameter identifier) (serveReadParameter s.table identifier, s.table)

/-- WRITE PARAMETER (R170): a watermark write evaluates the admission state (R114). -/
def serveWriteParameter (t : Table) (identifier : Byte) (value : Half) : Result × Table :=
  match paramOf identifier with
  | none => (.badArgument, t)
  | some which =>
    match t.params.write which value with
    | none => (.badArgument, t)
    | some params =>
      let written : Table := { t with params }
      (.ok (parameterPayload params identifier which), if which.isMark then written.evaluateAdmission else written)

/-- WRITE PARAMETER (R170). -/
def execWriteParameter (identifier : Byte) (value : Half) (s : State) : Step :=
  s.grantCommand (.writeParameter identifier value) (serveWriteParameter s.table identifier value)

end Sys2Proof.Machine
end

