-- ==== Sys2Proof/Machine/Requests.lean ====
section
/-! DEFINITION. The nine request operations: CLAIM and ACCEPT (chapter 5), RESOLVE, WHOIS, DESCRIBE, ENUMERATE, QUERY, RENEW and
RELEASE (chapter 7). Each is the answer and the table that its service gives, and the row that grants it. -/

namespace Sys2Proof.Machine

/-! ### CLAIM (R81 to R90) -/

/-- A rejoin (R83, R84): lease and state, then the descriptor, then the renew count when the descriptor was stored. -/
def serveRejoin (now : Time) (t : Table) (i : EntryIx) (a : Addr) (descriptor : List Byte) : Answer × Table :=
  let renewed := t.renewLease now i
  let lease := renewed.1.leaseSeconds now i
  match renewed.1.fitReplacement i descriptor with
  | some (bytes, cut) =>
    let stored := (renewed.1.replaceDescriptor i bytes cut).countRenewal i
    (.ok ([addrByte a] ++ halfBytes lease ++ [answerFlags renewed.2 cut]), stored)
  | none => (.fullRejoin a lease renewed.2, renewed.1)

/-- The hint of RETRY_LATER(SLOTS): the least remaining time among the deadlines of the slots (R88). -/
def slotsHint (now : Time) (t : Table) : Half :=
  let times := (List.finRange 4).filterMap fun j => ((t.slot j).claim).map fun c => remaining now c.deadline
  BitVec.ofNat 16 (times.min?.getD 0)

/-- A new claim that reaches check 9 with HOLD_FOR_HOST (R89). -/
def holdClaim (now : Time) (t : Table) (i : EntryIx) (j : SlotIx) (identity : Identity) (cls : ClassIx) (v : Verdict)
    (bytes : List Byte) (cut : Bool) : Answer × Table :=
  let deadline := afterMs now t.params.approvalTime
  let claim : SlotClaim :=
    { identity, cls, low := Config.lowestAddress, high := Config.highestAddress, override := v.override, deadline }
  let taken := t.takeEntry i identity cls (.awaiting j) bytes cut
  (.retryLater .approval t.params.approvalTime,
    ((taken.setSlot j (.awaiting claim i)).placeItem { kind := .approval j, deadline }).evaluateAdmission)

/-- A new claim that reaches check 11 (R90). -/
def offerClaim (now : Time) (t : Table) (i : EntryIx) (j : SlotIx) (a : Addr) (identity : Identity) (cls : ClassIx)
    (v : Verdict) (bytes : List Byte) (cut : Bool) : Answer × Table :=
  let deadline := afterMs now t.params.offerTime
  let lease := t.fixedLease cls v.override
  let claim : SlotClaim := { identity, cls, low := v.low, high := v.high, override := v.override, deadline }
  let taken := t.takeEntry i identity cls (.offered j a lease deadline) bytes cut
  (.offer a (taken.entry i).generation t.params.offerTime (cappedLease lease) cut,
    (((taken.offerAddr a i).setSlot j (.offered claim i)).placeItem { kind := .offer i, deadline }).evaluateAdmission)

/-- The new-claim check order (R87). `preferred` 0 is no preference (R50). -/
def serveNewClaim (now : Time) (t : Table) (identity : Identity) (cls : ClassIx) (preferred : Addr)
    (descriptor : List Byte) : Answer × Table :=
  let v := t.verdict identity cls
  if (t.classRecord cls).enabled = false then (.denied .cls, t)
  else if v.action = .deny then (.denied .rule, t)
  else if t.run.isSome then (.retryLater .rehash Config.retryHint, t)
  else match t.lowestFreeSlot with
    | none => (.retryLater .slots (slotsHint now t), t)
    | some j => match t.lowestVacant with
      | none => (.full .entries, t)
      | some i =>
        if t.admission = .restricted ∧ v.priority = false then (.retryLater .restricted Config.retryHint, t)
        else if Config.bucketCapacity ≤ (t.bucket (bucketOf t.seed identity)).length then (.full .bucket, t)
        else match Table.fitDescriptor t.params.truncateDescriptors t.freeBlocks.length descriptor with
          | none => (.full .descriptor, t)
          | some (bytes, cut) =>
            if v.action = .holdForHost then holdClaim now t i j identity cls v bytes cut
            else match t.chooseAddr v.low v.high (some preferred) with
              | none => (.full .addresses, t)
              | some a => offerClaim now t i j a identity cls v bytes cut

/-- A CLAIM whose identity is held by an entry (R83 to R86). -/
def serveHeldClaim (now : Time) (t : Table) (i : EntryIx) (identity : Identity) (cls : ClassIx) (preferred : Addr)
    (descriptor : List Byte) : Answer × Table :=
  let e := t.entry i
  if e.cls ≠ cls then (.mismatchClass e.cls, t)
  else match e.life with
    | .awaiting j =>
      (.retryLater .approval (((t.slot j).claim.map fun c => remainingHalf now c.deadline).getD 0), t)
    | .offered _ a lease deadline =>
      (.offer a e.generation (remainingHalf now deadline) (cappedLease lease) e.truncated, t)
    | .bound a _ _ | .unverified a _ _ | .lapsed a _ _ => serveRejoin now t i a descriptor
    | .vacant => serveNewClaim now t identity cls preferred descriptor

/-- CLAIM (R81): the arguments, then the refusal memory (R82), then an identity held, then a new claim. -/
def serveClaim (now : Time) (t : Table) (identity : Identity) (cls preferred : Byte) (descriptor : List Byte) :
    Answer × Table :=
  match indexOf 16 cls, addrOf preferred with
  | some c, some p =>
    match t.refusedSlot identity with
    | some j => (.denied .host, (t.setSlot j .free).removeItem (.slot j))
    | none => match t.lookup identity with
      | some i => serveHeldClaim now t i identity c p descriptor
      | none => serveNewClaim now t identity c p descriptor
  | _, _ => (.badRequest .argument, t)

/-- CLAIM (R81). -/
def execClaim (identity : Identity) (cls preferred : Byte) (descriptor : List Byte) (s : State) : Step :=
  s.grantRequest (.claim identity cls preferred descriptor)
    (serveClaim s.expiry.time s.table identity cls preferred descriptor)

/-! ### ACCEPT (R91 to R93) -/

/-- An accepted offer binds the entry (R92). -/
def acceptOffer (now : Time) (t : Table) (i : EntryIx) (j : SlotIx) (a : Addr) (lease : Half) : Table :=
  ((((t.startLease now i a lease).setAddr a (.bound i)).appendMember (t.entry i).cls i).setSlot j .free).addChange i

/-- ACCEPT (R91): where address and token both disagree, the address is reported. -/
def serveAccept (now : Time) (t : Table) (identity : Identity) (address token : Byte) : Answer × Table :=
  match t.lookup identity with
  | none => (.notFound, t)
  | some i =>
    let e := t.entry i
    match e.life with
    | .offered j a lease _ =>
      if address ≠ addrByte a then (.mismatchAddress (addrByte a), t)
      else if token ≠ e.generation then (.mismatchToken, t)
      else
        let bound := acceptOffer now t i j a lease
        (.ok ([addrByte a] ++ halfBytes (bound.leaseSeconds now i)), bound)
    | .bound a _ _ =>
      if address ≠ addrByte a then (.mismatchAddress (addrByte a), t)
      else if token ≠ e.generation then (.mismatchToken, t)
      else (.ok ([addrByte a] ++ halfBytes (t.leaseSeconds now i)), t)
    | .awaiting _ | .unverified _ _ _ | .lapsed _ _ _ => (.mismatchState e.life.state, t)
    | .vacant => (.notFound, t)

/-- ACCEPT (R91). -/
def execAccept (identity : Identity) (address token : Byte) (s : State) : Step :=
  s.grantRequest (.accept identity address token) (serveAccept s.expiry.time s.table identity address token)

/-! ### RENEW (R127, R128) -/

/-- RENEW (R127): the address is compared before the state is acted on. R127 names the flag REVIVED alone; the byte's TRUNCATED bit is
0, the model's choice (log 18). -/
def serveRenew (now : Time) (t : Table) (identity : Identity) (address : Byte) : Answer × Table :=
  if addrOf address = none then (.badRequest .argument, t)
  else match t.lookup identity with
    | none => (.notFound, t)
    | some i =>
      let e := t.entry i
      match e.life with
      | .vacant => (.notFound, t)
      | .awaiting _ | .offered _ _ _ _ => (.mismatchState e.life.state, t)
      | .bound a _ _ | .unverified a _ _ | .lapsed a _ _ =>
        if address ≠ addrByte a then (.mismatchAddress (addrByte a), t)
        else if e.life.pinned then (.ok (halfBytes 0xFFFF ++ [answerFlags false false]), t)
        else
          let renewed := t.renewLease now i
          (.ok (halfBytes (renewed.1.leaseSeconds now i) ++ [answerFlags renewed.2 false]), renewed.1.countRenewal i)

/-- RENEW (R127). -/
def execRenew (identity : Identity) (address : Byte) (s : State) : Step :=
  s.grantRequest (.renew identity address) (serveRenew s.expiry.time s.table identity address)

/-! ### RELEASE (R130, R131) -/

/-- RELEASE (R130): the address is compared before the pin. -/
def serveRelease (now : Time) (t : Table) (identity : Identity) (address : Byte) : Answer × Table :=
  if addrOf address = none then (.badRequest .argument, t)
  else if t.run.isSome then (.retryLater .rehash Config.retryHint, t)
  else match t.lookup identity with
    | none => (.notFound, t)
    | some i =>
      let e := t.entry i
      match e.life with
      | .vacant => (.notFound, t)
      | .awaiting _ =>
        if address ≠ 0 then (.mismatchAddress 0, t) else (.ok [0], t.retireAndEvaluate now false i)
      | .offered _ a _ _ | .bound a _ _ | .unverified a _ _ | .lapsed a _ _ =>
        if address ≠ addrByte a then (.mismatchAddress (addrByte a), t)
        else if e.life.pinned then (.denied .pinned, t)
        else (.ok [addrByte a], t.retireAndEvaluate now false i)

/-- RELEASE (R130). -/
def execRelease (identity : Identity) (address : Byte) (s : State) : Step :=
  s.grantRequest (.release identity address) (serveRelease s.expiry.time s.table identity address)

/-! ### Lookups (R118 to R126) -/

/-- RESOLVE (R119): OFFERED and AWAITING entries are not reported. -/
def serveResolve (now : Time) (t : Table) (identity : Identity) : Answer :=
  match t.lookup identity with
  | none => .notFound
  | some i =>
    let e := t.entry i
    match e.life with
    | .vacant | .awaiting _ | .offered _ _ _ _ => .notFound
    | .bound a _ _ | .unverified a _ _ | .lapsed a _ _ =>
      .ok ([addrByte a, e.life.state.code] ++ halfBytes (t.leaseSeconds now i) ++ [byteOf e.cls.val])

/-- RESOLVE (R119). -/
def execResolve (identity : Identity) (s : State) : Step :=
  s.grantRequest (.resolve identity) (serveResolve s.expiry.time s.table identity, s.table)

/-- The identity, class and state of an entry, as WHOIS reports them (R120). -/
def whoisPayload (t : Table) (i : EntryIx) (state : EntryState) : List Byte :=
  identityBytes (t.entry i).identity ++ [byteOf (t.entry i).cls.val, state.code]

/-- WHOIS (R120). -/
def serveWhois (t : Table) (address : Byte) : Answer :=
  match addrOf address with
  | none => .badRequest .argument
  | some a =>
    match t.addr a with
    | .bound i => .ok (whoisPayload t i (t.entry i).life.state)
    | .held i => .ok (whoisPayload t i .lapsed)
    | .fixed | .reserved | .free | .offered _ | .quarantined _ => .notFound

/-- WHOIS (R120). -/
def execWhois (address : Byte) (s : State) : Step :=
  s.grantRequest (.whois address) (serveWhois s.table address, s.table)

/-- The entry that an address record in state BOUND or HELD names (R118). -/
def AddrState.reported : AddrState → Option EntryIx
  | .bound i | .held i => some i
  | .fixed | .reserved | .free | .offered _ | .quarantined _ => none

/-- DESCRIBE (R121): up to 16 descriptor bytes from the offset. -/
def serveDescribe (t : Table) (address offset : Byte) : Answer :=
  match addrOf address with
  | none => .badRequest .argument
  | some a =>
    match (t.addr a).reported with
    | none => .notFound
    | some i =>
      let d := t.descriptor i
      if d.length < offset.toNat then .badRequest .argument
      else .ok ([byteOf d.length, yesNo (t.entry i).truncated] ++ (d.drop offset.toNat).take 16)

/-- DESCRIBE (R121). -/
def execDescribe (address offset : Byte) (s : State) : Step :=
  s.grantRequest (.describe address offset) (serveDescribe s.table address offset, s.table)

/-- One item of an ENUMERATE answer: the address and identity of a listed entry (R124). -/
def enumerateItem (t : Table) (i : EntryIx) : List Byte :=
  indexByte (t.entry i).life.address :: identityBytes (t.entry i).identity

/-- ENUMERATE (R124): at position 0 the generation argument is not compared. -/
def serveEnumerate (t : Table) (cls position generation : Byte) : Answer :=
  match indexOf 16 cls with
  | none => .badRequest .argument
  | some c =>
    let r := t.classRecord c
    if position ≠ 0 ∧ generation ≠ r.generation then .stale r.generation
    else
      let items := (r.members.drop position.toNat).take 5
      .ok ([r.generation, byteOf r.members.length, byteOf items.length] ++ items.flatMap (enumerateItem t))

/-- ENUMERATE (R124). -/
def execEnumerate (cls position generation : Byte) (s : State) : Step :=
  s.grantRequest (.enumerate cls position generation) (serveEnumerate s.table cls position generation, s.table)

/-- QUERY (R126). -/
def serveQuery (t : Table) : Answer :=
  .ok ([t.admission.code, byteOf t.vacantCount, byteOf (t.countAddrs (AddrState.code .free)),
    byteOf (t.countSlots (Slot.code .free)), yesNo t.run.isSome] ++ halfBytes t.seed)

/-- QUERY (R126). -/
def execQuery (s : State) : Step :=
  s.grantRequest .query (serveQuery s.table, s.table)

end Sys2Proof.Machine
end

