-- ==== Sys2Proof/Machine/Dispatch.lean ====
section
/-! DEFINITION. One arm for each command, in the table's order. -/

namespace Sys2Proof.Machine

/-- The effect of a command on everything but the queue. -/
def exec (i : Instr) (s : State) : Host.Outcome State Fault Refusal :=
  match i with
  | .claim identity cls preferred descriptor => Sys2Proof.Machine.execClaim identity cls preferred descriptor s
  | .accept identity address token => Sys2Proof.Machine.execAccept identity address token s
  | .renew identity address => Sys2Proof.Machine.execRenew identity address s
  | .release identity address => Sys2Proof.Machine.execRelease identity address s
  | .resolve identity => Sys2Proof.Machine.execResolve identity s
  | .whois address => Sys2Proof.Machine.execWhois address s
  | .describe address offset => Sys2Proof.Machine.execDescribe address offset s
  | .enumerate cls position generation => Sys2Proof.Machine.execEnumerate cls position generation s
  | .query => Sys2Proof.Machine.execQuery s
  | .addressByte before address read after later => Sys2Proof.Machine.execAddressByte before address read after later s
  | .writeEnd before => Sys2Proof.Machine.execWriteEnd before s
  | .requestCompletion => Sys2Proof.Machine.execRequestCompletion s
  | .stretchLimitReached => Sys2Proof.Machine.execStretchLimitReached s
  | .busStuck => Sys2Proof.Machine.execBusStuck s
  | .hostTransactionStart received => Sys2Proof.Machine.execHostTransactionStart received s
  | .commandFrameEnd received asel => Sys2Proof.Machine.execCommandFrameEnd received asel s
  | .readResult received => Sys2Proof.Machine.execReadResult received s
  | .readStatus received rise => Sys2Proof.Machine.execReadStatus received rise s
  | .unknownTransaction received => Sys2Proof.Machine.execUnknownTransaction received s
  | .commandCompletion => Sys2Proof.Machine.execCommandCompletion s
  | .readEntry index => Sys2Proof.Machine.execReadEntry index s
  | .findIdentity identity => Sys2Proof.Machine.execFindIdentity identity s
  | .readBucket bucket => Sys2Proof.Machine.execReadBucket bucket s
  | .insert identity cls address pinned lease length descriptor => Sys2Proof.Machine.execInsert identity cls address pinned lease length descriptor s
  | .modify index generation selection cls pinned lease address length descriptor => Sys2Proof.Machine.execModify index generation selection cls pinned lease address length descriptor s
  | .retire index generation freeNow => Sys2Proof.Machine.execRetire index generation freeNow s
  | .readAddress address => Sys2Proof.Machine.execReadAddress address s
  | .reserve address => Sys2Proof.Machine.execReserve address s
  | .unreserve address => Sys2Proof.Machine.execUnreserve address s
  | .unquarantine address => Sys2Proof.Machine.execUnquarantine address s
  | .readQuarantine position => Sys2Proof.Machine.execReadQuarantine position s
  | .readSlot slot => Sys2Proof.Machine.execReadSlot slot s
  | .approve slot generation address => Sys2Proof.Machine.execApprove slot generation address s
  | .deny slot generation => Sys2Proof.Machine.execDeny slot generation s
  | .readClass cls => Sys2Proof.Machine.execReadClass cls s
  | .writeClass cls enabled lease hold => Sys2Proof.Machine.execWriteClass cls enabled lease hold s
  | .readClassList cls position => Sys2Proof.Machine.execReadClassList cls position s
  | .readRule rule => Sys2Proof.Machine.execReadRule rule s
  | .writeRule rule valid value prefixLength classMatch action low high override priority => Sys2Proof.Machine.execWriteRule rule valid value prefixLength classMatch action low high override priority s
  | .readParameter identifier => Sys2Proof.Machine.execReadParameter identifier s
  | .writeParameter identifier value => Sys2Proof.Machine.execWriteParameter identifier value s
  | .readAuthority => Sys2Proof.Machine.execReadAuthority s
  | .nextChange => Sys2Proof.Machine.execNextChange s
  | .ackAlert tag => Sys2Proof.Machine.execAckAlert tag s
  | .readAlert => Sys2Proof.Machine.execReadAlert s
  | .rehash seed => Sys2Proof.Machine.execRehash seed s
  | .rehashStep => Sys2Proof.Machine.execRehashStep s
  | .rehashAbortEnding => Sys2Proof.Machine.execRehashAbortEnding s
  | .abort => Sys2Proof.Machine.execAbort s
  | .resetKeep => Sys2Proof.Machine.execResetKeep s
  | .resetAsserted => Sys2Proof.Machine.execResetAsserted s
  | .resetEnd asel => Sys2Proof.Machine.execResetEnd asel s
  | .initialisationEnd => Sys2Proof.Machine.execInitialisationEnd s
  | .authorityTimeTick => Sys2Proof.Machine.execAuthorityTimeTick s
  | .offerExpiry entry deadline => Sys2Proof.Machine.execOfferExpiry entry deadline s
  | .approvalExpiry slot deadline => Sys2Proof.Machine.execApprovalExpiry slot deadline s
  | .refusalExpiry slot deadline => Sys2Proof.Machine.execRefusalExpiry slot deadline s
  | .leaseLapse entry deadline => Sys2Proof.Machine.execLeaseLapse entry deadline s
  | .revalidationEnd entry deadline => Sys2Proof.Machine.execRevalidationEnd entry deadline s
  | .holdEnd entry deadline => Sys2Proof.Machine.execHoldEnd entry deadline s
  | .quarantineEnd address endTime => Sys2Proof.Machine.execQuarantineEnd address endTime s
  | .coalescingTimerExpiry => Sys2Proof.Machine.execCoalescingTimerExpiry s
  | .stopCondition before => Sys2Proof.Machine.execStopCondition before s
  | .expiryOperationCompletion => Sys2Proof.Machine.execExpiryOperationCompletion s
  | .stepOperationCompletion => Sys2Proof.Machine.execStepOperationCompletion s

end Sys2Proof.Machine
end

