-- ==== Sys2Proof/Safety.lean ====
section
/-! DEFINITION. The words the statements use: when a row that is an operation is granted, and the invariants of the part. -/

namespace Sys2Proof.Machine

/-! ### Which rows are operations of the engine -/

/-- The requester whose operation a row is; none for the rows that are no grant. ABORT is none here, because one row stands for
the operation and for the abort request (log 10). -/
def requesterOf : Instr → Option Requester
  | .claim _ _ _ _ | .accept _ _ _ | .renew _ _ | .release _ _ | .resolve _ | .whois _ | .describe _ _ | .enumerate _ _ _
  | .query => some .bus
  | .readEntry _ | .findIdentity _ | .readBucket _ | .insert _ _ _ _ _ _ _ | .modify _ _ _ _ _ _ _ _ _ | .retire _ _ _
  | .readAddress _ | .reserve _ | .unreserve _ | .unquarantine _ | .readQuarantine _ | .readSlot _ | .approve _ _ _
  | .deny _ _ | .readClass _ | .writeClass _ _ _ _ | .readClassList _ _ | .readRule _ | .writeRule _ _ _ _ _ _ _ _ _ _
  | .readParameter _ | .writeParameter _ _ | .readAuthority | .nextChange | .ackAlert _ | .readAlert | .rehash _
  | .rehashStep | .rehashAbortEnding | .resetKeep => some .host
  | .offerExpiry _ _ | .approvalExpiry _ _ | .refusalExpiry _ _ | .leaseLapse _ _ | .revalidationEnd _ _ | .holdEnd _ _
  | .quarantineEnd _ _ => some .expiry
  | .addressByte _ _ _ _ _ | .writeEnd _ | .requestCompletion | .stretchLimitReached | .busStuck
  | .hostTransactionStart _ | .commandFrameEnd _ _ | .readResult _ | .readStatus _ _ | .unknownTransaction _
  | .commandCompletion | .abort | .resetAsserted | .resetEnd _ | .initialisationEnd | .authorityTimeTick
  | .coalescingTimerExpiry | .stopCondition _ | .expiryOperationCompletion | .stepOperationCompletion => none

/-- A requester's waiting operation `i` is what the engine grants next (R20, R22): the part is past initialisation, no operation
is in service, and the rotation reaches this requester. -/
def Granted (s : State) (r : Requester) (i : Instr) : Prop :=
  s.life = .running ∧ s.service = none ∧ s.arbiter.next = some r ∧ s.arbiter.waiting r = some i

/-! ### Kinds of operation in service -/

/-- A request operation. -/
def Service.isRequest : Service → Bool
  | .request _ => true
  | _ => false

/-- An operation of the host command port. -/
def Service.isHost : Service → Bool
  | .command _ | .ackAlert _ | .readAlert | .retention _ | .step => true
  | .request _ | .expiry => false

/-- An expiry operation. -/
def Service.isExpiry : Service → Bool
  | .expiry => true
  | _ => false

/-! ### Invariants of the part -/

/-- In a hard reset every item of state holds its hard-reset value (R182); during initialisation the table holds it too, nothing
waits or is served, the target does not listen, the port is not ready and the alert unit is at rest (R184). -/
structure State.RestsAtStart (s : State) : Prop where
  inReset : s.life = .inReset → s = { State.reset with pending := s.pending }
  table : s.life = .initialising → s.table = Table.reset s.authorityAddress ∧ s.seen = s.table
  engine : s.life = .initialising → s.service = none ∧ s.arbiter = State.reset.arbiter ∧ s.expiry.outstanding = false
  bus : s.life = .initialising → s.target.listening = false ∧ s.target.phase = .unaddressed ∧ s.target.inFlight = false
  port : s.life = .initialising → s.port.ready = false ∧ s.port.command = .idle
  alert : s.life = .initialising → s.alert = Alert.reset

/-- Every block but the engine sees the table as the last completed operation left it (R19). -/
def State.SeesCompletedTable (s : State) : Prop :=
  s.service = none → s.seen = s.table

/-- ALERT# is driven low exactly when the alert tag differs from the acknowledged tag and an enabled cause is pending (R179): a ripe
change set (R178), an AWAITING slot, or a latched event (R177). -/
def State.LineIsRight (s : State) : Prop :=
  let a := s.alert
  let t := s.seen
  let p := t.params
  let mask := p.alertMask
  a.line = true ↔ a.tag ≠ a.acknowledged ∧
    ((mask.changes = true ∧ t.changeSet ≠ [] ∧
        (p.coalesceCount.toNat ≤ t.changeSet.length ∨ a.timer = .expired ∨ p.coalesceTime = 0)) ∨
      (mask.approval = true ∧ ∃ j claim i, t.slot j = .awaiting claim i) ∨
      (mask.admission = true ∧ a.admissionLatch = true) ∨ (mask.busFault = true ∧ a.busFaultLatch = true) ∨
      (mask.done = true ∧ a.doneLatch = true))

/-- One request in flight at most, and the answer is PENDING exactly while one is (R133, R139, R140): the request waits at the
arbiter or is in service. A write is received only while none is in flight, a read is stretched only while one is. -/
structure State.OneRequestInFlight (s : State) : Prop where
  pending : s.target.answerState = .pending ↔ s.target.inFlight = true
  request : s.target.inFlight = true ↔ s.arbiter.bus.isSome ∨ s.service.any Service.isRequest
  one : ¬ (s.arbiter.bus.isSome ∧ s.service.any Service.isRequest)
  receiving : s.target.phase = .receiving → s.target.inFlight = false
  stretching : s.target.phase = .stretching → s.target.inFlight = true

/-- One command at most (R149, R155, R156): the port is EXECUTING exactly while an operation of its own waits or is in service, and
the abort request is set only while a REHASH executes (R157). -/
structure State.OneCommand (s : State) : Prop where
  executing : s.port.command.isExecuting = true ↔ s.arbiter.host.isSome ∨ s.service.any Service.isHost
  one : ¬ (s.arbiter.host.isSome ∧ s.service.any Service.isHost)
  abort : s.port.abortRequest = true → s.port.executingRehash = true

/-- One expiry operation at most (R21, R70): the outstanding mark is set from its submission to its completion. -/
structure State.OneExpiry (s : State) : Prop where
  outstanding : s.expiry.outstanding = true ↔ s.arbiter.expiry.isSome ∨ s.service.any Service.isExpiry
  one : ¬ (s.arbiter.expiry.isSome ∧ s.service.any Service.isExpiry)

/-- The buffers hold at most what the part has room for (R133, R149). -/
structure State.BuffersFit (s : State) : Prop where
  receive : s.target.receive.length ≤ Config.receiveCapacity
  frame : s.port.frame.length ≤ Config.frameCapacity

/-- The stretch timer runs only in STRETCHING, the bus-stuck timer only in RECEIVING, SENDING and DISCARDING (R142, R144). -/
structure State.TimersFitPhase (s : State) : Prop where
  stretch : s.target.stretch ≠ .idle → s.target.phase = .stretching
  stuck : s.target.stuck ≠ .idle → s.target.phase.watched = true

/-- Every global parameter lies in its range, and LOW_MARK is not above HIGH_MARK (R112, R169). -/
structure Params.InRange (p : Params) : Prop where
  offerTime : 50 ≤ p.offerTime.toNat ∧ p.offerTime.toNat ≤ 5000
  approvalTime : 100 ≤ p.approvalTime.toNat ∧ p.approvalTime.toNat ≤ 60000
  quarantineTime : p.quarantineTime.toNat ≤ 3600
  revalidateTime : 1 ≤ p.revalidateTime.toNat ∧ p.revalidateTime.toNat ≤ 3600
  marks : p.lowMark.toNat ≤ p.highMark.toNat ∧ p.highMark.toNat ≤ 96
  coalesceCount : 1 ≤ p.coalesceCount.toNat ∧ p.coalesceCount.toNat ≤ 96
  coalesceTime : p.coalesceTime.toNat ≤ 1000
  stretchLimit : p.stretchLimit.toNat ≤ 25

/-- A bucket holds at most 4 entries, no index twice, in ascending order (R23, R30). -/
def bucketFits (l : List EntryIx) : Prop :=
  l.length ≤ Config.bucketCapacity ∧ l.Pairwise (· < ·)

/-- Every bucket of the index, and of the shadow index, holds at most 4 entries, in ascending order (R23, R30, R34). -/
structure Table.BucketsFit (t : Table) : Prop where
  index : ∀ b, bucketFits (t.bucket b)
  shadow : ∀ r, t.run = some r → ∀ b : BucketIx, bucketFits (r.shadow.get b)

/-- The change set holds no index twice, in ascending order (R173, R174). -/
def Table.ChangeSetSorted (t : Table) : Prop :=
  t.changeSet.Pairwise (· < ·)

/-- The addresses that are FIXED at one authority address: 0x00..0x07, 0x78..0x7F and that address (R40, R41). -/
def isFixed (authority a : Addr) : Prop :=
  a < Config.lowestAddress ∨ Config.highestAddress < a ∨ a = authority

/-- The FIXED records are those and no others (R40, R41); no entry and no queued item has a FIXED address (R42, R44). -/
structure Table.FixedAddressesStay (t : Table) (authority : Addr) : Prop where
  fixed : ∀ a, t.addr a = .fixed ↔ isFixed authority a
  entries : ∀ i a, (t.entry i).life.address = some a → ¬ isFixed authority a
  queue : ∀ x ∈ t.quarantine, ¬ isFixed authority x.address

/-- Every block that an entry lists is occupied, listed once by that entry, and listed by no other (R15, R16). -/
structure Table.PoolIsPartitioned (t : Table) : Prop where
  occupied : ∀ i, ∀ b ∈ (t.entry i).blocks, (t.pool.get b).isSome = true
  once : ∀ i, (t.entry i).blocks.Nodup
  apart : ∀ i k, i ≠ k → ∀ b ∈ (t.entry i).blocks, b ∉ (t.entry k).blocks

/-- No block leaks (R15, R16): besides, every occupied block is listed by an entry that is not VACANT, a VACANT entry holds no
descriptor, and an entry lists as many blocks as its descriptor, of at most 40 bytes, needs. -/
structure Table.PoolIsExact (t : Table) : Prop where
  partitioned : t.PoolIsPartitioned
  listed : ∀ b, (t.pool.get b).isSome = true → ∃ i, (t.entry i).life ≠ .vacant ∧ b ∈ (t.entry i).blocks
  vacant : ∀ i, (t.entry i).life = .vacant → (t.entry i).blocks = [] ∧ (t.entry i).inlineBytes = []
  needed : ∀ i, (t.entry i).blocks.length =
    if (t.descriptor i).length ≤ 8 then 0 else if (t.descriptor i).length ≤ 24 then 1 else 2
  fits : ∀ i, (t.descriptor i).length ≤ 40

/-! ### Invariants of the table that tie its records together -/

/-- Every non-VACANT entry is in exactly the bucket that its identity selects under the seed in force, a VACANT entry is in none
(R23), and no two non-VACANT entries hold the same identity (R2). -/
structure Table.IndexIsExact (t : Table) : Prop where
  indexed : ∀ i b, i ∈ t.bucket b ↔ (t.entry i).life ≠ .vacant ∧ b = bucketOf t.seed (t.entry i).identity
  identity : ∀ i k, (t.entry i).life ≠ .vacant → (t.entry k).life ≠ .vacant →
    (t.entry i).identity = (t.entry k).identity → i = k

/-- During a run the shadow index holds exactly the non-VACANT entries visited, those below the cursor, each in the bucket that its
identity selects under the new seed (R32). -/
def Table.ShadowIsExact (t : Table) : Prop :=
  ∀ r, t.run = some r → ∀ (i : EntryIx) (b : BucketIx), i ∈ r.shadow.get b ↔
    i < r.cursor ∧ (t.entry i).life ≠ .vacant ∧ b = bucketOf r.newSeed (t.entry i).identity

/-- An entry's address and that address's record point at each other, in the states of R42; the quarantine queue holds exactly the
QUARANTINED addresses, each once, with their end times (R44). -/
structure Table.AddressesAgree (t : Table) : Prop where
  offered : ∀ i j a l d, (t.entry i).life = .offered j a l d → t.addr a = .offered i
  bound : ∀ i a l d, (t.entry i).life = .bound a l d → t.addr a = .bound i
  unverified : ∀ i a l d, (t.entry i).life = .unverified a l d → t.addr a = .bound i
  lapsed : ∀ i a l d, (t.entry i).life = .lapsed a l d → t.addr a = .held i
  named : ∀ a i, t.addr a = .offered i ∨ t.addr a = .bound i ∨ t.addr a = .held i → (t.entry i).life.address = some a
  quarantined : ∀ a d, t.addr a = .quarantined d ↔ { address := a, endTime := d } ∈ t.quarantine
  once : (t.quarantine.map fun x => x.address).Nodup

/-- An AWAITING or OFFERED entry and its slot name each other, in the same state, and the slot's identity and class are the entry's
(R78, R79). A REFUSED slot names no entry: no entry holds its identity, nor does another REFUSED slot (R79, R82). -/
structure Table.SlotsAgree (t : Table) : Prop where
  pending : ∀ i j, (t.entry i).life.slot = some j → (t.slot j).entry = some i
  awaiting : ∀ j c i, t.slot j = .awaiting c i → (t.entry i).life = .awaiting j
  offered : ∀ j c i, t.slot j = .offered c i → ∃ a l, (t.entry i).life = .offered j a l c.deadline
  claimed : ∀ j c i, t.slot j = .awaiting c i ∨ t.slot j = .offered c i →
    c.identity = (t.entry i).identity ∧ c.cls = (t.entry i).cls
  refused : ∀ j c, t.slot j = .refused c → ∀ i, (t.entry i).life ≠ .vacant → (t.entry i).identity ≠ c.identity
  once : ∀ j k c d, t.slot j = .refused c → t.slot k = .refused d → c.identity = d.identity → j = k

/-- The list of each class holds exactly the BOUND and UNVERIFIED entries of that class, each once (R122). -/
structure Table.ClassListsAgree (t : Table) : Prop where
  members : ∀ c i, i ∈ (t.classRecord c).members ↔
    (t.entry i).cls = c ∧ ((t.entry i).life.state = .bound ∨ (t.entry i).life.state = .unverified)
  once : ∀ c, (t.classRecord c).members.Nodup

/-- What the owner of a deadline item holds: the state that the item's kind goes with, and the item's own deadline (R67). -/
def Table.ownerHolds (t : Table) (x : DeadlineItem) : Prop :=
  match x.kind with
  | .offer i => (t.entry i).life.state = .offered ∧ (t.entry i).life.deadline = some x.deadline
  | .lease i => (t.entry i).life.state = .bound ∧ (t.entry i).life.deadline = some x.deadline
  | .revalidate i => (t.entry i).life.state = .unverified ∧ (t.entry i).life.deadline = some x.deadline
  | .hold i => (t.entry i).life.state = .lapsed ∧ (t.entry i).life.deadline = some x.deadline
  | .approval j => ∃ c i, t.slot j = .awaiting c i ∧ c.deadline = x.deadline
  | .refusal j => ∃ c, t.slot j = .refused c ∧ c.deadline = x.deadline

/-- The deadline list holds one item for each OFFERED, unpinned BOUND, UNVERIFIED and LAPSED entry and each AWAITING and REFUSED
slot, with its owner's deadline, and nothing else (R67). -/
structure Table.DeadlinesAgree (t : Table) : Prop where
  listed : ∀ x : DeadlineItem, x ∈ t.deadlines ↔ t.ownerHolds x
  once : (t.deadlines.map fun x => x.kind.owner).Nodup

/-- The records of the table agree with each other: entries with index, address map, slots, class lists and deadline list. -/
structure Table.RecordsAgree (t : Table) : Prop where
  index : t.IndexIsExact
  shadow : t.ShadowIsExact
  addresses : t.AddressesAgree
  slots : t.SlotsAgree
  classes : t.ClassListsAgree
  deadlines : t.DeadlinesAgree

/-- The operations of the host port come from the command that it executes (R155), a REHASH's from its second step on as a step or
as the ending (R32, R38); a run goes on only while its REHASH executes, with a step or the ending to come (R31, R35). -/
structure State.RunIsOneCommand (s : State) : Prop where
  waiting : ∀ i, s.arbiter.host = some i →
    (i ≠ .rehashStep ∧ i ≠ .rehashAbortEnding ∧ s.port.command = .executing i) ∨
      ((i = .rehashStep ∨ i = .rehashAbortEnding) ∧ s.port.executingRehash = true)
  stepping : s.service = some .step → s.port.executingRehash = true
  frozen : s.table.run ≠ none → s.port.executingRehash = true ∧
    (∀ v, s.service = some v → v.isHost = true → v = .step) ∧
    ∀ i, s.arbiter.host = some i → i = .rehashStep ∨ i = .rehashAbortEnding

/-! ### The table after the changes that several rules share, field by field -/

/-- An entry taken (R8): the whole record, its blocks filled, its bucket and the change set with its index. -/
def Table.withTaken (t : Table) (i : EntryIx) (identity : Identity) (cls : ClassIx) (life : EntryLife) (bytes : List Byte)
    (truncated : Bool) : Table :=
  let blocks := t.freeBlocks.take (Table.blocksNeeded bytes.length)
  let b := bucketOf t.seed identity
  { t with
    entries := t.entries.set i
      { life, generation := (t.entry i).generation + 1, identity, cls, renewCount := 0, truncated
        inlineBytes := bytes.take 8, blocks }
    pool := Table.fillBlocks t.pool blocks (bytes.drop 8)
    index := t.index.set b (insertAscending i (t.bucket b))
    changeSet := insertAscending i t.changeSet }

/-- A lease started for an entry whose other fields are those of `e` (R5): its record and its LEASE item (R68). -/
def Table.withLease (t : Table) (i : EntryIx) (e : Entry) (a : Addr) (lease : Half) (deadline : Time) : Table :=
  { t with
    entries := t.entries.set i { e with life := .bound a lease (some deadline) }
    deadlines := insertBehind (fun x => !earlier deadline x.deadline) { kind := .lease i, deadline }
      (t.deadlines.filter fun x => x.kind.owner ≠ .entry i) }

/-- The class table with an entry appended to a class list (R123). -/
def Table.classesWith (t : Table) (c : ClassIx) (i : EntryIx) : Vector ClassRecord 16 :=
  let r := t.classRecord c
  t.classes.set c { r with members := r.members ++ [i], generation := r.generation + 1 }

/-- The class table with an entry removed from a class list (R123). -/
def Table.classesWithout (t : Table) (c : ClassIx) (i : EntryIx) : Vector ClassRecord 16 :=
  let r := t.classRecord c
  t.classes.set c { r with members := r.members.filter (· ≠ i), generation := r.generation + 1 }

/-- What every retirement does to an entry (R14): VACANT, out of its bucket, no item, no descriptor, in the change set; identity,
class, generation and renew count stay. -/
def Table.withoutEntry (t : Table) (i : EntryIx) : Table :=
  let e := t.entry i
  let b := bucketOf t.seed e.identity
  { t with
    entries := t.entries.set i { e with life := .vacant, inlineBytes := [], blocks := [], truncated := false }
    pool := Table.emptyBlocks t.pool e.blocks
    index := t.index.set b ((t.bucket b).filter (· ≠ i))
    deadlines := t.deadlines.filter fun x => x.kind.owner ≠ .entry i
    changeSet := insertAscending i t.changeSet }

/-- An address that was in use, released (R14, R45): FREE with free-now or when QUARANTINE_TIME is 0, else QUARANTINED at its place
in the queue. -/
def Table.withReleased (t : Table) (now : Time) (freeNow : Bool) (a : Addr) : Table :=
  let endTime := now + BitVec.ofNat 32 (t.params.quarantineTime.toNat * 1000)
  if freeNow = true ∨ t.params.quarantineTime = 0 then { t with map := t.map.set a .free }
  else { t with
    map := t.map.set a (.quarantined endTime)
    quarantine := insertBehind (fun x => !earlier endTime x.endTime) { address := a, endTime } t.quarantine }

/-- What RENEW and a rejoin CLAIM make of an entry with an address in use or held (R12, R13, R83, R128): that address, the table with
the lease started, the lease in the answer, and whether the entry was revived; a pinned entry has no lease to start. -/
def Table.withRenewal (t : Table) (now : Time) (i : EntryIx) : Option (Addr × Table × Half × Bool) :=
  let e := t.entry i
  let ends (lease : Half) := now + BitVec.ofNat 32 (lease.toNat * 1000)
  match e.life with
  | .bound a _ none => some (a, t, 0xFFFF, false)
  | .bound a lease (some _) => some (a, t.withLease i e a lease (ends lease), remainingSeconds now (ends lease), false)
  | .unverified a lease _ =>
    some (a, { t.withLease i e a lease (ends lease) with changeSet := insertAscending i t.changeSet },
      remainingSeconds now (ends lease), false)
  | .lapsed a lease _ =>
    some (a, { t.withLease i e a lease (ends lease) with
      map := t.map.set a (.bound i), classes := t.classesWith e.cls i, changeSet := insertAscending i t.changeSet },
      remainingSeconds now (ends lease), true)
  | .vacant | .awaiting _ | .offered _ _ _ _ => none

/-- What the checks of a new claim leave when none refuses: the slot, the entry and the descriptor as it would be stored (R87). -/
structure Table.ClaimPasses (t : Table) (identity : Identity) (c : ClassIx) (d : List Byte) (j : SlotIx) (i : EntryIx)
    (bytes : List Byte) (cut : Bool) : Prop where
  notRefused : t.refusedSlot identity = none
  unknown : t.lookup identity = none
  enabled : (t.classRecord c).enabled = true
  notDenied : (t.verdict identity c).action ≠ .deny
  noRun : t.run = none
  slot : t.lowestFreeSlot = some j
  entry : t.lowestVacant = some i
  admitted : t.admission = .opened ∨ (t.verdict identity c).priority = true
  room : (t.bucket (bucketOf t.seed identity)).length < 4
  fits : Table.fitDescriptor t.params.truncateDescriptors t.freeBlocks.length d = some (bytes, cut)

/-- A MODIFY's arguments spell an edit (R164, R190): the fields its selection byte names, each with a value in its range. -/
structure Edit.Spelled (x : Edit) (t : Table) (sel cls pin : Byte) (lease : Half) (address length : Byte)
    (d : List Byte) : Prop where
  inRange : sel.toNat ≤ 31
  class_ : (sel.getLsbD 0 = false ∧ x.cls = none) ∨
    (sel.getLsbD 0 = true ∧ ∃ c : ClassIx, cls.toNat = c.val ∧ x.cls = some c)
  pinned_ : (sel.getLsbD 1 = false ∧ x.pinned = none) ∨
    (sel.getLsbD 1 = true ∧ ∃ b : Bool, pin = yesNo b ∧ x.pinned = some b)
  lease_ : (sel.getLsbD 2 = false ∧ x.lease = none) ∨ (sel.getLsbD 2 = true ∧ lease ≠ 0 ∧ x.lease = some lease)
  descriptor_ : (sel.getLsbD 3 = false ∧ x.descriptor = none) ∨
    (sel.getLsbD 3 = true ∧ length.toNat ≤ 40 ∧ length.toNat = d.length ∧ x.descriptor = some d)
  address_ : (sel.getLsbD 4 = false ∧ x.address = none) ∨
    (sel.getLsbD 4 = true ∧ ∃ a : Addr, address.toNat = a.val ∧ t.addr a ≠ .fixed ∧ x.address = some a)

/-! ### The bytes of messages and frames, written from 13.2 and 13.5 -/

/-- A request's kind byte and payload (13.2). -/
def requestBody : Instr → Option (Byte × List Byte)
  | .claim identity cls preferred d => some (0x10, identityBytes identity ++ [cls, preferred, byteOf d.length] ++ d)
  | .accept identity address token => some (0x11, identityBytes identity ++ [address, token])
  | .renew identity address => some (0x12, identityBytes identity ++ [address])
  | .release identity address => some (0x13, identityBytes identity ++ [address])
  | .resolve identity => some (0x14, identityBytes identity)
  | .whois address => some (0x15, [address])
  | .describe address offset => some (0x16, [address, offset])
  | .enumerate cls position generation => some (0x17, [cls, position, generation])
  | .query => some (0x18, [])
  | _ => none

/-- A request message: kind, length, payload, check byte (R137). -/
def requestMessage (kind : Byte) (payload : List Byte) : List Byte :=
  let body := kind :: byteOf payload.length :: payload
  body ++ [crc8 body]

/-- A command's code and argument bytes (13.5). -/
def commandBody : Instr → Option (Byte × List Byte)
  | .readEntry index => some (0x01, [index])
  | .findIdentity identity => some (0x02, identityBytes identity)
  | .readBucket bucket => some (0x03, [bucket])
  | .insert identity cls address pinned lease n d =>
    some (0x04, identityBytes identity ++ [cls, address, pinned] ++ halfBytes lease ++ [n] ++ d)
  | .modify index generation selection cls pinned lease address n d =>
    some (0x05, [index, generation, selection, cls, pinned] ++ halfBytes lease ++ [address, n] ++ d)
  | .retire index generation freeNow => some (0x06, [index, generation, freeNow])
  | .readAddress address => some (0x07, [address])
  | .reserve address => some (0x08, [address])
  | .unreserve address => some (0x09, [address])
  | .unquarantine address => some (0x0A, [address])
  | .readQuarantine position => some (0x0B, [position])
  | .readSlot slot => some (0x0C, [slot])
  | .approve slot generation address => some (0x0D, [slot, generation, address])
  | .deny slot generation => some (0x0E, [slot, generation])
  | .readClass cls => some (0x0F, [cls])
  | .writeClass cls enabled lease hold => some (0x10, [cls, enabled] ++ halfBytes lease ++ halfBytes hold)
  | .readClassList cls position => some (0x11, [cls, position])
  | .readRule rule => some (0x12, [rule])
  | .writeRule rule valid value length classMatch action low high override priority =>
    some (0x13, [rule, valid] ++ identityBytes value ++ [length, classMatch, action, low, high] ++ halfBytes override ++
      [priority])
  | .readParameter identifier => some (0x14, [identifier])
  | .writeParameter identifier value => some (0x15, [identifier] ++ halfBytes value)
  | .readAuthority => some (0x16, [])
  | .nextChange => some (0x17, [])
  | .ackAlert tag => some (0x18, [tag])
  | .readAlert => some (0x19, [])
  | .rehash seed => some (0x1A, halfBytes seed)
  | .abort => some (0x1B, [])
  | .resetKeep => some (0x1C, [])
  | _ => none

/-- A command frame: code, sequence, length, arguments, check byte (13.4). -/
def commandFrame (code sequence : Byte) (arguments : List Byte) : List Byte :=
  let body := code :: sequence :: byteOf arguments.length :: arguments
  body ++ [crc8 body]

end Sys2Proof.Machine
end

