-- ==== Sys2Proof/Certificates/Slice0/Obligations.lean ====
section
/-! DEFINITION. The statements for the provers. `s.served r t v` is the state with requester r's operation in service, handing back
v and leaving the table t; it differs from s in the table, the service and the arbiter alone. -/

open Sys2Proof Sys2Proof.Machine

/-! ### The machine -/

/-- Tier 1. A step takes the command at the front of the queue and runs it on the state with the queue's rest. -/
def Obligations.StepRunsTheFrontCommand : Prop :=
  ∀ (c : Instr) (rest : List Instr) (s : State),
    step { s with pending := c :: rest } = exec c { s with pending := rest }

/-- Tier 2. No command stops the part, and none touches the queue: an inference from the rules, none of which names a stop
(logs 2 and 17). -/
def Obligations.EveryCommandAnswersANextState : Prop :=
  ∀ (i : Instr) (s : State), ∃ t, exec i s = .next t ∧ t.pending = s.pending

/-- Tier 2. A granted operation changes the table and goes into service; the arbiter loses it and marks its requester; everything
else stays until the completion (R19, R20). A row that is not granted changes nothing: the model's choice (log 1). -/
def Obligations.OperationsAreGranted : Prop :=
  ∀ (i : Instr) (r : Requester) (s : State), requesterOf i = some r →
    (Granted s r i → ∃ (table : Table) (service : Service), exec i s = .next
      { s with table, service := some service, arbiter := { s.arbiter.remove r with lastGranted := r } }) ∧
    (¬ Granted s r i → exec i s = .next s)

/-- Tier 1. The arbiter grants the first waiting operation in the rotation bus, host, expiry, from the requester after the
last-granted one (R20). -/
def Obligations.ArbiterRotates : Prop :=
  ∀ a : Arbiter,
    (a.lastGranted = .expiry → a.next = if a.bus.isSome then some .bus else if a.host.isSome then some .host
      else if a.expiry.isSome then some .expiry else none) ∧
    (a.lastGranted = .bus → a.next = if a.host.isSome then some .host else if a.expiry.isSome then some .expiry
      else if a.bus.isSome then some .bus else none) ∧
    (a.lastGranted = .host → a.next = if a.expiry.isSome then some .expiry else if a.bus.isSome then some .bus
      else if a.host.isSome then some .host else none)

/-! ### Resets and time -/

/-- Tier 1. The values after hard reset that the spec gives, at any authority address: the table's, the thirteen parameters, the
arbiter's, the expiry unit's, the target's, the port's and the alert unit's (R22, R23, R25, R40, R60, R63, R67, R70, R78, R104, R113,
R133, R149, R169, R173, R175, R177 to R179, R182). -/
def Obligations.ValuesAfterHardReset : Prop :=
  (∀ authority : Addr, let t := Table.reset authority
    (∀ i, (t.entry i).life = .vacant ∧ (t.entry i).generation = 0 ∧ (t.entry i).identity = 0 ∧ (t.entry i).cls = 0 ∧
      (t.entry i).renewCount = 0 ∧ (t.entry i).truncated = false ∧ t.descriptor i = [] ∧ (t.entry i).blocks = []) ∧
    t.freeBlocks.length = 40 ∧ t.seed = 0xA5C3 ∧ (∀ b, t.bucket b = []) ∧ t.run = none ∧
    (∀ a, (isFixed authority a → t.addr a = .fixed) ∧ (¬ isFixed authority a → t.addr a = .free)) ∧ t.quarantine = [] ∧
    (∀ j, t.slot j = .free) ∧
    (∀ c, t.classRecord c = { enabled := true, lease := 600, hold := 60, members := [], generation := 0 }) ∧
    (∀ r : RuleIx, t.rules.get r = none) ∧ t.admission = .opened ∧ t.vacantCount = 96 ∧
    t.params = {
      offerTime := 500, approvalTime := 5000, quarantineTime := 30, revalidateTime := 120, lowMark := 8, highMark := 16
      coalesceCount := 4, coalesceTime := 20, stretchLimit := 2
      alertMask := { changes := true, approval := true, admission := true, busFault := true, done := true }
      earlyReuse := false, truncateDescriptors := false, defaultAction := .allow } ∧
    t.deadlines = [] ∧ t.changeSet = []) ∧
  State.reset.arbiter = { bus := none, host := none, expiry := none, lastGranted := .expiry } ∧
  State.reset.service = none ∧ State.reset.expiry = { time := 0, outstanding := false } ∧
  (let target := State.reset.target
   target.listening = false ∧ target.phase = .unaddressed ∧ target.receive = [] ∧ target.overflow = false ∧
   target.answer = [] ∧ target.answerState = .empty ∧ target.inFlight = false ∧ target.content = none ∧
   target.stretch = .idle ∧ target.stuck = .idle) ∧
  (let port := State.reset.port
   port.ready = false ∧ port.command = .idle ∧ port.sequence = 0 ∧ port.frame = [] ∧ port.overflow = false ∧
   port.result = none ∧ port.unread = false ∧ port.refused = false ∧ port.frameError = false ∧
   port.abortRequest = false ∧ port.kind = .none) ∧
  State.reset.alert = {
    tag := 0, acknowledged := 0, admissionLatch := false, busFaultLatch := false, doneLatch := false, timer := .idle
    line := false }

/-- Tier 1. RESET# low, its rise, and the end of initialisation (R182, R183, R184). What State.reset holds where the spec gives no
value is the model's choice (logs 8 and 14). -/
def Obligations.HardResetRestartsThePart : Prop :=
  ∀ s : State,
    exec .resetAsserted s = .next { State.reset with pending := s.pending } ∧
    (∀ asel : BitVec 2, s.life = .inReset → ∃ authority : Addr, authority.val = 0x0C + asel.toNat ∧
      exec (.resetEnd asel) s = .next { s with
        life := .initialising, authorityAddress := authority, table := Table.reset authority
        seen := Table.reset authority }) ∧
    (s.life = .initialising → s.seen.dueCandidate s.expiry.time = none →
      exec .initialisationEnd s = .next { s with
        life := .running, target := { s.target with listening := true }, port := { s.port with ready := true } })

/-- Tier 2. A millisecond (R60, R70): authority time advances and wraps, every running timer has one millisecond less (the model's
choice of moment, log 4), and a due candidate is submitted while the mark is clear. Before it ends, the target hears the bus's
activity of that millisecond, which the row that opened the transaction gave: the model's choice of operands (log 5). -/
def Obligations.MillisecondCounts : Prop :=
  ∀ s : State, s.life ≠ .inReset →
    let heard := s.target.hears (s.target.coming.headD [])
    let less (timer : Timer) : Timer := match timer with
      | .idle => .idle
      | .running left => .running (left - 1)
    let counted := { s with
      expiry := { s.expiry with time := s.expiry.time + 1 }
      target := { heard with stretch := less heard.stretch, stuck := less heard.stuck, coming := s.target.coming.tail }
      alert := { s.alert with timer := match s.alert.timer with
        | .idle => .idle
        | .running left => .running (left - 1)
        | .expired => .expired } }
    let candidate := s.seen.dueCandidate (s.expiry.time + 1)
    (s.life = .initialising ∨ s.expiry.outstanding = true ∨ candidate = none → exec .authorityTimeTick s = .next counted) ∧
    (∀ i, s.life = .running → s.expiry.outstanding = false → candidate = some i →
      exec .authorityTimeTick s = .next { counted with
        arbiter := { s.arbiter with expiry := some i }
        expiry := { time := s.expiry.time + 1, outstanding := true } })

/-- Tier 2. Due, earlier and remaining times, and the lease an answer reports (R45, R61), the due candidate (R36, R70), and the expiry
unit's look, which every completion ends with (R70, R184). -/
def Obligations.ExpiryUnitSubmitsTheEarlierCandidate : Prop :=
  (∀ now deadline : Time,
    (due now deadline = true ↔ (now - deadline).toNat < 2 ^ 31) ∧
    (due now deadline = true → remaining now deadline = 0 ∧ remainingSeconds now deadline = 0) ∧
    (due now deadline = false → remaining now deadline = (deadline - now).toNat ∧
      (remainingSeconds now deadline).toNat = min 65534 (((deadline - now).toNat + 999) / 1000)) ∧
    (earlier now deadline = true ↔ 1 ≤ (deadline - now).toNat ∧ (deadline - now).toNat < 2 ^ 31)) ∧
  (∀ (t : Table) (now : Time),
    (∀ i, ((t.entry i).life.deadline = none → t.leaseSeconds now i = 0xFFFF) ∧
      (∀ d, (t.entry i).life.deadline = some d → t.leaseSeconds now i = remainingSeconds now d)) ∧
    (∀ kind : ItemKind, kind.deferred = match kind with
      | .offer _ | .approval _ | .hold _ | .refusal _ => true
      | .lease _ | .revalidate _ => false) ∧
    (t.run = none → t.dueItem now = (t.deadlines.head?.filter fun x => due now x.deadline)) ∧
    (t.run ≠ none → t.dueItem now = t.deadlines.find? fun x => due now x.deadline && !x.kind.deferred) ∧
    (t.dueQuarantine now = none → t.dueCandidate now = (t.dueItem now).map DeadlineItem.row) ∧
    (∀ q, t.dueQuarantine now = some q → t.dueItem now = none →
      t.dueCandidate now = some (.quarantineEnd q.address q.endTime)) ∧
    (∀ q x, t.dueQuarantine now = some q → t.dueItem now = some x →
      (earlier q.endTime x.deadline = true → t.dueCandidate now = some (.quarantineEnd q.address q.endTime)) ∧
      (earlier q.endTime x.deadline = false → t.dueCandidate now = some x.row))) ∧
  (∀ s : State,
    let candidate := s.seen.dueCandidate s.expiry.time
    (s.life ≠ .running ∨ s.expiry.outstanding = true ∨ candidate = none → s.lookForDue = s) ∧
    (∀ i, s.life = .running → s.expiry.outstanding = false → candidate = some i → s.lookForDue = { s with
      arbiter := { s.arbiter with expiry := some i }, expiry := { s.expiry with outstanding := true } }))

/-! ### The member bus target -/

/-- Tier 2. The ninth clock of an address byte, in every phase: a transaction still open ends first, as a repeated START ends it
(R134, R138), and then the target answers the address byte and SCL is low (R134, R141, R142, R144; that the row ends at that fall
of SCL, and its operand for the activity to come, are the model's choice, log 5). -/
def Obligations.AddressByteIsAnswered : Prop :=
  ∀ (s : State) (a : Addr) (later : List (List BusActivity)), s.life ≠ .inReset →
    ∃ ended : State, exec (.writeEnd []) s = .next ended ∧
      (s.target.phase = .unaddressed → ended = { s with target := s.target.leave }) ∧
      let fresh := { ended.target with shifted := [], released := false, coming := later }
      let limit := s.seen.params.stretchLimit
      (∀ read, a ≠ s.authorityAddress ∨ s.target.listening = false →
        exec (.addressByte [] a read [] later) s = .next { ended with target := { fresh with acks := [false] } }) ∧
      (a = s.authorityAddress → s.target.listening = true →
        (ended.target.answerState = .pending → exec (.addressByte [] a false [] later) s =
          .next { ended with target := { fresh with acks := [false] } }) ∧
        (ended.target.answerState ≠ .pending → exec (.addressByte [] a false [] later) s =
          .next { ended with target := { fresh with acks := [true], phase := .receiving, stuck := .running 32 } }) ∧
        (ended.target.answerState = .empty → exec (.addressByte [] a true [] later) s = .next { ended with target := {
          fresh with acks := [true], phase := .sending, content := some Answer.noAnswer.bytes, stuck := .running 32 } }) ∧
        (ended.target.answerState = .ready → exec (.addressByte [] a true [] later) s = .next { ended with target := {
          fresh with acks := [true], phase := .sending, content := some ended.target.answer, stuck := .running 32 } }) ∧
        (ended.target.answerState = .pending → limit = 0 → exec (.addressByte [] a true [] later) s = .next { ended with
          target := { fresh with acks := [true], phase := .sending, content := some Answer.busy.bytes
                                 stuck := .running 32 } }) ∧
        (ended.target.answerState = .pending → limit ≠ 0 → exec (.addressByte [] a true [] later) s = .next { ended with
          target := { fresh with acks := [true], phase := .stretching, stretch := .running limit.toNat } }))

/-- Tier 2. One whole byte on the bus: RECEIVING stores 56 bytes and NACKs the rest, SENDING shifts out the read content, then
0xFF, until the controller's NACK, DISCARDING NACKs (R135, R136, R141, R146). The bus-stuck timer at each edge of SCL: a fall starts it
in RECEIVING, SENDING and DISCARDING, a rise returns it to idle (R144). A row carries the bytes and edges before or after its own
event, which act one by one, a byte's last edge being the fall after its ninth clock: the model's choice of operands (logs 5
and 6). -/
def Obligations.BytesOnTheBus : Prop :=
  (∀ (t : Target) (b : BusByte),
    (t.phase = .receiving → t.receive.length < 56 →
      t.byte b = { t with receive := t.receive ++ [b.data], acks := t.acks ++ [true] }) ∧
    (t.phase = .receiving → 56 ≤ t.receive.length → t.byte b = { t with overflow := true, acks := t.acks ++ [false] }) ∧
    (∀ content, t.phase = .sending → t.content = some content → t.released = false →
      t.byte b = { t with shifted := t.shifted ++ [content.getD t.shifted.length 0xFF], released := !b.ack }) ∧
    (t.phase = .sending → t.released = true → t.byte b = t) ∧
    (t.phase = .discarding → t.byte b = { t with acks := t.acks ++ [false] }) ∧
    (t.phase = .unaddressed ∨ t.phase = .stretching → t.byte b = t)) ∧
  (∀ t : Target,
    (t.phase = .receiving ∨ t.phase = .sending ∨ t.phase = .discarding →
      t.hear .sclFalls = { t with stuck := .running 32 }) ∧
    (t.phase = .unaddressed ∨ t.phase = .stretching → t.hear .sclFalls = { t with stuck := .idle }) ∧
    t.hear .sclRises = { t with stuck := .idle } ∧
    (∀ b, t.hear (.byte b) = (t.byte b).hear .sclFalls) ∧
    (∀ l, t.hears l = l.foldl Target.hear t)) ∧
  (∀ (s : State) (before after : List BusActivity) (a : Addr) (read : Bool) (later : List (List BusActivity)),
    let heard := { s with target := s.target.hears before }
    exec (.writeEnd before) s = exec (.writeEnd []) heard ∧
    exec (.stopCondition before) s = exec (.stopCondition []) heard ∧
    ∃ opened, exec (.addressByte [] a read [] later) heard = .next opened ∧
      (s.life ≠ .inReset → exec (.addressByte before a read after later) s =
        .next { opened with target := opened.target.hears after }))

/-- Tier 2. The end of a write in RECEIVING is a presence probe, a BAD_REQUEST or a good message; any other phase ends without
effect on the answer (R134, R138, R139). What the target keeps of the transaction, all written out: nothing received, no read content,
both timers idle. That the receive buffer is empty while a good message's request waits is an inference (log 12), the timers and the
activity to come at the end of a transaction are the model's reading of R144 (log 5). -/
def Obligations.WritesEnd : Prop :=
  ∀ s : State,
    let left := s.target.leave
    left = { s.target with
      phase := .unaddressed, receive := [], overflow := false, content := none, stretch := .idle, stuck := .idle, coming := [] } ∧
    (s.target.phase ≠ .receiving ∨ s.target.receive = [] →
      exec (.writeEnd []) s = .next { s with target := left } ∧ exec (.stopCondition []) s = .next { s with target := left }) ∧
    (s.target.phase = .receiving → s.target.receive ≠ [] →
      (∀ reason, evaluateRequest s.target.receive s.target.overflow = .error reason →
        let t := { s with target := { left with answer := (Answer.badRequest reason).bytes, answerState := .ready } }
        exec (.writeEnd []) s = .next t ∧ exec (.stopCondition []) s = .next t) ∧
      (∀ i, evaluateRequest s.target.receive s.target.overflow = .ok i →
        let t := { s with
          target := { left with answer := [], answerState := .pending, inFlight := true }
          arbiter := { s.arbiter with bus := some i } }
        exec (.writeEnd []) s = .next t ∧ exec (.stopCondition []) s = .next t))

/-- Tier 2. The check byte, a CRC-8 with polynomial 0x31 from 0xFF over each byte's bits from the most significant (R190), and the
order of the intake checks of a request (R138), the payload lengths that each kind allows and a CLAIM's descriptor-length byte among
them (R137). -/
def Obligations.RequestChecksInOrder : Prop :=
  (∀ bytes : List Byte, crc8 bytes = (bytes.flatMap fun b => (List.range 8).map fun k => b.getLsbD (7 - k)).foldl
    (fun (register : Byte) bit => if xor bit (register.getLsbD 7) then (register <<< 1) ^^^ 0x31 else register <<< 1) 0xFF) ∧
  ∀ bytes : List Byte, bytes ≠ [] →
    evaluateRequest bytes true = .error .length ∧
    (bytes.length < 3 → evaluateRequest bytes false = .error .incomplete) ∧
    (∀ kind length rest, bytes = kind :: length :: rest → rest ≠ [] →
      (bytes.length < length.toNat + 3 → evaluateRequest bytes false = .error .incomplete) ∧
      (length.toNat + 3 < bytes.length → evaluateRequest bytes false = .error .length) ∧
      (bytes.length = length.toNat + 3 →
        (bytes.getLastD 0 ≠ crc8 bytes.dropLast → evaluateRequest bytes false = .error .check) ∧
        (bytes.getLastD 0 = crc8 bytes.dropLast →
          (kind.toNat < 0x10 ∨ 0x18 < kind.toNat → evaluateRequest bytes false = .error .kind) ∧
          (0x10 ≤ kind.toNat → kind.toNat ≤ 0x18 →
            let payload := rest.dropLast
            let n := length.toNat
            let allowed := kind = 0x10 ∧ 9 ≤ n ∧ n ≤ 49 ∨
              (kind.toNat, n) ∈ [(0x11, 8), (0x12, 7), (0x13, 7), (0x14, 6), (0x15, 1), (0x16, 2), (0x17, 3), (0x18, 0)]
            let disagrees := kind = 0x10 ∧ (payload.getD 8 0).toNat ≠ n - 9
            (¬ allowed ∨ disagrees → evaluateRequest bytes false = .error .length) ∧
            (allowed → ¬ disagrees → ∃ i, evaluateRequest bytes false = .ok i)))))

/-- Tier 2. Every well-formed request's message passes the intake checks and is read back as that request (R137, R138, R190). -/
def Obligations.RequestMessagesAreReadBack : Prop :=
  ∀ (i : Instr) (kind : Byte) (payload : List Byte), requestBody i = some (kind, payload) → i.wellFormed = true →
    evaluateRequest (requestMessage kind payload) false = .ok i

/-- Tier 2. A request's completion writes its answer, and a stretched read goes on with it (R140, R142); an expiry operation's
clears the outstanding mark (R70). The frame and the codes of every answer, with the reason values and the state codes (13.3), and the
byte order of its fields (R190). The flags byte of the FULL(DESCRIPTOR) of a rejoin carries REVIVED alone: an inference, the model's
(log 18). -/
def Obligations.OperationsComplete : Prop :=
  (∀ a : Answer,
    let body := a.code :: byteOf a.payload.length :: a.payload
    a.bytes = body ++ [crc8 body]) ∧
  (∀ n : Nat, n < 256 → (byteOf n).toNat = n) ∧ (∀ a : Addr, (addrByte a).toNat = a.val) ∧
  (∀ h : Half, halfBytes h = [byteOf (h.toNat / 256), byteOf (h.toNat % 256)]) ∧
  (∀ i : Identity, identityBytes i = [i.extractLsb' 40 8, i.extractLsb' 32 8, i.extractLsb' 24 8, i.extractLsb' 16 8,
    i.extractLsb' 8 8, i.extractLsb' 0 8]) ∧
  (∀ revived truncated : Bool, (answerFlags revived truncated).toNat = revived.toNat + 2 * truncated.toNat) ∧
  (∀ (payload : List Byte) (a : Addr) (token address generation : Byte) (ms lease hint : Half) (c : ClassIx) (flag : Bool)
      (state : EntryState),
    Answer.ok payload = { code := 0x00, payload } ∧
    Answer.offer a token ms lease flag = {
      code := 0x01
      payload := [addrByte a, token] ++ halfBytes ms ++ halfBytes lease ++ [answerFlags false flag] } ∧
    Answer.retryLater .approval hint = { code := 0x02, payload := 1 :: halfBytes hint } ∧
    Answer.retryLater .slots hint = { code := 0x02, payload := 2 :: halfBytes hint } ∧
    Answer.retryLater .restricted hint = { code := 0x02, payload := 3 :: halfBytes hint } ∧
    Answer.retryLater .rehash hint = { code := 0x02, payload := 4 :: halfBytes hint } ∧
    Answer.denied .cls = { code := 0x03, payload := [1] } ∧ Answer.denied .rule = { code := 0x03, payload := [2] } ∧
    Answer.denied .host = { code := 0x03, payload := [3] } ∧ Answer.denied .pinned = { code := 0x03, payload := [4] } ∧
    Answer.full .entries = { code := 0x04, payload := [1] } ∧ Answer.full .bucket = { code := 0x04, payload := [2] } ∧
    Answer.full .descriptor = { code := 0x04, payload := [3] } ∧ Answer.full .addresses = { code := 0x04, payload := [4] } ∧
    Answer.fullRejoin a lease flag = {
      code := 0x04
      payload := [3, addrByte a] ++ halfBytes lease ++ [answerFlags flag false] } ∧
    Answer.notFound = { code := 0x05, payload := [] } ∧
    Answer.mismatchClass c = { code := 0x06, payload := [1, byteOf c.val] } ∧
    Answer.mismatchAddress address = { code := 0x06, payload := [2, address] } ∧
    Answer.mismatchToken = { code := 0x06, payload := [3, 0] } ∧
    Answer.mismatchState state = { code := 0x06, payload := [4, state.code] } ∧
    Answer.stale generation = { code := 0x07, payload := [generation] } ∧
    Answer.badRequest .check = { code := 0x08, payload := [1] } ∧ Answer.badRequest .length = { code := 0x08, payload := [2] } ∧
    Answer.badRequest .kind = { code := 0x08, payload := [3] } ∧
    Answer.badRequest .incomplete = { code := 0x08, payload := [4] } ∧
    Answer.badRequest .argument = { code := 0x08, payload := [5] } ∧
    Answer.busy = { code := 0x0E, payload := [] } ∧ Answer.noAnswer = { code := 0x0F, payload := [] }) ∧
  ([EntryState.vacant, .awaiting, .offered, .bound, .unverified, .lapsed].map EntryState.code = [0, 1, 2, 3, 4, 5] ∧
    (∀ (i : EntryIx) (d : Time), [AddrState.fixed, .reserved, .free, .offered i, .bound i, .held i, .quarantined d].map
      AddrState.code = [0, 1, 2, 3, 4, 5, 6]) ∧
    (∀ (c : SlotClaim) (i : EntryIx), [Slot.free, .awaiting c i, .offered c i, .refused c].map Slot.code = [0, 1, 2, 3]) ∧
    [Admission.opened, .restricted].map Admission.code = [0, 1]) ∧
  ∀ s : State,
    let ended := { s with service := none, seen := s.table, alert := s.alert.take s.seen s.table false }
    (∀ a : Answer, s.service = some (.request a) →
      let written := { s.target with answer := a.bytes, answerState := .ready, inFlight := false }
      (s.target.phase ≠ .stretching →
        exec .requestCompletion s = .next { ended with target := written }.lookForDue) ∧
      (s.target.phase = .stretching →
        exec .requestCompletion s = .next { ended with target := { written with
          phase := .sending, content := some a.bytes, stretch := .idle, stuck := .running 32 } }.lookForDue)) ∧
    (s.service = some .expiry → exec .expiryOperationCompletion s = .next
      { ended with expiry := { s.expiry with outstanding := false } }.lookForDue)

/-- Tier 2. The timers' events: a stretch that reaches its limit ends with BUSY (R142, R143), a stuck bus is abandoned with one
bus-fault event (R145), which advances the tag once past the acknowledged tag (R175), latches BUSFAULT (R176, R177) and looks at the
line again (R179), the coalescing timer expires (R178). A timer's row has its
effect once the timer has no millisecond left: an inference from the rules (log 16). -/
def Obligations.TimersRunOut : Prop :=
  ∀ s : State,
    let faulted := { s.alert with
      tag := if s.alert.tag + 1 = s.alert.acknowledged then s.alert.tag + 2 else s.alert.tag + 1
      busFaultLatch := true }
    let alert := { faulted with line := faulted.condition s.seen }
    (s.target.phase = .stretching → s.target.stretch = .running 0 → exec .stretchLimitReached s = .next { s with
      target := { s.target with
        phase := .sending, content := some Answer.busy.bytes, stretch := .idle, stuck := .running 32 } }) ∧
    (s.target.stuck = .running 0 →
      (s.target.phase = .sending ∨ s.target.phase = .discarding ∨ s.target.phase = .receiving ∧ s.target.receive = [] →
        exec .busStuck s = .next { s with target := s.target.leave, alert }) ∧
      (s.target.phase = .receiving → s.target.receive ≠ [] → exec .busStuck s = .next { s with
        target := { s.target.leave with answer := (Answer.badRequest .incomplete).bytes, answerState := .ready }
        alert })) ∧
    (s.alert.timer = .running 0 → exec .coalescingTimerExpiry s = .next { s with
      alert := { s.alert with timer := .expired, line := { s.alert with timer := .expired }.condition s.seen } })

/-! ### The host command port -/

/-- Tier 2. CS# falls: the status byte, with its eight flags from bit 7 to bit 0, is captured and shifted out with the first byte,
which names the kind and, for READ RESULT, fixes the read content (R150, R151, R152, R158). -/
def Obligations.TransactionStarts : Prop :=
  ∀ s : State, s.life ≠ .inReset →
    let p := { s.port with
      kind := .none, selected := true, status := s.statusByte, frame := [], overflow := false, content := []
      contentHeld := false, sdo := [] }
    let none := Result.none.bytes s.port.sequence
    exec (.hostTransactionStart []) s = .next { s with port := p } ∧
    exec (.hostTransactionStart [0xC1]) s = .next { s with port := { p with kind := .command, sdo := [s.statusByte] } } ∧
    (s.port.command.isExecuting = true ∨ s.port.result = Option.none →
      exec (.hostTransactionStart [0xC2]) s = .next { s with port := { p with
        kind := .readResult, sdo := [s.statusByte], content := none } }) ∧
    (∀ frame, s.port.command = .idle → s.port.result = some frame →
      exec (.hostTransactionStart [0xC2]) s = .next { s with port := { p with
        kind := .readResult, sdo := [s.statusByte], content := frame, contentHeld := true } }) ∧
    exec (.hostTransactionStart [0xC3]) s = .next { s with port := { p with kind := .readStatus, sdo := [s.statusByte] } } ∧
    (∀ b, b ≠ 0xC1 → b ≠ 0xC2 → b ≠ 0xC3 →
      exec (.hostTransactionStart [b]) s = .next { s with port := { p with kind := .unknown, sdo := [s.statusByte] } }) ∧
    s.statusByte.getLsbD 7 = s.port.ready ∧ s.statusByte.getLsbD 6 = s.port.command.isExecuting ∧
    s.statusByte.getLsbD 5 = s.port.unread ∧ s.statusByte.getLsbD 4 = s.port.refused ∧
    s.statusByte.getLsbD 3 = s.port.frameError ∧ s.statusByte.getLsbD 2 = s.alert.line ∧
    (s.statusByte.getLsbD 1 = true ↔ s.seen.admission = .restricted) ∧ s.statusByte.getLsbD 0 = s.seen.run.isSome

/-- Tier 2. The frame checks in their order, with the argument lengths that each code allows (R153, 13.5), and the CS# rise of a
COMMAND transaction: refused while not ready, a frame error, accepted in IDLE, RESET CLEAR, an ABORT while executing, any other command
while executing (R153 to R155, R157, R159). After RESET CLEAR, what State.reset holds where the spec gives no value and the row's
operand for the two pins are the model's choice (logs 8 and 14). -/
def Obligations.CommandFramesEnd : Prop :=
  (∀ (bytes : List Byte) (overflow : Bool),
    let wrong := checkFrame bytes overflow = none
    (bytes.length ≤ 3 → wrong) ∧ (overflow = true → wrong) ∧
    (∀ code sequence length rest, bytes = code :: sequence :: length :: rest → rest ≠ [] → overflow = false →
      (bytes.length ≠ length.toNat + 4 → wrong) ∧
      (bytes.length = length.toNat + 4 →
        (bytes.getLastD 0 ≠ crc8 bytes.dropLast → wrong) ∧
        (bytes.getLastD 0 = crc8 bytes.dropLast →
          (code.toNat < 0x01 ∨ 0x1D < code.toNat → wrong) ∧
          (0x01 ≤ code.toNat → code.toNat ≤ 0x1D →
            let n := length.toNat
            let allowed := code = 0x04 ∧ 12 ≤ n ∧ n ≤ 52 ∨ code = 0x05 ∧ 9 ≤ n ∧ n ≤ 49 ∨
              (code.toNat, n) ∈ [(0x01, 1), (0x02, 6), (0x03, 1), (0x06, 3), (0x07, 1), (0x08, 1), (0x09, 1), (0x0A, 1),
                (0x0B, 1), (0x0C, 1), (0x0D, 3), (0x0E, 2), (0x0F, 1), (0x10, 6), (0x11, 2), (0x12, 1), (0x13, 16), (0x14, 1),
                (0x15, 3), (0x16, 0), (0x17, 0), (0x18, 1), (0x19, 0), (0x1A, 2), (0x1B, 0), (0x1C, 0), (0x1D, 0)]
            (¬ allowed → wrong) ∧
            (allowed → ∃ body, checkFrame bytes overflow = some { sequence, body })))))) ∧
  ∀ (s : State) (asel : BitVec 2), s.port.selected = true → s.port.kind = .command →
    let p := { s.port with
      kind := .none, selected := false, frame := [], overflow := false, content := [], contentHeld := false }
    let frame := checkFrame s.port.frame s.port.overflow
    let executing := s.port.command.isExecuting
    (s.port.ready = false →
      exec (.commandFrameEnd [] asel) s = .next { s with port := { p with refused := true } }) ∧
    (s.port.ready = true → frame = none →
      exec (.commandFrameEnd [] asel) s = .next { s with port := { p with frameError := true } }) ∧
    (∀ q i, s.port.ready = true → frame = some { sequence := q, body := .operation i } →
      (executing = false → exec (.commandFrameEnd [] asel) s = .next { s with
        port := { p with
          result := none, unread := false, sequence := q, command := .executing i, refused := false, frameError := false }
        arbiter := { s.arbiter with host := some i } }) ∧
      (executing = true → i = .abort → exec (.commandFrameEnd [] asel) s = .next { s with port := { p with
        refused := false, frameError := false, abortRequest := s.port.abortRequest || s.port.executingRehash } }) ∧
      (executing = true → i ≠ .abort →
        exec (.commandFrameEnd [] asel) s = .next { s with port := { p with refused := true } })) ∧
    (∀ q, s.port.ready = true → frame = some { sequence := q, body := .resetClear } →
      (executing = false → ∃ authority : Addr, authority.val = 0x0C + asel.toNat ∧
        exec (.commandFrameEnd [] asel) s = .next { State.reset with
          life := .initialising, authorityAddress := authority, table := Table.reset authority
          seen := Table.reset authority, pending := s.pending }) ∧
      (executing = true →
        exec (.commandFrameEnd [] asel) s = .next { s with port := { p with refused := true } }))

/-- Tier 2. Every well-formed command's frame passes the frame checks and is read back as that command with its sequence byte; so
is RESET CLEAR's (R153, R190). -/
def Obligations.CommandFramesAreReadBack : Prop :=
  (∀ (i : Instr) (code q : Byte) (arguments : List Byte), commandBody i = some (code, arguments) → i.wellFormed = true →
    checkFrame (commandFrame code q arguments) false = some { sequence := q, body := .operation i }) ∧
  (∀ q : Byte, checkFrame (commandFrame 0x1D q []) false = some { sequence := q, body := .resetClear })

/-- Tier 2. A whole byte received in each kind of transaction, with the byte shifted out (R151, R158), and the CS# rise of the other
transactions (R150, R151, R158): READ RESULT clears result-unread when the held frame was shifted out whole, READ STATUS captures
again at the end of each byte, UNKNOWN changes nothing but the transaction. A transaction of no whole byte has no kind; that the row
of an UNKNOWN transaction ends it too is an inference from the rules (R150, log 26). The whole bytes that a row carries act one by one, before
the row's own event or behind the fall of CS#: the model's choice of operands (log 7). -/
def Obligations.OtherTransactionsEnd : Prop :=
  (∀ (s : State) (received : List Byte), s.life ≠ .inReset → ∀ opened, exec (.hostTransactionStart []) s = .next opened →
    exec (.hostTransactionStart received) s = .next (received.foldl State.hostByte opened)) ∧
  ∀ s : State, s.port.selected = true →
    let p := { s.port with
      kind := .none, selected := false, frame := [], overflow := false, content := [], contentHeld := false }
    (∀ b : Byte,
      (s.port.kind = .command → s.port.frame.length < 60 → s.hostByte b = { s with port := { s.port with
        frame := s.port.frame ++ [b], sdo := s.port.sdo ++ [0xFF] } }) ∧
      (s.port.kind = .command → 60 ≤ s.port.frame.length → s.hostByte b = { s with port := { s.port with
        overflow := true, sdo := s.port.sdo ++ [0xFF] } }) ∧
      (s.port.kind = .readResult → s.hostByte b = { s with port := { s.port with
        sdo := s.port.sdo ++ [s.port.content.getD (s.port.sdo.length - 1) 0xFF] } }) ∧
      (s.port.kind = .unknown → s.hostByte b = { s with port := { s.port with sdo := s.port.sdo ++ [0xFF] } })) ∧
    (∀ (received : List Byte) (asel : BitVec 2) (rise : Bool),
      let heard := received.foldl State.hostByte s
      (heard.port.kind = .command → exec (.commandFrameEnd received asel) s = exec (.commandFrameEnd [] asel) heard) ∧
      (heard.port.kind = .readResult → exec (.readResult received) s = exec (.readResult []) heard) ∧
      (heard.port.kind = .readStatus → exec (.readStatus received rise) s = exec (.readStatus [] rise) heard) ∧
      (heard.port.kind = .unknown → exec (.unknownTransaction received) s = exec (.unknownTransaction []) heard)) ∧
    (s.port.kind = .readResult →
      (s.port.contentHeld = true → s.port.content.length < s.port.sdo.length →
        exec (.readResult []) s = .next { s with port := { p with unread := false } }) ∧
      (s.port.contentHeld = false ∨ s.port.sdo.length ≤ s.port.content.length →
        exec (.readResult []) s = .next { s with port := p })) ∧
    (s.port.kind = .readStatus →
      (∀ b, exec (.readStatus [b] false) s = .next { s with port := { s.port with
        sdo := s.port.sdo ++ [s.port.status], status := s.statusByte } }) ∧
      exec (.readStatus [] true) s = .next { s with port := p }) ∧
    (s.port.kind = .unknown ∨ s.port.kind = .none → exec (.unknownTransaction []) s = .next { s with port := p })

/-- Tier 2. The completion of a command places its result and hands one completion event; a retention reset's also empties the
answer buffer and drops the waiting request (R146, R156, R189; log 24 for the moment). The frame and the codes of every result (13.4;
IN_USE's stand in InsertBinds), the action codes (13.5), and the byte order of its fields (R190). -/
def Obligations.CommandCompletes : Prop :=
  (∀ (r : Result) (sequence : Byte),
    let body := r.code :: sequence :: byteOf r.payload.length :: r.payload
    r.bytes sequence = body ++ [crc8 body]) ∧
  (∀ (payload : List Byte) (b : BucketIx) (i : EntryIx) (tag : Byte) (visited : Nat),
    Result.ok payload = { code := 0x00, payload } ∧ Result.notFound payload = { code := 0x01, payload } ∧
    Result.stale payload = { code := 0x02, payload } ∧
    Result.full .entries = { code := 0x04, payload := [1] } ∧ Result.full .bucket = { code := 0x04, payload := [2] } ∧
    Result.full .descriptor = { code := 0x04, payload := [3] } ∧ Result.full .addresses = { code := 0x04, payload := [4] } ∧
    Result.bucketFull b = { code := 0x05, payload := [byteOf b.val] } ∧ Result.badArgument = { code := 0x06, payload := [] } ∧
    Result.refusedState payload = { code := 0x07, payload } ∧ Result.empty = { code := 0x08, payload := [] } ∧
    Result.staleTag tag = { code := 0x09, payload := [tag] } ∧
    Result.aborted visited = { code := 0x0A, payload := [byteOf visited] } ∧
    Result.rehashOverflow b i = { code := 0x0B, payload := [byteOf b.val, byteOf i.val] } ∧
    Result.none = { code := 0xFF, payload := [] }) ∧
  ([Action.allow, .admitInRange, .holdForHost, .deny].map Action.code = [0, 1, 2, 3] ∧
    (∀ t : Time, timeBytes t = [t.extractLsb' 24 8, t.extractLsb' 16 8, t.extractLsb' 8 8, t.extractLsb' 0 8]) ∧
    (∀ n : Nat, beBytes 4 n = timeBytes (BitVec.ofNat 32 n)) ∧ yesNo false = 0 ∧ yesNo true = 1 ∧
    (∀ k : EntryIx, indexByte (some k) = byteOf k.val) ∧ (∀ a : Addr, indexByte (some a) = addrByte a) ∧
    indexByte (none : Option EntryIx) = 0 ∧ indexByte (none : Option Addr) = 0) ∧
  ∀ (s : State) (r : Result),
    let ended := { s with
      service := none, seen := s.table, alert := s.alert.take s.seen s.table true
      port := { s.port with
        result := some (r.bytes s.port.sequence), unread := true, command := .idle, abortRequest := false } }
    (s.service = some (.command r) → exec .commandCompletion s = .next ended.lookForDue) ∧
    (s.service = some (.retention r) →
      let emptied := { s.target with answer := [], answerState := .empty, inFlight := false }
      let kept := { ended with arbiter := { s.arbiter with bus := none } }
      (s.target.phase = .receiving → exec .commandCompletion s = .next { kept with
        target := { emptied with phase := .discarding, receive := [], overflow := false } }.lookForDue) ∧
      (s.target.phase = .stretching → exec .commandCompletion s = .next { kept with
        target := { emptied with
          phase := .sending, content := some Answer.noAnswer.bytes, stretch := .idle, stuck := .running 32 } }.lookForDue) ∧
      (s.target.phase ≠ .receiving → s.target.phase ≠ .stretching →
        exec .commandCompletion s = .next { kept with target := emptied }.lookForDue))

/-! ### The alert unit -/

/-- Tier 2. ACK ALERT and READ ALERT: their operations change no table state; at the completion an equal tag acknowledges, a
different one is answered STALE_TAG, and READ ALERT reports after its own completion event (R176, R180, R181). One advance of the
tag skips the acknowledged tag (R175). What the alert unit takes at any operation's completion: one advance for each event, the
latches, the coalescing timer, and the line (R176 to R179). Which causes are pending (R177), when the change set is ripe (R178) and
when the line is low (R179); the bits of the causes and the timer's codes in the report (R191, 13.5). That an acknowledgement which
stops an EXPIRED timer leaves CHANGES not pending below COALESCE_COUNT follows R178 against R180's sentence on the conditions: the
model's choice (log 27). -/
def Obligations.AlertCommandsAreServed : Prop :=
  ∀ (s : State) (tag : Byte),
    (Granted s .host (.ackAlert tag) → exec (.ackAlert tag) s = .next (s.served .host s.table (.ackAlert tag))) ∧
    (Granted s .host .readAlert → exec .readAlert s = .next (s.served .host s.table .readAlert)) ∧
    (let quiet := s.alert.take s.seen s.table false
     let told := s.alert.take s.seen s.table true
     let placed (r : Result) := { s.port with
       result := some (r.bytes s.port.sequence), unread := true, command := .idle, abortRequest := false }
     let ended := { s with service := none, seen := s.table }
     (s.service = some (.ackAlert tag) → tag = quiet.tag → exec .commandCompletion s = .next { ended with
       port := placed (.ok [tag])
       alert := { quiet with
         acknowledged := tag, admissionLatch := false, busFaultLatch := false, doneLatch := false, timer := .idle
         line := false } }.lookForDue) ∧
     (s.service = some (.ackAlert tag) → tag ≠ quiet.tag → exec .commandCompletion s = .next { ended with
       port := placed (.staleTag told.tag), alert := told }.lookForDue) ∧
     (s.service = some .readAlert → exec .commandCompletion s = .next { ended with
       port := placed (.ok [told.tag, told.acknowledged, (told.pending s.table).bits, yesNo told.line,
         byteOf s.table.changeSet.length, told.timer.code, s.table.params.alertMask.bits])
       alert := told }.lookForDue)) ∧
    (∀ a : Alert,
      (a.tag + 1 ≠ a.acknowledged → a.advance = { a with tag := a.tag + 1 }) ∧
      (a.tag + 1 = a.acknowledged → a.advance = { a with tag := a.tag + 2 }) ∧
      a.advances 0 = a ∧ (∀ n, a.advances (n + 1) = (a.advances n).advance) ∧
      (∀ n, (a.advances (n + 1)).tag ≠ a.acknowledged)) ∧
    (∀ (a : Alert) (before after : Table) (completion : Bool),
      let added := after.changeSet.filter fun i => i ∉ before.changeSet
      let awaiting := (List.finRange 4).filter fun j => (after.slot j).isAwaiting && !(before.slot j).isAwaiting
      let admission := before.admission ≠ after.admission
      let events := added.length + awaiting.length + (if admission then 1 else 0) + (if completion then 1 else 0)
      let told := a.take before after completion
      told.tag = (a.advances events).tag ∧ told.acknowledged = a.acknowledged ∧ told.busFaultLatch = a.busFaultLatch ∧
      (told.admissionLatch = true ↔ a.admissionLatch = true ∨ admission) ∧
      (told.doneLatch = true ↔ a.doneLatch = true ∨ completion = true) ∧
      told.line = told.condition after ∧
      (after.changeSet = [] → told.timer = .idle) ∧
      (after.changeSet ≠ [] → a.timer ≠ .idle → told.timer = a.timer) ∧
      (after.changeSet ≠ [] → a.timer = .idle → added = [] ∨ ripe after .idle = true → told.timer = .idle) ∧
      (added ≠ [] → a.timer = .idle → ripe after .idle = false →
        told.timer = .running after.params.coalesceTime.toNat)) ∧
    (∀ (a : Alert) (t : Table),
      let mask := t.params.alertMask
      let causes := a.pending t
      (∀ timer, ripe t timer = true ↔ t.changeSet ≠ [] ∧
        (t.params.coalesceCount.toNat ≤ t.changeSet.length ∨ timer = .expired ∨ t.params.coalesceTime = 0)) ∧
      (causes.changes = true ↔ ripe t a.timer = true) ∧
      (causes.approval = true ↔ ∃ j claim i, t.slot j = .awaiting claim i) ∧
      causes.admission = a.admissionLatch ∧ causes.busFault = a.busFaultLatch ∧ causes.done = a.doneLatch ∧
      (∀ c : Causes, c.bits.toNat =
        c.changes.toNat + 2 * c.approval.toNat + 4 * c.admission.toNat + 8 * c.busFault.toNat + 16 * c.done.toNat) ∧
      CoalescingTimer.idle.code = 0 ∧ (∀ left, (CoalescingTimer.running left).code = 1) ∧ CoalescingTimer.expired.code = 2 ∧
      (a.condition t = true ↔ a.tag ≠ a.acknowledged ∧
        (causes.changes = true ∧ mask.changes = true ∨ causes.approval = true ∧ mask.approval = true ∨
          causes.admission = true ∧ mask.admission = true ∨ causes.busFault = true ∧ mask.busFault = true ∨
          causes.done = true ∧ mask.done = true)))

/-! ### Member requests -/

/-- Tier 2. A CLAIM's refusals, in the order of R81, R82 and R87: each condition under the ones before it. The hint of
RETRY_LATER(SLOTS) is the least remaining time of the four slots (R88). -/
def Obligations.ClaimIsRefusedInOrder : Prop :=
  ∀ (s : State) (identity : Identity) (cls preferred : Byte) (d : List Byte),
    let i := Instr.claim identity cls preferred d
    let t := s.table
    let refused (a : Answer) := exec i s = .next (s.served .bus t (.request a))
    Granted s .bus i →
    (15 < cls.toNat ∨ 0x7F < preferred.toNat → refused (.badRequest .argument)) ∧
    (∀ (c : ClassIx) (p : Addr), cls.toNat = c.val → preferred.toNat = p.val →
      (∀ j, t.refusedSlot identity = some j → exec i s = .next (s.served .bus
        { t with slots := t.slots.set j .free, deadlines := t.deadlines.filter fun x => x.kind.owner ≠ Owner.slot j }
        (.request (.denied .host)))) ∧
      (t.refusedSlot identity = none → t.lookup identity = none →
        let v := t.verdict identity c
        ((t.classRecord c).enabled = false → refused (.denied .cls)) ∧
        ((t.classRecord c).enabled = true →
          (v.action = .deny → refused (.denied .rule)) ∧
          (v.action ≠ .deny → t.run ≠ none → refused (.retryLater .rehash 1000)) ∧
          (v.action ≠ .deny → t.run = none →
            (t.lowestFreeSlot = none → refused (.retryLater .slots (slotsHint s.expiry.time t)) ∧
              (∀ k claim, (t.slot k).claim = some claim →
                (∀ m other, (t.slot m).claim = some other →
                  remaining s.expiry.time claim.deadline ≤ remaining s.expiry.time other.deadline) →
                slotsHint s.expiry.time t = BitVec.ofNat 16 (remaining s.expiry.time claim.deadline))) ∧
            (t.lowestFreeSlot ≠ none →
              (t.lowestVacant = none → refused (.full .entries)) ∧
              (t.lowestVacant ≠ none →
                (t.admission = .restricted → v.priority = false → refused (.retryLater .restricted 1000)) ∧
                (t.admission = .opened ∨ v.priority = true →
                  (4 ≤ (t.bucket (bucketOf t.seed identity)).length → refused (.full .bucket)) ∧
                  ((t.bucket (bucketOf t.seed identity)).length < 4 →
                    (Table.fitDescriptor t.params.truncateDescriptors t.freeBlocks.length d = none →
                      refused (.full .descriptor)) ∧
                    (Table.fitDescriptor t.params.truncateDescriptors t.freeBlocks.length d ≠ none →
                      v.action ≠ .holdForHost → t.chooseAddr v.low v.high (some p) = none →
                      refused (.full .addresses))))))))))

/-- Tier 2. The searches and the ordered collections that the operations share: the lowest-numbered VACANT entry (R8) and FREE slot
(R9, R80), the REFUSED slot of an identity (R82), the place of a new item behind the last one that qualifies (R45, R68), a set kept
ascending (R30, R173), the owner of an item (R67). A new claim that passes its checks: with HOLD_FOR_HOST it is held, with an AWAITING
slot, an APPROVAL item and no address (R89); otherwise it is offered the chosen address (R90). The answer, and all that the operation
changes. -/
def Obligations.NewClaimIsOfferedOrHeld : Prop :=
  (∀ t : Table,
    (∀ i, t.lowestVacant = some i ↔ (t.entry i).life = .vacant ∧ ∀ k, k < i → (t.entry k).life ≠ .vacant) ∧
    (t.lowestVacant = none ↔ ∀ k, (t.entry k).life ≠ .vacant) ∧
    (∀ j, t.lowestFreeSlot = some j ↔ t.slot j = .free ∧ ∀ k, k < j → t.slot k ≠ .free) ∧
    (t.lowestFreeSlot = none ↔ ∀ k, t.slot k ≠ .free) ∧
    (∀ identity,
      (∀ j, t.refusedSlot identity = some j → ∃ claim, t.slot j = .refused claim ∧ claim.identity = identity) ∧
      (t.refusedSlot identity = none ↔ ∀ j claim, t.slot j = .refused claim → claim.identity ≠ identity))) ∧
  (∀ (qualifies : DeadlineItem → Bool) (x : DeadlineItem) (l : List DeadlineItem), ∃ front back,
    l = front ++ back ∧ insertBehind qualifies x l = front ++ x :: back ∧ (∀ y ∈ back, qualifies y = false) ∧
    (∀ y, front.getLast? = some y → qualifies y = true)) ∧
  (∀ (qualifies : QuarantineItem → Bool) (x : QuarantineItem) (l : List QuarantineItem), ∃ front back,
    l = front ++ back ∧ insertBehind qualifies x l = front ++ x :: back ∧ (∀ y ∈ back, qualifies y = false) ∧
    (∀ y, front.getLast? = some y → qualifies y = true)) ∧
  (∀ (i : EntryIx) (l : List EntryIx), (∀ k, k ∈ insertAscending i l ↔ k = i ∨ k ∈ l) ∧
    (l.Pairwise (· < ·) → (insertAscending i l).Pairwise (· < ·))) ∧
  (∀ kind : ItemKind, kind.owner = match kind with
    | .offer i | .lease i | .revalidate i | .hold i => .entry i
    | .approval j | .refusal j => .slot j) ∧
  ∀ (s : State) (identity : Identity) (cls preferred : Byte) (d bytes : List Byte) (cut : Bool) (c : ClassIx) (p : Addr)
    (j : SlotIx) (i : EntryIx),
    let t := s.table
    let v := t.verdict identity c
    let ends (ms : Half) := s.expiry.time + BitVec.ofNat 32 ms.toNat
    let lease := if v.override = 0 then (t.classRecord c).lease else v.override
    let waiting (low high : Addr) (deadline : Time) : SlotClaim :=
      { identity, cls := c, low, high, override := v.override, deadline }
    Granted s .bus (.claim identity cls preferred d) → cls.toNat = c.val → preferred.toNat = p.val →
    t.ClaimPasses identity c d j i bytes cut →
    (v.action = .holdForHost →
      let deadline := ends t.params.approvalTime
      exec (.claim identity cls preferred d) s = .next (s.served .bus
        { t.withTaken i identity c (.awaiting j) bytes cut with
          slots := t.slots.set j (.awaiting (waiting 0x08 0x77 deadline) i)
          deadlines := insertBehind (fun x => !earlier deadline x.deadline) { kind := .approval j, deadline } t.deadlines
        }.evaluateAdmission
        (.request (.retryLater .approval t.params.approvalTime)))) ∧
    (∀ a : Addr, v.action ≠ .holdForHost → t.chooseAddr v.low v.high (some p) = some a →
      let deadline := ends t.params.offerTime
      exec (.claim identity cls preferred d) s = .next (s.served .bus
        { t.withTaken i identity c (.offered j a lease deadline) bytes cut with
          map := t.map.set a (.offered i)
          quarantine := t.quarantine.filter fun x => x.address ≠ a
          slots := t.slots.set j (.offered (waiting v.low v.high deadline) i)
          deadlines := insertBehind (fun x => !earlier deadline x.deadline) { kind := .offer i, deadline } t.deadlines
        }.evaluateAdmission
        (.request (.offer a ((t.entry i).generation + 1) t.params.offerTime (cappedLease lease) cut))))

/-- Tier 2. A CLAIM of an identity that an entry holds: MISMATCH(CLASS), the repeated OFFER with its lease capped at 65534 s,
RETRY_LATER(APPROVAL); the times of both are the remaining milliseconds; nothing changes (R85, R86). -/
def Obligations.PendingClaimIsRepeated : Prop :=
  ∀ (s : State) (identity : Identity) (cls preferred : Byte) (d : List Byte) (c : ClassIx) (p : Addr) (i : EntryIx),
    let t := s.table
    let now := s.expiry.time
    let e := t.entry i
    let answered (a : Answer) := exec (.claim identity cls preferred d) s = .next (s.served .bus t (.request a))
    (∀ deadline, remainingHalf now deadline = BitVec.ofNat 16 (remaining now deadline)) ∧
    (∀ lease, (cappedLease lease).toNat = min 65534 lease.toNat) ∧
    (Granted s .bus (.claim identity cls preferred d) → cls.toNat = c.val → preferred.toNat = p.val →
    t.refusedSlot identity = none → t.lookup identity = some i →
    (e.cls ≠ c → answered (.mismatchClass e.cls)) ∧
    (∀ j a lease deadline, e.cls = c → e.life = .offered j a lease deadline →
      answered (.offer a e.generation (remainingHalf now deadline) (cappedLease lease) e.truncated)) ∧
    (∀ j k claim, e.cls = c → e.life = .awaiting j → t.slot j = .awaiting claim k →
      answered (.retryLater .approval (remainingHalf now claim.deadline))))

/-- Tier 2. A rejoin CLAIM (R83, R84): the lease starts as a renewal starts it, and then the descriptor is replaced and the renew
count advances, or the answer is FULL(DESCRIPTOR) and both stay. That answer's flags byte has its TRUNCATED bit 0: an inference, the
model's (log 18). -/
def Obligations.RejoinRenewsAndReplaces : Prop :=
  ∀ (s : State) (identity : Identity) (cls preferred : Byte) (d : List Byte) (c : ClassIx) (p a : Addr) (i : EntryIx)
    (renewed : Table) (seconds : Half) (revived : Bool),
    let t := s.table
    let e := t.entry i
    let fit := Table.fitDescriptor t.params.truncateDescriptors (e.blocks.length + t.freeBlocks.length) d
    Granted s .bus (.claim identity cls preferred d) → cls.toNat = c.val → preferred.toNat = p.val →
    t.refusedSlot identity = none → t.lookup identity = some i → e.cls = c →
    t.withRenewal s.expiry.time i = some (a, renewed, seconds, revived) →
    (fit = none → exec (.claim identity cls preferred d) s =
      .next (s.served .bus renewed (.request (.fullRejoin a seconds revived)))) ∧
    (∀ bytes cut, fit = some (bytes, cut) →
      let stored := renewed.replaceDescriptor i bytes cut
      let counted := if e.renewCount = 255 then 255 else e.renewCount + 1
      exec (.claim identity cls preferred d) s = .next (s.served .bus
        { stored with entries := stored.entries.set i { stored.entry i with renewCount := counted } }
        (.request (.ok ([addrByte a] ++ halfBytes seconds ++ [answerFlags revived cut])))))

/-- Tier 2. ACCEPT: the offer binds the entry, a duplicate is confirmed, everything else changes nothing (R91, R92, R93). -/
def Obligations.AcceptBindsTheOffer : Prop :=
  ∀ (s : State) (identity : Identity) (address token : Byte),
    let t := s.table
    let now := s.expiry.time
    let answered (a : Answer) := exec (.accept identity address token) s = .next (s.served .bus t (.request a))
    Granted s .bus (.accept identity address token) →
    (t.lookup identity = none → answered .notFound) ∧
    (∀ i, t.lookup identity = some i →
      let e := t.entry i
      ((∃ j, e.life = .awaiting j) ∨ e.life.state = .unverified ∨ e.life.state = .lapsed →
        answered (.mismatchState e.life.state)) ∧
      (∀ a, e.life.address = some a → e.life.state = .offered ∨ e.life.state = .bound →
        (address ≠ addrByte a → answered (.mismatchAddress (addrByte a))) ∧
        (address = addrByte a → token ≠ e.generation → answered .mismatchToken)) ∧
      (∀ a lease old, e.life = .bound a lease old → address = addrByte a → token = e.generation →
        answered (.ok ([addrByte a] ++ halfBytes (t.leaseSeconds now i)))) ∧
      (∀ j a lease old, e.life = .offered j a lease old → address = addrByte a → token = e.generation →
        let deadline := now + BitVec.ofNat 32 (lease.toNat * 1000)
        exec (.accept identity address token) s = .next (s.served .bus
          { t.withLease i e a lease deadline with
            map := t.map.set a (.bound i), slots := t.slots.set j .free, classes := t.classesWith e.cls i
            changeSet := insertAscending i t.changeSet }
          (.request (.ok ([addrByte a] ++ halfBytes (remainingSeconds now deadline)))))))

/-- Tier 2. RENEW: the answers that change nothing, and what a lease start does from BOUND, UNVERIFIED and LAPSED (R127, R128). The
TRUNCATED bit of its flags byte, which R127 does not name, is 0: the model's choice (log 18). -/
def Obligations.RenewStartsTheLease : Prop :=
  ∀ (s : State) (identity : Identity) (address : Byte),
    let t := s.table
    let now := s.expiry.time
    let run (a : Answer) (t' : Table) := exec (.renew identity address) s = .next (s.served .bus t' (.request a))
    Granted s .bus (.renew identity address) →
    (0x7F < address.toNat → run (.badRequest .argument) t) ∧
    (address.toNat ≤ 0x7F → t.lookup identity = none → run .notFound t) ∧
    (∀ i, address.toNat ≤ 0x7F → t.lookup identity = some i →
      let e := t.entry i
      (e.life.state = .awaiting ∨ e.life.state = .offered → run (.mismatchState e.life.state) t) ∧
      (∀ a, e.life.address = some a → e.life.state ≠ .offered → address ≠ addrByte a →
        run (.mismatchAddress (addrByte a)) t) ∧
      (∀ a lease, e.life = .bound a lease none → address = addrByte a → run (.ok [0xFF, 0xFF, 0]) t) ∧
      (∀ a lease, address = addrByte a →
        let deadline := now + BitVec.ofNat 32 (lease.toNat * 1000)
        let ok (revived : Byte) := Answer.ok (halfBytes (remainingSeconds now deadline) ++ [revived])
        let counted := { e with renewCount := if e.renewCount = 255 then 255 else e.renewCount + 1 }
        let renewed := t.withLease i counted a lease deadline
        (∀ old, e.life = .bound a lease (some old) → run (ok 0) renewed) ∧
        (∀ old, e.life = .unverified a lease old → run (ok 0) { renewed with changeSet := insertAscending i t.changeSet }) ∧
        (∀ old, e.life = .lapsed a lease old → run (ok 1) { renewed with
          map := t.map.set a (.bound i), classes := t.classesWith e.cls i
          changeSet := insertAscending i t.changeSet })))

/-- Tier 2. RELEASE: the answers that change nothing, and the retirement (R130, R131). -/
def Obligations.ReleaseRetiresTheEntry : Prop :=
  ∀ (s : State) (identity : Identity) (address : Byte),
    let t := s.table
    let now := s.expiry.time
    let run (a : Answer) (t' : Table) := exec (.release identity address) s = .next (s.served .bus t' (.request a))
    Granted s .bus (.release identity address) →
    (0x7F < address.toNat → run (.badRequest .argument) t) ∧
    (address.toNat ≤ 0x7F → t.run ≠ none → run (.retryLater .rehash 1000) t) ∧
    (address.toNat ≤ 0x7F → t.run = none →
      (t.lookup identity = none → run .notFound t) ∧
      (∀ i, t.lookup identity = some i →
        let e := t.entry i
        let gone := t.withoutEntry i
        (∀ j, e.life = .awaiting j →
          (address ≠ 0 → run (.mismatchAddress 0) t) ∧
          (address = 0 → run (.ok [0]) { gone with
            slots := t.slots.set j .free
            deadlines := gone.deadlines.filter fun x => x.kind.owner ≠ Owner.slot j }.evaluateAdmission)) ∧
        (∀ a, e.life.address = some a →
          (address ≠ addrByte a → run (.mismatchAddress (addrByte a)) t) ∧
          (address = addrByte a → e.life.pinned = true → run (.denied .pinned) t) ∧
          (∀ j lease old, address = addrByte a → e.life = .offered j a lease old → run (.ok [address])
            { gone with slots := t.slots.set j .free, map := t.map.set a .free }.evaluateAdmission) ∧
          (address = addrByte a → e.life.pinned = false → e.life.state = .bound ∨ e.life.state = .unverified →
            run (.ok [address]) ({ gone with classes := t.classesWithout e.cls i }.withReleased now false a).evaluateAdmission) ∧
          (address = addrByte a → e.life.state = .lapsed →
            run (.ok [address]) (gone.withReleased now false a).evaluateAdmission))))

/-- Tier 2. WHOIS (R120). -/
def Obligations.WhoisReadsTheAddressRecord : Prop :=
  ∀ (s : State) (address : Byte), Granted s .bus (.whois address) →
    let t := s.table
    let answered (a : Answer) := exec (.whois address) s = .next (s.served .bus t (.request a))
    (0x7F < address.toNat → answered (.badRequest .argument)) ∧
    (∀ a : Addr, address.toNat = a.val →
      (∀ i, t.addr a = .bound i → answered (.ok (identityBytes (t.entry i).identity ++
        [byteOf (t.entry i).cls.val, (t.entry i).life.state.code]))) ∧
      (∀ i, t.addr a = .held i → answered (.ok (identityBytes (t.entry i).identity ++
        [byteOf (t.entry i).cls.val, 5]))) ∧
      (t.addr a = .fixed ∨ t.addr a = .reserved ∨ t.addr a = .free ∨ (∃ i, t.addr a = .offered i) ∨
        (∃ d, t.addr a = .quarantined d) → answered .notFound))

/-- Tier 2. What a lookup by identity finds (R27), and the other lookups, which change no state: RESOLVE, DESCRIBE, ENUMERATE, QUERY
(R119, R121, R124, R126). -/
def Obligations.LookupsAnswer : Prop :=
  ∀ s : State,
    let t := s.table
    let now := s.expiry.time
    let answered (i : Instr) (a : Answer) := exec i s = .next (s.served .bus t (.request a))
    (∀ identity, let held := t.bucket (bucketOf t.seed identity)
      (∀ i, t.lookup identity = some i → i ∈ held ∧ (t.entry i).identity = identity ∧ (t.entry i).life ≠ .vacant) ∧
      (t.lookup identity = none → ∀ i ∈ held, (t.entry i).identity ≠ identity ∨ (t.entry i).life = .vacant)) ∧
    (∀ identity, Granted s .bus (.resolve identity) →
      (t.lookup identity = none → answered (.resolve identity) .notFound) ∧
      (∀ i, t.lookup identity = some i →
        let e := t.entry i
        let reported (a : Addr) (seconds : Half) := answered (.resolve identity)
          (.ok ([addrByte a, e.life.state.code] ++ halfBytes seconds ++ [byteOf e.cls.val]))
        (e.life.state = .awaiting ∨ e.life.state = .offered → answered (.resolve identity) .notFound) ∧
        (∀ a lease, e.life = .bound a lease none → reported a 0xFFFF) ∧
        (∀ a lease d, e.life = .bound a lease (some d) ∨ e.life = .unverified a lease d ∨ e.life = .lapsed a lease d →
          reported a (remainingSeconds now d)))) ∧
    (∀ address offset, Granted s .bus (.describe address offset) →
      (0x7F < address.toNat → answered (.describe address offset) (.badRequest .argument)) ∧
      (∀ a : Addr, address.toNat = a.val →
        ((∀ i, t.addr a ≠ .bound i ∧ t.addr a ≠ .held i) → answered (.describe address offset) .notFound) ∧
        (∀ i, t.addr a = .bound i ∨ t.addr a = .held i →
          let d := t.descriptor i
          (d.length < offset.toNat → answered (.describe address offset) (.badRequest .argument)) ∧
          (offset.toNat ≤ d.length → answered (.describe address offset)
            (.ok ([byteOf d.length, yesNo (t.entry i).truncated] ++ (d.drop offset.toNat).take 16)))))) ∧
    (∀ cls position generation, Granted s .bus (.enumerate cls position generation) →
      (15 < cls.toNat → answered (.enumerate cls position generation) (.badRequest .argument)) ∧
      (∀ c : ClassIx, cls.toNat = c.val →
        let r := t.classRecord c
        let items := (r.members.drop position.toNat).take 5
        (position ≠ 0 → generation ≠ r.generation →
          answered (.enumerate cls position generation) (.stale r.generation)) ∧
        (position = 0 ∨ generation = r.generation → answered (.enumerate cls position generation)
          (.ok ([r.generation, byteOf r.members.length, byteOf items.length] ++ items.flatMap fun i =>
            indexByte (t.entry i).life.address :: identityBytes (t.entry i).identity))))) ∧
    (Granted s .bus .query → answered .query (.ok ([t.admission.code, byteOf t.vacantCount, byteOf (t.countAddrs 2),
      byteOf (t.countSlots 0), yesNo t.run.isSome] ++ halfBytes t.seed)))

/-! ### What claims and commands share -/

/-- Tier 2. The choice of an address (R50, R51): the preference, else the lowest FREE address of the range, else with EARLY_REUSE
the range's first address in the quarantine queue, else none. -/
def Obligations.AddressIsChosen : Prop :=
  ∀ (t : Table) (low high : Addr) (preferred : Option Addr),
    let usable (a : Addr) := low ≤ a ∧ a ≤ high ∧ t.addr a = .free
    let choice := t.chooseAddr low high preferred
    (∀ p, preferred = some p → p ≠ 0 → usable p → choice = some p) ∧
    ((∀ p, preferred = some p → p = 0 ∨ ¬ usable p) →
      (∀ a, usable a → (∀ b, b < a → ¬ usable b) → choice = some a) ∧
      ((∀ a, ¬ usable a) →
        (t.params.earlyReuse = false → choice = none) ∧
        (t.params.earlyReuse = true →
          (∀ before x after, t.quarantine = before ++ x :: after → low ≤ x.address ∧ x.address ≤ high →
            (∀ y ∈ before, ¬ (low ≤ y.address ∧ y.address ≤ high)) → choice = some x.address) ∧
          ((∀ y ∈ t.quarantine, ¬ (low ≤ y.address ∧ y.address ≤ high)) → choice = none))))

/-- Tier 2. The lowest-numbered matching admission rule decides a claim, else DEFAULT_ACTION (R105, R106, R107); the admission state
changes at the two marks (R113). -/
def Obligations.AdmissionIsDecided : Prop :=
  ∀ t : Table,
    (∀ (identity : Identity) (cls : ClassIx),
      let fits (r : AdmissionRule) :=
        (∀ n, n < r.prefixLength.val → r.value.getLsbD (47 - n) = identity.getLsbD (47 - n)) ∧
        (r.classMatch = none ∨ r.classMatch = some cls)
      (∀ (n : RuleIx) (r : AdmissionRule), t.rules.get n = some r → fits r →
        (∀ m q, m < n → t.rules.get m = some q → ¬ fits q) →
        t.verdict identity cls = {
          action := r.action, override := r.override, priority := r.priority
          low := if r.action = .admitInRange then r.low else 0x08
          high := if r.action = .admitInRange then r.high else 0x77 }) ∧
      ((∀ n r, t.rules.get n = some r → ¬ fits r) →
        t.verdict identity cls = {
          action := match t.params.defaultAction with
            | .allow => .allow
            | .holdForHost => .holdForHost
            | .deny => .deny
          override := 0, priority := false, low := 0x08, high := 0x77 })) ∧
    (t.admission = .opened → t.vacantCount < t.params.lowMark.toNat →
      t.evaluateAdmission = { t with admission := .restricted }) ∧
    (t.admission = .restricted → t.params.highMark.toNat ≤ t.vacantCount →
      t.evaluateAdmission = { t with admission := .opened }) ∧
    (t.admission = .opened ∧ t.params.lowMark.toNat ≤ t.vacantCount ∨
      t.admission = .restricted ∧ t.vacantCount < t.params.highMark.toNat → t.evaluateAdmission = t)

/-- Tier 2. What of a descriptor fits, and its replacement (R16, R17, R18): the stored bytes read back, the blocks are the
lowest-numbered of the free ones and the entry's own, no other entry's record or descriptor changes, and the index joins the change
set when the stored bytes or the flag differ. -/
def Obligations.DescriptorsAreReplaced : Prop :=
  ∀ (t : Table) (i : EntryIx) (d : List Byte), d.length ≤ 40 →
    let needed (n : Nat) := if n ≤ 8 then 0 else if n ≤ 24 then 1 else 2
    (∀ (truncate : Bool) (available : Nat),
      (needed d.length ≤ available → Table.fitDescriptor truncate available d = some (d, false)) ∧
      (available < needed d.length →
        Table.fitDescriptor true available d = some (d.take (8 + 16 * available), true) ∧
        Table.fitDescriptor false available d = none)) ∧
    (∀ bytes cut, t.PoolIsPartitioned →
      let own := (t.entry i).blocks
      Table.fitDescriptor t.params.truncateDescriptors (own.length + t.freeBlocks.length) d = some (bytes, cut) →
      let t' := t.replaceDescriptor i bytes cut
      t'.descriptor i = bytes ∧
      t'.entry i = { t.entry i with
        inlineBytes := bytes.take 8, truncated := cut
        blocks := ((List.finRange 40).filter fun b => b ∈ own ∨ t.pool.get b = none).take (needed bytes.length) } ∧
      (∀ k, k ≠ i → t'.entry k = t.entry k ∧ t'.descriptor k = t.descriptor k) ∧
      t' = { t with entries := t'.entries, pool := t'.pool
                    changeSet := if t.descriptor i = bytes ∧ (t.entry i).truncated = cut then t.changeSet
                      else insertAscending i t.changeSet })

/-! ### Host commands -/

/-- Tier 2. READ ENTRY (R160): BAD_ARGUMENT above 95, else the record with its layout of 68 bytes, absent fields zero. -/
def Obligations.ReadEntryReports : Prop :=
  ∀ (s : State) (index : Byte), Granted s .host (.readEntry index) →
    let t := s.table
    let result (r : Result) := exec (.readEntry index) s = .next (s.served .host t (.command r))
    (95 < index.toNat → result .badArgument) ∧
    (∀ i : EntryIx, index.toNat = i.val →
      let e := t.entry i
      let d := t.descriptor i
      result (.ok ([index, e.life.state.code, e.generation] ++ identityBytes e.identity ++
        [byteOf e.cls.val, indexByte e.life.address, indexByte e.life.slot,
          (if e.life.pinned then 1 else 0) ||| (if e.truncated then 2 else 0)] ++
        halfBytes (e.life.lease.getD 0) ++ timeBytes (e.life.deadline.getD 0) ++
        beBytes 4 ((e.life.deadline.map (remaining s.expiry.time)).getD 0) ++
        [e.renewCount, byteOf d.length, byteOf e.blocks.length, indexByte e.blocks[0]?, indexByte e.blocks[1]?] ++ d ++
        List.replicate (40 - d.length) 0)) ∧
      (d.length ≤ 40 → (t.entryRecord s.expiry.time i).length = 68))

/-- Tier 2. The bucket of an identity, the low 5 bits of a CRC-16 with polynomial 0x1021 from the seed over the identity's 48 bits
(R24). FIND IDENTITY and READ BUCKET (R29, R30): neither changes any state; a bucket's indices ascend in every table whose buckets
do, which every step keeps. -/
def Obligations.IndexIsRead : Prop :=
  (∀ (seed : Half) (identity : Identity), (bucketOf seed identity).val =
    (((List.range 48).map fun k => identity.getLsbD (47 - k)).foldl (fun (register : Half) bit =>
      if xor bit (register.getLsbD 15) then (register <<< 1) ^^^ 0x1021 else register <<< 1) seed).toNat % 32) ∧
  ∀ s : State,
    let t := s.table
    let result (i : Instr) (r : Result) := exec i s = .next (s.served .host t (.command r))
    (∀ identity, Granted s .host (.findIdentity identity) →
      (t.lookup identity = none →
        result (.findIdentity identity) (.notFound [byteOf (bucketOf t.seed identity).val])) ∧
      (∀ i, t.lookup identity = some i → result (.findIdentity identity) (.ok
        [byteOf i.val, (t.entry i).generation, (t.entry i).life.state.code, byteOf (bucketOf t.seed identity).val]))) ∧
    (∀ bucket, Granted s .host (.readBucket bucket) →
      (31 < bucket.toNat → result (.readBucket bucket) .badArgument) ∧
      (∀ b : BucketIx, bucket.toNat = b.val →
        result (.readBucket bucket) (.ok
          ([bucket, byteOf (t.bucket b).length] ++ (t.bucket b).flatMap fun i => [byteOf i.val, (t.entry i).generation])) ∧
        (t.BucketsFit → (t.bucket b).length ≤ 4 ∧ (t.bucket b).Pairwise (· < ·))))

/-- Tier 2. The two IN_USE payloads, and INSERT: its seven checks in order, and the binding (R161, R162). Caused by an identity whose
entry is AWAITING, which has no address, IN_USE carries zeros for the address and its state: R190 zeroes an absent field, and that
the state byte is one is an inference, the model's (log 19). -/
def Obligations.InsertBinds : Prop :=
  (∀ (t : Table) (k : EntryIx), let e := t.entry k
    (∀ a, e.life.address = some a → t.inUseIdentity k =
      { code := 0x03, payload := [1, addrByte a, (t.addr a).code, byteOf k.val, e.generation] }) ∧
    (e.life.address = none → t.inUseIdentity k = { code := 0x03, payload := [1, 0, 0, byteOf k.val, e.generation] })) ∧
  (∀ (t : Table) (a : Addr),
    (∀ k, t.addr a = .offered k ∨ t.addr a = .bound k ∨ t.addr a = .held k → t.inUseAddr a =
      { code := 0x03, payload := [2, addrByte a, (t.addr a).code, byteOf k.val, (t.entry k).generation] }) ∧
    (t.addr a = .fixed ∨ t.addr a = .reserved ∨ t.addr a = .free ∨ (∃ d, t.addr a = .quarantined d) →
      t.inUseAddr a = { code := 0x03, payload := [2, addrByte a, (t.addr a).code, 0, 0] })) ∧
  ∀ (s : State) (identity : Identity) (cls address pinned : Byte) (lease : Half) (n : Byte) (d : List Byte),
    let i := Instr.insert identity cls address pinned lease n d
    let t := s.table
    let now := s.expiry.time
    let b := bucketOf t.seed identity
    let run (r : Result) (t' : Table) := exec i s = .next (s.served .host t' (.command r))
    Granted s .host i →
    (15 < cls.toNat ∨ 0x7F < address.toNat ∨ 1 < pinned.toNat ∨ 40 < n.toNat ∨ n.toNat ≠ d.length → run .badArgument t) ∧
    (∀ (c : ClassIx) (a : Addr) (pin : Bool), cls.toNat = c.val → address.toNat = a.val → pinned = yesNo pin →
      n.toNat ≤ 40 → n.toNat = d.length →
      (∀ k, t.lookup identity = some k → run (t.inUseIdentity k) t) ∧
      (t.lookup identity = none →
        (t.addr a = .fixed → run .badArgument t) ∧
        (t.addr a ≠ .fixed → t.addr a ≠ .free → t.addr a ≠ .reserved → run (t.inUseAddr a) t) ∧
        (t.addr a = .free ∨ t.addr a = .reserved →
          (4 ≤ (t.bucket b).length → run (.bucketFull b) t) ∧
          ((t.bucket b).length < 4 →
            (t.lowestVacant = none → run (.full .entries) t) ∧
            (∀ k, t.lowestVacant = some k →
              let fit := Table.fitDescriptor t.params.truncateDescriptors t.freeBlocks.length d
              (fit = none → run (.full .descriptor) t) ∧
              (∀ bytes cut, fit = some (bytes, cut) →
                let duration := if lease = 0 then (t.classRecord c).lease else lease
                let deadline := now + BitVec.ofNat 32 (duration.toNat * 1000)
                let ok := Result.ok ([byteOf k.val, (t.entry k).generation + 1, addrByte a] ++ halfBytes duration ++
                  [yesNo cut])
                let unrefused (t' : Table) : Table := match t.refusedSlot identity with
                  | none => t'
                  | some j => { t' with
                      slots := t.slots.set j .free, deadlines := t'.deadlines.filter fun x => x.kind.owner ≠ Owner.slot j }
                (pin = true → run ok (unrefused { t.withTaken k identity c (.bound a duration none) bytes cut with
                  map := t.map.set a (.bound k), classes := t.classesWith c k }).evaluateAdmission) ∧
                (pin = false → run ok (unrefused { t.withTaken k identity c (.bound a duration (some deadline)) bytes cut with
                  map := t.map.set a (.bound k), classes := t.classesWith c k
                  deadlines := insertBehind (fun x => !earlier deadline x.deadline) { kind := .lease k, deadline }
                    (t.deadlines.filter fun x => x.kind.owner ≠ Owner.entry k) }).evaluateAdmission)))))))

/-- Tier 2. The fields of MODIFY's result, and MODIFY's guard and checks in order, and the edit that passes them (R6, R164, R165).
That the descriptor-length byte of a descriptor not selected is ignored, as the other values not selected are, is an inference, the
model's (log 20). -/
def Obligations.ModifyIsChecked : Prop :=
  (∀ (t : Table) (k : EntryIx),
    let e := t.entry k
    let fields (state : Byte) (a : Addr) (pinned : Bool) (lease : Half) := [byteOf k.val, e.generation, state, byteOf e.cls.val,
      addrByte a, yesNo pinned] ++ halfBytes lease ++ [byteOf (t.descriptor k).length, yesNo e.truncated]
    (∀ a lease, e.life = .bound a lease none → modifyPayload t k = fields 3 a true lease) ∧
    (∀ a lease d, e.life = .bound a lease (some d) → modifyPayload t k = fields 3 a false lease) ∧
    (∀ a lease d, e.life = .unverified a lease d → modifyPayload t k = fields 4 a false lease)) ∧
  ∀ (s : State) (index generation selection cls pinned : Byte) (lease : Half) (address n : Byte) (d : List Byte),
    let i := Instr.modify index generation selection cls pinned lease address n d
    let t := s.table
    let run (r : Result) (t' : Table) := exec i s = .next (s.served .host t' (.command r))
    let spells (x : Edit) := x.Spelled t selection cls pinned lease address n d
    Granted s .host i →
    (95 < index.toNat → run .badArgument t) ∧
    (∀ k : EntryIx, index.toNat = k.val →
      let e := t.entry k
      (e.life = .vacant → run (.notFound []) t) ∧
      (e.life ≠ .vacant → generation ≠ e.generation → run (.stale [e.generation]) t) ∧
      (generation = e.generation → e.life.state = .awaiting ∨ e.life.state = .offered ∨ e.life.state = .lapsed →
        run (.refusedState [e.life.state.code]) t) ∧
      (generation = e.generation → e.life.state = .bound ∨ e.life.state = .unverified →
        ((∀ x, ¬ spells x) → run .badArgument t) ∧
        (∀ x : Edit, spells x →
          let moves (a : Addr) := x.address = some a ∧ e.life.address ≠ some a
          let fit (d' : List Byte) :=
            Table.fitDescriptor t.params.truncateDescriptors (e.blocks.length + t.freeBlocks.length) d'
          (∀ a, moves a → t.addr a ≠ .free → run (t.inUseAddr a) t) ∧
          ((∀ a, moves a → t.addr a = .free) →
            let edited (stored : Option (List Byte × Bool)) :=
              run (.ok (modifyPayload (applyEdit s.expiry.time t k x stored) k)) (applyEdit s.expiry.time t k x stored)
            (x.descriptor = none → edited none) ∧
            (∀ d', x.descriptor = some d' →
              (fit d' = none → run (.full .descriptor) t) ∧
              (∀ stored, fit d' = some stored → edited (some stored)))))))

/-- Tier 2. The fields of a MODIFY are applied in the order lease, pin, class, descriptor, address, and each changes what R165 says
and nothing else. -/
def Obligations.ModifyAppliesFieldsInOrder : Prop :=
  ∀ (t : Table) (now : Time) (k : EntryIx),
    let e := t.entry k
    let ends (l : Half) := now + BitVec.ofNat 32 (l.toNat * 1000)
    let relived (life : EntryLife) := { t with entries := t.entries.set k { e with life } }
    let changed (t' : Table) := { t' with changeSet := insertAscending k t.changeSet }
    let itemless (t' : Table) := { t' with deadlines := t.deadlines.filter fun x => x.kind.owner ≠ Owner.entry k }
    (∀ x stored, applyEdit now t k x stored = editAddress now (editDescriptor (editClass (editPin now (editLease t k x.lease)
      k x.pinned) k x.cls) k stored) k x.address) ∧
    editLease t k none = t ∧ editPin now t k none = t ∧ editClass t k none = t ∧ editDescriptor t k none = t ∧
    editAddress now t k none = t ∧
    (∀ bytes cut, editDescriptor t k (some (bytes, cut)) = t.replaceDescriptor k bytes cut) ∧
    (∀ a l old, e.life = .bound a l old →
      (∀ l', editLease t k (some l') = relived (.bound a l' old)) ∧
      (old = none → editPin now t k (some true) = t ∧
        editPin now t k (some false) = changed (t.withLease k e a l (ends l))) ∧
      (old ≠ none → editPin now t k (some false) = t ∧
        editPin now t k (some true) = changed (itemless (relived (.bound a l none))))) ∧
    (∀ a l old, e.life = .unverified a l old →
      (∀ l', editLease t k (some l') = relived (.unverified a l' old)) ∧ editPin now t k (some false) = t ∧
      editPin now t k (some true) = changed (itemless (relived (.bound a l none)))) ∧
    editClass t k (some e.cls) = t ∧
    (∀ c, c ≠ e.cls → editClass t k (some c) = changed { t with
      entries := t.entries.set k { e with cls := c }
      classes := (t.classes.set e.cls { t.classRecord e.cls with
          members := (t.classRecord e.cls).members.filter (· ≠ k)
          generation := (t.classRecord e.cls).generation + 1 }).set c { t.classRecord c with
          members := (t.classRecord c).members ++ [k], generation := (t.classRecord c).generation + 1 } }) ∧
    (∀ a, e.life.address = some a → editAddress now t k (some a) = t) ∧
    (∀ a b l old, a ≠ b → e.life = .bound a l old → editAddress now t k (some b) =
      changed (({ relived (.bound b l old) with map := t.map.set b (.bound k) } : Table).withReleased now false a)) ∧
    (∀ a b l old, a ≠ b → e.life = .unverified a l old → editAddress now t k (some b) =
      changed (({ relived (.unverified b l old) with map := t.map.set b (.bound k) } : Table).withReleased now false a))

/-- Tier 2. RETIRE: the guard, the free-now flag, and the retirement from each state (R6, R167). An AWAITING entry has no address, and
the result carries zeros for it and its state: that the state byte is zero too is an inference, the model's (log 19). -/
def Obligations.RetireRetires : Prop :=
  ∀ (s : State) (index generation freeNow : Byte),
    let i := Instr.retire index generation freeNow
    let t := s.table
    let now := s.expiry.time
    let run (r : Result) (t' : Table) := exec i s = .next (s.served .host t' (.command r))
    Granted s .host i →
    (95 < index.toNat → run .badArgument t) ∧
    (∀ k : EntryIx, index.toNat = k.val →
      let e := t.entry k
      let gone := t.withoutEntry k
      (e.life = .vacant → run (.notFound []) t) ∧
      (e.life ≠ .vacant → generation ≠ e.generation → run (.stale [e.generation]) t) ∧
      (e.life ≠ .vacant → generation = e.generation → 1 < freeNow.toNat → run .badArgument t) ∧
      (∀ free : Bool, generation = e.generation → freeNow = yesNo free →
        (∀ j, e.life = .awaiting j → run (.ok [index, generation, 1, 0, 0]) { gone with
          slots := t.slots.set j .free
          deadlines := gone.deadlines.filter fun x => x.kind.owner ≠ Owner.slot j }.evaluateAdmission) ∧
        (∀ j a l old, e.life = .offered j a l old → run (.ok [index, generation, 2, addrByte a, 2])
          { gone with slots := t.slots.set j .free, map := t.map.set a .free }.evaluateAdmission) ∧
        (∀ a, e.life.address = some a →
          let code : Byte := if free = true ∨ t.params.quarantineTime = 0 then 2 else 6
          (e.life.state = .bound ∨ e.life.state = .unverified →
            run (.ok [index, generation, e.life.state.code, addrByte a, code])
              ({ gone with classes := t.classesWithout e.cls k }.withReleased now free a).evaluateAdmission) ∧
          (e.life.state = .lapsed → run (.ok [index, generation, 5, addrByte a, code])
            (gone.withReleased now free a).evaluateAdmission))))

/-- Tier 2. RESERVE, UNRESERVE and UNQUARANTINE (R54, R55, R56). -/
def Obligations.HostMovesFreeAddresses : Prop :=
  ∀ (s : State) (address : Byte),
    let t := s.table
    let run (i : Instr) (r : Result) (t' : Table) := exec i s = .next (s.served .host t' (.command r))
    (Granted s .host (.reserve address) →
      (0x7F < address.toNat → run (.reserve address) .badArgument t) ∧
      (∀ a : Addr, address.toNat = a.val →
        (t.addr a = .fixed → run (.reserve address) .badArgument t) ∧
        (t.addr a = .free →
          run (.reserve address) (.ok ([address, 2] ++ beBytes 4 0)) { t with map := t.map.set a .reserved }) ∧
        (∀ d, t.addr a = .quarantined d → run (.reserve address) (.ok ([address, 6] ++ beBytes 4 (remaining s.expiry.time d)))
          { t with map := t.map.set a .reserved, quarantine := t.quarantine.filter fun x => x.address ≠ a }) ∧
        (t.addr a = .reserved → run (.reserve address) (.ok ([address, 1] ++ beBytes 4 0)) t) ∧
        (∀ k, t.addr a = .offered k ∨ t.addr a = .bound k ∨ t.addr a = .held k → run (.reserve address)
          { code := 0x03, payload := [2, address, (t.addr a).code, byteOf k.val, (t.entry k).generation] } t))) ∧
    (Granted s .host (.unreserve address) →
      (0x7F < address.toNat → run (.unreserve address) .badArgument t) ∧
      (∀ a : Addr, address.toNat = a.val →
        (t.addr a = .fixed → run (.unreserve address) .badArgument t) ∧
        (t.addr a = .reserved → run (.unreserve address) (.ok [address]) { t with map := t.map.set a .free }) ∧
        (t.addr a ≠ .fixed → t.addr a ≠ .reserved →
          run (.unreserve address) (.refusedState [address, (t.addr a).code]) t))) ∧
    (Granted s .host (.unquarantine address) →
      (0x7F < address.toNat → run (.unquarantine address) .badArgument t) ∧
      (∀ a : Addr, address.toNat = a.val →
        (∀ d, t.addr a = .quarantined d → run (.unquarantine address)
          (.ok (address :: beBytes 4 (remaining s.expiry.time d))) { t with
            map := t.map.set a .free, quarantine := t.quarantine.filter fun x => x.address ≠ a }) ∧
        ((∀ d, t.addr a ≠ .quarantined d) →
          run (.unquarantine address) (.refusedState [address, (t.addr a).code]) t)))

/-- Tier 2. READ ADDRESS, READ QUARANTINE and READ AUTHORITY (R57, R58, R168): none changes any state. What each total counts. -/
def Obligations.AddressesAndTotalsAreRead : Prop :=
  ∀ s : State,
    let t := s.table
    let now := s.expiry.time
    let result (i : Instr) (r : Result) := exec i s = .next (s.served .host t (.command r))
    t.vacantCount = ((List.finRange 96).countP fun i => (t.entry i).life = .vacant) ∧
    (∀ st, t.countEntries st = (List.finRange 96).countP fun i => (t.entry i).life.state = st) ∧
    (∀ code, t.countAddrs code = (List.finRange 128).countP fun a => (t.addr a).code = code) ∧
    (∀ code, t.countSlots code = (List.finRange 4).countP fun j => (t.slot j).code = code) ∧
    (∀ b, b ∈ t.freeBlocks ↔ t.pool.get b = none) ∧
    (∀ address, Granted s .host (.readAddress address) →
      (0x7F < address.toNat → result (.readAddress address) .badArgument) ∧
      (∀ a : Addr, address.toNat = a.val →
        let flag := yesNo (decide (a = s.authorityAddress))
        (t.addr a = .fixed ∨ t.addr a = .reserved ∨ t.addr a = .free → result (.readAddress address)
          (.ok [address, (t.addr a).code, flag, 0, 0, 0, 0, 0, 0, 0])) ∧
        (∀ k, t.addr a = .offered k ∨ t.addr a = .bound k ∨ t.addr a = .held k → result (.readAddress address)
          (.ok [address, (t.addr a).code, flag, byteOf k.val, (t.entry k).generation, 0, 0, 0, 0, 0])) ∧
        (∀ d, t.addr a = .quarantined d → result (.readAddress address)
          (.ok ([address, 6, flag, 0, 0] ++ beBytes 4 (remaining now d) ++
            [byteOf (t.quarantine.findIdx fun x => x.address = a)]))))) ∧
    (∀ position, Granted s .host (.readQuarantine position) →
      (110 < position.toNat → result (.readQuarantine position) .badArgument) ∧
      (position.toNat ≤ 110 →
        let items := (t.quarantine.drop position.toNat).take 8
        result (.readQuarantine position) (.ok ([byteOf t.quarantine.length, byteOf items.length] ++
          items.flatMap fun x => addrByte x.address :: beBytes 4 (remaining now x.endTime))))) ∧
    (Granted s .host .readAuthority →
      let entries (st : EntryState) := byteOf (t.countEntries st)
      result .readAuthority (.ok (timeBytes now ++ [addrByte s.authorityAddress] ++ halfBytes t.seed ++
        [t.admission.code, entries .vacant, entries .awaiting, entries .offered, entries .bound, entries .unverified,
          entries .lapsed, byteOf ((List.finRange 96).countP fun i => (t.entry i).life.pinned), byteOf (t.countAddrs 2),
          byteOf (t.countAddrs 1), byteOf (t.countAddrs 6), byteOf (t.countAddrs 3), byteOf (t.countAddrs 4),
          byteOf (t.countAddrs 5), byteOf t.freeBlocks.length, byteOf (t.countSlots 0), byteOf (t.countSlots 1),
          byteOf (t.countSlots 2), byteOf (t.countSlots 3), byteOf t.deadlines.length, byteOf t.changeSet.length])))

/-- Tier 2. APPROVE: its guard, its address choice, and the offer (R96, R97). -/
def Obligations.ApproveOffers : Prop :=
  ∀ (s : State) (slot generation address : Byte),
    let i := Instr.approve slot generation address
    let t := s.table
    let run (r : Result) (t' : Table) := exec i s = .next (s.served .host t' (.command r))
    Granted s .host i →
    (3 < slot.toNat → run .badArgument t) ∧
    (∀ j : SlotIx, slot.toNat = j.val →
      ((t.slot j).isAwaiting = false → run (.refusedState [(t.slot j).code]) t) ∧
      (∀ claim k, t.slot j = .awaiting claim k → generation ≠ (t.entry k).generation →
        run (.stale [byteOf k.val, (t.entry k).generation]) t) ∧
      (∀ claim k, t.slot j = .awaiting claim k → generation = (t.entry k).generation →
        (address = 0 → t.chooseAddr claim.low claim.high none = none → run (.full .addresses) t) ∧
        (∀ a : Addr, address ≠ 0 → address.toNat = a.val →
          (a < claim.low ∨ claim.high < a ∨ t.addr a = .fixed → run .badArgument t) ∧
          (claim.low ≤ a → a ≤ claim.high → t.addr a ≠ .fixed → t.addr a ≠ .free → run (t.inUseAddr a) t)) ∧
        (0x7F < address.toNat → run .badArgument t) ∧
        (∀ a : Addr, (address = 0 ∧ t.chooseAddr claim.low claim.high none = some a) ∨
            (address ≠ 0 ∧ address.toNat = a.val ∧ claim.low ≤ a ∧ a ≤ claim.high ∧ t.addr a = .free) →
          let e := t.entry k
          let lease := if claim.override = 0 then (t.classRecord e.cls).lease else claim.override
          let deadline := s.expiry.time + BitVec.ofNat 32 t.params.offerTime.toNat
          run (.ok ([slot, byteOf k.val, generation, addrByte a] ++ halfBytes t.params.offerTime)) { t with
            entries := t.entries.set k { e with life := .offered j a lease deadline }
            map := t.map.set a (.offered k)
            quarantine := t.quarantine.filter fun x => x.address ≠ a
            slots := t.slots.set j (.offered { claim with deadline } k)
            deadlines := insertBehind (fun x => !earlier deadline x.deadline) { kind := .offer k, deadline }
              (t.deadlines.filter fun x => x.kind.owner ≠ Owner.slot j)
            changeSet := insertAscending k t.changeSet })))

/-- Tier 2. DENY: its guard, and the refusal (R96, R98). READ SLOT reads the slot back (R102). -/
def Obligations.DenyRefusesAndSlotsAreRead : Prop :=
  ∀ (s : State) (slot generation : Byte),
    let t := s.table
    let now := s.expiry.time
    let run (i : Instr) (r : Result) (t' : Table) := exec i s = .next (s.served .host t' (.command r))
    (Granted s .host (.deny slot generation) →
      (3 < slot.toNat → run (.deny slot generation) .badArgument t) ∧
      (∀ j : SlotIx, slot.toNat = j.val →
        ((t.slot j).isAwaiting = false → run (.deny slot generation) (.refusedState [(t.slot j).code]) t) ∧
        (∀ claim k, t.slot j = .awaiting claim k → generation ≠ (t.entry k).generation →
          run (.deny slot generation) (.stale [byteOf k.val, (t.entry k).generation]) t) ∧
        (∀ claim k, t.slot j = .awaiting claim k → generation = (t.entry k).generation → (t.entry k).life = .awaiting j →
          let deadline := now + BitVec.ofNat 32 t.params.approvalTime.toNat
          let gone := t.withoutEntry k
          run (.deny slot generation) (.ok (slot :: halfBytes t.params.approvalTime)) { gone with
            slots := t.slots.set j (.refused { claim with deadline })
            deadlines := insertBehind (fun x => !earlier deadline x.deadline) { kind := .refusal j, deadline }
              (gone.deadlines.filter fun x => x.kind.owner ≠ Owner.slot j) }.evaluateAdmission))) ∧
    (Granted s .host (.readSlot slot) →
      (3 < slot.toNat → run (.readSlot slot) .badArgument t) ∧
      (∀ j : SlotIx, slot.toNat = j.val →
        let fields (c : SlotClaim) (entry gen address : Byte) := identityBytes c.identity ++
          [byteOf c.cls.val, entry, gen, address, addrByte c.low, addrByte c.high] ++ halfBytes c.override ++
          beBytes 4 (remaining now c.deadline)
        (t.slot j = .free → run (.readSlot slot) (.ok (slot :: 0 :: List.replicate 18 0)) t) ∧
        (∀ c k, t.slot j = .awaiting c k →
          run (.readSlot slot) (.ok (slot :: 1 :: fields c (byteOf k.val) (t.entry k).generation 0)) t) ∧
        (∀ c k, t.slot j = .offered c k → run (.readSlot slot)
          (.ok (slot :: 2 :: fields c (byteOf k.val) (t.entry k).generation (indexByte (t.entry k).life.address))) t) ∧
        (∀ c, t.slot j = .refused c → run (.readSlot slot) (.ok (slot :: 3 :: fields c 0 0 0)) t)))

/-- Tier 2. WRITE CLASS, READ CLASS and READ CLASS LIST (R64, R65, R125). -/
def Obligations.ClassesAreWrittenAndRead : Prop :=
  ∀ (s : State) (cls : Byte),
    let t := s.table
    let run (i : Instr) (r : Result) (t' : Table) := exec i s = .next (s.served .host t' (.command r))
    (∀ enabled lease hold, let i := Instr.writeClass cls enabled lease hold
      Granted s .host i →
      (15 < cls.toNat ∨ lease = 0 ∨ 1 < enabled.toNat → run i .badArgument t) ∧
      (∀ (c : ClassIx) (on : Bool), cls.toNat = c.val → enabled = yesNo on → lease ≠ 0 →
        run i (.ok ([cls, enabled] ++ halfBytes lease ++ halfBytes hold)) { t with
          classes := t.classes.set c { t.classRecord c with enabled := on, lease, hold } })) ∧
    (Granted s .host (.readClass cls) →
      (15 < cls.toNat → run (.readClass cls) .badArgument t) ∧
      (∀ c : ClassIx, cls.toNat = c.val →
        let r := t.classRecord c
        run (.readClass cls) (.ok ([cls, yesNo r.enabled] ++ halfBytes r.lease ++ halfBytes r.hold ++
          [r.generation, byteOf r.members.length, byteOf ((List.finRange 96).countP fun i =>
            (t.entry i).life.state = .lapsed && (t.entry i).cls = c)])) t)) ∧
    (∀ position, let i := Instr.readClassList cls position
      Granted s .host i →
      (15 < cls.toNat ∨ 95 < position.toNat → run i .badArgument t) ∧
      (∀ c : ClassIx, cls.toNat = c.val → position.toNat ≤ 95 →
        let r := t.classRecord c
        let items := (r.members.drop position.toNat).take 8
        run i (.ok ([cls, r.generation, byteOf r.members.length, byteOf items.length] ++ items.flatMap fun k =>
          let e := t.entry k
          [byteOf k.val, e.generation, e.life.state.code, yesNo e.life.pinned, indexByte e.life.address])) t))

/-- Tier 2. WRITE RULE and READ RULE (R109, R110): a written rule reads back as its argument bytes. -/
def Obligations.RulesAreWrittenAndRead : Prop :=
  ∀ (s : State) (rule : Byte),
    let t := s.table
    let run (i : Instr) (r : Result) (t' : Table) := exec i s = .next (s.served .host t' (.command r))
    (∀ valid value length classMatch action low high override priority,
      let i := Instr.writeRule rule valid value length classMatch action low high override priority
      Granted s .host i →
      (15 < rule.toNat ∨ 1 < valid.toNat → run i .badArgument t) ∧
      (∀ r : RuleIx, rule.toNat = r.val → valid = 0 →
        run i (.ok (rule :: List.replicate 15 0)) { t with rules := t.rules.set r none }) ∧
      (∀ r : RuleIx, rule.toNat = r.val → valid = 1 →
        (48 < length.toNat ∨ (15 < classMatch.toNat ∧ classMatch ≠ 0xFF) ∨ 3 < action.toNat ∨ 1 < priority.toNat ∨
            low.toNat < 0x08 ∨ 0x77 < high.toNat ∨ high.toNat < low.toNat → run i .badArgument t) ∧
        (length.toNat ≤ 48 → classMatch.toNat ≤ 15 ∨ classMatch = 0xFF → action.toNat ≤ 3 → priority.toNat ≤ 1 →
          0x08 ≤ low.toNat → low.toNat ≤ high.toNat → high.toNat ≤ 0x77 →
          ∃ written : AdmissionRule, run i (.ok ([rule, 1] ++ identityBytes value ++
              [length, classMatch, action, low, high] ++ halfBytes override ++ [priority]))
              { t with rules := t.rules.set r (some written) } ∧
            written.value = value ∧ written.prefixLength.val = length.toNat ∧
            classMatchByte written.classMatch = classMatch ∧ written.action.code = action ∧ written.low.val = low.toNat ∧
            written.high.val = high.toNat ∧ written.override = override ∧ yesNo written.priority = priority))) ∧
    (Granted s .host (.readRule rule) →
      (15 < rule.toNat → run (.readRule rule) .badArgument t) ∧
      (∀ r : RuleIx, rule.toNat = r.val →
        (t.rules.get r = none → run (.readRule rule) (.ok (rule :: List.replicate 15 0)) t) ∧
        (∀ a, t.rules.get r = some a → run (.readRule rule) (.ok ([rule, 1] ++ identityBytes a.value ++
          [byteOf a.prefixLength.val, classMatchByte a.classMatch, a.action.code, addrByte a.low, addrByte a.high] ++
          halfBytes a.override ++ [yesNo a.priority])) t)))

/-- Tier 2. WRITE PARAMETER and READ PARAMETER (R112, R114, R170, R172): the ranges at their ends, the two watermarks against each
other, and the value read back. -/
def Obligations.ParametersAreWrittenAndRead : Prop :=
  ∀ (s : State) (identifier : Byte) (value : Half),
    let i := Instr.writeParameter identifier value
    let t := s.table
    let n := value.toNat
    let run (i : Instr) (r : Result) (t' : Table) := exec i s = .next (s.served .host t' (.command r))
    (Granted s .host i →
      let refused := run i .badArgument t
      let written (p : Params) (t' : Table) := run i (.ok (identifier :: halfBytes value)) { t' with params := p }
      let ranged (id : Byte) (low high : Nat) (p : Params) := identifier = id →
        (n < low ∨ high < n → refused) ∧ (low ≤ n → n ≤ high → written p t)
      (identifier.toNat < 0x01 ∨ 0x0D < identifier.toNat → refused) ∧
      ranged 0x01 50 5000 { t.params with offerTime := value } ∧
      ranged 0x02 100 60000 { t.params with approvalTime := value } ∧
      ranged 0x03 0 3600 { t.params with quarantineTime := value } ∧
      ranged 0x04 1 3600 { t.params with revalidateTime := value } ∧
      ranged 0x07 1 96 { t.params with coalesceCount := value } ∧
      ranged 0x08 0 1000 { t.params with coalesceTime := value } ∧
      ranged 0x09 0 25 { t.params with stretchLimit := value } ∧
      (identifier = 0x05 →
        (96 < n ∨ t.params.highMark.toNat < n → refused) ∧
        (n ≤ 96 → n ≤ t.params.highMark.toNat → run i (.ok (identifier :: halfBytes value))
          { t with params := { t.params with lowMark := value } }.evaluateAdmission)) ∧
      (identifier = 0x06 →
        (96 < n ∨ n < t.params.lowMark.toNat → refused) ∧
        (n ≤ 96 → t.params.lowMark.toNat ≤ n → run i (.ok (identifier :: halfBytes value))
          { t with params := { t.params with highMark := value } }.evaluateAdmission)) ∧
      (identifier = 0x0A → (31 < n → refused) ∧ (n ≤ 31 → written { t.params with alertMask :=
        { changes := value.getLsbD 0, approval := value.getLsbD 1, admission := value.getLsbD 2
          busFault := value.getLsbD 3, done := value.getLsbD 4 } } t)) ∧
      (identifier = 0x0B → (1 < n → refused) ∧ (∀ on : Bool, n = on.toNat → written { t.params with earlyReuse := on } t)) ∧
      (identifier = 0x0C →
        (1 < n → refused) ∧ (∀ on : Bool, n = on.toNat → written { t.params with truncateDescriptors := on } t)) ∧
      (identifier = 0x0D →
        (n = 1 ∨ 3 < n → refused) ∧ (n = 0 → written { t.params with defaultAction := .allow } t) ∧
        (n = 2 → written { t.params with defaultAction := .holdForHost } t) ∧
        (n = 3 → written { t.params with defaultAction := .deny } t))) ∧
    (Granted s .host (.readParameter identifier) →
      (paramOf identifier = none → run (.readParameter identifier) .badArgument t) ∧
      (∀ which, paramOf identifier = some which →
        run (.readParameter identifier) (.ok (identifier :: halfBytes (t.params.value which))) t) ∧
      (identifier.toNat < 0x01 ∨ 0x0D < identifier.toNat → run (.readParameter identifier) .badArgument t) ∧
      (let p := t.params
       let mask := p.alertMask
       let reads (id : Byte) (held : Half) :=
         identifier = id → run (.readParameter identifier) (.ok (identifier :: halfBytes held)) t
       reads 0x01 p.offerTime ∧ reads 0x02 p.approvalTime ∧ reads 0x03 p.quarantineTime ∧ reads 0x04 p.revalidateTime ∧
       reads 0x05 p.lowMark ∧ reads 0x06 p.highMark ∧ reads 0x07 p.coalesceCount ∧ reads 0x08 p.coalesceTime ∧
       reads 0x09 p.stretchLimit ∧
       reads 0x0A (BitVec.ofNat 16 (mask.changes.toNat + 2 * mask.approval.toNat + 4 * mask.admission.toNat +
         8 * mask.busFault.toNat + 16 * mask.done.toNat)) ∧
       reads 0x0B (BitVec.ofNat 16 p.earlyReuse.toNat) ∧ reads 0x0C (BitVec.ofNat 16 p.truncateDescriptors.toNat) ∧
       reads 0x0D (match p.defaultAction with
         | .allow => 0
         | .holdForHost => 2
         | .deny => 3)))

/-- Tier 2. NEXT CHANGE (R174): EMPTY, or the lowest index removed with its record and the count left. -/
def Obligations.NextChangeTakesTheLowest : Prop :=
  ∀ s : State, Granted s .host .nextChange →
    let t := s.table
    let run (r : Result) (t' : Table) := exec .nextChange s = .next (s.served .host t' (.command r))
    (t.changeSet = [] → run .empty t) ∧
    (∀ i rest, t.changeSet = i :: rest →
      run (.ok (t.entryRecord s.expiry.time i ++ [byteOf rest.length])) { t with changeSet := rest } ∧
      (t.ChangeSetSorted → ∀ k ∈ rest, i < k))

/-! ### REHASH -/

/-- Tier 2. The first step of a REHASH: an equal seed completes it, a different one begins a run (R31); a step visits the entry at
the cursor, and after entry 95 switches the index (R32, R33). -/
def Obligations.RehashVisitsEveryEntry : Prop :=
  ∀ s : State,
    let t := s.table
    let run (i : Instr) (v : Service) (t' : Table) := exec i s = .next (s.served .host t' v)
    let deepest (index : Vector (List EntryIx) 32) := index.toList.foldl (fun d b => max d b.length) 0
    (∀ seed, Granted s .host (.rehash seed) →
      (seed = t.seed → run (.rehash seed) (.command (.ok (byteOf (deepest t.index) :: halfBytes t.seed))) t) ∧
      (seed ≠ t.seed → (t.entry 0).life = .vacant → run (.rehash seed) .step
        { t with run := some { newSeed := seed, shadow := Vector.replicate 32 [], cursor := 1 } }) ∧
      (seed ≠ t.seed → (t.entry 0).life ≠ .vacant →
        let shadow := (Vector.replicate 32 []).set (bucketOf seed (t.entry 0).identity) [0]
        run (.rehash seed) .step { t with run := some { newSeed := seed, shadow, cursor := 1 } })) ∧
    (∀ r : RehashRun, Granted s .host .rehashStep → t.run = some r →
      let k := r.cursor
      let b := bucketOf r.newSeed (t.entry k).identity
      ((t.entry k).life = .vacant ∨ (r.shadow.get b).length < 4 →
        let shadow := if (t.entry k).life = .vacant then r.shadow else r.shadow.set b (insertAscending k (r.shadow.get b))
        (∀ next : EntryIx, next.val = k.val + 1 →
          run .rehashStep .step { t with run := some { r with shadow, cursor := next } }) ∧
        (k = 95 → run .rehashStep (.command (.ok (byteOf (deepest shadow) :: halfBytes r.newSeed)))
          { t with seed := r.newSeed, index := shadow, run := none })))

/-- Tier 2. A fifth entry in a shadow bucket ends the run: shadow, mark, new seed and cursor go, the seed and the index in force
stay, and the result is REHASH_OVERFLOW (R34). -/
def Obligations.RehashOverflows : Prop :=
  ∀ (s : State) (r : RehashRun), Granted s .host .rehashStep → s.table.run = some r →
    (s.table.entry r.cursor).life ≠ .vacant →
    let b := bucketOf r.newSeed (s.table.entry r.cursor).identity
    4 ≤ (r.shadow.get b).length →
    exec .rehashStep s = .next (s.served .host { s.table with run := none }
      (.command { code := 0x0B, payload := [byteOf b.val, byteOf r.cursor.val] }))

/-- Tier 2. How a run goes on and ends early: a step's completion submits the next step, or the ending operation when the abort
request is set (R32, R38); the ending operation drops the run (R38); ABORT granted in IDLE answers OK and changes no table state
(R157). The row ABORT in any other case is the model's choice: while a REHASH executes it sets the abort request and nothing else,
and while any other command executes it changes nothing at all (log 10); the refused and frame error marks, which R155 and R157 have
an accepted ABORT clear, are cleared at the CS# rise of its frame (CommandFramesEnd) and not by this row. In IDLE with no ABORT
waiting, and with an ABORT waiting that is not granted, it changes nothing (logs 1 and 10). -/
def Obligations.RunsGoOnAndAbort : Prop :=
  ∀ s : State,
    let t := s.table
    (s.service = some .step →
      let ended := { s with service := none, seen := s.table, alert := s.alert.take s.seen s.table false }
      (s.port.abortRequest = false → exec .stepOperationCompletion s = .next
        { ended with arbiter := { s.arbiter with host := some .rehashStep } }.lookForDue) ∧
      (s.port.abortRequest = true → exec .stepOperationCompletion s = .next
        { ended with arbiter := { s.arbiter with host := some .rehashAbortEnding } }.lookForDue)) ∧
    (∀ r, Granted s .host .rehashAbortEnding → t.run = some r →
      exec .rehashAbortEnding s = .next (s.served .host { t with run := none }
        (.command { code := 0x0A, payload := [byteOf r.cursor.val] }))) ∧
    (Granted s .host .abort → exec .abort s = .next (s.served .host t (.command (.ok [])))) ∧
    (∀ seed, s.arbiter.host ≠ some .abort → s.port.command = .executing (.rehash seed) →
      exec .abort s = .next { s with port := { s.port with abortRequest := true } }) ∧
    (∀ i, s.arbiter.host ≠ some .abort → s.port.command = .executing i → isRehash i = false →
      exec .abort s = .next s) ∧
    (s.arbiter.host ≠ some .abort → s.port.command = .idle → exec .abort s = .next s) ∧
    (s.arbiter.host = some .abort → ¬ Granted s .host .abort → exec .abort s = .next s)

/-! ### Retention reset and expiries -/

/-- Tier 2. RESET KEEP (R117, R185 to R188): it walks the entries in ascending index, retires the AWAITING, OFFERED and LAPSED ones,
each by R14, and makes the unpinned BOUND ones UNVERIFIED with a REVALIDATE item in place of the LEASE one; then every slot is FREE,
the list keeps no OFFER, APPROVAL, REFUSAL or HOLD item, and the admission state is set afresh. The whole table it leaves, its two
counts, and what that comes to for each entry. -/
def Obligations.ResetKeepKeepsBindings : Prop :=
  ∀ s : State, Granted s .host .resetKeep →
    let t := s.table
    let now := s.expiry.time
    let deadline := now + BitVec.ofNat 32 (t.params.revalidateTime.toNat * 1000)
    let leaving (e : Entry) := e.life.state = .awaiting ∨ e.life.state = .offered ∨ e.life.state = .lapsed
    let probation (e : Entry) := e.life.state = .bound ∧ e.life.pinned = false
    ∃ (walk : Nat → Table) (t' : Table) (unverified retired : Nat),
      exec .resetKeep s = .next (s.served .host t' (.retention (.ok [byteOf unverified, byteOf retired]))) ∧
      unverified = ((List.finRange 96).countP fun i => (t.entry i).life.state = .bound && !(t.entry i).life.pinned) ∧
      retired = ((List.finRange 96).countP fun i => (t.entry i).life.state = .awaiting ||
        (t.entry i).life.state = .offered || (t.entry i).life.state = .lapsed) ∧
      walk 0 = t ∧
      (∀ i : EntryIx,
        let before := walk i.val
        let after := walk (i.val + 1)
        let gone := before.withoutEntry i
        let e := t.entry i
        before.entry i = e ∧
        (∀ j, e.life = .awaiting j → after = { gone with
          slots := before.slots.set j .free
          deadlines := gone.deadlines.filter fun x => x.kind.owner ≠ Owner.slot j }) ∧
        (∀ j a l d, e.life = .offered j a l d →
          after = { gone with slots := before.slots.set j .free, map := before.map.set a .free }) ∧
        (∀ a l d, e.life = .lapsed a l d → after = gone.withReleased now false a) ∧
        (∀ a l d, e.life = .bound a l (some d) → after = { before with
          entries := before.entries.set i { e with life := .unverified a l deadline }
          deadlines := insertBehind (fun x => !earlier deadline x.deadline) { kind := .revalidate i, deadline }
            (before.deadlines.filter fun x => x.kind.owner ≠ Owner.entry i)
          changeSet := insertAscending i before.changeSet }) ∧
        (¬ leaving e → ¬ probation e → after = before)) ∧
      t' = { walk 96 with
        slots := Vector.replicate 4 .free
        deadlines := (walk 96).deadlines.filter fun x => match x.kind with
          | .lease _ | .revalidate _ => true
          | .offer _ | .hold _ | .approval _ | .refusal _ => false
        admission := if (walk 96).vacantCount < t.params.lowMark.toNat then .restricted else .opened } ∧
      (∀ i, let e := t.entry i
        let e' := t'.entry i
        (leaving e → e' = { e with life := .vacant, inlineBytes := [], blocks := [], truncated := false }) ∧
        (∀ a l d, e.life = .bound a l (some d) → e' = { e with life := .unverified a l deadline }) ∧
        (¬ leaving e → ¬ probation e → e' = e)) ∧
      (∀ i, i ∈ t'.changeSet ↔ i ∈ t.changeSet ∨ leaving (t.entry i) ∨ probation (t.entry i)) ∧
      (∀ j, t'.slot j = .free) ∧ (∀ x ∈ t'.deadlines, x.kind.kept = true) ∧
      (t'.admission = .restricted ↔ t'.vacantCount < t.params.lowMark.toNat) ∧
      t'.classes = t.classes ∧ t'.rules = t.rules ∧ t'.params = t.params ∧ t'.seed = t.seed ∧ t'.run = t.run

/-- Tier 2. The expiries of claims: an offer's end and an approval's end retire the entry, a refusal's end frees the slot; an item
that no longer stands, is not due or is deferred by a run changes nothing (R36, R71, R94, R99, R101); so a quarantine (R47). -/
def Obligations.ClaimsAndQuarantinesExpire : Prop :=
  ∀ (s : State) (deadline : Time),
    let t := s.table
    let now := s.expiry.time
    let stands (kind : ItemKind) := ({ kind, deadline } : DeadlineItem) ∈ t.deadlines ∧ due now deadline = true ∧ t.run = none
    let run (i : Instr) (t' : Table) := exec i s = .next (s.served .expiry t' .expiry)
    (∀ k, Granted s .expiry (.offerExpiry k deadline) →
      (¬ stands (.offer k) → run (.offerExpiry k deadline) t) ∧
      (∀ j a l old, stands (.offer k) → (t.entry k).life = .offered j a l old → run (.offerExpiry k deadline)
        { t.withoutEntry k with slots := t.slots.set j .free, map := t.map.set a .free }.evaluateAdmission)) ∧
    (∀ j, Granted s .expiry (.approvalExpiry j deadline) →
      (¬ stands (.approval j) → run (.approvalExpiry j deadline) t) ∧
      (∀ claim k, stands (.approval j) → t.slot j = .awaiting claim k → (t.entry k).life = .awaiting j →
        run (.approvalExpiry j deadline) { t.withoutEntry k with
          slots := t.slots.set j .free
          deadlines := (t.withoutEntry k).deadlines.filter fun x => x.kind.owner ≠ Owner.slot j }.evaluateAdmission)) ∧
    (∀ j, Granted s .expiry (.refusalExpiry j deadline) →
      (¬ stands (.refusal j) → run (.refusalExpiry j deadline) t) ∧
      (stands (.refusal j) → run (.refusalExpiry j deadline) { t with
        slots := t.slots.set j .free, deadlines := t.deadlines.filter fun x => x.kind.owner ≠ Owner.slot j })) ∧
    (∀ a, Granted s .expiry (.quarantineEnd a deadline) →
      (t.addr a = .quarantined deadline → due now deadline = true → run (.quarantineEnd a deadline)
        { t with map := t.map.set a .free, quarantine := t.quarantine.filter fun x => x.address ≠ a }) ∧
      (t.addr a ≠ .quarantined deadline ∨ due now deadline = false → run (.quarantineEnd a deadline) t))

/-- Tier 2. Lapses and the hold's end: with a hold time, or during a run, the entry becomes LAPSED with its address HELD and a HOLD
item; otherwise it retires; an item that no longer stands changes nothing (R37, R71, R72, R73, R74). -/
def Obligations.BindingsLapse : Prop :=
  ∀ (s : State) (k : EntryIx) (deadline : Time) (a : Addr) (l : Half),
    let t := s.table
    let now := s.expiry.time
    let e := t.entry k
    let hold := (t.classRecord e.cls).hold
    let ended := now + BitVec.ofNat 32 (hold.toNat * 1000)
    let stands (kind : ItemKind) := ({ kind, deadline } : DeadlineItem) ∈ t.deadlines ∧ due now deadline = true
    let run (i : Instr) (t' : Table) := exec i s = .next (s.served .expiry t' .expiry)
    let lapsed := { t with
      entries := t.entries.set k { e with life := .lapsed a l ended }
      map := t.map.set a (.held k)
      classes := t.classesWithout e.cls k
      deadlines := insertBehind (fun x => !earlier ended x.deadline) { kind := .hold k, deadline := ended }
        (t.deadlines.filter fun x => x.kind.owner ≠ Owner.entry k)
      changeSet := insertAscending k t.changeSet }
    let gone := t.withoutEntry k
    let lapse (i : Instr) :=
      (hold ≠ 0 ∨ t.run ≠ none → run i lapsed) ∧
      (hold = 0 → t.run = none →
        run i ({ gone with classes := t.classesWithout e.cls k }.withReleased now false a).evaluateAdmission)
    (Granted s .expiry (.leaseLapse k deadline) →
      (¬ stands (.lease k) → run (.leaseLapse k deadline) t) ∧
      (∀ old, stands (.lease k) → e.life = .bound a l (some old) → lapse (.leaseLapse k deadline))) ∧
    (Granted s .expiry (.revalidationEnd k deadline) →
      (¬ stands (.revalidate k) → run (.revalidationEnd k deadline) t) ∧
      (∀ old, stands (.revalidate k) → e.life = .unverified a l old → lapse (.revalidationEnd k deadline))) ∧
    (Granted s .expiry (.holdEnd k deadline) →
      (¬ (stands (.hold k) ∧ t.run = none) → run (.holdEnd k deadline) t) ∧
      (∀ old, stands (.hold k) → t.run = none → e.life = .lapsed a l old →
        run (.holdEnd k deadline) (gone.withReleased now false a).evaluateAdmission))

/-! ### Invariants -/

/-- Tier 1. State.reset has every invariant below, with the authority address that the model chose for it (log 8). -/
def Obligations.ResetHasTheInvariants : Prop :=
  State.reset.RestsAtStart ∧ State.reset.SeesCompletedTable ∧ State.reset.LineIsRight ∧ State.reset.OneRequestInFlight ∧
    State.reset.OneCommand ∧ State.reset.OneExpiry ∧ State.reset.BuffersFit ∧ State.reset.TimersFitPhase ∧
    State.reset.table.params.InRange ∧ State.reset.table.BucketsFit ∧ State.reset.table.ChangeSetSorted ∧
    State.reset.table.PoolIsPartitioned ∧ State.reset.table.PoolIsExact ∧
    State.reset.RunIsOneCommand ∧ State.reset.table.RecordsAgree ∧
    State.reset.table.FixedAddressesStay State.reset.authorityAddress ∧
    0x0C ≤ State.reset.authorityAddress.val ∧ State.reset.authorityAddress.val ≤ 0x0F

/-- Tier 3. In a hard reset every item keeps its hard-reset value, and during initialisation the table, the engine, the target and
the alert unit rest (R182, R184). The values of State.reset that the spec does not give are the model's (logs 8 and 14). -/
def Obligations.StepKeepsThePartAtRest : Prop :=
  ∀ s t : State, s.RestsAtStart → step s = .next t → t.RestsAtStart

/-- Tier 3. After every step ALERT# is low exactly when the tags differ and an enabled cause is pending (R179): CHANGES while the
change set is ripe (R178; after an acknowledgement too, against R180's sentence on the conditions: the model's choice, log 27),
APPROVAL while a slot is AWAITING, and the three latched causes (R177). -/
def Obligations.StepKeepsTheAlertLineRight : Prop :=
  let right (s : State) : Prop :=
    let a := s.alert
    let t := s.seen
    let p := t.params
    let mask := p.alertMask
    a.line = true ↔ a.tag ≠ a.acknowledged ∧
      ((mask.changes = true ∧ t.changeSet ≠ [] ∧
          (p.coalesceCount.toNat ≤ t.changeSet.length ∨ a.timer = .expired ∨ p.coalesceTime = 0)) ∨
        (mask.approval = true ∧ ∃ j claim i, t.slot j = .awaiting claim i) ∨
        (mask.admission = true ∧ a.admissionLatch = true) ∨ (mask.busFault = true ∧ a.busFaultLatch = true) ∨
        (mask.done = true ∧ a.doneLatch = true))
  ∀ s t : State, s.RestsAtStart → right s → step s = .next t → right t

/-- Tier 3. One request in flight, one command executing, one expiry operation outstanding, at most, and the flags say so (R21,
R70, R133, R149); between operations every block sees the table as it is (R19); the buffers hold no more than they have room for
(R133, R149); the timers run only in their phases (R142, R144). -/
def Obligations.StepKeepsOneOperationEach : Prop :=
  ∀ s t : State, step s = .next t →
    (s.OneRequestInFlight → t.OneRequestInFlight) ∧ (s.OneCommand → t.OneCommand) ∧ (s.OneExpiry → t.OneExpiry) ∧
    (s.SeesCompletedTable → t.SeesCompletedTable) ∧ (s.BuffersFit → t.BuffersFit) ∧ (s.TimersFitPhase → t.TimersFitPhase)

/-- Tier 3. Every global parameter stays in its range and LOW_MARK not above HIGH_MARK (R112, R169, R170); no bucket ever holds more
than 4 entries, and its indices ascend (R23, R30); the change set holds no index twice (R173). The records of the table agree with
each other: every non-VACANT entry is in exactly the bucket of its identity and no VACANT one in any (R23), no two share an identity
(R2), the shadow index of a run holds the entries visited (R32), addresses and entries name each other and the quarantine queue holds
the QUARANTINED addresses (R42, R44), slots and entries name each other and a REFUSED slot's identity is no entry's (R78, R79, R82),
the list of each class holds its BOUND and UNVERIFIED entries (R122), and the deadline list one item for each deadline (R67). Beside
one command at most, this rests on a run being the work of one REHASH (R31, R32, R35, R38, R155), which is kept with it. -/
def Obligations.StepKeepsTheTableInRange : Prop :=
  ∀ s t : State, step s = .next t →
    (s.table.params.InRange → t.table.params.InRange) ∧ (s.table.BucketsFit → t.table.BucketsFit) ∧
    (s.table.ChangeSetSorted → t.table.ChangeSetSorted) ∧
    (s.OneCommand → s.RunIsOneCommand → s.table.RecordsAgree → t.RunIsOneCommand ∧ t.table.RecordsAgree)

/-- Tier 3. No step makes two entries share an extension block, or leaves an entry a free one; and no step lets a block leak: every
occupied block stays listed by an entry that is not VACANT, a VACANT entry has no descriptor, and an entry lists exactly the
blocks that its descriptor of at most 40 bytes needs (R14, R15, R16). -/
def Obligations.StepKeepsThePoolPartitioned : Prop :=
  ∀ s t : State, step s = .next t →
    (s.table.PoolIsPartitioned → t.table.PoolIsPartitioned) ∧ (s.table.PoolIsExact → t.table.PoolIsExact)

/-- Tier 3. The FIXED records stay what they are between two hard resets, whatever members and host do, and no entry or queued item
ever has a FIXED address (R40, R41, R42, R44). The authority address is one of 0x0C to 0x0F, and it stays the same under every
command but those that begin or end a hard reset: RESET_ASSERTED, RESET_END and an accepted RESET CLEAR (R41, R159, R183). Its value
before the first hard reset ends is the model's choice (log 8). -/
def Obligations.StepKeepsFixedAddresses : Prop :=
  ∀ s t : State, step s = .next t →
    (s.table.FixedAddressesStay s.authorityAddress → t.table.FixedAddressesStay t.authorityAddress) ∧
    (0x0C ≤ s.authorityAddress.val → s.authorityAddress.val ≤ 0x0F →
      0x0C ≤ t.authorityAddress.val ∧ t.authorityAddress.val ≤ 0x0F) ∧
    (s.pending = [] → t.authorityAddress = s.authorityAddress) ∧
    (∀ c rest, s.pending = c :: rest → c ≠ .resetAsserted → (∀ asel, c ≠ .resetEnd asel) →
      (∀ received asel, c = .commandFrameEnd received asel →
        let heard := received.foldl State.hostByte s
        ¬ (s.port.selected = true ∧ heard.port.kind = .command ∧ heard.port.ready = true ∧ heard.port.command = .idle ∧
          ∃ q, checkFrame heard.port.frame heard.port.overflow = some { sequence := q, body := .resetClear })) →
      t.authorityAddress = s.authorityAddress)
end

