-- ==== Sys2Proof/Laws/State.lean ====
section
/-! SUPPORT. What each named update of the table leaves as it was, field by field, and what it writes. -/

namespace Sys2Proof.Machine.Table

/-! ### Fields an update does not touch -/

@[simp] theorem pool_setEntry (t : Table) (i : EntryIx) (e : Entry) : (t.setEntry i e).pool = t.pool :=
  rfl
@[simp] theorem seed_setEntry (t : Table) (i : EntryIx) (e : Entry) : (t.setEntry i e).seed = t.seed :=
  rfl
@[simp] theorem index_setEntry (t : Table) (i : EntryIx) (e : Entry) : (t.setEntry i e).index = t.index :=
  rfl
@[simp] theorem run_setEntry (t : Table) (i : EntryIx) (e : Entry) : (t.setEntry i e).run = t.run :=
  rfl
@[simp] theorem map_setEntry (t : Table) (i : EntryIx) (e : Entry) : (t.setEntry i e).map = t.map :=
  rfl
@[simp] theorem quarantine_setEntry (t : Table) (i : EntryIx) (e : Entry) : (t.setEntry i e).quarantine = t.quarantine :=
  rfl
@[simp] theorem slots_setEntry (t : Table) (i : EntryIx) (e : Entry) : (t.setEntry i e).slots = t.slots :=
  rfl
@[simp] theorem classes_setEntry (t : Table) (i : EntryIx) (e : Entry) : (t.setEntry i e).classes = t.classes :=
  rfl
@[simp] theorem rules_setEntry (t : Table) (i : EntryIx) (e : Entry) : (t.setEntry i e).rules = t.rules :=
  rfl
@[simp] theorem admission_setEntry (t : Table) (i : EntryIx) (e : Entry) : (t.setEntry i e).admission = t.admission :=
  rfl
@[simp] theorem params_setEntry (t : Table) (i : EntryIx) (e : Entry) : (t.setEntry i e).params = t.params :=
  rfl
@[simp] theorem deadlines_setEntry (t : Table) (i : EntryIx) (e : Entry) : (t.setEntry i e).deadlines = t.deadlines :=
  rfl
@[simp] theorem changeSet_setEntry (t : Table) (i : EntryIx) (e : Entry) : (t.setEntry i e).changeSet = t.changeSet :=
  rfl
@[simp] theorem pool_setLife (t : Table) (i : EntryIx) (l : EntryLife) : (t.setLife i l).pool = t.pool :=
  rfl
@[simp] theorem seed_setLife (t : Table) (i : EntryIx) (l : EntryLife) : (t.setLife i l).seed = t.seed :=
  rfl
@[simp] theorem index_setLife (t : Table) (i : EntryIx) (l : EntryLife) : (t.setLife i l).index = t.index :=
  rfl
@[simp] theorem run_setLife (t : Table) (i : EntryIx) (l : EntryLife) : (t.setLife i l).run = t.run :=
  rfl
@[simp] theorem map_setLife (t : Table) (i : EntryIx) (l : EntryLife) : (t.setLife i l).map = t.map :=
  rfl
@[simp] theorem quarantine_setLife (t : Table) (i : EntryIx) (l : EntryLife) : (t.setLife i l).quarantine = t.quarantine :=
  rfl
@[simp] theorem slots_setLife (t : Table) (i : EntryIx) (l : EntryLife) : (t.setLife i l).slots = t.slots :=
  rfl
@[simp] theorem classes_setLife (t : Table) (i : EntryIx) (l : EntryLife) : (t.setLife i l).classes = t.classes :=
  rfl
@[simp] theorem rules_setLife (t : Table) (i : EntryIx) (l : EntryLife) : (t.setLife i l).rules = t.rules :=
  rfl
@[simp] theorem admission_setLife (t : Table) (i : EntryIx) (l : EntryLife) : (t.setLife i l).admission = t.admission :=
  rfl
@[simp] theorem params_setLife (t : Table) (i : EntryIx) (l : EntryLife) : (t.setLife i l).params = t.params :=
  rfl
@[simp] theorem deadlines_setLife (t : Table) (i : EntryIx) (l : EntryLife) : (t.setLife i l).deadlines = t.deadlines :=
  rfl
@[simp] theorem changeSet_setLife (t : Table) (i : EntryIx) (l : EntryLife) : (t.setLife i l).changeSet = t.changeSet :=
  rfl
@[simp] theorem entries_setAddr (t : Table) (a : Addr) (x : AddrState) : (t.setAddr a x).entries = t.entries :=
  rfl
@[simp] theorem pool_setAddr (t : Table) (a : Addr) (x : AddrState) : (t.setAddr a x).pool = t.pool :=
  rfl
@[simp] theorem seed_setAddr (t : Table) (a : Addr) (x : AddrState) : (t.setAddr a x).seed = t.seed :=
  rfl
@[simp] theorem index_setAddr (t : Table) (a : Addr) (x : AddrState) : (t.setAddr a x).index = t.index :=
  rfl
@[simp] theorem run_setAddr (t : Table) (a : Addr) (x : AddrState) : (t.setAddr a x).run = t.run :=
  rfl
@[simp] theorem quarantine_setAddr (t : Table) (a : Addr) (x : AddrState) : (t.setAddr a x).quarantine = t.quarantine :=
  rfl
@[simp] theorem slots_setAddr (t : Table) (a : Addr) (x : AddrState) : (t.setAddr a x).slots = t.slots :=
  rfl
@[simp] theorem classes_setAddr (t : Table) (a : Addr) (x : AddrState) : (t.setAddr a x).classes = t.classes :=
  rfl
@[simp] theorem rules_setAddr (t : Table) (a : Addr) (x : AddrState) : (t.setAddr a x).rules = t.rules :=
  rfl
@[simp] theorem admission_setAddr (t : Table) (a : Addr) (x : AddrState) : (t.setAddr a x).admission = t.admission :=
  rfl
@[simp] theorem params_setAddr (t : Table) (a : Addr) (x : AddrState) : (t.setAddr a x).params = t.params :=
  rfl
@[simp] theorem deadlines_setAddr (t : Table) (a : Addr) (x : AddrState) : (t.setAddr a x).deadlines = t.deadlines :=
  rfl
@[simp] theorem changeSet_setAddr (t : Table) (a : Addr) (x : AddrState) : (t.setAddr a x).changeSet = t.changeSet :=
  rfl
@[simp] theorem entries_setSlot (t : Table) (j : SlotIx) (x : Slot) : (t.setSlot j x).entries = t.entries :=
  rfl
@[simp] theorem pool_setSlot (t : Table) (j : SlotIx) (x : Slot) : (t.setSlot j x).pool = t.pool :=
  rfl
@[simp] theorem seed_setSlot (t : Table) (j : SlotIx) (x : Slot) : (t.setSlot j x).seed = t.seed :=
  rfl
@[simp] theorem index_setSlot (t : Table) (j : SlotIx) (x : Slot) : (t.setSlot j x).index = t.index :=
  rfl
@[simp] theorem run_setSlot (t : Table) (j : SlotIx) (x : Slot) : (t.setSlot j x).run = t.run :=
  rfl
@[simp] theorem map_setSlot (t : Table) (j : SlotIx) (x : Slot) : (t.setSlot j x).map = t.map :=
  rfl
@[simp] theorem quarantine_setSlot (t : Table) (j : SlotIx) (x : Slot) : (t.setSlot j x).quarantine = t.quarantine :=
  rfl
@[simp] theorem classes_setSlot (t : Table) (j : SlotIx) (x : Slot) : (t.setSlot j x).classes = t.classes :=
  rfl
@[simp] theorem rules_setSlot (t : Table) (j : SlotIx) (x : Slot) : (t.setSlot j x).rules = t.rules :=
  rfl
@[simp] theorem admission_setSlot (t : Table) (j : SlotIx) (x : Slot) : (t.setSlot j x).admission = t.admission :=
  rfl
@[simp] theorem params_setSlot (t : Table) (j : SlotIx) (x : Slot) : (t.setSlot j x).params = t.params :=
  rfl
@[simp] theorem deadlines_setSlot (t : Table) (j : SlotIx) (x : Slot) : (t.setSlot j x).deadlines = t.deadlines :=
  rfl
@[simp] theorem changeSet_setSlot (t : Table) (j : SlotIx) (x : Slot) : (t.setSlot j x).changeSet = t.changeSet :=
  rfl
@[simp] theorem entries_setClass (t : Table) (c : ClassIx) (r : ClassRecord) : (t.setClass c r).entries = t.entries :=
  rfl
@[simp] theorem pool_setClass (t : Table) (c : ClassIx) (r : ClassRecord) : (t.setClass c r).pool = t.pool :=
  rfl
@[simp] theorem seed_setClass (t : Table) (c : ClassIx) (r : ClassRecord) : (t.setClass c r).seed = t.seed :=
  rfl
@[simp] theorem index_setClass (t : Table) (c : ClassIx) (r : ClassRecord) : (t.setClass c r).index = t.index :=
  rfl
@[simp] theorem run_setClass (t : Table) (c : ClassIx) (r : ClassRecord) : (t.setClass c r).run = t.run :=
  rfl
@[simp] theorem map_setClass (t : Table) (c : ClassIx) (r : ClassRecord) : (t.setClass c r).map = t.map :=
  rfl
@[simp] theorem quarantine_setClass (t : Table) (c : ClassIx) (r : ClassRecord) : (t.setClass c r).quarantine = t.quarantine :=
  rfl
@[simp] theorem slots_setClass (t : Table) (c : ClassIx) (r : ClassRecord) : (t.setClass c r).slots = t.slots :=
  rfl
@[simp] theorem rules_setClass (t : Table) (c : ClassIx) (r : ClassRecord) : (t.setClass c r).rules = t.rules :=
  rfl
@[simp] theorem admission_setClass (t : Table) (c : ClassIx) (r : ClassRecord) : (t.setClass c r).admission = t.admission :=
  rfl
@[simp] theorem params_setClass (t : Table) (c : ClassIx) (r : ClassRecord) : (t.setClass c r).params = t.params :=
  rfl
@[simp] theorem deadlines_setClass (t : Table) (c : ClassIx) (r : ClassRecord) : (t.setClass c r).deadlines = t.deadlines :=
  rfl
@[simp] theorem changeSet_setClass (t : Table) (c : ClassIx) (r : ClassRecord) : (t.setClass c r).changeSet = t.changeSet :=
  rfl
@[simp] theorem entries_setBucket (t : Table) (b : BucketIx) (l : List EntryIx) : (t.setBucket b l).entries = t.entries :=
  rfl
@[simp] theorem pool_setBucket (t : Table) (b : BucketIx) (l : List EntryIx) : (t.setBucket b l).pool = t.pool :=
  rfl
@[simp] theorem seed_setBucket (t : Table) (b : BucketIx) (l : List EntryIx) : (t.setBucket b l).seed = t.seed :=
  rfl
@[simp] theorem run_setBucket (t : Table) (b : BucketIx) (l : List EntryIx) : (t.setBucket b l).run = t.run :=
  rfl
@[simp] theorem map_setBucket (t : Table) (b : BucketIx) (l : List EntryIx) : (t.setBucket b l).map = t.map :=
  rfl
@[simp] theorem quarantine_setBucket (t : Table) (b : BucketIx) (l : List EntryIx) : (t.setBucket b l).quarantine = t.quarantine :=
  rfl
@[simp] theorem slots_setBucket (t : Table) (b : BucketIx) (l : List EntryIx) : (t.setBucket b l).slots = t.slots :=
  rfl
@[simp] theorem classes_setBucket (t : Table) (b : BucketIx) (l : List EntryIx) : (t.setBucket b l).classes = t.classes :=
  rfl
@[simp] theorem rules_setBucket (t : Table) (b : BucketIx) (l : List EntryIx) : (t.setBucket b l).rules = t.rules :=
  rfl
@[simp] theorem admission_setBucket (t : Table) (b : BucketIx) (l : List EntryIx) : (t.setBucket b l).admission = t.admission :=
  rfl
@[simp] theorem params_setBucket (t : Table) (b : BucketIx) (l : List EntryIx) : (t.setBucket b l).params = t.params :=
  rfl
@[simp] theorem deadlines_setBucket (t : Table) (b : BucketIx) (l : List EntryIx) : (t.setBucket b l).deadlines = t.deadlines :=
  rfl
@[simp] theorem changeSet_setBucket (t : Table) (b : BucketIx) (l : List EntryIx) : (t.setBucket b l).changeSet = t.changeSet :=
  rfl
@[simp] theorem entries_setRule (t : Table) (r : RuleIx) (x : Option AdmissionRule) : (t.setRule r x).entries = t.entries :=
  rfl
@[simp] theorem pool_setRule (t : Table) (r : RuleIx) (x : Option AdmissionRule) : (t.setRule r x).pool = t.pool :=
  rfl
@[simp] theorem seed_setRule (t : Table) (r : RuleIx) (x : Option AdmissionRule) : (t.setRule r x).seed = t.seed :=
  rfl
@[simp] theorem index_setRule (t : Table) (r : RuleIx) (x : Option AdmissionRule) : (t.setRule r x).index = t.index :=
  rfl
@[simp] theorem run_setRule (t : Table) (r : RuleIx) (x : Option AdmissionRule) : (t.setRule r x).run = t.run :=
  rfl
@[simp] theorem map_setRule (t : Table) (r : RuleIx) (x : Option AdmissionRule) : (t.setRule r x).map = t.map :=
  rfl
@[simp] theorem quarantine_setRule (t : Table) (r : RuleIx) (x : Option AdmissionRule) : (t.setRule r x).quarantine = t.quarantine :=
  rfl
@[simp] theorem slots_setRule (t : Table) (r : RuleIx) (x : Option AdmissionRule) : (t.setRule r x).slots = t.slots :=
  rfl
@[simp] theorem classes_setRule (t : Table) (r : RuleIx) (x : Option AdmissionRule) : (t.setRule r x).classes = t.classes :=
  rfl
@[simp] theorem admission_setRule (t : Table) (r : RuleIx) (x : Option AdmissionRule) : (t.setRule r x).admission = t.admission :=
  rfl
@[simp] theorem params_setRule (t : Table) (r : RuleIx) (x : Option AdmissionRule) : (t.setRule r x).params = t.params :=
  rfl
@[simp] theorem deadlines_setRule (t : Table) (r : RuleIx) (x : Option AdmissionRule) : (t.setRule r x).deadlines = t.deadlines :=
  rfl
@[simp] theorem changeSet_setRule (t : Table) (r : RuleIx) (x : Option AdmissionRule) : (t.setRule r x).changeSet = t.changeSet :=
  rfl
@[simp] theorem entries_addChange (t : Table) (i : EntryIx) : (t.addChange i).entries = t.entries :=
  rfl
@[simp] theorem pool_addChange (t : Table) (i : EntryIx) : (t.addChange i).pool = t.pool :=
  rfl
@[simp] theorem seed_addChange (t : Table) (i : EntryIx) : (t.addChange i).seed = t.seed :=
  rfl
@[simp] theorem index_addChange (t : Table) (i : EntryIx) : (t.addChange i).index = t.index :=
  rfl
@[simp] theorem run_addChange (t : Table) (i : EntryIx) : (t.addChange i).run = t.run :=
  rfl
@[simp] theorem map_addChange (t : Table) (i : EntryIx) : (t.addChange i).map = t.map :=
  rfl
@[simp] theorem quarantine_addChange (t : Table) (i : EntryIx) : (t.addChange i).quarantine = t.quarantine :=
  rfl
@[simp] theorem slots_addChange (t : Table) (i : EntryIx) : (t.addChange i).slots = t.slots :=
  rfl
@[simp] theorem classes_addChange (t : Table) (i : EntryIx) : (t.addChange i).classes = t.classes :=
  rfl
@[simp] theorem rules_addChange (t : Table) (i : EntryIx) : (t.addChange i).rules = t.rules :=
  rfl
@[simp] theorem admission_addChange (t : Table) (i : EntryIx) : (t.addChange i).admission = t.admission :=
  rfl
@[simp] theorem params_addChange (t : Table) (i : EntryIx) : (t.addChange i).params = t.params :=
  rfl
@[simp] theorem deadlines_addChange (t : Table) (i : EntryIx) : (t.addChange i).deadlines = t.deadlines :=
  rfl
@[simp] theorem entries_placeItem (t : Table) (x : DeadlineItem) : (t.placeItem x).entries = t.entries :=
  rfl
@[simp] theorem pool_placeItem (t : Table) (x : DeadlineItem) : (t.placeItem x).pool = t.pool :=
  rfl
@[simp] theorem seed_placeItem (t : Table) (x : DeadlineItem) : (t.placeItem x).seed = t.seed :=
  rfl
@[simp] theorem index_placeItem (t : Table) (x : DeadlineItem) : (t.placeItem x).index = t.index :=
  rfl
@[simp] theorem run_placeItem (t : Table) (x : DeadlineItem) : (t.placeItem x).run = t.run :=
  rfl
@[simp] theorem map_placeItem (t : Table) (x : DeadlineItem) : (t.placeItem x).map = t.map :=
  rfl
@[simp] theorem quarantine_placeItem (t : Table) (x : DeadlineItem) : (t.placeItem x).quarantine = t.quarantine :=
  rfl
@[simp] theorem slots_placeItem (t : Table) (x : DeadlineItem) : (t.placeItem x).slots = t.slots :=
  rfl
@[simp] theorem classes_placeItem (t : Table) (x : DeadlineItem) : (t.placeItem x).classes = t.classes :=
  rfl
@[simp] theorem rules_placeItem (t : Table) (x : DeadlineItem) : (t.placeItem x).rules = t.rules :=
  rfl
@[simp] theorem admission_placeItem (t : Table) (x : DeadlineItem) : (t.placeItem x).admission = t.admission :=
  rfl
@[simp] theorem params_placeItem (t : Table) (x : DeadlineItem) : (t.placeItem x).params = t.params :=
  rfl
@[simp] theorem changeSet_placeItem (t : Table) (x : DeadlineItem) : (t.placeItem x).changeSet = t.changeSet :=
  rfl
@[simp] theorem entries_removeItem (t : Table) (o : Owner) : (t.removeItem o).entries = t.entries :=
  rfl
@[simp] theorem pool_removeItem (t : Table) (o : Owner) : (t.removeItem o).pool = t.pool :=
  rfl
@[simp] theorem seed_removeItem (t : Table) (o : Owner) : (t.removeItem o).seed = t.seed :=
  rfl
@[simp] theorem index_removeItem (t : Table) (o : Owner) : (t.removeItem o).index = t.index :=
  rfl
@[simp] theorem run_removeItem (t : Table) (o : Owner) : (t.removeItem o).run = t.run :=
  rfl
@[simp] theorem map_removeItem (t : Table) (o : Owner) : (t.removeItem o).map = t.map :=
  rfl
@[simp] theorem quarantine_removeItem (t : Table) (o : Owner) : (t.removeItem o).quarantine = t.quarantine :=
  rfl
@[simp] theorem slots_removeItem (t : Table) (o : Owner) : (t.removeItem o).slots = t.slots :=
  rfl
@[simp] theorem classes_removeItem (t : Table) (o : Owner) : (t.removeItem o).classes = t.classes :=
  rfl
@[simp] theorem rules_removeItem (t : Table) (o : Owner) : (t.removeItem o).rules = t.rules :=
  rfl
@[simp] theorem admission_removeItem (t : Table) (o : Owner) : (t.removeItem o).admission = t.admission :=
  rfl
@[simp] theorem params_removeItem (t : Table) (o : Owner) : (t.removeItem o).params = t.params :=
  rfl
@[simp] theorem changeSet_removeItem (t : Table) (o : Owner) : (t.removeItem o).changeSet = t.changeSet :=
  rfl
@[simp] theorem entries_moveItem (t : Table) (x : DeadlineItem) : (t.moveItem x).entries = t.entries :=
  rfl
@[simp] theorem pool_moveItem (t : Table) (x : DeadlineItem) : (t.moveItem x).pool = t.pool :=
  rfl
@[simp] theorem seed_moveItem (t : Table) (x : DeadlineItem) : (t.moveItem x).seed = t.seed :=
  rfl
@[simp] theorem index_moveItem (t : Table) (x : DeadlineItem) : (t.moveItem x).index = t.index :=
  rfl
@[simp] theorem run_moveItem (t : Table) (x : DeadlineItem) : (t.moveItem x).run = t.run :=
  rfl
@[simp] theorem map_moveItem (t : Table) (x : DeadlineItem) : (t.moveItem x).map = t.map :=
  rfl
@[simp] theorem quarantine_moveItem (t : Table) (x : DeadlineItem) : (t.moveItem x).quarantine = t.quarantine :=
  rfl
@[simp] theorem slots_moveItem (t : Table) (x : DeadlineItem) : (t.moveItem x).slots = t.slots :=
  rfl
@[simp] theorem classes_moveItem (t : Table) (x : DeadlineItem) : (t.moveItem x).classes = t.classes :=
  rfl
@[simp] theorem rules_moveItem (t : Table) (x : DeadlineItem) : (t.moveItem x).rules = t.rules :=
  rfl
@[simp] theorem admission_moveItem (t : Table) (x : DeadlineItem) : (t.moveItem x).admission = t.admission :=
  rfl
@[simp] theorem params_moveItem (t : Table) (x : DeadlineItem) : (t.moveItem x).params = t.params :=
  rfl
@[simp] theorem changeSet_moveItem (t : Table) (x : DeadlineItem) : (t.moveItem x).changeSet = t.changeSet :=
  rfl
@[simp] theorem entries_quarantineAddr (t : Table) (a : Addr) (d : Time) : (t.quarantineAddr a d).entries = t.entries :=
  rfl
@[simp] theorem pool_quarantineAddr (t : Table) (a : Addr) (d : Time) : (t.quarantineAddr a d).pool = t.pool :=
  rfl
@[simp] theorem seed_quarantineAddr (t : Table) (a : Addr) (d : Time) : (t.quarantineAddr a d).seed = t.seed :=
  rfl
@[simp] theorem index_quarantineAddr (t : Table) (a : Addr) (d : Time) : (t.quarantineAddr a d).index = t.index :=
  rfl
@[simp] theorem run_quarantineAddr (t : Table) (a : Addr) (d : Time) : (t.quarantineAddr a d).run = t.run :=
  rfl
@[simp] theorem slots_quarantineAddr (t : Table) (a : Addr) (d : Time) : (t.quarantineAddr a d).slots = t.slots :=
  rfl
@[simp] theorem classes_quarantineAddr (t : Table) (a : Addr) (d : Time) : (t.quarantineAddr a d).classes = t.classes :=
  rfl
@[simp] theorem rules_quarantineAddr (t : Table) (a : Addr) (d : Time) : (t.quarantineAddr a d).rules = t.rules :=
  rfl
@[simp] theorem admission_quarantineAddr (t : Table) (a : Addr) (d : Time) : (t.quarantineAddr a d).admission = t.admission :=
  rfl
@[simp] theorem params_quarantineAddr (t : Table) (a : Addr) (d : Time) : (t.quarantineAddr a d).params = t.params :=
  rfl
@[simp] theorem deadlines_quarantineAddr (t : Table) (a : Addr) (d : Time) : (t.quarantineAddr a d).deadlines = t.deadlines :=
  rfl
@[simp] theorem changeSet_quarantineAddr (t : Table) (a : Addr) (d : Time) : (t.quarantineAddr a d).changeSet = t.changeSet :=
  rfl
@[simp] theorem entries_unqueueAddr (t : Table) (a : Addr) (x : AddrState) : (t.unqueueAddr a x).entries = t.entries :=
  rfl
@[simp] theorem pool_unqueueAddr (t : Table) (a : Addr) (x : AddrState) : (t.unqueueAddr a x).pool = t.pool :=
  rfl
@[simp] theorem seed_unqueueAddr (t : Table) (a : Addr) (x : AddrState) : (t.unqueueAddr a x).seed = t.seed :=
  rfl
@[simp] theorem index_unqueueAddr (t : Table) (a : Addr) (x : AddrState) : (t.unqueueAddr a x).index = t.index :=
  rfl
@[simp] theorem run_unqueueAddr (t : Table) (a : Addr) (x : AddrState) : (t.unqueueAddr a x).run = t.run :=
  rfl
@[simp] theorem slots_unqueueAddr (t : Table) (a : Addr) (x : AddrState) : (t.unqueueAddr a x).slots = t.slots :=
  rfl
@[simp] theorem classes_unqueueAddr (t : Table) (a : Addr) (x : AddrState) : (t.unqueueAddr a x).classes = t.classes :=
  rfl
@[simp] theorem rules_unqueueAddr (t : Table) (a : Addr) (x : AddrState) : (t.unqueueAddr a x).rules = t.rules :=
  rfl
@[simp] theorem admission_unqueueAddr (t : Table) (a : Addr) (x : AddrState) : (t.unqueueAddr a x).admission = t.admission :=
  rfl
@[simp] theorem params_unqueueAddr (t : Table) (a : Addr) (x : AddrState) : (t.unqueueAddr a x).params = t.params :=
  rfl
@[simp] theorem deadlines_unqueueAddr (t : Table) (a : Addr) (x : AddrState) : (t.unqueueAddr a x).deadlines = t.deadlines :=
  rfl
@[simp] theorem changeSet_unqueueAddr (t : Table) (a : Addr) (x : AddrState) : (t.unqueueAddr a x).changeSet = t.changeSet :=
  rfl
@[simp] theorem entries_offerAddr (t : Table) (a : Addr) (i : EntryIx) : (t.offerAddr a i).entries = t.entries :=
  rfl
@[simp] theorem pool_offerAddr (t : Table) (a : Addr) (i : EntryIx) : (t.offerAddr a i).pool = t.pool :=
  rfl
@[simp] theorem seed_offerAddr (t : Table) (a : Addr) (i : EntryIx) : (t.offerAddr a i).seed = t.seed :=
  rfl
@[simp] theorem index_offerAddr (t : Table) (a : Addr) (i : EntryIx) : (t.offerAddr a i).index = t.index :=
  rfl
@[simp] theorem run_offerAddr (t : Table) (a : Addr) (i : EntryIx) : (t.offerAddr a i).run = t.run :=
  rfl
@[simp] theorem slots_offerAddr (t : Table) (a : Addr) (i : EntryIx) : (t.offerAddr a i).slots = t.slots :=
  rfl
@[simp] theorem classes_offerAddr (t : Table) (a : Addr) (i : EntryIx) : (t.offerAddr a i).classes = t.classes :=
  rfl
@[simp] theorem rules_offerAddr (t : Table) (a : Addr) (i : EntryIx) : (t.offerAddr a i).rules = t.rules :=
  rfl
@[simp] theorem admission_offerAddr (t : Table) (a : Addr) (i : EntryIx) : (t.offerAddr a i).admission = t.admission :=
  rfl
@[simp] theorem params_offerAddr (t : Table) (a : Addr) (i : EntryIx) : (t.offerAddr a i).params = t.params :=
  rfl
@[simp] theorem deadlines_offerAddr (t : Table) (a : Addr) (i : EntryIx) : (t.offerAddr a i).deadlines = t.deadlines :=
  rfl
@[simp] theorem changeSet_offerAddr (t : Table) (a : Addr) (i : EntryIx) : (t.offerAddr a i).changeSet = t.changeSet :=
  rfl
@[simp] theorem entries_appendMember (t : Table) (c : ClassIx) (i : EntryIx) : (t.appendMember c i).entries = t.entries :=
  rfl
@[simp] theorem pool_appendMember (t : Table) (c : ClassIx) (i : EntryIx) : (t.appendMember c i).pool = t.pool :=
  rfl
@[simp] theorem seed_appendMember (t : Table) (c : ClassIx) (i : EntryIx) : (t.appendMember c i).seed = t.seed :=
  rfl
@[simp] theorem index_appendMember (t : Table) (c : ClassIx) (i : EntryIx) : (t.appendMember c i).index = t.index :=
  rfl
@[simp] theorem run_appendMember (t : Table) (c : ClassIx) (i : EntryIx) : (t.appendMember c i).run = t.run :=
  rfl
@[simp] theorem map_appendMember (t : Table) (c : ClassIx) (i : EntryIx) : (t.appendMember c i).map = t.map :=
  rfl
@[simp] theorem quarantine_appendMember (t : Table) (c : ClassIx) (i : EntryIx) : (t.appendMember c i).quarantine = t.quarantine :=
  rfl
@[simp] theorem slots_appendMember (t : Table) (c : ClassIx) (i : EntryIx) : (t.appendMember c i).slots = t.slots :=
  rfl
@[simp] theorem rules_appendMember (t : Table) (c : ClassIx) (i : EntryIx) : (t.appendMember c i).rules = t.rules :=
  rfl
@[simp] theorem admission_appendMember (t : Table) (c : ClassIx) (i : EntryIx) : (t.appendMember c i).admission = t.admission :=
  rfl
@[simp] theorem params_appendMember (t : Table) (c : ClassIx) (i : EntryIx) : (t.appendMember c i).params = t.params :=
  rfl
@[simp] theorem deadlines_appendMember (t : Table) (c : ClassIx) (i : EntryIx) : (t.appendMember c i).deadlines = t.deadlines :=
  rfl
@[simp] theorem changeSet_appendMember (t : Table) (c : ClassIx) (i : EntryIx) : (t.appendMember c i).changeSet = t.changeSet :=
  rfl
@[simp] theorem entries_removeMember (t : Table) (c : ClassIx) (i : EntryIx) : (t.removeMember c i).entries = t.entries :=
  rfl
@[simp] theorem pool_removeMember (t : Table) (c : ClassIx) (i : EntryIx) : (t.removeMember c i).pool = t.pool :=
  rfl
@[simp] theorem seed_removeMember (t : Table) (c : ClassIx) (i : EntryIx) : (t.removeMember c i).seed = t.seed :=
  rfl
@[simp] theorem index_removeMember (t : Table) (c : ClassIx) (i : EntryIx) : (t.removeMember c i).index = t.index :=
  rfl
@[simp] theorem run_removeMember (t : Table) (c : ClassIx) (i : EntryIx) : (t.removeMember c i).run = t.run :=
  rfl
@[simp] theorem map_removeMember (t : Table) (c : ClassIx) (i : EntryIx) : (t.removeMember c i).map = t.map :=
  rfl
@[simp] theorem quarantine_removeMember (t : Table) (c : ClassIx) (i : EntryIx) : (t.removeMember c i).quarantine = t.quarantine :=
  rfl
@[simp] theorem slots_removeMember (t : Table) (c : ClassIx) (i : EntryIx) : (t.removeMember c i).slots = t.slots :=
  rfl
@[simp] theorem rules_removeMember (t : Table) (c : ClassIx) (i : EntryIx) : (t.removeMember c i).rules = t.rules :=
  rfl
@[simp] theorem admission_removeMember (t : Table) (c : ClassIx) (i : EntryIx) : (t.removeMember c i).admission = t.admission :=
  rfl
@[simp] theorem params_removeMember (t : Table) (c : ClassIx) (i : EntryIx) : (t.removeMember c i).params = t.params :=
  rfl
@[simp] theorem deadlines_removeMember (t : Table) (c : ClassIx) (i : EntryIx) : (t.removeMember c i).deadlines = t.deadlines :=
  rfl
@[simp] theorem changeSet_removeMember (t : Table) (c : ClassIx) (i : EntryIx) : (t.removeMember c i).changeSet = t.changeSet :=
  rfl
@[simp] theorem seed_dropDescriptor (t : Table) (i : EntryIx) : (t.dropDescriptor i).seed = t.seed :=
  rfl
@[simp] theorem index_dropDescriptor (t : Table) (i : EntryIx) : (t.dropDescriptor i).index = t.index :=
  rfl
@[simp] theorem run_dropDescriptor (t : Table) (i : EntryIx) : (t.dropDescriptor i).run = t.run :=
  rfl
@[simp] theorem map_dropDescriptor (t : Table) (i : EntryIx) : (t.dropDescriptor i).map = t.map :=
  rfl
@[simp] theorem quarantine_dropDescriptor (t : Table) (i : EntryIx) : (t.dropDescriptor i).quarantine = t.quarantine :=
  rfl
@[simp] theorem slots_dropDescriptor (t : Table) (i : EntryIx) : (t.dropDescriptor i).slots = t.slots :=
  rfl
@[simp] theorem classes_dropDescriptor (t : Table) (i : EntryIx) : (t.dropDescriptor i).classes = t.classes :=
  rfl
@[simp] theorem rules_dropDescriptor (t : Table) (i : EntryIx) : (t.dropDescriptor i).rules = t.rules :=
  rfl
@[simp] theorem admission_dropDescriptor (t : Table) (i : EntryIx) : (t.dropDescriptor i).admission = t.admission :=
  rfl
@[simp] theorem params_dropDescriptor (t : Table) (i : EntryIx) : (t.dropDescriptor i).params = t.params :=
  rfl
@[simp] theorem deadlines_dropDescriptor (t : Table) (i : EntryIx) : (t.dropDescriptor i).deadlines = t.deadlines :=
  rfl
@[simp] theorem changeSet_dropDescriptor (t : Table) (i : EntryIx) : (t.dropDescriptor i).changeSet = t.changeSet :=
  rfl
@[simp] theorem seed_storeDescriptor (t : Table) (i : EntryIx) (l : List Byte) (b : Bool) : (t.storeDescriptor i l b).seed = t.seed :=
  rfl
@[simp] theorem index_storeDescriptor (t : Table) (i : EntryIx) (l : List Byte) (b : Bool) : (t.storeDescriptor i l b).index = t.index :=
  rfl
@[simp] theorem run_storeDescriptor (t : Table) (i : EntryIx) (l : List Byte) (b : Bool) : (t.storeDescriptor i l b).run = t.run :=
  rfl
@[simp] theorem map_storeDescriptor (t : Table) (i : EntryIx) (l : List Byte) (b : Bool) : (t.storeDescriptor i l b).map = t.map :=
  rfl
@[simp] theorem quarantine_storeDescriptor (t : Table) (i : EntryIx) (l : List Byte) (b : Bool) : (t.storeDescriptor i l b).quarantine = t.quarantine :=
  rfl
@[simp] theorem slots_storeDescriptor (t : Table) (i : EntryIx) (l : List Byte) (b : Bool) : (t.storeDescriptor i l b).slots = t.slots :=
  rfl
@[simp] theorem classes_storeDescriptor (t : Table) (i : EntryIx) (l : List Byte) (b : Bool) : (t.storeDescriptor i l b).classes = t.classes :=
  rfl
@[simp] theorem rules_storeDescriptor (t : Table) (i : EntryIx) (l : List Byte) (b : Bool) : (t.storeDescriptor i l b).rules = t.rules :=
  rfl
@[simp] theorem admission_storeDescriptor (t : Table) (i : EntryIx) (l : List Byte) (b : Bool) : (t.storeDescriptor i l b).admission = t.admission :=
  rfl
@[simp] theorem params_storeDescriptor (t : Table) (i : EntryIx) (l : List Byte) (b : Bool) : (t.storeDescriptor i l b).params = t.params :=
  rfl
@[simp] theorem deadlines_storeDescriptor (t : Table) (i : EntryIx) (l : List Byte) (b : Bool) : (t.storeDescriptor i l b).deadlines = t.deadlines :=
  rfl
@[simp] theorem changeSet_storeDescriptor (t : Table) (i : EntryIx) (l : List Byte) (b : Bool) : (t.storeDescriptor i l b).changeSet = t.changeSet :=
  rfl
@[simp] theorem pool_startLease (t : Table) (now : Time) (i : EntryIx) (a : Addr) (l : Half) : (t.startLease now i a l).pool = t.pool :=
  rfl
@[simp] theorem seed_startLease (t : Table) (now : Time) (i : EntryIx) (a : Addr) (l : Half) : (t.startLease now i a l).seed = t.seed :=
  rfl
@[simp] theorem index_startLease (t : Table) (now : Time) (i : EntryIx) (a : Addr) (l : Half) : (t.startLease now i a l).index = t.index :=
  rfl
@[simp] theorem run_startLease (t : Table) (now : Time) (i : EntryIx) (a : Addr) (l : Half) : (t.startLease now i a l).run = t.run :=
  rfl
@[simp] theorem map_startLease (t : Table) (now : Time) (i : EntryIx) (a : Addr) (l : Half) : (t.startLease now i a l).map = t.map :=
  rfl
@[simp] theorem quarantine_startLease (t : Table) (now : Time) (i : EntryIx) (a : Addr) (l : Half) : (t.startLease now i a l).quarantine = t.quarantine :=
  rfl
@[simp] theorem slots_startLease (t : Table) (now : Time) (i : EntryIx) (a : Addr) (l : Half) : (t.startLease now i a l).slots = t.slots :=
  rfl
@[simp] theorem classes_startLease (t : Table) (now : Time) (i : EntryIx) (a : Addr) (l : Half) : (t.startLease now i a l).classes = t.classes :=
  rfl
@[simp] theorem rules_startLease (t : Table) (now : Time) (i : EntryIx) (a : Addr) (l : Half) : (t.startLease now i a l).rules = t.rules :=
  rfl
@[simp] theorem admission_startLease (t : Table) (now : Time) (i : EntryIx) (a : Addr) (l : Half) : (t.startLease now i a l).admission = t.admission :=
  rfl
@[simp] theorem params_startLease (t : Table) (now : Time) (i : EntryIx) (a : Addr) (l : Half) : (t.startLease now i a l).params = t.params :=
  rfl
@[simp] theorem changeSet_startLease (t : Table) (now : Time) (i : EntryIx) (a : Addr) (l : Half) : (t.startLease now i a l).changeSet = t.changeSet :=
  rfl
@[simp] theorem seed_takeEntry (t : Table) (i : EntryIx) (d : Identity) (c : ClassIx) (x : EntryLife) (l : List Byte) (b : Bool) : (t.takeEntry i d c x l b).seed = t.seed :=
  rfl
@[simp] theorem run_takeEntry (t : Table) (i : EntryIx) (d : Identity) (c : ClassIx) (x : EntryLife) (l : List Byte) (b : Bool) : (t.takeEntry i d c x l b).run = t.run :=
  rfl
@[simp] theorem map_takeEntry (t : Table) (i : EntryIx) (d : Identity) (c : ClassIx) (x : EntryLife) (l : List Byte) (b : Bool) : (t.takeEntry i d c x l b).map = t.map :=
  rfl
@[simp] theorem quarantine_takeEntry (t : Table) (i : EntryIx) (d : Identity) (c : ClassIx) (x : EntryLife) (l : List Byte) (b : Bool) : (t.takeEntry i d c x l b).quarantine = t.quarantine :=
  rfl
@[simp] theorem slots_takeEntry (t : Table) (i : EntryIx) (d : Identity) (c : ClassIx) (x : EntryLife) (l : List Byte) (b : Bool) : (t.takeEntry i d c x l b).slots = t.slots :=
  rfl
@[simp] theorem classes_takeEntry (t : Table) (i : EntryIx) (d : Identity) (c : ClassIx) (x : EntryLife) (l : List Byte) (b : Bool) : (t.takeEntry i d c x l b).classes = t.classes :=
  rfl
@[simp] theorem rules_takeEntry (t : Table) (i : EntryIx) (d : Identity) (c : ClassIx) (x : EntryLife) (l : List Byte) (b : Bool) : (t.takeEntry i d c x l b).rules = t.rules :=
  rfl
@[simp] theorem admission_takeEntry (t : Table) (i : EntryIx) (d : Identity) (c : ClassIx) (x : EntryLife) (l : List Byte) (b : Bool) : (t.takeEntry i d c x l b).admission = t.admission :=
  rfl
@[simp] theorem params_takeEntry (t : Table) (i : EntryIx) (d : Identity) (c : ClassIx) (x : EntryLife) (l : List Byte) (b : Bool) : (t.takeEntry i d c x l b).params = t.params :=
  rfl
@[simp] theorem deadlines_takeEntry (t : Table) (i : EntryIx) (d : Identity) (c : ClassIx) (x : EntryLife) (l : List Byte) (b : Bool) : (t.takeEntry i d c x l b).deadlines = t.deadlines :=
  rfl
@[simp] theorem pool_countRenewal (t : Table) (i : EntryIx) : (t.countRenewal i).pool = t.pool :=
  rfl
@[simp] theorem seed_countRenewal (t : Table) (i : EntryIx) : (t.countRenewal i).seed = t.seed :=
  rfl
@[simp] theorem index_countRenewal (t : Table) (i : EntryIx) : (t.countRenewal i).index = t.index :=
  rfl
@[simp] theorem run_countRenewal (t : Table) (i : EntryIx) : (t.countRenewal i).run = t.run :=
  rfl
@[simp] theorem map_countRenewal (t : Table) (i : EntryIx) : (t.countRenewal i).map = t.map :=
  rfl
@[simp] theorem quarantine_countRenewal (t : Table) (i : EntryIx) : (t.countRenewal i).quarantine = t.quarantine :=
  rfl
@[simp] theorem slots_countRenewal (t : Table) (i : EntryIx) : (t.countRenewal i).slots = t.slots :=
  rfl
@[simp] theorem classes_countRenewal (t : Table) (i : EntryIx) : (t.countRenewal i).classes = t.classes :=
  rfl
@[simp] theorem rules_countRenewal (t : Table) (i : EntryIx) : (t.countRenewal i).rules = t.rules :=
  rfl
@[simp] theorem admission_countRenewal (t : Table) (i : EntryIx) : (t.countRenewal i).admission = t.admission :=
  rfl
@[simp] theorem params_countRenewal (t : Table) (i : EntryIx) : (t.countRenewal i).params = t.params :=
  rfl
@[simp] theorem deadlines_countRenewal (t : Table) (i : EntryIx) : (t.countRenewal i).deadlines = t.deadlines :=
  rfl
@[simp] theorem changeSet_countRenewal (t : Table) (i : EntryIx) : (t.countRenewal i).changeSet = t.changeSet :=
  rfl
@[simp] theorem entries_releaseAddr (t : Table) (now : Time) (f : Bool) (a : Addr) : (t.releaseAddr now f a).entries = t.entries := by
  unfold releaseAddr
  try dsimp only
  split <;> simp

@[simp] theorem pool_releaseAddr (t : Table) (now : Time) (f : Bool) (a : Addr) : (t.releaseAddr now f a).pool = t.pool := by
  unfold releaseAddr
  try dsimp only
  split <;> simp

@[simp] theorem seed_releaseAddr (t : Table) (now : Time) (f : Bool) (a : Addr) : (t.releaseAddr now f a).seed = t.seed := by
  unfold releaseAddr
  try dsimp only
  split <;> simp

@[simp] theorem index_releaseAddr (t : Table) (now : Time) (f : Bool) (a : Addr) : (t.releaseAddr now f a).index = t.index := by
  unfold releaseAddr
  try dsimp only
  split <;> simp

@[simp] theorem run_releaseAddr (t : Table) (now : Time) (f : Bool) (a : Addr) : (t.releaseAddr now f a).run = t.run := by
  unfold releaseAddr
  try dsimp only
  split <;> simp

@[simp] theorem slots_releaseAddr (t : Table) (now : Time) (f : Bool) (a : Addr) : (t.releaseAddr now f a).slots = t.slots := by
  unfold releaseAddr
  try dsimp only
  split <;> simp

@[simp] theorem classes_releaseAddr (t : Table) (now : Time) (f : Bool) (a : Addr) : (t.releaseAddr now f a).classes = t.classes := by
  unfold releaseAddr
  try dsimp only
  split <;> simp

@[simp] theorem rules_releaseAddr (t : Table) (now : Time) (f : Bool) (a : Addr) : (t.releaseAddr now f a).rules = t.rules := by
  unfold releaseAddr
  try dsimp only
  split <;> simp

@[simp] theorem admission_releaseAddr (t : Table) (now : Time) (f : Bool) (a : Addr) : (t.releaseAddr now f a).admission = t.admission := by
  unfold releaseAddr
  try dsimp only
  split <;> simp

@[simp] theorem params_releaseAddr (t : Table) (now : Time) (f : Bool) (a : Addr) : (t.releaseAddr now f a).params = t.params := by
  unfold releaseAddr
  try dsimp only
  split <;> simp

@[simp] theorem deadlines_releaseAddr (t : Table) (now : Time) (f : Bool) (a : Addr) : (t.releaseAddr now f a).deadlines = t.deadlines := by
  unfold releaseAddr
  try dsimp only
  split <;> simp

@[simp] theorem changeSet_releaseAddr (t : Table) (now : Time) (f : Bool) (a : Addr) : (t.releaseAddr now f a).changeSet = t.changeSet := by
  unfold releaseAddr
  try dsimp only
  split <;> simp

@[simp] theorem seed_replaceDescriptor (t : Table) (i : EntryIx) (l : List Byte) (b : Bool) : (t.replaceDescriptor i l b).seed = t.seed := by
  unfold replaceDescriptor
  try dsimp only
  split <;> simp

@[simp] theorem index_replaceDescriptor (t : Table) (i : EntryIx) (l : List Byte) (b : Bool) : (t.replaceDescriptor i l b).index = t.index := by
  unfold replaceDescriptor
  try dsimp only
  split <;> simp

@[simp] theorem run_replaceDescriptor (t : Table) (i : EntryIx) (l : List Byte) (b : Bool) : (t.replaceDescriptor i l b).run = t.run := by
  unfold replaceDescriptor
  try dsimp only
  split <;> simp

@[simp] theorem map_replaceDescriptor (t : Table) (i : EntryIx) (l : List Byte) (b : Bool) : (t.replaceDescriptor i l b).map = t.map := by
  unfold replaceDescriptor
  try dsimp only
  split <;> simp

@[simp] theorem quarantine_replaceDescriptor (t : Table) (i : EntryIx) (l : List Byte) (b : Bool) : (t.replaceDescriptor i l b).quarantine = t.quarantine := by
  unfold replaceDescriptor
  try dsimp only
  split <;> simp

@[simp] theorem slots_replaceDescriptor (t : Table) (i : EntryIx) (l : List Byte) (b : Bool) : (t.replaceDescriptor i l b).slots = t.slots := by
  unfold replaceDescriptor
  try dsimp only
  split <;> simp

@[simp] theorem classes_replaceDescriptor (t : Table) (i : EntryIx) (l : List Byte) (b : Bool) : (t.replaceDescriptor i l b).classes = t.classes := by
  unfold replaceDescriptor
  try dsimp only
  split <;> simp

@[simp] theorem rules_replaceDescriptor (t : Table) (i : EntryIx) (l : List Byte) (b : Bool) : (t.replaceDescriptor i l b).rules = t.rules := by
  unfold replaceDescriptor
  try dsimp only
  split <;> simp

@[simp] theorem admission_replaceDescriptor (t : Table) (i : EntryIx) (l : List Byte) (b : Bool) : (t.replaceDescriptor i l b).admission = t.admission := by
  unfold replaceDescriptor
  try dsimp only
  split <;> simp

@[simp] theorem params_replaceDescriptor (t : Table) (i : EntryIx) (l : List Byte) (b : Bool) : (t.replaceDescriptor i l b).params = t.params := by
  unfold replaceDescriptor
  try dsimp only
  split <;> simp

@[simp] theorem deadlines_replaceDescriptor (t : Table) (i : EntryIx) (l : List Byte) (b : Bool) : (t.replaceDescriptor i l b).deadlines = t.deadlines := by
  unfold replaceDescriptor
  try dsimp only
  split <;> simp

@[simp] theorem entries_evaluateAdmission (t : Table) : t.evaluateAdmission.entries = t.entries := by
  unfold evaluateAdmission
  repeat' split
  all_goals rfl

@[simp] theorem pool_evaluateAdmission (t : Table) : t.evaluateAdmission.pool = t.pool := by
  unfold evaluateAdmission
  repeat' split
  all_goals rfl

@[simp] theorem seed_evaluateAdmission (t : Table) : t.evaluateAdmission.seed = t.seed := by
  unfold evaluateAdmission
  repeat' split
  all_goals rfl

@[simp] theorem index_evaluateAdmission (t : Table) : t.evaluateAdmission.index = t.index := by
  unfold evaluateAdmission
  repeat' split
  all_goals rfl

@[simp] theorem run_evaluateAdmission (t : Table) : t.evaluateAdmission.run = t.run := by
  unfold evaluateAdmission
  repeat' split
  all_goals rfl

@[simp] theorem map_evaluateAdmission (t : Table) : t.evaluateAdmission.map = t.map := by
  unfold evaluateAdmission
  repeat' split
  all_goals rfl

@[simp] theorem quarantine_evaluateAdmission (t : Table) : t.evaluateAdmission.quarantine = t.quarantine := by
  unfold evaluateAdmission
  repeat' split
  all_goals rfl

@[simp] theorem slots_evaluateAdmission (t : Table) : t.evaluateAdmission.slots = t.slots := by
  unfold evaluateAdmission
  repeat' split
  all_goals rfl

@[simp] theorem classes_evaluateAdmission (t : Table) : t.evaluateAdmission.classes = t.classes := by
  unfold evaluateAdmission
  repeat' split
  all_goals rfl

@[simp] theorem rules_evaluateAdmission (t : Table) : t.evaluateAdmission.rules = t.rules := by
  unfold evaluateAdmission
  repeat' split
  all_goals rfl

@[simp] theorem params_evaluateAdmission (t : Table) : t.evaluateAdmission.params = t.params := by
  unfold evaluateAdmission
  repeat' split
  all_goals rfl

@[simp] theorem deadlines_evaluateAdmission (t : Table) : t.evaluateAdmission.deadlines = t.deadlines := by
  unfold evaluateAdmission
  repeat' split
  all_goals rfl

@[simp] theorem changeSet_evaluateAdmission (t : Table) : t.evaluateAdmission.changeSet = t.changeSet := by
  unfold evaluateAdmission
  repeat' split
  all_goals rfl

@[simp] theorem seed_retireEntry (t : Table) (now : Time) (f : Bool) (i : EntryIx) : (t.retireEntry now f i).seed = t.seed := by
  unfold retireEntry
  try dsimp only
  split <;> simp

@[simp] theorem run_retireEntry (t : Table) (now : Time) (f : Bool) (i : EntryIx) : (t.retireEntry now f i).run = t.run := by
  unfold retireEntry
  try dsimp only
  split <;> simp

@[simp] theorem rules_retireEntry (t : Table) (now : Time) (f : Bool) (i : EntryIx) : (t.retireEntry now f i).rules = t.rules := by
  unfold retireEntry
  try dsimp only
  split <;> simp

@[simp] theorem admission_retireEntry (t : Table) (now : Time) (f : Bool) (i : EntryIx) : (t.retireEntry now f i).admission = t.admission := by
  unfold retireEntry
  try dsimp only
  split <;> simp

@[simp] theorem params_retireEntry (t : Table) (now : Time) (f : Bool) (i : EntryIx) : (t.retireEntry now f i).params = t.params := by
  unfold retireEntry
  try dsimp only
  split <;> simp

@[simp] theorem seed_retireAndEvaluate (t : Table) (now : Time) (f : Bool) (i : EntryIx) : (t.retireAndEvaluate now f i).seed = t.seed := by
  simp [retireAndEvaluate]

@[simp] theorem run_retireAndEvaluate (t : Table) (now : Time) (f : Bool) (i : EntryIx) : (t.retireAndEvaluate now f i).run = t.run := by
  simp [retireAndEvaluate]

@[simp] theorem rules_retireAndEvaluate (t : Table) (now : Time) (f : Bool) (i : EntryIx) : (t.retireAndEvaluate now f i).rules = t.rules := by
  simp [retireAndEvaluate]

@[simp] theorem params_retireAndEvaluate (t : Table) (now : Time) (f : Bool) (i : EntryIx) : (t.retireAndEvaluate now f i).params = t.params := by
  simp [retireAndEvaluate]

@[simp] theorem seed_lapseEntry (t : Table) (now : Time) (i : EntryIx) (a : Addr) (l : Half) : (t.lapseEntry now i a l).seed = t.seed := by
  unfold lapseEntry
  try dsimp only
  split <;> simp

@[simp] theorem run_lapseEntry (t : Table) (now : Time) (i : EntryIx) (a : Addr) (l : Half) : (t.lapseEntry now i a l).run = t.run := by
  unfold lapseEntry
  try dsimp only
  split <;> simp

@[simp] theorem rules_lapseEntry (t : Table) (now : Time) (i : EntryIx) (a : Addr) (l : Half) : (t.lapseEntry now i a l).rules = t.rules := by
  unfold lapseEntry
  try dsimp only
  split <;> simp

@[simp] theorem params_lapseEntry (t : Table) (now : Time) (i : EntryIx) (a : Addr) (l : Half) : (t.lapseEntry now i a l).params = t.params := by
  unfold lapseEntry
  try dsimp only
  split <;> simp

@[simp] theorem seed_renewLease (t : Table) (now : Time) (i : EntryIx) : (t.renewLease now i).1.seed = t.seed := by
  unfold renewLease
  split <;> simp

@[simp] theorem pool_renewLease (t : Table) (now : Time) (i : EntryIx) : (t.renewLease now i).1.pool = t.pool := by
  unfold renewLease
  split <;> simp

@[simp] theorem index_renewLease (t : Table) (now : Time) (i : EntryIx) : (t.renewLease now i).1.index = t.index := by
  unfold renewLease
  split <;> simp

@[simp] theorem run_renewLease (t : Table) (now : Time) (i : EntryIx) : (t.renewLease now i).1.run = t.run := by
  unfold renewLease
  split <;> simp

@[simp] theorem quarantine_renewLease (t : Table) (now : Time) (i : EntryIx) : (t.renewLease now i).1.quarantine = t.quarantine := by
  unfold renewLease
  split <;> simp

@[simp] theorem slots_renewLease (t : Table) (now : Time) (i : EntryIx) : (t.renewLease now i).1.slots = t.slots := by
  unfold renewLease
  split <;> simp

@[simp] theorem rules_renewLease (t : Table) (now : Time) (i : EntryIx) : (t.renewLease now i).1.rules = t.rules := by
  unfold renewLease
  split <;> simp

@[simp] theorem admission_renewLease (t : Table) (now : Time) (i : EntryIx) : (t.renewLease now i).1.admission = t.admission := by
  unfold renewLease
  split <;> simp

@[simp] theorem params_renewLease (t : Table) (now : Time) (i : EntryIx) : (t.renewLease now i).1.params = t.params := by
  unfold renewLease
  split <;> simp

/-! ### Records read after an update -/

theorem get_set {α : Type} {n : Nat} (v : Vector α n) (i j : Fin n) (x : α) :
    (v.set i x).get j = if j = i then x else v.get j := by
  simp [Vector.get_eq_getElem, Vector.getElem_set, Fin.ext_iff, eq_comm]

theorem entry_setEntry (t : Table) (i j : EntryIx) (e : Entry) :
    (t.setEntry i e).entry j = if j = i then e else t.entry j :=
  get_set _ _ _ _

theorem addr_setAddr (t : Table) (a b : Addr) (x : AddrState) : (t.setAddr a x).addr b = if b = a then x else t.addr b :=
  get_set _ _ _ _

theorem slot_setSlot (t : Table) (j k : SlotIx) (x : Slot) : (t.setSlot j x).slot k = if k = j then x else t.slot k :=
  get_set _ _ _ _

theorem classRecord_setClass (t : Table) (c d : ClassIx) (r : ClassRecord) :
    (t.setClass c r).classRecord d = if d = c then r else t.classRecord d :=
  get_set _ _ _ _

theorem bucket_setBucket (t : Table) (b d : BucketIx) (l : List EntryIx) :
    (t.setBucket b l).bucket d = if d = b then l else t.bucket d :=
  get_set _ _ _ _

@[simp] theorem addr_setEntry (t : Table) (i : EntryIx) (e : Entry) (k : Addr) : (t.setEntry i e).addr k = t.addr k := by
  simp [addr]

@[simp] theorem slot_setEntry (t : Table) (i : EntryIx) (e : Entry) (k : SlotIx) : (t.setEntry i e).slot k = t.slot k := by
  simp [slot]

@[simp] theorem classRecord_setEntry (t : Table) (i : EntryIx) (e : Entry) (k : ClassIx) : (t.setEntry i e).classRecord k = t.classRecord k := by
  simp [classRecord]

@[simp] theorem bucket_setEntry (t : Table) (i : EntryIx) (e : Entry) (k : BucketIx) : (t.setEntry i e).bucket k = t.bucket k := by
  simp [bucket]

@[simp] theorem addr_setLife (t : Table) (i : EntryIx) (l : EntryLife) (k : Addr) : (t.setLife i l).addr k = t.addr k := by
  simp [addr]

@[simp] theorem slot_setLife (t : Table) (i : EntryIx) (l : EntryLife) (k : SlotIx) : (t.setLife i l).slot k = t.slot k := by
  simp [slot]

@[simp] theorem classRecord_setLife (t : Table) (i : EntryIx) (l : EntryLife) (k : ClassIx) : (t.setLife i l).classRecord k = t.classRecord k := by
  simp [classRecord]

@[simp] theorem bucket_setLife (t : Table) (i : EntryIx) (l : EntryLife) (k : BucketIx) : (t.setLife i l).bucket k = t.bucket k := by
  simp [bucket]

@[simp] theorem entry_setAddr (t : Table) (a : Addr) (x : AddrState) (k : EntryIx) : (t.setAddr a x).entry k = t.entry k := by
  simp [entry]

@[simp] theorem slot_setAddr (t : Table) (a : Addr) (x : AddrState) (k : SlotIx) : (t.setAddr a x).slot k = t.slot k := by
  simp [slot]

@[simp] theorem classRecord_setAddr (t : Table) (a : Addr) (x : AddrState) (k : ClassIx) : (t.setAddr a x).classRecord k = t.classRecord k := by
  simp [classRecord]

@[simp] theorem bucket_setAddr (t : Table) (a : Addr) (x : AddrState) (k : BucketIx) : (t.setAddr a x).bucket k = t.bucket k := by
  simp [bucket]

@[simp] theorem entry_setSlot (t : Table) (j : SlotIx) (x : Slot) (k : EntryIx) : (t.setSlot j x).entry k = t.entry k := by
  simp [entry]

@[simp] theorem addr_setSlot (t : Table) (j : SlotIx) (x : Slot) (k : Addr) : (t.setSlot j x).addr k = t.addr k := by
  simp [addr]

@[simp] theorem classRecord_setSlot (t : Table) (j : SlotIx) (x : Slot) (k : ClassIx) : (t.setSlot j x).classRecord k = t.classRecord k := by
  simp [classRecord]

@[simp] theorem bucket_setSlot (t : Table) (j : SlotIx) (x : Slot) (k : BucketIx) : (t.setSlot j x).bucket k = t.bucket k := by
  simp [bucket]

@[simp] theorem entry_setClass (t : Table) (c : ClassIx) (r : ClassRecord) (k : EntryIx) : (t.setClass c r).entry k = t.entry k := by
  simp [entry]

@[simp] theorem addr_setClass (t : Table) (c : ClassIx) (r : ClassRecord) (k : Addr) : (t.setClass c r).addr k = t.addr k := by
  simp [addr]

@[simp] theorem slot_setClass (t : Table) (c : ClassIx) (r : ClassRecord) (k : SlotIx) : (t.setClass c r).slot k = t.slot k := by
  simp [slot]

@[simp] theorem bucket_setClass (t : Table) (c : ClassIx) (r : ClassRecord) (k : BucketIx) : (t.setClass c r).bucket k = t.bucket k := by
  simp [bucket]

@[simp] theorem entry_setBucket (t : Table) (b : BucketIx) (l : List EntryIx) (k : EntryIx) : (t.setBucket b l).entry k = t.entry k := by
  simp [entry]

@[simp] theorem addr_setBucket (t : Table) (b : BucketIx) (l : List EntryIx) (k : Addr) : (t.setBucket b l).addr k = t.addr k := by
  simp [addr]

@[simp] theorem slot_setBucket (t : Table) (b : BucketIx) (l : List EntryIx) (k : SlotIx) : (t.setBucket b l).slot k = t.slot k := by
  simp [slot]

@[simp] theorem classRecord_setBucket (t : Table) (b : BucketIx) (l : List EntryIx) (k : ClassIx) : (t.setBucket b l).classRecord k = t.classRecord k := by
  simp [classRecord]

@[simp] theorem entry_setRule (t : Table) (r : RuleIx) (x : Option AdmissionRule) (k : EntryIx) : (t.setRule r x).entry k = t.entry k := by
  simp [entry]

@[simp] theorem addr_setRule (t : Table) (r : RuleIx) (x : Option AdmissionRule) (k : Addr) : (t.setRule r x).addr k = t.addr k := by
  simp [addr]

@[simp] theorem slot_setRule (t : Table) (r : RuleIx) (x : Option AdmissionRule) (k : SlotIx) : (t.setRule r x).slot k = t.slot k := by
  simp [slot]

@[simp] theorem classRecord_setRule (t : Table) (r : RuleIx) (x : Option AdmissionRule) (k : ClassIx) : (t.setRule r x).classRecord k = t.classRecord k := by
  simp [classRecord]

@[simp] theorem bucket_setRule (t : Table) (r : RuleIx) (x : Option AdmissionRule) (k : BucketIx) : (t.setRule r x).bucket k = t.bucket k := by
  simp [bucket]

@[simp] theorem entry_addChange (t : Table) (i : EntryIx) (k : EntryIx) : (t.addChange i).entry k = t.entry k := by
  simp [entry]

@[simp] theorem addr_addChange (t : Table) (i : EntryIx) (k : Addr) : (t.addChange i).addr k = t.addr k := by
  simp [addr]

@[simp] theorem slot_addChange (t : Table) (i : EntryIx) (k : SlotIx) : (t.addChange i).slot k = t.slot k := by
  simp [slot]

@[simp] theorem classRecord_addChange (t : Table) (i : EntryIx) (k : ClassIx) : (t.addChange i).classRecord k = t.classRecord k := by
  simp [classRecord]

@[simp] theorem bucket_addChange (t : Table) (i : EntryIx) (k : BucketIx) : (t.addChange i).bucket k = t.bucket k := by
  simp [bucket]

@[simp] theorem entry_placeItem (t : Table) (x : DeadlineItem) (k : EntryIx) : (t.placeItem x).entry k = t.entry k := by
  simp [entry]

@[simp] theorem addr_placeItem (t : Table) (x : DeadlineItem) (k : Addr) : (t.placeItem x).addr k = t.addr k := by
  simp [addr]

@[simp] theorem slot_placeItem (t : Table) (x : DeadlineItem) (k : SlotIx) : (t.placeItem x).slot k = t.slot k := by
  simp [slot]

@[simp] theorem classRecord_placeItem (t : Table) (x : DeadlineItem) (k : ClassIx) : (t.placeItem x).classRecord k = t.classRecord k := by
  simp [classRecord]

@[simp] theorem bucket_placeItem (t : Table) (x : DeadlineItem) (k : BucketIx) : (t.placeItem x).bucket k = t.bucket k := by
  simp [bucket]

@[simp] theorem entry_removeItem (t : Table) (o : Owner) (k : EntryIx) : (t.removeItem o).entry k = t.entry k := by
  simp [entry]

@[simp] theorem addr_removeItem (t : Table) (o : Owner) (k : Addr) : (t.removeItem o).addr k = t.addr k := by
  simp [addr]

@[simp] theorem slot_removeItem (t : Table) (o : Owner) (k : SlotIx) : (t.removeItem o).slot k = t.slot k := by
  simp [slot]

@[simp] theorem classRecord_removeItem (t : Table) (o : Owner) (k : ClassIx) : (t.removeItem o).classRecord k = t.classRecord k := by
  simp [classRecord]

@[simp] theorem bucket_removeItem (t : Table) (o : Owner) (k : BucketIx) : (t.removeItem o).bucket k = t.bucket k := by
  simp [bucket]

@[simp] theorem entry_moveItem (t : Table) (x : DeadlineItem) (k : EntryIx) : (t.moveItem x).entry k = t.entry k := by
  simp [entry]

@[simp] theorem addr_moveItem (t : Table) (x : DeadlineItem) (k : Addr) : (t.moveItem x).addr k = t.addr k := by
  simp [addr]

@[simp] theorem slot_moveItem (t : Table) (x : DeadlineItem) (k : SlotIx) : (t.moveItem x).slot k = t.slot k := by
  simp [slot]

@[simp] theorem classRecord_moveItem (t : Table) (x : DeadlineItem) (k : ClassIx) : (t.moveItem x).classRecord k = t.classRecord k := by
  simp [classRecord]

@[simp] theorem bucket_moveItem (t : Table) (x : DeadlineItem) (k : BucketIx) : (t.moveItem x).bucket k = t.bucket k := by
  simp [bucket]

@[simp] theorem entry_quarantineAddr (t : Table) (a : Addr) (d : Time) (k : EntryIx) : (t.quarantineAddr a d).entry k = t.entry k := by
  simp [entry]

@[simp] theorem slot_quarantineAddr (t : Table) (a : Addr) (d : Time) (k : SlotIx) : (t.quarantineAddr a d).slot k = t.slot k := by
  simp [slot]

@[simp] theorem classRecord_quarantineAddr (t : Table) (a : Addr) (d : Time) (k : ClassIx) : (t.quarantineAddr a d).classRecord k = t.classRecord k := by
  simp [classRecord]

@[simp] theorem bucket_quarantineAddr (t : Table) (a : Addr) (d : Time) (k : BucketIx) : (t.quarantineAddr a d).bucket k = t.bucket k := by
  simp [bucket]

@[simp] theorem entry_unqueueAddr (t : Table) (a : Addr) (x : AddrState) (k : EntryIx) : (t.unqueueAddr a x).entry k = t.entry k := by
  simp [entry]

@[simp] theorem slot_unqueueAddr (t : Table) (a : Addr) (x : AddrState) (k : SlotIx) : (t.unqueueAddr a x).slot k = t.slot k := by
  simp [slot]

@[simp] theorem classRecord_unqueueAddr (t : Table) (a : Addr) (x : AddrState) (k : ClassIx) : (t.unqueueAddr a x).classRecord k = t.classRecord k := by
  simp [classRecord]

@[simp] theorem bucket_unqueueAddr (t : Table) (a : Addr) (x : AddrState) (k : BucketIx) : (t.unqueueAddr a x).bucket k = t.bucket k := by
  simp [bucket]

@[simp] theorem entry_offerAddr (t : Table) (a : Addr) (i : EntryIx) (k : EntryIx) : (t.offerAddr a i).entry k = t.entry k := by
  simp [entry]

@[simp] theorem slot_offerAddr (t : Table) (a : Addr) (i : EntryIx) (k : SlotIx) : (t.offerAddr a i).slot k = t.slot k := by
  simp [slot]

@[simp] theorem classRecord_offerAddr (t : Table) (a : Addr) (i : EntryIx) (k : ClassIx) : (t.offerAddr a i).classRecord k = t.classRecord k := by
  simp [classRecord]

@[simp] theorem bucket_offerAddr (t : Table) (a : Addr) (i : EntryIx) (k : BucketIx) : (t.offerAddr a i).bucket k = t.bucket k := by
  simp [bucket]

@[simp] theorem entry_appendMember (t : Table) (c : ClassIx) (i : EntryIx) (k : EntryIx) : (t.appendMember c i).entry k = t.entry k := by
  simp [entry]

@[simp] theorem addr_appendMember (t : Table) (c : ClassIx) (i : EntryIx) (k : Addr) : (t.appendMember c i).addr k = t.addr k := by
  simp [addr]

@[simp] theorem slot_appendMember (t : Table) (c : ClassIx) (i : EntryIx) (k : SlotIx) : (t.appendMember c i).slot k = t.slot k := by
  simp [slot]

@[simp] theorem bucket_appendMember (t : Table) (c : ClassIx) (i : EntryIx) (k : BucketIx) : (t.appendMember c i).bucket k = t.bucket k := by
  simp [bucket]

@[simp] theorem entry_removeMember (t : Table) (c : ClassIx) (i : EntryIx) (k : EntryIx) : (t.removeMember c i).entry k = t.entry k := by
  simp [entry]

@[simp] theorem addr_removeMember (t : Table) (c : ClassIx) (i : EntryIx) (k : Addr) : (t.removeMember c i).addr k = t.addr k := by
  simp [addr]

@[simp] theorem slot_removeMember (t : Table) (c : ClassIx) (i : EntryIx) (k : SlotIx) : (t.removeMember c i).slot k = t.slot k := by
  simp [slot]

@[simp] theorem bucket_removeMember (t : Table) (c : ClassIx) (i : EntryIx) (k : BucketIx) : (t.removeMember c i).bucket k = t.bucket k := by
  simp [bucket]

@[simp] theorem addr_dropDescriptor (t : Table) (i : EntryIx) (k : Addr) : (t.dropDescriptor i).addr k = t.addr k := by
  simp [addr]

@[simp] theorem slot_dropDescriptor (t : Table) (i : EntryIx) (k : SlotIx) : (t.dropDescriptor i).slot k = t.slot k := by
  simp [slot]

@[simp] theorem classRecord_dropDescriptor (t : Table) (i : EntryIx) (k : ClassIx) : (t.dropDescriptor i).classRecord k = t.classRecord k := by
  simp [classRecord]

@[simp] theorem bucket_dropDescriptor (t : Table) (i : EntryIx) (k : BucketIx) : (t.dropDescriptor i).bucket k = t.bucket k := by
  simp [bucket]

@[simp] theorem addr_storeDescriptor (t : Table) (i : EntryIx) (l : List Byte) (b : Bool) (k : Addr) : (t.storeDescriptor i l b).addr k = t.addr k := by
  simp [addr]

@[simp] theorem slot_storeDescriptor (t : Table) (i : EntryIx) (l : List Byte) (b : Bool) (k : SlotIx) : (t.storeDescriptor i l b).slot k = t.slot k := by
  simp [slot]

@[simp] theorem classRecord_storeDescriptor (t : Table) (i : EntryIx) (l : List Byte) (b : Bool) (k : ClassIx) : (t.storeDescriptor i l b).classRecord k = t.classRecord k := by
  simp [classRecord]

@[simp] theorem bucket_storeDescriptor (t : Table) (i : EntryIx) (l : List Byte) (b : Bool) (k : BucketIx) : (t.storeDescriptor i l b).bucket k = t.bucket k := by
  simp [bucket]

@[simp] theorem addr_startLease (t : Table) (now : Time) (i : EntryIx) (a : Addr) (l : Half) (k : Addr) : (t.startLease now i a l).addr k = t.addr k := by
  simp [addr]

@[simp] theorem slot_startLease (t : Table) (now : Time) (i : EntryIx) (a : Addr) (l : Half) (k : SlotIx) : (t.startLease now i a l).slot k = t.slot k := by
  simp [slot]

@[simp] theorem classRecord_startLease (t : Table) (now : Time) (i : EntryIx) (a : Addr) (l : Half) (k : ClassIx) : (t.startLease now i a l).classRecord k = t.classRecord k := by
  simp [classRecord]

@[simp] theorem bucket_startLease (t : Table) (now : Time) (i : EntryIx) (a : Addr) (l : Half) (k : BucketIx) : (t.startLease now i a l).bucket k = t.bucket k := by
  simp [bucket]

@[simp] theorem addr_takeEntry (t : Table) (i : EntryIx) (d : Identity) (c : ClassIx) (x : EntryLife) (l : List Byte) (b : Bool) (k : Addr) : (t.takeEntry i d c x l b).addr k = t.addr k := by
  simp [addr]

@[simp] theorem slot_takeEntry (t : Table) (i : EntryIx) (d : Identity) (c : ClassIx) (x : EntryLife) (l : List Byte) (b : Bool) (k : SlotIx) : (t.takeEntry i d c x l b).slot k = t.slot k := by
  simp [slot]

@[simp] theorem classRecord_takeEntry (t : Table) (i : EntryIx) (d : Identity) (c : ClassIx) (x : EntryLife) (l : List Byte) (b : Bool) (k : ClassIx) : (t.takeEntry i d c x l b).classRecord k = t.classRecord k := by
  simp [classRecord]

@[simp] theorem addr_countRenewal (t : Table) (i : EntryIx) (k : Addr) : (t.countRenewal i).addr k = t.addr k := by
  simp [addr]

@[simp] theorem slot_countRenewal (t : Table) (i : EntryIx) (k : SlotIx) : (t.countRenewal i).slot k = t.slot k := by
  simp [slot]

@[simp] theorem classRecord_countRenewal (t : Table) (i : EntryIx) (k : ClassIx) : (t.countRenewal i).classRecord k = t.classRecord k := by
  simp [classRecord]

@[simp] theorem bucket_countRenewal (t : Table) (i : EntryIx) (k : BucketIx) : (t.countRenewal i).bucket k = t.bucket k := by
  simp [bucket]

@[simp] theorem entry_releaseAddr (t : Table) (now : Time) (f : Bool) (a : Addr) (k : EntryIx) : (t.releaseAddr now f a).entry k = t.entry k := by
  simp [entry]

@[simp] theorem slot_releaseAddr (t : Table) (now : Time) (f : Bool) (a : Addr) (k : SlotIx) : (t.releaseAddr now f a).slot k = t.slot k := by
  simp [slot]

@[simp] theorem classRecord_releaseAddr (t : Table) (now : Time) (f : Bool) (a : Addr) (k : ClassIx) : (t.releaseAddr now f a).classRecord k = t.classRecord k := by
  simp [classRecord]

@[simp] theorem bucket_releaseAddr (t : Table) (now : Time) (f : Bool) (a : Addr) (k : BucketIx) : (t.releaseAddr now f a).bucket k = t.bucket k := by
  simp [bucket]

@[simp] theorem addr_replaceDescriptor (t : Table) (i : EntryIx) (l : List Byte) (b : Bool) (k : Addr) : (t.replaceDescriptor i l b).addr k = t.addr k := by
  simp [addr]

@[simp] theorem slot_replaceDescriptor (t : Table) (i : EntryIx) (l : List Byte) (b : Bool) (k : SlotIx) : (t.replaceDescriptor i l b).slot k = t.slot k := by
  simp [slot]

@[simp] theorem classRecord_replaceDescriptor (t : Table) (i : EntryIx) (l : List Byte) (b : Bool) (k : ClassIx) : (t.replaceDescriptor i l b).classRecord k = t.classRecord k := by
  simp [classRecord]

@[simp] theorem bucket_replaceDescriptor (t : Table) (i : EntryIx) (l : List Byte) (b : Bool) (k : BucketIx) : (t.replaceDescriptor i l b).bucket k = t.bucket k := by
  simp [bucket]

@[simp] theorem entry_evaluateAdmission (t : Table) (k : EntryIx) : t.evaluateAdmission.entry k = t.entry k := by
  simp [entry]

@[simp] theorem addr_evaluateAdmission (t : Table) (k : Addr) : t.evaluateAdmission.addr k = t.addr k := by
  simp [addr]

@[simp] theorem slot_evaluateAdmission (t : Table) (k : SlotIx) : t.evaluateAdmission.slot k = t.slot k := by
  simp [slot]

@[simp] theorem classRecord_evaluateAdmission (t : Table) (k : ClassIx) : t.evaluateAdmission.classRecord k = t.classRecord k := by
  simp [classRecord]

@[simp] theorem bucket_evaluateAdmission (t : Table) (k : BucketIx) : t.evaluateAdmission.bucket k = t.bucket k := by
  simp [bucket]

end Sys2Proof.Machine.Table

namespace Sys2Proof.Machine

@[simp] theorem Table.entry_setLife_self (t : Table) (i : EntryIx) (l : EntryLife) :
    (t.setLife i l).entry i = { t.entry i with life := l } := by
  simp [Table.setLife, Table.entry_setEntry]

/-! ### The table after hard reset -/

/-- The address map after hard reset (R41). -/
theorem get_resetMap (authority a : Addr) :
    (resetMap authority).get a = if a < 0x08 ∨ 0x77 < a ∨ a = authority then .fixed else .free := by
  unfold resetMap
  rw [Vector.get_eq_getElem, Vector.getElem_ofFn]

namespace Table

theorem addr_reset (authority a : Addr) :
    (Table.reset authority).addr a = if a < 0x08 ∨ 0x77 < a ∨ a = authority then .fixed else .free :=
  get_resetMap authority a

theorem entry_reset (authority : Addr) (i : EntryIx) : (Table.reset authority).entry i = Entry.reset := by
  simp [Table.entry, Table.reset]

theorem slot_reset (authority : Addr) (j : SlotIx) : (Table.reset authority).slot j = .free := by
  simp [Table.slot, Table.reset]

theorem bucket_reset (authority : Addr) (b : BucketIx) : (Table.reset authority).bucket b = [] := by
  simp [Table.bucket, Table.reset]

theorem classRecord_reset (authority : Addr) (c : ClassIx) : (Table.reset authority).classRecord c = ClassRecord.reset := by
  simp [Table.classRecord, Table.reset]

end Table

end Sys2Proof.Machine
end

