-- ==== Sys2Proof/Laws/Lists.lean ====
section
/-! SUPPORT. The ordered collections and the searches: membership, order, and the least index that a search finds. -/

namespace Sys2Proof.Machine

/-- A set keeps its members and gains one. -/
theorem mem_insertAscending {n} (x : Fin n) (l : List (Fin n)) (y) : y ∈ insertAscending x l ↔ y = x ∨ y ∈ l := by
  induction l with
  | nil => simp [insertAscending]
  | cons z l ih =>
    unfold insertAscending
    split
    · simp
    · split
      · next h => subst h; simp
      · simp [ih]; tauto

/-- A set in ascending order stays so. -/
theorem pairwise_insertAscending {n} (x : Fin n) (l : List (Fin n)) (h : l.Pairwise (· < ·)) : (insertAscending x l).Pairwise (· < ·) ∧ ∀ y, y ∈ insertAscending x l ↔ y = x ∨ y ∈ l := by
  induction l with
  | nil => simp [insertAscending]
  | cons z l ih =>
    obtain ⟨hz, hl⟩ := List.pairwise_cons.1 h
    obtain ⟨i1, i2⟩ := ih hl
    unfold insertAscending
    split
    · next hx =>
      refine ⟨List.pairwise_cons.2 ⟨fun y hy => ?_, h⟩, by simp⟩
      rcases List.mem_cons.1 hy with h | h
      · exact h ▸ hx
      · exact hx.trans (hz y h)
    · split
      · next hx hxe => subst hxe; exact ⟨h, by simp⟩
      · next hx hne =>
        refine ⟨List.pairwise_cons.2 ⟨fun y hy => ?_, i1⟩, fun y => by simp [i2]; tauto⟩
        rcases (i2 y).1 hy with h | h
        · subst h; omega
        · exact hz y h

/-- The insert rule adds the item and changes nothing else of the collection. -/
theorem perm_insertBehind {α : Type} (p : α → Bool) (x : α) (l : List α) : (insertBehind p x l).Perm (x :: l) := by
  induction l with
  | nil => exact .refl _
  | cons y l ih =>
    unfold insertBehind
    split
    · exact (ih.cons y).trans (.swap ..)
    · exact .refl _

/-- A search by ascending index finds the least index that answers. -/
theorem find_finRange {n : Nat} (p : Fin n → Bool) (a : Fin n) (h : p a = true) (least : ∀ b, b < a → p b = false) :
    (List.finRange n).find? p = some a := by
  rw [List.find?_eq_some_iff_getElem]
  refine ⟨h, a.val, by simp, by simp, ?_⟩
  intro j hj
  simp
  exact least _ hj

theorem find_finRange_iff {n : Nat} (p : Fin n → Bool) (a : Fin n) :
    (List.finRange n).find? p = some a ↔ p a = true ∧ ∀ b, b < a → p b = false := by
  refine ⟨fun h => ⟨List.find?_some h, fun b hb => ?_⟩, fun h => find_finRange p a h.1 h.2⟩
  obtain ⟨_, k, hk, e, least⟩ := List.find?_eq_some_iff_getElem.1 h
  have e : (⟨k, by simpa using hk⟩ : Fin n) = a := by simpa using e
  subst e
  simpa using least b.val hb

/-- A search that no index answers finds none. -/
theorem find_finRange_none {n : Nat} (p : Fin n → Bool) (h : ∀ b, p b = false) : (List.finRange n).find? p = none := by
  rw [List.find?_eq_none]; intro x _; simp [h x]

/-- Of the valid rules in ascending number, the first that answers is found. -/
theorem find_filterMap {α : Type} (l : List (Option α)) (p : α → Bool) (n : Nat) (x : α) (hn : l[n]? = some (some x)) (hx : p x = true)
    (hm : ∀ m, m < n → ∀ q, l[m]? = some (some q) → p q = false) : (l.filterMap id).find? p = some x := by
  induction l generalizing n with
  | nil => simp at hn
  | cons o l ih =>
    cases n with
    | zero =>
      simp at hn; subst hn
      simp [hx]
    | succ n =>
      have ih' := ih n (by simpa using hn) (fun m hlt q hq => hm (m + 1) (by omega) q (by simpa using hq))
      cases o with
      | none => simpa using ih'
      | some q =>
        have := hm 0 (by omega) q (by simp)
        simp only [List.filterMap_cons, id]
        rw [List.find?_cons_of_neg (by simp [this])]
        exact ih'

/-- The leading bits of two identities, bit by bit (R105). -/
theorem leadingBitsEqual_iff (n : Nat) (hn : n ≤ 48) (a b : Identity) :
    leadingBitsEqual n a b = true ↔ ∀ k, k < n → a.getLsbD (47 - k) = b.getLsbD (47 - k) := by
  unfold leadingBitsEqual
  rw [decide_eq_true_iff]
  constructor
  · intro h k hk
    have := congrArg (fun x : Identity => x.getLsbD (47 - k - (48 - n))) h
    simp only [BitVec.getLsbD_ushiftRight] at this
    rwa [show 48 - n + (47 - k - (48 - n)) = 47 - k by omega] at this
  · intro h
    apply BitVec.eq_of_getLsbD_eq
    intro i hi
    simp only [BitVec.getLsbD_ushiftRight]
    by_cases hlt : 48 - n + i < 48
    · have := h (47 - (48 - n + i)) (by omega)
      rwa [show 47 - (47 - (48 - n + i)) = 48 - n + i by omega] at this
    · rw [BitVec.getLsbD_of_ge _ _ (by omega), BitVec.getLsbD_of_ge _ _ (by omega)]

end Sys2Proof.Machine
end

