-- ==== Sys2Proof/Laws/Table.lean ====
section
/-! SUPPORT. One equation for each operation over the table that several commands share: the whole table after it, field by
field, from the table before it. -/

namespace Sys2Proof.Machine.Table

/-! ### Taking an entry, leases, releases -/

/-- Taking an entry (R8). -/
theorem takeEntry_eq (t : Table) (i : EntryIx) (identity : Identity) (cls : ClassIx) (life : EntryLife) (bytes : List Byte)
    (cut : Bool) : t.takeEntry i identity cls life bytes cut = t.withTaken i identity cls life bytes cut := by
  unfold takeEntry storeDescriptor addChange withTaken
  simp only [entry_setEntry]
  simp [setEntry, setBucket, freeBlocks, bucket]

/-- A lease start (R5). -/
theorem startLease_eq (t : Table) (now : Time) (i : EntryIx) (a : Addr) (lease : Half) :
    t.startLease now i a lease = t.withLease i (t.entry i) a lease (afterSeconds now lease) :=
  rfl

/-- An address in use is released (R14, R43). -/
theorem releaseAddr_eq (t : Table) (now : Time) (freeNow : Bool) (a : Addr) :
    t.releaseAddr now freeNow a = t.withReleased now freeNow a := by
  unfold releaseAddr withReleased
  cases freeNow <;> by_cases h : t.params.quarantineTime = 0 <;> simp [h] <;> rfl

/-- A member more in a class list (R123). -/
theorem appendMember_eq (t : Table) (c : ClassIx) (i : EntryIx) :
    t.appendMember c i = { t with classes := t.classesWith c i } :=
  rfl

/-- A member less in a class list (R123). -/
theorem removeMember_eq (t : Table) (c : ClassIx) (i : EntryIx) :
    t.removeMember c i = { t with classes := t.classesWithout c i } :=
  rfl

/-- A renewal of an entry that is not pinned (R12, R13, R83, R128). -/
theorem renewLease_eq (t : Table) (now : Time) (i : EntryIx) (a : Addr) (renewed : Table) (seconds : Half) (revived : Bool)
    (h : t.withRenewal now i = some (a, renewed, seconds, revived)) :
    t.renewLease now i = (renewed, revived) ∧ renewed.leaseSeconds now i = seconds ∧ (t.entry i).life.address = some a := by
  unfold withRenewal at h
  unfold renewLease leaseSeconds
  cases hl : (t.entry i).life with
  | vacant | awaiting _ | offered _ _ _ _ => simp [hl] at h
  | bound b lease old =>
    cases old with
    | none =>
      simp only [hl, Option.some.injEq, Prod.mk.injEq] at h
      obtain ⟨rfl, rfl, rfl, rfl⟩ := h
      simp [hl, EntryLife.address, EntryLife.deadline]
    | some d =>
      simp only [hl, Option.some.injEq, Prod.mk.injEq] at h
      obtain ⟨rfl, rfl, rfl, rfl⟩ := h
      refine ⟨rfl, ?_, rfl⟩
      simp [withLease, entry, EntryLife.deadline, get_set]
  | unverified b lease d | lapsed b lease d =>
    simp only [hl, Option.some.injEq, Prod.mk.injEq] at h
    obtain ⟨rfl, rfl, rfl, rfl⟩ := h
    refine ⟨rfl, ?_, rfl⟩
    simp [withLease, entry, EntryLife.deadline, get_set]

/-- What a renewal leaves of the entry and of the rest: only life, address record, class list, items and change set may differ. -/
theorem withRenewal_frame {t : Table} {now : Time} {i : EntryIx} {a : Addr} {renewed : Table} {seconds : Half} {revived : Bool}
    (h : t.withRenewal now i = some (a, renewed, seconds, revived)) :
    (∃ life, renewed.entry i = { t.entry i with life }) ∧ renewed.pool = t.pool ∧ renewed.params = t.params ∧
      renewed.index = t.index ∧ renewed.seed = t.seed ∧ renewed.run = t.run ∧ renewed.quarantine = t.quarantine ∧
      renewed.slots = t.slots ∧ renewed.rules = t.rules ∧ renewed.admission = t.admission := by
  unfold withRenewal at h
  cases hl : (t.entry i).life with
  | vacant | awaiting _ | offered _ _ _ _ => simp [hl] at h
  | bound b lease old =>
    cases old with
    | none =>
      simp only [hl, Option.some.injEq, Prod.mk.injEq] at h
      obtain ⟨rfl, rfl, rfl, rfl⟩ := h
      exact ⟨⟨(t.entry i).life, rfl⟩, rfl, rfl, rfl, rfl, rfl, rfl, rfl, rfl, rfl⟩
    | some d =>
      simp only [hl, Option.some.injEq, Prod.mk.injEq] at h
      obtain ⟨rfl, rfl, rfl, rfl⟩ := h
      exact ⟨⟨_, by simp only [withLease, entry, get_set, if_true]; rfl⟩, rfl, rfl, rfl, rfl, rfl, rfl, rfl, rfl, rfl⟩
  | unverified b lease d | lapsed b lease d =>
    simp only [hl, Option.some.injEq, Prod.mk.injEq] at h
    obtain ⟨rfl, rfl, rfl, rfl⟩ := h
    exact ⟨⟨_, by simp only [withLease, entry, get_set, if_true]; rfl⟩, rfl, rfl, rfl, rfl, rfl, rfl, rfl, rfl, rfl⟩

/-! ### Retiring an entry (R14) -/

/-- The entry's own record and blocks when it is retired. -/
theorem vacate_eq (t : Table) (i : EntryIx) : (t.dropDescriptor i).setLife i .vacant = { t with
    entries := t.entries.set i { t.entry i with life := .vacant, inlineBytes := [], blocks := [], truncated := false }
    pool := emptyBlocks t.pool (t.entry i).blocks } := by
  unfold dropDescriptor setLife
  simp only [entry_setEntry]
  simp [setEntry]

/-- An AWAITING entry: its slot is freed, with the slot's item. -/
theorem retireEntry_awaiting {t : Table} {i : EntryIx} {j : SlotIx} (now : Time) (freeNow : Bool)
    (h : (t.entry i).life = .awaiting j) :
    t.retireEntry now freeNow i = { t.withoutEntry i with
      slots := t.slots.set j .free
      deadlines := (t.withoutEntry i).deadlines.filter fun x => x.kind.owner ≠ Owner.slot j } := by
  unfold retireEntry withoutEntry
  simp only [h, vacate_eq]
  simp [addChange, removeItem, setSlot, setBucket, entry, bucket, Bool.and_comm]

/-- An OFFERED entry: its slot and its address are freed. -/
theorem retireEntry_offered {t : Table} {i : EntryIx} {j : SlotIx} {a : Addr} {lease : Half} {d : Time} (now : Time)
    (freeNow : Bool) (h : (t.entry i).life = .offered j a lease d) :
    t.retireEntry now freeNow i = { t.withoutEntry i with slots := t.slots.set j .free, map := t.map.set a .free } := by
  unfold retireEntry withoutEntry
  simp only [h, vacate_eq]
  simp [addChange, removeItem, setSlot, setAddr, setBucket, entry, bucket]

/-- A BOUND or UNVERIFIED entry: it leaves its class list and its address is released. -/
theorem retireEntry_listed {t : Table} {i : EntryIx} {a : Addr} (now : Time) (freeNow : Bool)
    (h : (t.entry i).life.address = some a)
    (hs : (t.entry i).life.state = .bound ∨ (t.entry i).life.state = .unverified) :
    t.retireEntry now freeNow i =
      ({ t.withoutEntry i with classes := t.classesWithout (t.entry i).cls i } : Table).withReleased now freeNow a := by
  unfold retireEntry
  cases hl : (t.entry i).life <;>
    simp only [hl, EntryLife.address, EntryLife.state, Option.some.injEq, reduceCtorEq, or_self, or_true, true_or] at h hs <;>
    subst h <;>
  (simp only [hl]
   unfold withoutEntry
   simp only [releaseAddr, withReleased]
   by_cases hq : freeNow = true ∨ t.params.quarantineTime = 0#16
   · simp [hq, vacate_eq, addChange, removeItem, removeMember, setClass, classesWithout, setAddr, setBucket, entry, bucket,
       classRecord]
   · simp [hq, vacate_eq, addChange, removeItem, removeMember, setClass, classesWithout, quarantineAddr, setAddr, setBucket,
       entry, bucket, classRecord, afterSeconds])

/-- A LAPSED entry: its address is released. -/
theorem retireEntry_lapsed {t : Table} {i : EntryIx} {a : Addr} (now : Time) (freeNow : Bool)
    (h : (t.entry i).life.address = some a) (hs : (t.entry i).life.state = .lapsed) :
    t.retireEntry now freeNow i = (t.withoutEntry i).withReleased now freeNow a := by
  unfold retireEntry
  cases hl : (t.entry i).life <;>
    simp only [hl, EntryLife.address, EntryLife.state, Option.some.injEq, reduceCtorEq] at h hs
  subst h
  simp only [hl]
  unfold withoutEntry
  simp only [releaseAddr, withReleased]
  by_cases hq : freeNow = true ∨ t.params.quarantineTime = 0#16
  · simp [hq, vacate_eq, addChange, removeItem, setAddr, setBucket, entry, bucket]
  · simp [hq, vacate_eq, addChange, removeItem, quarantineAddr, setAddr, setBucket, entry, bucket, afterSeconds]

/-! ### Lapses (R72, R73) -/

/-- The table after a lapse that leaves the entry LAPSED. -/
def withLapse (t : Table) (i : EntryIx) (a : Addr) (lease : Half) (ended : Time) : Table :=
  { t with
    entries := t.entries.set i { t.entry i with life := .lapsed a lease ended }
    map := t.map.set a (.held i)
    classes := t.classesWithout (t.entry i).cls i
    deadlines := insertBehind (fun x => !earlier ended x.deadline) { kind := .hold i, deadline := ended }
      (t.deadlines.filter fun x => x.kind.owner ≠ Owner.entry i)
    changeSet := insertAscending i t.changeSet }

/-- A lapse with a hold time, or during a run (R37). -/
theorem lapseEntry_held {t : Table} {i : EntryIx} (now : Time) (a : Addr) (lease : Half)
    (h : (t.classRecord (t.entry i).cls).hold ≠ 0 ∨ t.run ≠ none) :
    t.lapseEntry now i a lease =
      t.withLapse i a lease (afterSeconds now (t.classRecord (t.entry i).cls).hold) := by
  have n : ¬ ((t.classRecord (t.entry i).cls).hold = 0 ∧ t.run = none) := by
    rintro ⟨h1, h2⟩; rcases h with h | h <;> contradiction
  unfold lapseEntry
  simp only [if_neg n]
  rfl

/-- A lapse with hold time 0 outside a run (R37). -/
theorem lapseEntry_retired {t : Table} {i : EntryIx} {a : Addr} (now : Time) (lease : Half)
    (h : (t.classRecord (t.entry i).cls).hold = 0) (hr : t.run = none) :
    t.lapseEntry now i a lease =
      (({ t.withoutEntry i with classes := t.classesWithout (t.entry i).cls i } : Table).withReleased now false a
        ).evaluateAdmission := by
  unfold lapseEntry
  simp only [if_pos (And.intro h hr), retireAndEvaluate]
  rw [retireEntry_lapsed (a := a) now false (by simp [EntryLife.address]) (by simp [EntryLife.state])]
  congr 1
  unfold withoutEntry
  simp only [withReleased]
  by_cases hq : t.params.quarantineTime = 0#16
  · simp [hq, removeMember, setClass, setAddr, setLife, setEntry, classesWithout, entry, bucket, classRecord, get_set]
  · simp [hq, removeMember, setClass, setAddr, setLife, setEntry, classesWithout, entry, bucket, classRecord, get_set]

end Sys2Proof.Machine.Table
end

