-- ==== Sys2Proof/Laws/Book.lean ====
section
/-! SUPPORT. The book of a table: the part that the agreement of its records is about (R2, R23, R42, R44, R67, R79, R122), and what each
named update of the table does to it. -/

namespace Sys2Proof.Machine

/-! ### The book -/

/-- A function with one value replaced. -/
def upd {α β : Type} [DecidableEq α] (f : α → β) (a : α) (b : β) : α → β :=
  fun x => if x = a then b else f x

@[simp] theorem upd_self {α β : Type} [DecidableEq α] (f : α → β) (a : α) : upd f a (f a) = f := by
  funext x; unfold upd; split <;> simp_all

@[simp] theorem upd_upd {α β : Type} [DecidableEq α] (f : α → β) (a : α) (b c : β) : upd (upd f a b) a c = upd f a c := by
  funext x; unfold upd; split <;> rfl

@[simp] theorem upd_same {α β : Type} [DecidableEq α] (f : α → β) (a : α) (b : β) : upd f a b a = b := by simp [upd]

/-- What the agreement of the table's records is about. -/
structure Book where
  life : EntryIx → EntryLife
  identity : EntryIx → Identity
  cls : EntryIx → ClassIx
  bucket : BucketIx → List EntryIx
  seed : Half
  addr : Addr → AddrState
  queue : List QuarantineItem
  slot : SlotIx → Slot
  members : ClassIx → List EntryIx
  items : List DeadlineItem

/-- The book of a table. -/
def Table.book (t : Table) : Book where
  life i := (t.entry i).life
  identity i := (t.entry i).identity
  cls i := (t.entry i).cls
  bucket := t.bucket
  seed := t.seed
  addr := t.addr
  queue := t.quarantine
  slot := t.slot
  members c := (t.classRecord c).members
  items := t.deadlines

/-- A table's records as a book gives them. -/
structure Reads (u : Table) (b : Book) : Prop where
  life : ∀ k, (u.entry k).life = b.life k
  identity : ∀ k, (u.entry k).identity = b.identity k
  cls : ∀ k, (u.entry k).cls = b.cls k
  bucket : ∀ k, u.bucket k = b.bucket k
  seed : u.seed = b.seed
  addr : ∀ k, u.addr k = b.addr k
  queue : u.quarantine = b.queue
  slot : ∀ k, u.slot k = b.slot k
  members : ∀ k, (u.classRecord k).members = b.members k
  items : u.deadlines = b.items

theorem Reads.of {u : Table} {b : Book} (h : u.book = b) : Reads u b := by
  subst h; constructor <;> first | rfl | exact fun _ => rfl

/-! ### Updates -/

namespace Table
variable (t : Table)

theorem book_setEntry (i : EntryIx) (e : Entry) : (t.setEntry i e).book = { t.book with
    life := upd t.book.life i e.life, identity := upd t.book.identity i e.identity, cls := upd t.book.cls i e.cls } := by
  have h : ∀ {α : Type} (f : Entry → α), (fun k => f ((t.setEntry i e).entry k)) = upd (fun k => f (t.entry k)) i (f e) := by
    intro α f; funext k; rw [entry_setEntry]; unfold upd; split <;> rfl
  simp only [book, h Entry.life, h Entry.identity, h Entry.cls]
  rfl

theorem book_setLife (i : EntryIx) (l : EntryLife) : (t.setLife i l).book = { t.book with life := upd t.book.life i l } := by
  unfold setLife
  rw [book_setEntry]
  show Book.mk _ (upd t.book.identity i (t.book.identity i)) (upd t.book.cls i (t.book.cls i)) _ _ _ _ _ _ _ = _
  rw [upd_self, upd_self]

theorem book_setAddr (a : Addr) (x : AddrState) : (t.setAddr a x).book = { t.book with addr := upd t.book.addr a x } := by
  show Book.mk _ _ _ _ _ (t.setAddr a x).addr _ _ _ _ = _
  rw [show (t.setAddr a x).addr = upd t.addr a x from funext fun _ => addr_setAddr ..]
  rfl

theorem book_setSlot (j : SlotIx) (x : Slot) : (t.setSlot j x).book = { t.book with slot := upd t.book.slot j x } := by
  show Book.mk _ _ _ _ _ _ _ (t.setSlot j x).slot _ _ = _
  rw [show (t.setSlot j x).slot = upd t.slot j x from funext fun _ => slot_setSlot ..]
  rfl

theorem book_setBucket (b : BucketIx) (l : List EntryIx) : (t.setBucket b l).book = { t.book with bucket := upd t.book.bucket b l } := by
  show Book.mk _ _ _ (t.setBucket b l).bucket _ _ _ _ _ _ = _
  rw [show (t.setBucket b l).bucket = upd t.bucket b l from funext fun _ => bucket_setBucket ..]
  rfl

theorem book_setClass (c : ClassIx) (r : ClassRecord) : (t.setClass c r).book = { t.book with members := upd t.book.members c r.members } := by
  show Book.mk _ _ _ _ _ _ _ _ (fun d => ((t.setClass c r).classRecord d).members) _ = _
  rw [show (fun d => ((t.setClass c r).classRecord d).members) = upd (fun d => (t.classRecord d).members) c r.members from
    funext fun d => by rw [classRecord_setClass]; unfold upd; split <;> rfl]
  rfl

theorem book_appendMember (c : ClassIx) (i : EntryIx) : (t.appendMember c i).book = { t.book with members := upd t.book.members c (t.book.members c ++ [i]) } :=
  book_setClass ..

theorem book_removeMember (c : ClassIx) (i : EntryIx) : (t.removeMember c i).book = { t.book with members := upd t.book.members c ((t.book.members c).filter (· ≠ i)) } :=
  book_setClass ..

theorem book_addChange (i : EntryIx) : (t.addChange i).book = t.book := rfl

theorem book_placeItem (x : DeadlineItem) : (t.placeItem x).book = { t.book with items := insertBehind (fun y => !earlier x.deadline y.deadline) x t.book.items } := rfl

theorem book_removeItem (o : Owner) : (t.removeItem o).book = { t.book with items := t.book.items.filter fun y => y.kind.owner ≠ o } := rfl

theorem book_dropDescriptor (i : EntryIx) : (t.dropDescriptor i).book = t.book := by
  unfold dropDescriptor
  rw [book_setEntry]
  show Book.mk (upd t.book.life i (t.book.life i)) (upd t.book.identity i (t.book.identity i)) (upd t.book.cls i (t.book.cls i)) _ _ _ _ _ _ _ = _
  rw [upd_self, upd_self, upd_self]
  rfl

theorem book_storeDescriptor (i : EntryIx) (bytes : List Byte) (cut : Bool) : (t.storeDescriptor i bytes cut).book = t.book := by
  unfold storeDescriptor
  simp only
  rw [book_setEntry]
  show Book.mk (upd t.book.life i (t.book.life i)) (upd t.book.identity i (t.book.identity i)) (upd t.book.cls i (t.book.cls i)) _ _ _ _ _ _ _ = _
  rw [upd_self, upd_self, upd_self]
  rfl

theorem book_replaceDescriptor (i : EntryIx) (bytes : List Byte) (cut : Bool) : (t.replaceDescriptor i bytes cut).book = t.book := by
  unfold replaceDescriptor
  simp only
  split
  · rw [book_storeDescriptor, book_dropDescriptor]
  · rw [book_addChange, book_storeDescriptor, book_dropDescriptor]

theorem book_countRenewal (i : EntryIx) : (t.countRenewal i).book = t.book := by
  unfold countRenewal
  simp only
  rw [book_setEntry]
  show Book.mk (upd t.book.life i (t.book.life i)) (upd t.book.identity i (t.book.identity i)) (upd t.book.cls i (t.book.cls i)) _ _ _ _ _ _ _ = _
  rw [upd_self, upd_self, upd_self]

theorem book_evaluateAdmission : t.evaluateAdmission.book = t.book := by
  unfold evaluateAdmission
  split <;> split <;> rfl

theorem book_quarantineAddr (a : Addr) (d : Time) : (t.quarantineAddr a d).book = { t.book with
    addr := upd t.book.addr a (.quarantined d)
    queue := insertBehind (fun x => !earlier d x.endTime) { address := a, endTime := d } t.book.queue } := by
  show Book.mk _ _ _ _ _ (t.setAddr a (.quarantined d)).book.addr _ _ _ _ = _
  rw [book_setAddr]; rfl

theorem book_unqueueAddr (a : Addr) (x : AddrState) : (t.unqueueAddr a x).book = { t.book with
    addr := upd t.book.addr a x, queue := t.book.queue.filter fun y => y.address ≠ a } := by
  show Book.mk _ _ _ _ _ (t.setAddr a x).book.addr _ _ _ _ = _
  rw [book_setAddr]; rfl

theorem book_takeEntry (i : EntryIx) (identity : Identity) (c : ClassIx) (life : EntryLife) (bytes : List Byte) (cut : Bool) :
    (t.takeEntry i identity c life bytes cut).book = { t.book with
      life := upd t.book.life i life, identity := upd t.book.identity i identity, cls := upd t.book.cls i c
      bucket := upd t.book.bucket (bucketOf t.seed identity) (insertAscending i (t.book.bucket (bucketOf t.seed identity))) } := by
  unfold takeEntry
  simp only [book_addChange, book_setBucket, book_storeDescriptor, book_setEntry, bucket_storeDescriptor, bucket_setEntry]
  rfl

theorem book_moveItem (x : DeadlineItem) : (t.moveItem x).book = { t.book with
    items := insertBehind (fun y => !earlier x.deadline y.deadline) x (t.book.items.filter fun y => y.kind.owner ≠ x.kind.owner) } := rfl

theorem book_startLease (now : Time) (i : EntryIx) (a : Addr) (l : Half) : (t.startLease now i a l).book = { t.book with
    life := upd t.book.life i (.bound a l (some (afterSeconds now l)))
    items := insertBehind (fun y => !earlier (afterSeconds now l) y.deadline) { kind := .lease i, deadline := afterSeconds now l }
      (t.book.items.filter fun y => y.kind.owner ≠ Owner.entry i) } := by
  unfold startLease
  simp only [book_moveItem, book_setLife]
  rfl
end Table


end Sys2Proof.Machine
end

