-- ==== Sys2Proof/Laws/Agreement.lean ====
section
/-! SUPPORT. The records of the table agree with each other (R2, R23, R42, R44, R67, R79, R122): every kind of change that keeps the
agreement, with what it needs. -/

namespace Sys2Proof.Machine

/-- The records agree, the run apart. -/
structure Agree (t : Table) : Prop where
  index : t.IndexIsExact
  addresses : t.AddressesAgree
  slots : t.SlotsAgree
  classes : t.ClassListsAgree
  deadlines : t.DeadlinesAgree

variable {t u : Table}

/-- An item joins, others leave. -/
theorem items_replace (h : t.DeadlinesAgree) (x : DeadlineItem) {kept : DeadlineItem → Bool}
    (hu : u.deadlines.Perm (x :: t.deadlines.filter kept))
    (fresh : ∀ y, t.ownerHolds y → kept y = true → y.kind.owner ≠ x.kind.owner)
    (holds : ∀ y, u.ownerHolds y ↔ y = x ∨ t.ownerHolds y ∧ kept y = true) : u.DeadlinesAgree := by
  obtain ⟨h1, h2⟩ := h
  refine ⟨fun y => by rw [hu.mem_iff, List.mem_cons, List.mem_filter, h1, holds], (hu.map _).nodup_iff.2 ?_⟩
  rw [List.map_cons, List.nodup_cons]
  refine ⟨?_, h2.sublist (List.Sublist.map _ List.filter_sublist)⟩
  simp only [List.mem_map, List.mem_filter, not_exists, not_and, and_imp]
  exact fun y hy hk e => fresh y ((h1 y).1 hy) hk e

/-- Items leave. -/
theorem items_drop (h : t.DeadlinesAgree) {kept : DeadlineItem → Bool} (hu : u.deadlines = t.deadlines.filter kept)
    (holds : ∀ y, u.ownerHolds y ↔ t.ownerHolds y ∧ kept y = true) : u.DeadlinesAgree := by
  obtain ⟨h1, h2⟩ := h
  refine ⟨fun y => by rw [hu, List.mem_filter, h1, holds], ?_⟩
  rw [hu]
  exact h2.sublist (List.Sublist.map _ List.filter_sublist)

/-! ### The parts that a change leaves -/

/-- No entry enters or leaves VACANT. -/
theorem index_live (h : t.IndexIsExact) (life : ∀ k, (u.entry k).life = .vacant ↔ (t.entry k).life = .vacant)
    (identity : ∀ k, (u.entry k).identity = (t.entry k).identity) (bucket : ∀ b, u.bucket b = t.bucket b) (seed : u.seed = t.seed) :
    u.IndexIsExact := by
  obtain ⟨h1, h2⟩ := h
  constructor <;> simp only [ne_eq, life, identity, bucket, seed]
  · exact h1
  · exact h2

/-- No address and no end time. -/
theorem addresses_same (h : t.AddressesAgree) (life : ∀ k, (u.entry k).life = (t.entry k).life ∨
      (u.entry k).life.address = none ∧ (t.entry k).life.address = none ∨
      ((u.entry k).life.address = (t.entry k).life.address ∧
        ((u.entry k).life.state = .bound ∨ (u.entry k).life.state = .unverified) ∧
        ((t.entry k).life.state = .bound ∨ (t.entry k).life.state = .unverified)))
    (addr : ∀ a, u.addr a = t.addr a) (queue : u.quarantine = t.quarantine) : u.AddressesAgree := by
  obtain ⟨h1, h2, h3, h4, h5, h6, h7⟩ := h
  have key : ∀ k a, (t.entry k).life.address = some a →
      ((t.entry k).life.state = .bound ∨ (t.entry k).life.state = .unverified) → t.addr a = .bound k := by
    intro k a ha hs
    cases hl : (t.entry k).life <;> grind [EntryLife.address, EntryLife.state]
  constructor <;> simp only [addr, queue] <;> grind [EntryLife.address, EntryLife.state]

/-- No slot, identity or class, and no entry enters or leaves AWAITING, OFFERED or VACANT. -/
theorem slots_same (h : t.SlotsAgree) (life : ∀ k, (u.entry k).life = (t.entry k).life ∨
      ((u.entry k).life.slot = none ∧ (t.entry k).life.slot = none ∧ (t.entry k).life ≠ .vacant))
    (identity : ∀ k, (u.entry k).identity = (t.entry k).identity)
    (cls : ∀ k, (u.entry k).cls = (t.entry k).cls ∨ (t.entry k).life.slot = none) (slot : ∀ j, u.slot j = t.slot j) :
    u.SlotsAgree := by
  obtain ⟨h1, h2, h3, h4, h5, h6⟩ := h
  constructor <;> simp only [identity, slot] <;> grind [EntryLife.slot]

/-- No entry enters or leaves BOUND and UNVERIFIED. -/
theorem classes_same (h : t.ClassListsAgree) (life : ∀ k,
      ((u.entry k).life.state = .bound ∨ (u.entry k).life.state = .unverified) ↔
      ((t.entry k).life.state = .bound ∨ (t.entry k).life.state = .unverified))
    (cls : ∀ k, (u.entry k).cls = (t.entry k).cls) (members : ∀ c, (u.classRecord c).members = (t.classRecord c).members) :
    u.ClassListsAgree := by
  obtain ⟨h1, h2⟩ := h
  exact ⟨by simp only [life, cls, members]; exact h1, by simp only [members]; exact h2⟩

/-- The slot of an OFFERED entry. -/
theorem offered_slot (h : t.SlotsAgree) {i : EntryIx} {j : SlotIx} {a : Addr} {l : Half} {d : Time}
    (hl : (t.entry i).life = .offered j a l d) : ∃ c, t.slot j = .offered c i := by
  have he := h.pending i j (by rw [hl]; rfl)
  cases hj : t.slot j <;> rw [hj] at he <;> simp only [Slot.entry, reduceCtorEq, Option.some.injEq] at he
  · subst he; have := h.awaiting _ _ _ hj; rw [hl] at this; cases this
  · subst he; exact ⟨_, rfl⟩

/-- The slot of an AWAITING entry. -/
theorem awaiting_slot (h : t.SlotsAgree) {i : EntryIx} {j : SlotIx} (hl : (t.entry i).life = .awaiting j) :
    ∃ c, t.slot j = .awaiting c i := by
  have he := h.pending i j (by rw [hl]; rfl)
  cases hj : t.slot j <;> rw [hj] at he <;> simp only [Slot.entry, reduceCtorEq, Option.some.injEq] at he
  · subst he; exact ⟨_, rfl⟩
  · subst he; obtain ⟨_, _, this⟩ := h.offered _ _ _ hj; rw [hl] at this; cases this

/-! ### Changes -/

namespace Agree

/-- Nothing of the book changes. -/
theorem same (h : Agree t) (hu : u.book = t.book) : Agree u := by
  obtain ⟨e1, e2, e3, e4, e5, e6, e7, e8, e9, e10⟩ := Reads.of hu
  simp only [Table.book] at e1 e2 e3 e4 e5 e6 e7 e8 e9 e10
  refine ⟨index_live h.index (fun k => by rw [e1]) e2 e4 e5, addresses_same h.addresses (fun k => .inl (e1 k)) e6 e7,
    slots_same h.slots (fun k => .inl (e1 k)) e2 (fun k => .inl (e3 k)) e8, classes_same h.classes (fun k => by rw [e1]) e3 e9, ?_, ?_⟩
  · intro x
    rw [e10, h.deadlines.listed]
    unfold Table.ownerHolds
    cases x.kind <;> simp only [e1, e8]
  · rw [e10]; exact h.deadlines.once

/-- A lease starts in BOUND or UNVERIFIED. -/
theorem lease (h : Agree t) (i : EntryIx) (a : Addr) (l : Half) (d : Time) (items : List DeadlineItem)
    (hl : (∃ l o, (t.entry i).life = .bound a l o) ∨ ∃ l o, (t.entry i).life = .unverified a l o)
    (hp : items.Perm ({ kind := .lease i, deadline := d } :: t.book.items.filter fun y => y.kind.owner ≠ Owner.entry i))
    (hu : u.book = { t.book with
      life := upd t.book.life i (.bound a l (some d))
      items }) : Agree u := by
  obtain ⟨e1, e2, e3, e4, e5, e6, e7, e8, e9, e10⟩ := Reads.of hu
  simp only [Table.book, upd] at e1 e2 e3 e4 e5 e6 e7 e8 e9 e10
  obtain ⟨hi, ha, hs, hc, hd⟩ := h
  refine ⟨(index_live hi (fun k => by rw [e1]; grind) e2 e4 e5),
    (addresses_same ha (fun k => by rw [e1]; grind [EntryLife.address, EntryLife.state]) e6 e7),
    (slots_same hs (fun k => by rw [e1]; grind [EntryLife.slot]) e2 (fun k => .inl (e3 k)) e8),
    (classes_same hc (fun k => by rw [e1]; grind [EntryLife.state]) e3 e9),
    ?_⟩
  · refine items_replace hd { kind := .lease i, deadline := d } (by rw [e10]; exact hp) ?_ ?_
    · rintro ⟨k, y⟩
      cases k <;> grind [Table.ownerHolds, ItemKind.owner, EntryLife.state, EntryLife.deadline]
    · rintro ⟨k, y⟩
      cases k <;> grind [Table.ownerHolds, ItemKind.owner, EntryLife.state, EntryLife.deadline]

/-- A lease starts in LAPSED. -/
theorem revive (h : Agree t) (i : EntryIx) (a : Addr) (l l0 : Half) (d d0 : Time) (items : List DeadlineItem)
    (hl : (t.entry i).life = .lapsed a l0 d0)
    (hp : items.Perm ({ kind := .lease i, deadline := d } :: t.book.items.filter fun y => y.kind.owner ≠ Owner.entry i))
    (hu : u.book = { t.book with
      life := upd t.book.life i (.bound a l (some d))
      addr := upd t.book.addr a (.bound i)
      members := upd t.book.members (t.book.cls i) (t.book.members (t.book.cls i) ++ [i])
      items }) : Agree u := by
  obtain ⟨e1, e2, e3, e4, e5, e6, e7, e8, e9, e10⟩ := Reads.of hu
  simp only [Table.book, upd] at e1 e2 e3 e4 e5 e6 e7 e8 e9 e10
  obtain ⟨hi, ha, hs, hc, hd⟩ := h
  refine ⟨(index_live hi (fun k => by rw [e1]; grind) e2 e4 e5),
    ?_,
    (slots_same hs (fun k => by rw [e1]; grind [EntryLife.slot]) e2 (fun k => .inl (e3 k)) e8),
    ?_,
    ?_⟩
  · obtain ⟨h1, h2, h3, h4, h5, h6, h7⟩ := ha
    constructor <;> simp only [e1, e6, e7] <;> grind [EntryLife.address]
  · obtain ⟨h1, h2⟩ := hc
    constructor <;> simp only [e1, e3, e9] <;> grind [EntryLife.state]
  · refine items_replace hd { kind := .lease i, deadline := d } (by rw [e10]; exact hp) ?_ ?_
    · rintro ⟨k, y⟩
      cases k <;> grind [Table.ownerHolds, ItemKind.owner, EntryLife.state, EntryLife.deadline]
    · rintro ⟨k, y⟩
      cases k <;> grind [Table.ownerHolds, ItemKind.owner, EntryLife.state, EntryLife.deadline]

/-- An offer is accepted. -/
theorem accept (h : Agree t) (i : EntryIx) (j : SlotIx) (a : Addr) (l l0 : Half) (d d0 : Time) (items : List DeadlineItem)
    (hl : (t.entry i).life = .offered j a l0 d0)
    (hp : items.Perm ({ kind := .lease i, deadline := d } :: t.book.items.filter fun y => y.kind.owner ≠ Owner.entry i))
    (hu : u.book = { t.book with
      life := upd t.book.life i (.bound a l (some d))
      addr := upd t.book.addr a (.bound i)
      slot := upd t.book.slot j .free
      members := upd t.book.members (t.book.cls i) (t.book.members (t.book.cls i) ++ [i])
      items }) : Agree u := by
  obtain ⟨e1, e2, e3, e4, e5, e6, e7, e8, e9, e10⟩ := Reads.of hu
  simp only [Table.book, upd] at e1 e2 e3 e4 e5 e6 e7 e8 e9 e10
  obtain ⟨hi, ha, hs, hc, hd⟩ := h
  obtain ⟨c, hj⟩ := offered_slot hs hl
  refine ⟨(index_live hi (fun k => by rw [e1]; grind) e2 e4 e5),
    ?_,
    ?_,
    ?_,
    ?_⟩
  · obtain ⟨h1, h2, h3, h4, h5, h6, h7⟩ := ha
    constructor <;> simp only [e1, e6, e7] <;> grind [EntryLife.address]
  · obtain ⟨h1, h2, h3, h4, h5, h6⟩ := hs
    constructor <;> simp only [e1, e2, e3, e8] <;> grind [EntryLife.slot, Slot.entry]
  · obtain ⟨h1, h2⟩ := hc
    constructor <;> simp only [e1, e3, e9] <;> grind [EntryLife.state]
  · refine items_replace hd { kind := .lease i, deadline := d } (by rw [e10]; exact hp) ?_ ?_
    · rintro ⟨k, y⟩
      cases k <;> grind [Table.ownerHolds, ItemKind.owner, EntryLife.state, EntryLife.deadline]
    · rintro ⟨k, y⟩
      cases k <;> grind [Table.ownerHolds, ItemKind.owner, EntryLife.state, EntryLife.deadline]

/-- A lapse that leaves the entry LAPSED. -/
theorem lapse (h : Agree t) (i : EntryIx) (a : Addr) (l : Half) (d : Time) (items : List DeadlineItem)
    (hl : (∃ l o, (t.entry i).life = .bound a l o) ∨ ∃ l o, (t.entry i).life = .unverified a l o)
    (hp : items.Perm ({ kind := .hold i, deadline := d } :: t.book.items.filter fun y => y.kind.owner ≠ Owner.entry i))
    (hu : u.book = { t.book with
      life := upd t.book.life i (.lapsed a l d)
      addr := upd t.book.addr a (.held i)
      members := upd t.book.members (t.book.cls i) ((t.book.members (t.book.cls i)).filter (· ≠ i))
      items }) : Agree u := by
  obtain ⟨e1, e2, e3, e4, e5, e6, e7, e8, e9, e10⟩ := Reads.of hu
  simp only [Table.book, upd] at e1 e2 e3 e4 e5 e6 e7 e8 e9 e10
  obtain ⟨hi, ha, hs, hc, hd⟩ := h
  refine ⟨(index_live hi (fun k => by rw [e1]; grind) e2 e4 e5),
    ?_,
    (slots_same hs (fun k => by rw [e1]; grind [EntryLife.slot]) e2 (fun k => .inl (e3 k)) e8),
    ?_,
    ?_⟩
  · obtain ⟨h1, h2, h3, h4, h5, h6, h7⟩ := ha
    constructor <;> simp only [e1, e6, e7] <;> grind [EntryLife.address]
  · obtain ⟨h1, h2⟩ := hc
    constructor <;> simp only [e1, e3, e9] <;> grind [EntryLife.state]
  · refine items_replace hd { kind := .hold i, deadline := d } (by rw [e10]; exact hp) ?_ ?_
    · rintro ⟨k, y⟩
      cases k <;> grind [Table.ownerHolds, ItemKind.owner, EntryLife.state, EntryLife.deadline]
    · rintro ⟨k, y⟩
      cases k <;> grind [Table.ownerHolds, ItemKind.owner, EntryLife.state, EntryLife.deadline]

/-- A binding becomes UNVERIFIED. -/
theorem probation (h : Agree t) (i : EntryIx) (a : Addr) (l : Half) (d : Time) (items : List DeadlineItem)
    (hl : (∃ l o, (t.entry i).life = .bound a l o) ∨ ∃ l o, (t.entry i).life = .unverified a l o)
    (hp : items.Perm ({ kind := .revalidate i, deadline := d } :: t.book.items.filter fun y => y.kind.owner ≠ Owner.entry i))
    (hu : u.book = { t.book with
      life := upd t.book.life i (.unverified a l d)
      items }) : Agree u := by
  obtain ⟨e1, e2, e3, e4, e5, e6, e7, e8, e9, e10⟩ := Reads.of hu
  simp only [Table.book, upd] at e1 e2 e3 e4 e5 e6 e7 e8 e9 e10
  obtain ⟨hi, ha, hs, hc, hd⟩ := h
  refine ⟨(index_live hi (fun k => by rw [e1]; grind) e2 e4 e5),
    (addresses_same ha (fun k => by rw [e1]; grind [EntryLife.address, EntryLife.state]) e6 e7),
    (slots_same hs (fun k => by rw [e1]; grind [EntryLife.slot]) e2 (fun k => .inl (e3 k)) e8),
    (classes_same hc (fun k => by rw [e1]; grind [EntryLife.state]) e3 e9),
    ?_⟩
  · refine items_replace hd { kind := .revalidate i, deadline := d } (by rw [e10]; exact hp) ?_ ?_
    · rintro ⟨k, y⟩
      cases k <;> grind [Table.ownerHolds, ItemKind.owner, EntryLife.state, EntryLife.deadline]
    · rintro ⟨k, y⟩
      cases k <;> grind [Table.ownerHolds, ItemKind.owner, EntryLife.state, EntryLife.deadline]

/-- A binding is pinned. -/
theorem pin (h : Agree t) (i : EntryIx) (a : Addr) (l : Half)
    (hl : (∃ l o, (t.entry i).life = .bound a l o) ∨ ∃ l o, (t.entry i).life = .unverified a l o)
    (hu : u.book = { t.book with
      life := upd t.book.life i (.bound a l none)
      items := t.book.items.filter fun y => y.kind.owner ≠ Owner.entry i }) : Agree u := by
  obtain ⟨e1, e2, e3, e4, e5, e6, e7, e8, e9, e10⟩ := Reads.of hu
  simp only [Table.book, upd] at e1 e2 e3 e4 e5 e6 e7 e8 e9 e10
  obtain ⟨hi, ha, hs, hc, hd⟩ := h
  refine ⟨(index_live hi (fun k => by rw [e1]; grind) e2 e4 e5),
    (addresses_same ha (fun k => by rw [e1]; grind [EntryLife.address, EntryLife.state]) e6 e7),
    (slots_same hs (fun k => by rw [e1]; grind [EntryLife.slot]) e2 (fun k => .inl (e3 k)) e8),
    (classes_same hc (fun k => by rw [e1]; grind [EntryLife.state]) e3 e9),
    ?_⟩
  · refine items_drop hd e10 ?_
    · rintro ⟨k, y⟩
      cases k <;> grind [Table.ownerHolds, ItemKind.owner, EntryLife.state, EntryLife.deadline]

/-- A lease duration changes, the deadline stays. -/
theorem lengthen (h : Agree t) (i : EntryIx) (life : EntryLife)
    (hl : (∃ a l l' d, (t.entry i).life = .bound a l d ∧ life = .bound a l' d) ∨
      ∃ a l l' d, (t.entry i).life = .unverified a l d ∧ life = .unverified a l' d)
    (hu : u.book = { t.book with
      life := upd t.book.life i life }) : Agree u := by
  obtain ⟨e1, e2, e3, e4, e5, e6, e7, e8, e9, e10⟩ := Reads.of hu
  simp only [Table.book, upd] at e1 e2 e3 e4 e5 e6 e7 e8 e9 e10
  obtain ⟨hi, ha, hs, hc, hd⟩ := h
  refine ⟨(index_live hi (fun k => by rw [e1]; grind) e2 e4 e5),
    (addresses_same ha (fun k => by rw [e1]; grind [EntryLife.address, EntryLife.state]) e6 e7),
    (slots_same hs (fun k => by rw [e1]; grind [EntryLife.slot]) e2 (fun k => .inl (e3 k)) e8),
    (classes_same hc (fun k => by rw [e1]; grind [EntryLife.state]) e3 e9),
    ?_⟩
  · refine items_drop (kept := fun _ => true) hd (by simpa using e10) ?_
    · rintro ⟨k, y⟩
      cases k <;> grind [Table.ownerHolds, ItemKind.owner, EntryLife.state, EntryLife.deadline]

/-- An entry moves to another class. -/
theorem reclass (h : Agree t) (i : EntryIx) (c : ClassIx) (hn : c ≠ (t.entry i).cls)
    (hl : (t.entry i).life.state = .bound ∨ (t.entry i).life.state = .unverified)
    (hu : u.book = { t.book with
      cls := upd t.book.cls i c
      members := upd (upd t.book.members (t.book.cls i) ((t.book.members (t.book.cls i)).filter (· ≠ i))) c
        (t.book.members c ++ [i]) }) : Agree u := by
  obtain ⟨e1, e2, e3, e4, e5, e6, e7, e8, e9, e10⟩ := Reads.of hu
  simp only [Table.book, upd] at e1 e2 e3 e4 e5 e6 e7 e8 e9 e10
  obtain ⟨hi, ha, hs, hc, hd⟩ := h
  refine ⟨(index_live hi (fun k => by rw [e1]) e2 e4 e5),
    (addresses_same ha (fun k => .inl (e1 k)) e6 e7),
    ?_,
    ?_,
    ?_⟩
  · exact slots_same hs (fun k => .inl (e1 k)) e2 (fun k => by rw [e3]; cases h : (t.entry i).life <;> grind [EntryLife.slot, EntryLife.state]) e8
  · obtain ⟨h1, h2⟩ := hc
    constructor <;> simp only [e1, e3, e9] <;> grind [EntryLife.state]
  · refine items_drop (kept := fun _ => true) hd (by simpa using e10) ?_
    · rintro ⟨k, y⟩
      cases k <;> grind [Table.ownerHolds, ItemKind.owner, EntryLife.state, EntryLife.deadline]

/-- An entry moves to a FREE address; the old one turns FREE. -/
theorem move (h : Agree t) (i : EntryIx) (a b : Addr) (life : EntryLife) (hn : a ≠ b) (hb : t.addr b = .free)
    (hl : (∃ l d, (t.entry i).life = .bound a l d ∧ life = .bound b l d) ∨
      ∃ l d, (t.entry i).life = .unverified a l d ∧ life = .unverified b l d)
    (hu : u.book = { t.book with
      life := upd t.book.life i life
      addr := upd (upd t.book.addr b (.bound i)) a .free }) : Agree u := by
  obtain ⟨e1, e2, e3, e4, e5, e6, e7, e8, e9, e10⟩ := Reads.of hu
  simp only [Table.book, upd] at e1 e2 e3 e4 e5 e6 e7 e8 e9 e10
  obtain ⟨hi, ha, hs, hc, hd⟩ := h
  refine ⟨(index_live hi (fun k => by rw [e1]; grind) e2 e4 e5),
    ?_,
    (slots_same hs (fun k => by rw [e1]; grind [EntryLife.slot]) e2 (fun k => .inl (e3 k)) e8),
    (classes_same hc (fun k => by rw [e1]; grind [EntryLife.state]) e3 e9),
    ?_⟩
  · obtain ⟨h1, h2, h3, h4, h5, h6, h7⟩ := ha
    constructor <;> simp only [e1, e6, e7] <;> grind [EntryLife.address]
  · refine items_drop (kept := fun _ => true) hd (by simpa using e10) ?_
    · rintro ⟨k, y⟩
      cases k <;> grind [Table.ownerHolds, ItemKind.owner, EntryLife.state, EntryLife.deadline]

/-- A FREE address is quarantined. -/
theorem quarantine (h : Agree t) (a : Addr) (d : Time) (queue : List QuarantineItem) (ha' : t.addr a = .free)
    (hq : queue.Perm ({ address := a, endTime := d } :: t.book.queue))
    (hu : u.book = { t.book with
      addr := upd t.book.addr a (.quarantined d)
      queue }) : Agree u := by
  obtain ⟨e1, e2, e3, e4, e5, e6, e7, e8, e9, e10⟩ := Reads.of hu
  simp only [Table.book, upd] at e1 e2 e3 e4 e5 e6 e7 e8 e9 e10
  obtain ⟨hi, ha, hs, hc, hd⟩ := h
  refine ⟨(index_live hi (fun k => by rw [e1]) e2 e4 e5),
    ?_,
    (slots_same hs (fun k => .inl (e1 k)) e2 (fun k => .inl (e3 k)) e8),
    (classes_same hc (fun k => by rw [e1]) e3 e9),
    ?_⟩
  · obtain ⟨h1, h2, h3, h4, h5, h6, h7⟩ := ha
    have hm : ∀ x, x ∈ u.quarantine ↔ x = { address := a, endTime := d } ∨ x ∈ t.quarantine := by
      intro x; rw [e7, hq.mem_iff, List.mem_cons]; rfl
    have hn : (u.quarantine.map (·.address)).Nodup := by
      rw [e7, (hq.map _).nodup_iff, List.map_cons, List.nodup_cons]
      refine ⟨fun hx => ?_, h7⟩
      obtain ⟨x, hx, _⟩ := List.mem_map.1 hx
      have := (h6 x.address x.endTime).2 hx
      rw [show x.address = a from ‹_›] at this; rw [ha'] at this; cases this
    refine ⟨?_, ?_, ?_, ?_, ?_, ?_, hn⟩ <;> simp only [e1, e6, hm] <;> grind [EntryLife.address]
  · refine items_drop (kept := fun _ => true) hd (by simpa using e10) ?_
    · rintro ⟨k, y⟩
      cases k <;> grind [Table.ownerHolds, ItemKind.owner, EntryLife.state, EntryLife.deadline]

/-- An address that no entry has turns FREE or RESERVED, and leaves the queue. -/
theorem unqueue (h : Agree t) (a : Addr) (x : AddrState) (queue : List QuarantineItem)
    (hx : x = .free ∨ x = .reserved) (ha' : (t.addr a).entry = none)
    (hm : ∀ y, y ∈ queue ↔ y ∈ t.quarantine ∧ y.address ≠ a) (hq : (queue.map fun y => y.address).Nodup)
    (hu : u.book = { t.book with
      addr := upd t.book.addr a x
      queue }) : Agree u := by
  obtain ⟨e1, e2, e3, e4, e5, e6, e7, e8, e9, e10⟩ := Reads.of hu
  simp only [Table.book, upd] at e1 e2 e3 e4 e5 e6 e7 e8 e9 e10
  obtain ⟨hi, ha, hs, hc, hd⟩ := h
  refine ⟨(index_live hi (fun k => by rw [e1]) e2 e4 e5),
    ?_,
    (slots_same hs (fun k => .inl (e1 k)) e2 (fun k => .inl (e3 k)) e8),
    (classes_same hc (fun k => by rw [e1]) e3 e9),
    ?_⟩
  · obtain ⟨h1, h2, h3, h4, h5, h6, h7⟩ := ha
    refine ⟨?_, ?_, ?_, ?_, ?_, ?_, by rw [e7]; exact hq⟩ <;> simp only [e1, e6, e7, hm] <;>
      grind [EntryLife.address, AddrState.entry]
  · refine items_drop (kept := fun _ => true) hd (by simpa using e10) ?_
    · rintro ⟨k, y⟩
      cases k <;> grind [Table.ownerHolds, ItemKind.owner, EntryLife.state, EntryLife.deadline]

/-- A refusal is over. -/
theorem consume (h : Agree t) (j : SlotIx) (c : SlotClaim) (hj : t.slot j = .refused c)
    (hu : u.book = { t.book with
      slot := upd t.book.slot j .free
      items := t.book.items.filter fun y => y.kind.owner ≠ Owner.slot j }) : Agree u := by
  obtain ⟨e1, e2, e3, e4, e5, e6, e7, e8, e9, e10⟩ := Reads.of hu
  simp only [Table.book, upd] at e1 e2 e3 e4 e5 e6 e7 e8 e9 e10
  obtain ⟨hi, ha, hs, hc, hd⟩ := h
  refine ⟨(index_live hi (fun k => by rw [e1]) e2 e4 e5),
    (addresses_same ha (fun k => .inl (e1 k)) e6 e7),
    ?_,
    (classes_same hc (fun k => by rw [e1]) e3 e9),
    ?_⟩
  · obtain ⟨h1, h2, h3, h4, h5, h6⟩ := hs
    constructor <;> simp only [e1, e2, e3, e8] <;> grind [EntryLife.slot, Slot.entry]
  · refine items_drop hd e10 ?_
    · rintro ⟨k, y⟩
      cases k <;> grind [Table.ownerHolds, ItemKind.owner, EntryLife.state, EntryLife.deadline]

/-- A FREE slot turns REFUSED. -/
theorem refuse (h : Agree t) (j : SlotIx) (c : SlotClaim) (items : List DeadlineItem) (hj : t.slot j = .free)
    (fresh : ∀ k, (t.entry k).life ≠ .vacant → (t.entry k).identity ≠ c.identity)
    (other : ∀ k d, t.slot k = .refused d → d.identity ≠ c.identity)
    (hp : items.Perm ({ kind := .refusal j, deadline := c.deadline } :: t.book.items.filter fun y => y.kind.owner ≠ Owner.slot j))
    (hu : u.book = { t.book with
      slot := upd t.book.slot j (.refused c)
      items }) : Agree u := by
  obtain ⟨e1, e2, e3, e4, e5, e6, e7, e8, e9, e10⟩ := Reads.of hu
  simp only [Table.book, upd] at e1 e2 e3 e4 e5 e6 e7 e8 e9 e10
  obtain ⟨hi, ha, hs, hc, hd⟩ := h
  refine ⟨(index_live hi (fun k => by rw [e1]) e2 e4 e5),
    (addresses_same ha (fun k => .inl (e1 k)) e6 e7),
    ?_,
    (classes_same hc (fun k => by rw [e1]) e3 e9),
    ?_⟩
  · obtain ⟨h1, h2, h3, h4, h5, h6⟩ := hs
    constructor <;> simp only [e1, e2, e3, e8] <;> grind [EntryLife.slot, Slot.entry]
  · refine items_replace hd { kind := .refusal j, deadline := c.deadline } (by rw [e10]; exact hp) ?_ ?_
    · rintro ⟨k, y⟩
      cases k <;> grind [Table.ownerHolds, ItemKind.owner, EntryLife.state, EntryLife.deadline]
    · rintro ⟨k, y⟩
      cases k <;> grind [Table.ownerHolds, ItemKind.owner, EntryLife.state, EntryLife.deadline]

/-- Every slot is freed, where no entry is AWAITING, OFFERED or LAPSED. -/
theorem settle (h : Agree t) (hl : ∀ k, (t.entry k).life.slot = none ∧ (t.entry k).life.state ≠ .offered ∧
      (t.entry k).life.state ≠ .lapsed)
    (hu : u.book = { t.book with
      slot := fun _ => .free
      items := t.book.items.filter fun y => y.kind.kept }) : Agree u := by
  obtain ⟨e1, e2, e3, e4, e5, e6, e7, e8, e9, e10⟩ := Reads.of hu
  simp only [Table.book] at e1 e2 e3 e4 e5 e6 e7 e8 e9 e10
  obtain ⟨hi, ha, hs, hc, hd⟩ := h
  refine ⟨(index_live hi (fun k => by rw [e1]) e2 e4 e5),
    (addresses_same ha (fun k => .inl (e1 k)) e6 e7),
    ?_,
    (classes_same hc (fun k => by rw [e1]) e3 e9),
    ?_⟩
  · obtain ⟨h1, h2, h3, h4, h5, h6⟩ := hs
    constructor <;> simp only [e1, e2, e3, e8] <;> grind
  · refine items_drop hd e10 ?_
    rintro ⟨k, y⟩
    cases k <;> simp only [Table.ownerHolds, ItemKind.kept, e1, e8] <;> grind [EntryLife.slot, EntryLife.state]

/-- The switch to an exact index. -/
theorem switch (h : Agree t) (bucket : BucketIx → List EntryIx) (seed : Half)
    (hb : ∀ i b, i ∈ bucket b ↔ (t.entry i).life ≠ .vacant ∧ b = bucketOf seed (t.entry i).identity)
    (hu : u.book = { t.book with
      bucket
      seed }) : Agree u := by
  obtain ⟨e1, e2, e3, e4, e5, e6, e7, e8, e9, e10⟩ := Reads.of hu
  simp only [Table.book] at e1 e2 e3 e4 e5 e6 e7 e8 e9 e10
  obtain ⟨hi, ha, hs, hc, hd⟩ := h
  refine ⟨?_,
    (addresses_same ha (fun k => .inl (e1 k)) e6 e7),
    (slots_same hs (fun k => .inl (e1 k)) e2 (fun k => .inl (e3 k)) e8),
    (classes_same hc (fun k => by rw [e1]) e3 e9),
    ?_⟩
  · obtain ⟨h1, h2⟩ := hi
    exact ⟨by simpa only [e1, e2, e4, e5] using hb, by simpa only [e1, e2] using h2⟩
  · refine items_drop (kept := fun _ => true) hd (by simpa using e10) ?_
    · rintro ⟨k, y⟩
      cases k <;> grind [Table.ownerHolds, ItemKind.owner, EntryLife.state, EntryLife.deadline]

/-- A VACANT entry is taken for a claim that is held. -/
theorem hold (h : Agree t) (i : EntryIx) (b : BucketIx) (identity : Identity) (cls : ClassIx) (j : SlotIx) (c : SlotClaim) (items : List DeadlineItem)
    (hv : (t.entry i).life = .vacant) (hb : b = bucketOf t.seed identity)
    (fresh : ∀ k, (t.entry k).life ≠ .vacant → (t.entry k).identity ≠ identity)
    (refusals : ∀ k c, t.slot k = .refused c → c.identity ≠ identity)
    (hj : t.slot j = .free) (hc : c.identity = identity ∧ c.cls = cls)
    (hp : items.Perm ({ kind := .approval j, deadline := c.deadline } :: t.book.items))
    (hu : u.book = { t.book with
      life := upd t.book.life i (.awaiting j)
      identity := upd t.book.identity i identity
      cls := upd t.book.cls i cls
      bucket := upd t.book.bucket b (insertAscending i (t.book.bucket b))
      slot := upd t.book.slot j (.awaiting c i)
      items }) : Agree u := by
  obtain ⟨e1, e2, e3, e4, e5, e6, e7, e8, e9, e10⟩ := Reads.of hu
  simp only [Table.book, upd] at e1 e2 e3 e4 e5 e6 e7 e8 e9 e10
  obtain ⟨hi, ha, hs, hc, hd⟩ := h
  have hc' := hc
  refine ⟨?_,
    ?_,
    ?_,
    ?_,
    ?_⟩
  · obtain ⟨h1, h2⟩ := hi
    constructor <;> simp only [e1, e2, e4, e5] <;> grind [mem_insertAscending]
  · obtain ⟨h1, h2, h3, h4, h5, h6, h7⟩ := ha
    constructor <;> simp only [e1, e6, e7] <;> grind [EntryLife.address]
  · obtain ⟨h1, h2, h3, h4, h5, h6⟩ := hs
    constructor <;> simp only [e1, e2, e3, e8] <;> grind [EntryLife.slot, Slot.entry]
  · obtain ⟨h1, h2⟩ := hc
    constructor <;> simp only [e1, e3, e9] <;> grind [EntryLife.state]
  · refine items_replace (kept := fun _ => true) hd { kind := .approval j, deadline := c.deadline } (by rw [e10]; simpa [Table.book] using hp) ?_ ?_
    · rintro ⟨k, y⟩
      cases k <;> grind [Table.ownerHolds, ItemKind.owner, EntryLife.state, EntryLife.deadline]
    · rintro ⟨k, y⟩
      cases k <;> grind [Table.ownerHolds, ItemKind.owner, EntryLife.state, EntryLife.deadline]

/-- A VACANT entry is taken for a claim that is offered an address. -/
theorem offer (h : Agree t) (i : EntryIx) (b : BucketIx) (identity : Identity) (cls : ClassIx) (j : SlotIx) (c : SlotClaim) (a : Addr) (l : Half) (queue : List QuarantineItem)
    (items : List DeadlineItem)
    (hv : (t.entry i).life = .vacant) (hb : b = bucketOf t.seed identity)
    (fresh : ∀ k, (t.entry k).life ≠ .vacant → (t.entry k).identity ≠ identity)
    (refusals : ∀ k c, t.slot k = .refused c → c.identity ≠ identity)
    (hj : t.slot j = .free) (hc : c.identity = identity ∧ c.cls = cls) (ha' : (t.addr a).entry = none)
    (hm : ∀ y, y ∈ queue ↔ y ∈ t.quarantine ∧ y.address ≠ a) (hq : (queue.map fun y => y.address).Nodup)
    (hp : items.Perm ({ kind := .offer i, deadline := c.deadline } :: t.book.items))
    (hu : u.book = { t.book with
      life := upd t.book.life i (.offered j a l c.deadline)
      identity := upd t.book.identity i identity
      cls := upd t.book.cls i cls
      bucket := upd t.book.bucket b (insertAscending i (t.book.bucket b))
      addr := upd t.book.addr a (.offered i)
      queue
      slot := upd t.book.slot j (.offered c i)
      items }) : Agree u := by
  obtain ⟨e1, e2, e3, e4, e5, e6, e7, e8, e9, e10⟩ := Reads.of hu
  simp only [Table.book, upd] at e1 e2 e3 e4 e5 e6 e7 e8 e9 e10
  obtain ⟨hi, ha, hs, hc, hd⟩ := h
  refine ⟨?_,
    ?_,
    ?_,
    ?_,
    ?_⟩
  · obtain ⟨h1, h2⟩ := hi
    constructor <;> simp only [e1, e2, e4, e5] <;> grind [mem_insertAscending]
  · obtain ⟨h1, h2, h3, h4, h5, h6, h7⟩ := ha
    refine ⟨?_, ?_, ?_, ?_, ?_, ?_, by rw [e7]; exact hq⟩ <;> simp only [e1, e6, e7, hm] <;>
      grind [EntryLife.address, AddrState.entry]
  · obtain ⟨h1, h2, h3, h4, h5, h6⟩ := hs
    constructor <;> simp only [e1, e2, e3, e8] <;> grind [EntryLife.slot, Slot.entry]
  · obtain ⟨h1, h2⟩ := hc
    constructor <;> simp only [e1, e3, e9] <;> grind [EntryLife.state]
  · refine items_replace (kept := fun _ => true) hd { kind := .offer i, deadline := c.deadline } (by rw [e10]; simpa [Table.book] using hp) ?_ ?_
    · rintro ⟨k, y⟩
      cases k <;> grind [Table.ownerHolds, ItemKind.owner, EntryLife.state, EntryLife.deadline]
    · rintro ⟨k, y⟩
      cases k <;> grind [Table.ownerHolds, ItemKind.owner, EntryLife.state, EntryLife.deadline]

/-- A VACANT entry is taken, pinned. -/
theorem insert (h : Agree t) (i : EntryIx) (b : BucketIx) (identity : Identity) (cls : ClassIx) (a : Addr) (l : Half)
    (hv : (t.entry i).life = .vacant) (hb : b = bucketOf t.seed identity)
    (fresh : ∀ k, (t.entry k).life ≠ .vacant → (t.entry k).identity ≠ identity)
    (refusals : ∀ k c, t.slot k = .refused c → c.identity ≠ identity)
    (ha' : t.addr a = .free ∨ t.addr a = .reserved)
    (hu : u.book = { t.book with
      life := upd t.book.life i (.bound a l none)
      identity := upd t.book.identity i identity
      cls := upd t.book.cls i cls
      bucket := upd t.book.bucket b (insertAscending i (t.book.bucket b))
      addr := upd t.book.addr a (.bound i)
      members := upd t.book.members cls (t.book.members cls ++ [i]) }) : Agree u := by
  obtain ⟨e1, e2, e3, e4, e5, e6, e7, e8, e9, e10⟩ := Reads.of hu
  simp only [Table.book, upd] at e1 e2 e3 e4 e5 e6 e7 e8 e9 e10
  obtain ⟨hi, ha, hs, hc, hd⟩ := h
  refine ⟨?_,
    ?_,
    ?_,
    ?_,
    ?_⟩
  · obtain ⟨h1, h2⟩ := hi
    constructor <;> simp only [e1, e2, e4, e5] <;> grind [mem_insertAscending]
  · obtain ⟨h1, h2, h3, h4, h5, h6, h7⟩ := ha
    constructor <;> simp only [e1, e6, e7] <;> grind [EntryLife.address]
  · obtain ⟨h1, h2, h3, h4, h5, h6⟩ := hs
    constructor <;> simp only [e1, e2, e3, e8] <;> grind [EntryLife.slot, Slot.entry]
  · obtain ⟨h1, h2⟩ := hc
    constructor <;> simp only [e1, e3, e9] <;> grind [EntryLife.state]
  · refine items_drop (kept := fun _ => true) hd (by simpa using e10) ?_
    · rintro ⟨k, y⟩
      cases k <;> grind [Table.ownerHolds, ItemKind.owner, EntryLife.state, EntryLife.deadline]

/-- An AWAITING claim is offered an address. -/
theorem approve (h : Agree t) (i : EntryIx) (j : SlotIx) (c : SlotClaim) (a : Addr) (l : Half) (d : Time) (queue : List QuarantineItem)
    (items : List DeadlineItem) (hj : t.slot j = .awaiting c i) (ha' : (t.addr a).entry = none)
    (hm : ∀ y, y ∈ queue ↔ y ∈ t.quarantine ∧ y.address ≠ a) (hq : (queue.map fun y => y.address).Nodup)
    (hp : items.Perm ({ kind := .offer i, deadline := d } :: t.book.items.filter fun y => y.kind.owner ≠ Owner.slot j))
    (hu : u.book = { t.book with
      life := upd t.book.life i (.offered j a l d)
      addr := upd t.book.addr a (.offered i)
      queue
      slot := upd t.book.slot j (.offered { c with deadline := d } i)
      items }) : Agree u := by
  obtain ⟨e1, e2, e3, e4, e5, e6, e7, e8, e9, e10⟩ := Reads.of hu
  simp only [Table.book, upd] at e1 e2 e3 e4 e5 e6 e7 e8 e9 e10
  obtain ⟨hi, ha, hs, hc, hd⟩ := h
  have hl := hs.awaiting _ _ _ hj
  refine ⟨(index_live hi (fun k => by rw [e1]; grind) e2 e4 e5),
    ?_,
    ?_,
    (classes_same hc (fun k => by rw [e1]; grind [EntryLife.state]) e3 e9),
    ?_⟩
  · obtain ⟨h1, h2, h3, h4, h5, h6, h7⟩ := ha
    refine ⟨?_, ?_, ?_, ?_, ?_, ?_, by rw [e7]; exact hq⟩ <;> simp only [e1, e6, e7, hm] <;>
      grind [EntryLife.address, AddrState.entry]
  · obtain ⟨h1, h2, h3, h4, h5, h6⟩ := hs
    constructor <;> simp only [e1, e2, e3, e8] <;> grind [EntryLife.slot, Slot.entry]
  · refine items_replace hd { kind := .offer i, deadline := d } (by rw [e10]; exact hp) ?_ ?_
    · rintro ⟨k, y⟩
      cases k <;> grind [Table.ownerHolds, ItemKind.owner, EntryLife.state, EntryLife.deadline]
    · rintro ⟨k, y⟩
      cases k <;> grind [Table.ownerHolds, ItemKind.owner, EntryLife.state, EntryLife.deadline]

/-- An AWAITING entry retires. -/
theorem retire_awaiting (h : Agree t) (i : EntryIx) (b : BucketIx) (j : SlotIx) (hl : (t.entry i).life = .awaiting j)
    (hb : b = bucketOf t.seed (t.entry i).identity)
    (hu : u.book = { t.book with
      life := upd t.book.life i .vacant
      bucket := upd t.book.bucket b ((t.book.bucket b).filter (· ≠ i))
      slot := upd t.book.slot j .free
      items := (t.book.items.filter fun y => y.kind.owner ≠ Owner.slot j).filter fun y => y.kind.owner ≠ Owner.entry i }) : Agree u := by
  obtain ⟨e1, e2, e3, e4, e5, e6, e7, e8, e9, e10⟩ := Reads.of hu
  simp only [Table.book, upd] at e1 e2 e3 e4 e5 e6 e7 e8 e9 e10
  obtain ⟨hi, ha, hs, hc, hd⟩ := h
  obtain ⟨c, hj⟩ := awaiting_slot hs hl
  refine ⟨?_,
    ?_,
    ?_,
    ?_,
    ?_⟩
  · obtain ⟨h1, h2⟩ := hi
    constructor <;> simp only [e1, e2, e4, e5] <;> grind [mem_insertAscending]
  · obtain ⟨h1, h2, h3, h4, h5, h6, h7⟩ := ha
    constructor <;> simp only [e1, e6, e7] <;> grind [EntryLife.address]
  · obtain ⟨h1, h2, h3, h4, h5, h6⟩ := hs
    constructor <;> simp only [e1, e2, e3, e8] <;> grind [EntryLife.slot, Slot.entry]
  · obtain ⟨h1, h2⟩ := hc
    constructor <;> simp only [e1, e3, e9] <;> grind [EntryLife.state]
  · rw [List.filter_filter] at e10
    refine items_drop hd e10 ?_
    · rintro ⟨k, y⟩
      cases k <;> grind [Table.ownerHolds, ItemKind.owner, EntryLife.state, EntryLife.deadline]

/-- An OFFERED entry retires. -/
theorem retire_offered (h : Agree t) (i : EntryIx) (b : BucketIx) (j : SlotIx) (a : Addr) (l : Half) (d : Time) (hl : (t.entry i).life = .offered j a l d)
    (hb : b = bucketOf t.seed (t.entry i).identity)
    (hu : u.book = { t.book with
      life := upd t.book.life i .vacant
      bucket := upd t.book.bucket b ((t.book.bucket b).filter (· ≠ i))
      addr := upd t.book.addr a .free
      slot := upd t.book.slot j .free
      items := t.book.items.filter fun y => y.kind.owner ≠ Owner.entry i }) : Agree u := by
  obtain ⟨e1, e2, e3, e4, e5, e6, e7, e8, e9, e10⟩ := Reads.of hu
  simp only [Table.book, upd] at e1 e2 e3 e4 e5 e6 e7 e8 e9 e10
  obtain ⟨hi, ha, hs, hc, hd⟩ := h
  obtain ⟨c, hj⟩ := offered_slot hs hl
  refine ⟨?_,
    ?_,
    ?_,
    ?_,
    ?_⟩
  · obtain ⟨h1, h2⟩ := hi
    constructor <;> simp only [e1, e2, e4, e5] <;> grind [mem_insertAscending]
  · obtain ⟨h1, h2, h3, h4, h5, h6, h7⟩ := ha
    constructor <;> simp only [e1, e6, e7] <;> grind [EntryLife.address]
  · obtain ⟨h1, h2, h3, h4, h5, h6⟩ := hs
    constructor <;> simp only [e1, e2, e3, e8] <;> grind [EntryLife.slot, Slot.entry]
  · obtain ⟨h1, h2⟩ := hc
    constructor <;> simp only [e1, e3, e9] <;> grind [EntryLife.state]
  · refine items_drop hd e10 ?_
    · rintro ⟨k, y⟩
      cases k <;> grind [Table.ownerHolds, ItemKind.owner, EntryLife.state, EntryLife.deadline]

/-- A BOUND or UNVERIFIED entry retires, its address FREE. -/
theorem retire_listed (h : Agree t) (i : EntryIx) (b : BucketIx) (a : Addr)
    (hl : (∃ l o, (t.entry i).life = .bound a l o) ∨ ∃ l o, (t.entry i).life = .unverified a l o)
    (hb : b = bucketOf t.seed (t.entry i).identity)
    (hu : u.book = { t.book with
      life := upd t.book.life i .vacant
      bucket := upd t.book.bucket b ((t.book.bucket b).filter (· ≠ i))
      addr := upd t.book.addr a .free
      members := upd t.book.members (t.book.cls i) ((t.book.members (t.book.cls i)).filter (· ≠ i))
      items := t.book.items.filter fun y => y.kind.owner ≠ Owner.entry i }) : Agree u := by
  obtain ⟨e1, e2, e3, e4, e5, e6, e7, e8, e9, e10⟩ := Reads.of hu
  simp only [Table.book, upd] at e1 e2 e3 e4 e5 e6 e7 e8 e9 e10
  obtain ⟨hi, ha, hs, hc, hd⟩ := h
  refine ⟨?_,
    ?_,
    ?_,
    ?_,
    ?_⟩
  · obtain ⟨h1, h2⟩ := hi
    constructor <;> simp only [e1, e2, e4, e5] <;> grind [mem_insertAscending]
  · obtain ⟨h1, h2, h3, h4, h5, h6, h7⟩ := ha
    constructor <;> simp only [e1, e6, e7] <;> grind [EntryLife.address]
  · obtain ⟨h1, h2, h3, h4, h5, h6⟩ := hs
    constructor <;> simp only [e1, e2, e3, e8] <;> grind [EntryLife.slot, Slot.entry]
  · obtain ⟨h1, h2⟩ := hc
    constructor <;> simp only [e1, e3, e9] <;> grind [EntryLife.state]
  · refine items_drop hd e10 ?_
    · rintro ⟨k, y⟩
      cases k <;> grind [Table.ownerHolds, ItemKind.owner, EntryLife.state, EntryLife.deadline]

/-- A LAPSED entry retires, its address FREE. -/
theorem retire_lapsed (h : Agree t) (i : EntryIx) (b : BucketIx) (a : Addr) (l : Half) (d : Time) (hl : (t.entry i).life = .lapsed a l d)
    (hb : b = bucketOf t.seed (t.entry i).identity)
    (hu : u.book = { t.book with
      life := upd t.book.life i .vacant
      bucket := upd t.book.bucket b ((t.book.bucket b).filter (· ≠ i))
      addr := upd t.book.addr a .free
      items := t.book.items.filter fun y => y.kind.owner ≠ Owner.entry i }) : Agree u := by
  obtain ⟨e1, e2, e3, e4, e5, e6, e7, e8, e9, e10⟩ := Reads.of hu
  simp only [Table.book, upd] at e1 e2 e3 e4 e5 e6 e7 e8 e9 e10
  obtain ⟨hi, ha, hs, hc, hd⟩ := h
  refine ⟨?_,
    ?_,
    ?_,
    ?_,
    ?_⟩
  · obtain ⟨h1, h2⟩ := hi
    constructor <;> simp only [e1, e2, e4, e5] <;> grind [mem_insertAscending]
  · obtain ⟨h1, h2, h3, h4, h5, h6, h7⟩ := ha
    constructor <;> simp only [e1, e6, e7] <;> grind [EntryLife.address]
  · obtain ⟨h1, h2, h3, h4, h5, h6⟩ := hs
    constructor <;> simp only [e1, e2, e3, e8] <;> grind [EntryLife.slot, Slot.entry]
  · obtain ⟨h1, h2⟩ := hc
    constructor <;> simp only [e1, e3, e9] <;> grind [EntryLife.state]
  · refine items_drop hd e10 ?_
    · rintro ⟨k, y⟩
      cases k <;> grind [Table.ownerHolds, ItemKind.owner, EntryLife.state, EntryLife.deadline]

end Agree

end Sys2Proof.Machine
end

