-- ==== Sys2Proof/Laws/Engine.lean ====
section
/-! SUPPORT. Everything a grant, a completion and the expiry unit's look can do. -/

namespace Sys2Proof.Machine

/-! ### Grants -/

theorem grants_iff (s : State) (r : Requester) (i : Instr) : s.grants r i = true ↔ Granted s r i := by
  simp [State.grants, Granted, and_assoc]

theorem grants_of_granted {s : State} {r : Requester} {i : Instr} (h : Granted s r i) : s.grants r i = true :=
  (grants_iff s r i).2 h

theorem grants_of_not_granted {s : State} {r : Requester} {i : Instr} (h : ¬ Granted s r i) : s.grants r i = false :=
  Bool.eq_false_iff.2 fun g => h ((grants_iff s r i).1 g)

theorem grantRequest_of_granted {s : State} {i : Instr} (h : Granted s .bus i) (o : Answer × Table) :
    s.grantRequest i o = .next (s.served .bus o.2 (.request o.1)) := by
  simp [State.grantRequest, grants_of_granted h]

theorem grantHost_of_granted {s : State} {i : Instr} (h : Granted s .host i) (o : Service × Table) :
    s.grantHost i o = .next (s.served .host o.2 o.1) := by
  simp [State.grantHost, grants_of_granted h]

theorem grantCommand_of_granted {s : State} {i : Instr} (h : Granted s .host i) (o : Result × Table) :
    s.grantCommand i o = .next (s.served .host o.2 (.command o.1)) :=
  grantHost_of_granted h _

theorem grantExpiry_of_granted {s : State} {i : Instr} (h : Granted s .expiry i) (t : Table) :
    s.grantExpiry i t = .next (s.served .expiry t .expiry) := by
  simp [State.grantExpiry, grants_of_granted h]

theorem grantRequest_of_not_granted {s : State} {i : Instr} (h : ¬ Granted s .bus i) (o : Answer × Table) :
    s.grantRequest i o = .next s := by
  simp [State.grantRequest, grants_of_not_granted h]

theorem grantHost_of_not_granted {s : State} {i : Instr} (h : ¬ Granted s .host i) (o : Service × Table) :
    s.grantHost i o = .next s := by
  simp [State.grantHost, grants_of_not_granted h]

theorem grantCommand_of_not_granted {s : State} {i : Instr} (h : ¬ Granted s .host i) (o : Result × Table) :
    s.grantCommand i o = .next s :=
  grantHost_of_not_granted h _

theorem grantExpiry_of_not_granted {s : State} {i : Instr} (h : ¬ Granted s .expiry i) (t : Table) :
    s.grantExpiry i t = .next s := by
  simp [State.grantExpiry, grants_of_not_granted h]

/-- All that the grant of a request can answer. -/
theorem grantRequest_cases (s : State) (i : Instr) (o : Answer × Table) :
    s.grantRequest i o = .next s ∨
      (Granted s .bus i ∧ s.grantRequest i o = .next (s.served .bus o.2 (.request o.1))) := by
  by_cases h : Granted s .bus i
  · exact .inr ⟨h, grantRequest_of_granted h o⟩
  · exact .inl (grantRequest_of_not_granted h o)

/-- All that the grant of an operation of the host port can answer. -/
theorem grantHost_cases (s : State) (i : Instr) (o : Service × Table) :
    s.grantHost i o = .next s ∨ (Granted s .host i ∧ s.grantHost i o = .next (s.served .host o.2 o.1)) := by
  by_cases h : Granted s .host i
  · exact .inr ⟨h, grantHost_of_granted h o⟩
  · exact .inl (grantHost_of_not_granted h o)

/-- All that the grant of a command operation can answer. -/
theorem grantCommand_cases (s : State) (i : Instr) (o : Result × Table) :
    s.grantCommand i o = .next s ∨
      (Granted s .host i ∧ s.grantCommand i o = .next (s.served .host o.2 (.command o.1))) :=
  grantHost_cases s i _

/-- All that the grant of an expiry operation can answer. -/
theorem grantExpiry_cases (s : State) (i : Instr) (t : Table) :
    s.grantExpiry i t = .next s ∨ (Granted s .expiry i ∧ s.grantExpiry i t = .next (s.served .expiry t .expiry)) := by
  by_cases h : Granted s .expiry i
  · exact .inr ⟨h, grantExpiry_of_granted h t⟩
  · exact .inl (grantExpiry_of_not_granted h t)

/-! ### A granted operation in service -/

@[simp] theorem table_served (s : State) (r : Requester) (t : Table) (v : Service) : (s.served r t v).table = t := rfl
@[simp] theorem service_served (s : State) (r : Requester) (t : Table) (v : Service) : (s.served r t v).service = some v := rfl
@[simp] theorem arbiter_served (s : State) (r : Requester) (t : Table) (v : Service) :
    (s.served r t v).arbiter = { s.arbiter.remove r with lastGranted := r } := rfl
@[simp] theorem life_served (s : State) (r : Requester) (t : Table) (v : Service) : (s.served r t v).life = s.life := rfl
@[simp] theorem authorityAddress_served (s : State) (r : Requester) (t : Table) (v : Service) :
    (s.served r t v).authorityAddress = s.authorityAddress := rfl
@[simp] theorem seen_served (s : State) (r : Requester) (t : Table) (v : Service) : (s.served r t v).seen = s.seen := rfl
@[simp] theorem expiry_served (s : State) (r : Requester) (t : Table) (v : Service) : (s.served r t v).expiry = s.expiry := rfl
@[simp] theorem target_served (s : State) (r : Requester) (t : Table) (v : Service) : (s.served r t v).target = s.target := rfl
@[simp] theorem port_served (s : State) (r : Requester) (t : Table) (v : Service) : (s.served r t v).port = s.port := rfl
@[simp] theorem alert_served (s : State) (r : Requester) (t : Table) (v : Service) : (s.served r t v).alert = s.alert := rfl
@[simp] theorem pending_served (s : State) (r : Requester) (t : Table) (v : Service) :
    (s.served r t v).pending = s.pending := rfl

/-! ### The expiry unit's look -/

theorem lookForDue_of_quiet {s : State}
    (h : s.life ≠ .running ∨ s.expiry.outstanding = true ∨ s.seen.dueCandidate s.expiry.time = none) : s.lookForDue = s := by
  unfold State.lookForDue
  split
  · next hr =>
    rcases h with h | h | h
    · exact absurd hr.1 h
    · simp [hr.2] at h
    · simp [h]
  · rfl

theorem lookForDue_of_candidate {s : State} {i : Instr} (life : s.life = .running) (mark : s.expiry.outstanding = false)
    (candidate : s.seen.dueCandidate s.expiry.time = some i) :
    s.lookForDue = { s with
      arbiter := { s.arbiter with expiry := some i }, expiry := { s.expiry with outstanding := true } } := by
  simp [State.lookForDue, life, mark, candidate]

/-- All that the look can do. -/
theorem lookForDue_cases (s : State) : s.lookForDue = s ∨
    ∃ i, s.life = .running ∧ s.expiry.outstanding = false ∧ s.seen.dueCandidate s.expiry.time = some i ∧
      s.lookForDue = { s with
        arbiter := { s.arbiter with expiry := some i }, expiry := { s.expiry with outstanding := true } } := by
  by_cases life : s.life = .running
  · cases mark : s.expiry.outstanding
    · cases candidate : s.seen.dueCandidate s.expiry.time with
      | none => exact .inl (lookForDue_of_quiet (.inr (.inr candidate)))
      | some i => exact .inr ⟨i, life, rfl, rfl, lookForDue_of_candidate life mark candidate⟩
    · exact .inl (lookForDue_of_quiet (.inr (.inl mark)))
  · exact .inl (lookForDue_of_quiet (.inl life))

@[simp] theorem life_lookForDue (s : State) : s.lookForDue.life = s.life := by
  rcases lookForDue_cases s with h | ⟨_, _, _, _, h⟩ <;> rw [h]
@[simp] theorem authorityAddress_lookForDue (s : State) : s.lookForDue.authorityAddress = s.authorityAddress := by
  rcases lookForDue_cases s with h | ⟨_, _, _, _, h⟩ <;> rw [h]
@[simp] theorem table_lookForDue (s : State) : s.lookForDue.table = s.table := by
  rcases lookForDue_cases s with h | ⟨_, _, _, _, h⟩ <;> rw [h]
@[simp] theorem seen_lookForDue (s : State) : s.lookForDue.seen = s.seen := by
  rcases lookForDue_cases s with h | ⟨_, _, _, _, h⟩ <;> rw [h]
@[simp] theorem service_lookForDue (s : State) : s.lookForDue.service = s.service := by
  rcases lookForDue_cases s with h | ⟨_, _, _, _, h⟩ <;> rw [h]
@[simp] theorem time_lookForDue (s : State) : s.lookForDue.expiry.time = s.expiry.time := by
  rcases lookForDue_cases s with h | ⟨_, _, _, _, h⟩ <;> rw [h]
@[simp] theorem target_lookForDue (s : State) : s.lookForDue.target = s.target := by
  rcases lookForDue_cases s with h | ⟨_, _, _, _, h⟩ <;> rw [h]
@[simp] theorem port_lookForDue (s : State) : s.lookForDue.port = s.port := by
  rcases lookForDue_cases s with h | ⟨_, _, _, _, h⟩ <;> rw [h]
@[simp] theorem alert_lookForDue (s : State) : s.lookForDue.alert = s.alert := by
  rcases lookForDue_cases s with h | ⟨_, _, _, _, h⟩ <;> rw [h]
@[simp] theorem pending_lookForDue (s : State) : s.lookForDue.pending = s.pending := by
  rcases lookForDue_cases s with h | ⟨_, _, _, _, h⟩ <;> rw [h]
@[simp] theorem arbiterBus_lookForDue (s : State) : s.lookForDue.arbiter.bus = s.arbiter.bus := by
  rcases lookForDue_cases s with h | ⟨_, _, _, _, h⟩ <;> rw [h]
@[simp] theorem arbiterHost_lookForDue (s : State) : s.lookForDue.arbiter.host = s.arbiter.host := by
  rcases lookForDue_cases s with h | ⟨_, _, _, _, h⟩ <;> rw [h]

/-! ### An operation's end -/

@[simp] theorem service_endService (s : State) (c : Bool) : (s.endService c).service = none := rfl
@[simp] theorem seen_endService (s : State) (c : Bool) : (s.endService c).seen = s.table := rfl
@[simp] theorem alert_endService (s : State) (c : Bool) : (s.endService c).alert = s.alert.take s.seen s.table c := rfl
@[simp] theorem life_endService (s : State) (c : Bool) : (s.endService c).life = s.life := rfl
@[simp] theorem authorityAddress_endService (s : State) (c : Bool) :
    (s.endService c).authorityAddress = s.authorityAddress := rfl
@[simp] theorem table_endService (s : State) (c : Bool) : (s.endService c).table = s.table := rfl
@[simp] theorem arbiter_endService (s : State) (c : Bool) : (s.endService c).arbiter = s.arbiter := rfl
@[simp] theorem expiry_endService (s : State) (c : Bool) : (s.endService c).expiry = s.expiry := rfl
@[simp] theorem target_endService (s : State) (c : Bool) : (s.endService c).target = s.target := rfl
@[simp] theorem port_endService (s : State) (c : Bool) : (s.endService c).port = s.port := rfl
@[simp] theorem pending_endService (s : State) (c : Bool) : (s.endService c).pending = s.pending := rfl

end Sys2Proof.Machine
end

