-- ==== Sys2Proof/Laws/Alert.lean ====
section
/-! SUPPORT. The status byte bit by bit, the alert tag, which never advances onto the acknowledged tag (R175), and the ALERT#
condition as R177 to R179 write it. -/

namespace Sys2Proof.Machine

theorem flagBit_get (b : Bool) (x : Byte) (n : Nat) : (flagBit b x).getLsbD n = (b && x.getLsbD n) := by
  cases b <;> simp [flagBit]

theorem tag_advance_ne (a : Alert) : a.advance.tag ≠ a.acknowledged := by
  unfold Alert.advance
  simp only
  split
  · next h => rw [← h]; intro e; bv_omega
  · next h => exact h

theorem acknowledged_advances (a : Alert) (n : Nat) : (a.advances n).acknowledged = a.acknowledged := by
  induction n generalizing a with
  | zero => rfl
  | succ n ih => rw [Alert.advances, ih]; rfl

theorem tag_advances_ne (a : Alert) (n : Nat) : (a.advances (n + 1)).tag ≠ a.acknowledged := by
  induction n generalizing a with
  | zero => exact tag_advance_ne a
  | succ n ih => exact ih a.advance

/-! ### The causes and the line (R177 to R179) -/

theorem ripe_iff (t : Table) (timer : CoalescingTimer) : ripe t timer = true ↔ t.changeSet ≠ [] ∧
    (t.params.coalesceCount.toNat ≤ t.changeSet.length ∨ timer = .expired ∨ t.params.coalesceTime = 0) := by
  simp [ripe, or_assoc]

theorem approval_iff (a : Alert) (t : Table) :
    (a.pending t).approval = true ↔ ∃ j claim i, t.slot j = .awaiting claim i := by
  have waiting : ∀ x : Slot, x.isAwaiting = true ↔ ∃ claim i, x = .awaiting claim i := by
    intro x
    cases x <;> simp [Slot.isAwaiting]
  show decide (0 < t.awaitingSlots) = true ↔ _
  rw [decide_eq_true_iff, Table.awaitingSlots, List.countP_pos_iff]
  simp [waiting]

theorem anyEnabled_iff (causes mask : Causes) : causes.anyEnabled mask = true ↔
    causes.changes = true ∧ mask.changes = true ∨ causes.approval = true ∧ mask.approval = true ∨
      causes.admission = true ∧ mask.admission = true ∨ causes.busFault = true ∧ mask.busFault = true ∨
      causes.done = true ∧ mask.done = true := by
  simp [Causes.anyEnabled, or_assoc]

theorem condition_iff (a : Alert) (t : Table) : a.condition t = true ↔
    a.tag ≠ a.acknowledged ∧ (a.pending t).anyEnabled t.params.alertMask = true := by
  simp [Alert.condition]

/-- The line is right exactly when it is the condition. -/
theorem lineIsRight_iff (s : State) : s.LineIsRight ↔ s.alert.line = s.alert.condition s.seen := by
  have written : s.alert.condition s.seen = true ↔ _ := condition_iff s.alert s.seen
  rw [anyEnabled_iff, approval_iff, show (s.alert.pending s.seen).changes = ripe s.seen s.alert.timer from rfl, ripe_iff] at written
  rw [Bool.eq_iff_iff, written]
  exact iff_congr Iff.rfl (and_congr Iff.rfl (or_congr (by rw [and_comm]) (or_congr and_comm (or_congr and_comm
    (or_congr and_comm and_comm)))))

end Sys2Proof.Machine
end

