-- ==== Sys2Proof/Laws/Descriptors.lean ====
section
/-! SUPPORT. The extension pool and the stored descriptors: what emptying, filling and replacing read back as, and the
pool's exact partition between the free blocks and the entries' lists (R15). -/

namespace Sys2Proof.Machine.Table

/-! ### Blocks -/

theorem get_emptyBlocks (pool : Vector (Option (List Byte)) 40) (l : List BlockIx) (b : BlockIx) :
    (emptyBlocks pool l).get b = if b ∈ l then none else pool.get b := by
  induction l generalizing pool with
  | nil => simp [emptyBlocks]
  | cons c l ih =>
    rw [emptyBlocks, ih, get_set]
    by_cases h : b = c <;> by_cases h' : b ∈ l <;> simp [h, h']

theorem get_fillBlocks_of_not_mem (pool : Vector (Option (List Byte)) 40) (l : List BlockIx) (bytes : List Byte) (b : BlockIx)
    (h : b ∉ l) : (fillBlocks pool l bytes).get b = pool.get b := by
  induction l generalizing pool bytes with
  | nil => simp [fillBlocks]
  | cons c l ih =>
    rw [fillBlocks, ih _ _ (fun m => h (List.mem_cons_of_mem _ m)), get_set, if_neg]
    rintro rfl
    exact h List.mem_cons_self

theorem isSome_fillBlocks (pool : Vector (Option (List Byte)) 40) (l : List BlockIx) (bytes : List Byte) (b : BlockIx)
    (h : b ∈ l) : ((fillBlocks pool l bytes).get b).isSome = true := by
  induction l generalizing pool bytes with
  | nil => exact absurd h (by simp)
  | cons c l ih =>
    by_cases m : b ∈ l
    · exact ih _ _ m
    · rw [fillBlocks, get_fillBlocks_of_not_mem _ _ _ _ m, get_set]
      rcases List.mem_cons.1 h with rfl | h
      · simp
      · exact absurd h m

/-- Of bytes stored in blocks, as many read back as the blocks have room for. -/
theorem flatMap_fillBlocks (pool : Vector (Option (List Byte)) 40) (l : List BlockIx) (bytes : List Byte) (nodup : l.Nodup) :
    (l.flatMap fun b => ((fillBlocks pool l bytes).get b).getD []) = bytes.take (16 * l.length) := by
  induction l generalizing pool bytes with
  | nil => simp
  | cons c l ih =>
    obtain ⟨nc, nl⟩ := List.nodup_cons.1 nodup
    rw [List.flatMap_cons, fillBlocks, get_fillBlocks_of_not_mem _ _ _ _ nc, get_set, if_pos rfl, ih _ _ nl,
      List.length_cons, show 16 * (l.length + 1) = 16 + 16 * l.length by omega, List.take_add]
    rfl

/-! ### Free blocks -/

theorem mem_freeBlocks (t : Table) (b : BlockIx) : b ∈ t.freeBlocks ↔ t.pool.get b = none := by
  simp [freeBlocks]

theorem nodup_freeBlocks (t : Table) : t.freeBlocks.Nodup :=
  (List.nodup_finRange 40).filter _

/-- What fits needs no more blocks than can be used (R17, R18). -/
theorem fitDescriptor_room {truncate cut : Bool} {available : Nat} {d bytes : List Byte}
    (h : fitDescriptor truncate available d = some (bytes, cut)) : blocksNeeded bytes.length ≤ available := by
  unfold fitDescriptor at h
  split at h
  · next fits => injection h with h; injection h with h _; exact h ▸ fits
  · next tight =>
    split at h
    · injection h with h
      injection h with h _
      subst h
      unfold blocksNeeded at tight ⊢
      rw [List.length_take]
      split at tight <;> [omega; split at tight] <;> (split <;> [omega; split] <;> omega)
    · cases h

/-! ### Entries -/

theorem entry_dropDescriptor (t : Table) (i k : EntryIx) : (t.dropDescriptor i).entry k =
    if k = i then { t.entry i with inlineBytes := [], blocks := [], truncated := false } else t.entry k :=
  get_set _ _ _ _

theorem entry_storeDescriptor (t : Table) (i k : EntryIx) (bytes : List Byte) (cut : Bool) :
    (t.storeDescriptor i bytes cut).entry k = if k = i then { t.entry i with
      inlineBytes := bytes.take 8, blocks := t.freeBlocks.take (blocksNeeded bytes.length), truncated := cut } else t.entry k :=
  get_set _ _ _ _

theorem freeBlocks_dropDescriptor (t : Table) (i : EntryIx) : (t.dropDescriptor i).freeBlocks =
    (List.finRange 40).filter fun b => b ∈ (t.entry i).blocks ∨ t.pool.get b = none := by
  unfold freeBlocks
  refine List.filter_congr fun b _ => ?_
  show ((emptyBlocks t.pool (t.entry i).blocks).get b).isNone = _
  rw [get_emptyBlocks]
  by_cases h : b ∈ (t.entry i).blocks
  · simp [h]
  · cases t.pool.get b <;> simp [h]

/-- The replacement of a descriptor (R18), field by field. -/
theorem replaceDescriptor_eq (t : Table) (i : EntryIx) (bytes : List Byte) (cut : Bool) :
    let blocks := (t.dropDescriptor i).freeBlocks.take (blocksNeeded bytes.length)
    t.replaceDescriptor i bytes cut = { t with
      entries := t.entries.set i { t.entry i with inlineBytes := bytes.take 8, blocks, truncated := cut }
      pool := fillBlocks (emptyBlocks t.pool (t.entry i).blocks) blocks (bytes.drop 8)
      changeSet := if t.descriptor i = bytes ∧ (t.entry i).truncated = cut then t.changeSet
        else insertAscending i t.changeSet } := by
  unfold replaceDescriptor
  simp only
  split <;> simp [storeDescriptor, dropDescriptor, addChange, setEntry, entry, get_set, Vector.set_set]

theorem entry_replaceDescriptor (t : Table) (i k : EntryIx) (bytes : List Byte) (cut : Bool) :
    (t.replaceDescriptor i bytes cut).entry k = if k = i then { t.entry i with
      inlineBytes := bytes.take 8, truncated := cut
      blocks := (t.dropDescriptor i).freeBlocks.take (blocksNeeded bytes.length) } else t.entry k := by
  rw [replaceDescriptor_eq]
  exact get_set _ _ _ _

/-! ### The pool stays partitioned (R15) -/

theorem partitioned_storeDescriptor (t : Table) (i : EntryIx) (bytes : List Byte) (cut : Bool) (hp : t.PoolIsPartitioned) : (t.storeDescriptor i bytes cut).PoolIsPartitioned := by
  have pool : ∀ b, (t.storeDescriptor i bytes cut).pool.get b = (fillBlocks t.pool (t.freeBlocks.take (blocksNeeded bytes.length)) (bytes.drop 8)).get b := fun b => rfl
  have free : ∀ k, ∀ b ∈ (t.entry k).blocks, b ∉ t.freeBlocks.take (blocksNeeded bytes.length) := by
    intro k b hb hf
    have := hp.occupied k b hb
    rw [(mem_freeBlocks t b).1 (List.mem_of_mem_take hf)] at this
    cases this
  refine ⟨fun k b hb => ?_, fun k => ?_, fun k l hkl b hb hb' => ?_⟩
  · rw [entry_storeDescriptor] at hb
    rw [pool]
    split at hb
    · exact isSome_fillBlocks _ _ _ _ hb
    · rw [get_fillBlocks_of_not_mem _ _ _ _ (free k b hb)]; exact hp.occupied k b hb
  · rw [entry_storeDescriptor]
    split
    · exact (nodup_freeBlocks t).sublist (List.take_sublist _ _)
    · exact hp.once k
  · rw [entry_storeDescriptor] at hb hb'
    split at hb <;> split at hb'
    · next h1 h2 => exact absurd (h1.trans h2.symm) hkl
    · exact free _ _ hb' hb
    · exact free _ _ hb hb'
    · exact hp.apart k l hkl b hb hb'

theorem partitioned_dropDescriptor (t : Table) (i : EntryIx) (hp : t.PoolIsPartitioned) : (t.dropDescriptor i).PoolIsPartitioned := by
  have pool : ∀ b, (t.dropDescriptor i).pool.get b = (emptyBlocks t.pool (t.entry i).blocks).get b := fun b => rfl
  refine ⟨fun k b hb => ?_, fun k => ?_, fun k l hkl b hb hb' => ?_⟩
  · rw [entry_dropDescriptor] at hb
    split at hb
    · cases hb
    · next h =>
      rw [pool, get_emptyBlocks, if_neg (hp.apart k i h b hb)]; exact hp.occupied k b hb
  · rw [entry_dropDescriptor]
    split
    · simp
    · exact hp.once k
  · rw [entry_dropDescriptor] at hb hb'
    split at hb <;> split at hb'
    · next h1 h2 => exact absurd (h1.trans h2.symm) hkl
    · cases hb
    · cases hb'
    · exact hp.apart k l hkl b hb hb'

/-! ### No block leaks (R15, R16) -/

/-- A descriptor reads as before where entry and blocks are as before. -/
theorem descriptor_congr {t u : Table} {i : EntryIx} (bytes : (u.entry i).inlineBytes = (t.entry i).inlineBytes)
    (blocks : (u.entry i).blocks = (t.entry i).blocks) (pool : ∀ b ∈ (t.entry i).blocks, u.pool.get b = t.pool.get b) :
    u.descriptor i = t.descriptor i := by
  unfold descriptor
  rw [bytes, blocks, List.flatMap_congr fun b hb => by rw [pool b hb]]

/-- The entry that stores a descriptor, and the bytes it reads back. -/
theorem descriptor_storeDescriptor (t : Table) (i : EntryIx) (bytes : List Byte) (cut : Bool) :
    (t.storeDescriptor i bytes cut).descriptor i =
      bytes.take 8 ++ (bytes.drop 8).take (16 * (t.freeBlocks.take (blocksNeeded bytes.length)).length) := by
  unfold descriptor
  rw [entry_storeDescriptor, if_pos rfl]
  exact congrArg _ (flatMap_fillBlocks t.pool _ _ ((nodup_freeBlocks t).sublist (List.take_sublist _ _)))

/-- A change of an entry's record that leaves its descriptor, and a VACANT one bare, leaks no block. -/
theorem exact_setEntry {t : Table} {i : EntryIx} {e : Entry} (h : t.PoolIsExact) (blocks : e.blocks = (t.entry i).blocks)
    (bytes : e.inlineBytes = (t.entry i).inlineBytes) (bare : e.life = .vacant → e.blocks = [] ∧ e.inlineBytes = []) :
    (t.setEntry i e).PoolIsExact := by
  have same : ∀ k, ((t.setEntry i e).entry k).blocks = (t.entry k).blocks ∧
      ((t.setEntry i e).entry k).inlineBytes = (t.entry k).inlineBytes := by
    intro k
    rw [entry_setEntry]
    split
    · next hk => subst hk; exact ⟨blocks, bytes⟩
    · exact ⟨rfl, rfl⟩
  have text : ∀ k, (t.setEntry i e).descriptor k = t.descriptor k := fun k =>
    descriptor_congr (same k).2 (same k).1 fun _ _ => rfl
  refine ⟨⟨fun k b hb => h.partitioned.occupied k b ((same k).1 ▸ hb), fun k => (same k).1 ▸ h.partitioned.once k,
    fun k l n b hb hb' => h.partitioned.apart k l n b ((same k).1 ▸ hb) ((same l).1 ▸ hb')⟩, fun b hb => ?_, fun k hk => ?_,
    fun k => by rw [(same k).1, text]; exact h.needed k, fun k => by rw [text]; exact h.fits k⟩
  · obtain ⟨k, live, hk⟩ := h.listed b hb
    refine ⟨k, ?_, (same k).1 ▸ hk⟩
    rw [entry_setEntry]
    split
    · next hki =>
      subst hki
      intro v
      rw [← blocks, (bare v).1] at hk
      cases hk
    · exact live
  · rw [entry_setEntry] at hk ⊢
    split at hk
    · next hki => rw [if_pos hki]; exact bare hk
    · next hki => rw [if_neg hki]; exact h.vacant k hk

/-- A dropped descriptor leaks no block. -/
theorem exact_dropDescriptor {t : Table} (i : EntryIx) (h : t.PoolIsExact) : (t.dropDescriptor i).PoolIsExact := by
  have pool : ∀ b, (t.dropDescriptor i).pool.get b = if b ∈ (t.entry i).blocks then none else t.pool.get b :=
    get_emptyBlocks t.pool _
  have other : ∀ k, k ≠ i → (t.dropDescriptor i).entry k = t.entry k := fun k n => by
    rw [entry_dropDescriptor, if_neg n]
  have text : ∀ k, k ≠ i → (t.dropDescriptor i).descriptor k = t.descriptor k := fun k n =>
    descriptor_congr (by rw [other k n]) (by rw [other k n]) fun b hb => by
      rw [pool, if_neg (h.partitioned.apart k i n b hb)]
  have own : (t.dropDescriptor i).entry i = { t.entry i with inlineBytes := [], blocks := [], truncated := false } := by
    rw [entry_dropDescriptor, if_pos rfl]
  have none_ : (t.dropDescriptor i).descriptor i = [] := by unfold descriptor; rw [own]; rfl
  refine ⟨partitioned_dropDescriptor t i h.partitioned, fun b hb => ?_, fun k hk => ?_, fun k => ?_, fun k => ?_⟩
  · rw [pool] at hb
    split at hb
    · cases hb
    · next hn =>
      obtain ⟨k, live, hk⟩ := h.listed b hb
      have n : k ≠ i := by rintro rfl; exact hn hk
      exact ⟨k, by rw [other k n]; exact live, by rw [other k n]; exact hk⟩
  · by_cases n : k = i
    · subst n; rw [own]; exact ⟨rfl, rfl⟩
    · rw [other k n] at hk ⊢; exact h.vacant k hk
  · by_cases n : k = i
    · subst n; rw [own, none_]; rfl
    · rw [other k n, text k n]; exact h.needed k
  · by_cases n : k = i
    · subst n; rw [none_]; simp
    · rw [text k n]; exact h.fits k

/-- A descriptor stored for a live entry that has none, in blocks that suffice, leaks no block. -/
theorem exact_storeDescriptor {t : Table} {i : EntryIx} {bytes : List Byte} (cut : Bool) (h : t.PoolIsExact)
    (bare : (t.entry i).blocks = []) (live : (t.entry i).life ≠ .vacant)
    (room : blocksNeeded bytes.length ≤ t.freeBlocks.length) : (t.storeDescriptor i bytes cut).PoolIsExact := by
  have pool : ∀ b, (t.storeDescriptor i bytes cut).pool.get b =
      (fillBlocks t.pool (t.freeBlocks.take (blocksNeeded bytes.length)) (bytes.drop 8)).get b := fun b => rfl
  have kept : ∀ b, b ∉ t.freeBlocks.take (blocksNeeded bytes.length) →
      (t.storeDescriptor i bytes cut).pool.get b = t.pool.get b := fun b n => get_fillBlocks_of_not_mem _ _ _ _ n
  have free : ∀ k, ∀ b ∈ (t.entry k).blocks, b ∉ t.freeBlocks.take (blocksNeeded bytes.length) := by
    intro k b hb hf
    have := h.partitioned.occupied k b hb
    rw [(mem_freeBlocks t b).1 (List.mem_of_mem_take hf)] at this
    cases this
  have other : ∀ k, k ≠ i → (t.storeDescriptor i bytes cut).entry k = t.entry k := fun k n => by
    rw [entry_storeDescriptor, if_neg n]
  have text : ∀ k, k ≠ i → (t.storeDescriptor i bytes cut).descriptor k = t.descriptor k := fun k n =>
    descriptor_congr (by rw [other k n]) (by rw [other k n]) fun b hb => kept b (free k b hb)
  have own : (t.storeDescriptor i bytes cut).entry i = { t.entry i with
      inlineBytes := bytes.take 8, blocks := t.freeBlocks.take (blocksNeeded bytes.length), truncated := cut } := by
    rw [entry_storeDescriptor, if_pos rfl]
  have count : (t.freeBlocks.take (blocksNeeded bytes.length)).length = blocksNeeded bytes.length := by
    rw [List.length_take]; omega
  have length : ((t.storeDescriptor i bytes cut).descriptor i).length =
      min 8 bytes.length + min (16 * blocksNeeded bytes.length) (bytes.length - 8) := by
    rw [descriptor_storeDescriptor, count]; simp
  refine ⟨partitioned_storeDescriptor t i bytes cut h.partitioned, fun b hb => ?_, fun k hk => ?_, fun k => ?_, fun k => ?_⟩
  · by_cases m : b ∈ t.freeBlocks.take (blocksNeeded bytes.length)
    · exact ⟨i, by rw [own]; exact live, by rw [own]; exact m⟩
    · rw [kept b m] at hb
      obtain ⟨k, lk, hk⟩ := h.listed b hb
      have n : k ≠ i := by rintro rfl; rw [bare] at hk; cases hk
      exact ⟨k, by rw [other k n]; exact lk, by rw [other k n]; exact hk⟩
  · by_cases n : k = i
    · subst n; rw [own] at hk; exact absurd hk live
    · rw [other k n] at hk ⊢; exact h.vacant k hk
  · by_cases n : k = i
    · subst n
      rw [own, length]
      show (t.freeBlocks.take (blocksNeeded bytes.length)).length = _
      rw [count]
      unfold blocksNeeded
      split <;> [skip; split] <;> (split <;> [skip; split]) <;> omega
    · rw [other k n, text k n]; exact h.needed k
  · by_cases n : k = i
    · subst n
      rw [length]
      have : blocksNeeded bytes.length ≤ 2 := by unfold blocksNeeded; split <;> [skip; split] <;> omega
      omega
    · rw [text k n]; exact h.fits k

/-- Dropping a descriptor frees the entry's own blocks beside the free ones (R18). -/
theorem length_freeBlocks_dropDescriptor {t : Table} (i : EntryIx) (h : t.PoolIsPartitioned) :
    ((t.dropDescriptor i).freeBlocks).length = (t.entry i).blocks.length + t.freeBlocks.length := by
  rw [freeBlocks_dropDescriptor, ← List.length_append]
  refine List.Perm.length_eq ((List.perm_ext_iff_of_nodup ((List.nodup_finRange 40).filter _) ?_).2 fun b => ?_)
  · refine List.nodup_append'.2 ⟨h.once i, nodup_freeBlocks t, fun b hb hf => ?_⟩
    have := h.occupied i b hb
    rw [(mem_freeBlocks t b).1 hf] at this
    cases this
  · simp [mem_freeBlocks]

/-- After hard reset the pool is empty (R22). -/
theorem exact_reset (authority : Addr) : (Table.reset authority).PoolIsExact := by
  have bare (i : EntryIx) : (Table.reset authority).entry i = Entry.reset := entry_reset authority i
  have none_ (i : EntryIx) : (Table.reset authority).descriptor i = [] := by unfold descriptor; rw [bare]; rfl
  refine ⟨⟨fun i b hb => ?_, fun i => ?_, fun i k _ b hb => ?_⟩, fun b hb => ?_, fun i _ => ?_, fun i => ?_, fun i => ?_⟩
  · rw [bare] at hb; cases hb
  · rw [bare]; exact List.nodup_nil
  · rw [bare] at hb; cases hb
  · simp [Table.reset] at hb
  · rw [bare]; exact ⟨rfl, rfl⟩
  · rw [none_, bare]; rfl
  · rw [none_]; exact Nat.zero_le _

end Sys2Proof.Machine.Table
end

