-- ==== Sys2Proof/Laws/Ports.lean ====
section
/-! SUPPORT. What the activity on the two ports leaves as it was, and all that the end of a bus transaction can do. -/

namespace Sys2Proof.Machine

/-! ### Bytes on the member bus -/

/-- What the bus's activity leaves as it was, and the bus-stuck timer, which it touches in the watched phases alone. -/
structure Target.SameButData (t u : Target) : Prop where
  listening : u.listening = t.listening
  phase : u.phase = t.phase
  answer : u.answer = t.answer
  answerState : u.answerState = t.answerState
  inFlight : u.inFlight = t.inFlight
  content : u.content = t.content
  stretch : u.stretch = t.stretch
  stuck : u.phase.watched = false → u.stuck = t.stuck ∨ u.stuck = .idle
  room : t.receive.length ≤ Config.receiveCapacity → u.receive.length ≤ Config.receiveCapacity

theorem sameButData_byte (t : Target) (b : BusByte) : t.SameButData (t.byte b) := by
  unfold Target.byte
  split
  · split
    · next h => exact ⟨rfl, rfl, rfl, rfl, rfl, rfl, rfl, fun _ => .inl rfl, fun _ => by simpa using h⟩
    · exact ⟨rfl, rfl, rfl, rfl, rfl, rfl, rfl, fun _ => .inl rfl, id⟩
  · split <;> exact ⟨rfl, rfl, rfl, rfl, rfl, rfl, rfl, fun _ => .inl rfl, id⟩
  · exact ⟨rfl, rfl, rfl, rfl, rfl, rfl, rfl, fun _ => .inl rfl, id⟩
  · exact ⟨rfl, rfl, rfl, rfl, rfl, rfl, rfl, fun _ => .inl rfl, id⟩
  · exact ⟨rfl, rfl, rfl, rfl, rfl, rfl, rfl, fun _ => .inl rfl, id⟩

theorem sameButData_watch (t : Target) (low : Bool) : t.SameButData (t.watch low) :=
  ⟨rfl, rfl, rfl, rfl, rfl, rfl, rfl, fun h => .inr (by
    have h : t.phase.watched = false := h
    simp [Target.watch, h]), id⟩

theorem Target.SameButData.trans {t u v : Target} (h : t.SameButData u) (k : u.SameButData v) : t.SameButData v :=
  ⟨k.listening.trans h.listening, k.phase.trans h.phase, k.answer.trans h.answer, k.answerState.trans h.answerState,
    k.inFlight.trans h.inFlight, k.content.trans h.content, k.stretch.trans h.stretch,
    fun w => (k.stuck w).elim (fun e => (h.stuck (k.phase ▸ w)).imp e.trans e.trans) .inr, fun r => k.room (h.room r)⟩

theorem sameButData_hear (t : Target) (x : BusActivity) : t.SameButData (t.hear x) := by
  cases x with
  | byte b => exact (sameButData_byte t b).trans (sameButData_watch _ true)
  | sclRises => exact sameButData_watch t false
  | sclFalls => exact sameButData_watch t true

theorem sameButData_hears (t : Target) (l : List BusActivity) : t.SameButData (t.hears l) := by
  induction l generalizing t with
  | nil => exact ⟨rfl, rfl, rfl, rfl, rfl, rfl, rfl, fun _ => .inl rfl, id⟩
  | cons x l ih => exact (sameButData_hear t x).trans (ih (t.hear x))

theorem sameButData_hearsMillisecond (t : Target) : t.SameButData t.hearsMillisecond := by
  obtain ⟨a, b, c, d, e, f, g, h, i⟩ := sameButData_hears t (t.coming.headD [])
  exact ⟨a, b, c, d, e, f, g, h, i⟩

/-- The activity to come takes no part in what the target hears. -/
theorem hear_coming (t : Target) (x : BusActivity) (coming : List (List BusActivity)) :
    Target.hear { t with coming } x = { t.hear x with coming } := by
  cases x with
  | byte b =>
    unfold Target.hear Target.byte Target.watch
    simp only
    split <;> first | rfl | (split <;> rfl)
  | sclRises => rfl
  | sclFalls => rfl

theorem hears_coming (t : Target) (l : List BusActivity) (coming : List (List BusActivity)) :
    Target.hears { t with coming } l = { t.hears l with coming } := by
  unfold Target.hears
  induction l generalizing t with
  | nil => rfl
  | cons x l ih => rw [List.foldl_cons, hear_coming, ih, List.foldl_cons]

/-! ### The end of a bus transaction -/

/-- A STOP or repeated START leaves the target out of the transaction, whatever it left of the answer. -/
theorem target_endTransaction (s : State) (before : List BusActivity) :
    ∃ settled : Target, (s.endTransaction before).target = settled.leave :=
  ⟨_, rfl⟩

/-- What it leaves of the rest of the part: all but the arbiter. -/
theorem rest_endTransaction (s : State) (before : List BusActivity) :
    (s.endTransaction before).life = s.life ∧ (s.endTransaction before).authorityAddress = s.authorityAddress ∧
      (s.endTransaction before).seen = s.seen ∧ (s.endTransaction before).target.listening = s.target.listening := by
  have h := (sameButData_hears s.target before).listening
  unfold State.endTransaction State.evaluateWrite
  by_cases hp : (s.hears before).target.phase = .receiving <;> simp only [hp, if_true, if_false]
  · by_cases hr : (s.hears before).target.receive = [] <;> simp only [hr, if_true, if_false]
    · exact ⟨rfl, rfl, rfl, h⟩
    · split <;> exact ⟨rfl, rfl, rfl, h⟩
  · exact ⟨rfl, rfl, rfl, h⟩

/-- All that a STOP or repeated START can do: the target leaves the transaction, and a write in RECEIVING may have put an answer of
the target's own in the buffer, or a request at the arbiter. -/
theorem endTransaction_cases (s : State) (before : List BusActivity) :
    (∃ target : Target, s.endTransaction before = { s with target } ∧ target.phase = .unaddressed ∧ target.receive = [] ∧
      target.stretch = .idle ∧ target.stuck = .idle ∧ target.listening = s.target.listening ∧
      target.inFlight = s.target.inFlight ∧
      (target.answerState = s.target.answerState ∨ s.target.phase = .receiving ∧ target.answerState = .ready)) ∨
    (∃ (target : Target) (request : Instr), s.endTransaction before =
        { s with target, arbiter := { s.arbiter with bus := some request } } ∧ s.target.phase = .receiving ∧
      target.phase = .unaddressed ∧ target.receive = [] ∧ target.stretch = .idle ∧ target.stuck = .idle ∧
      target.listening = s.target.listening ∧ target.inFlight = true ∧ target.answerState = .pending) := by
  have h := sameButData_hears s.target before
  unfold State.endTransaction State.hears
  by_cases hp : (s.target.hears before).phase = .receiving
  · have hs : s.target.phase = .receiving := h.phase ▸ hp
    simp only [hp, if_true, State.evaluateWrite]
    by_cases hr : (s.target.hears before).receive = []
    · rw [if_pos hr]
      exact .inl ⟨_, rfl, rfl, rfl, rfl, rfl, h.listening, h.inFlight, .inl h.answerState⟩
    · rw [if_neg hr]
      cases evaluateRequest (s.target.hears before).receive (s.target.hears before).overflow with
      | error reason => exact .inl ⟨_, rfl, rfl, rfl, rfl, rfl, h.listening, h.inFlight, .inr ⟨hs, rfl⟩⟩
      | ok request => exact .inr ⟨_, request, rfl, hs, rfl, rfl, rfl, rfl, h.listening, rfl, rfl⟩
  · simp only [hp, if_false]
    exact .inl ⟨_, rfl, rfl, rfl, rfl, rfl, h.listening, h.inFlight, .inl h.answerState⟩

/-! ### Bytes on the host port -/

/-- What bytes of a host transaction do not touch. -/
structure Port.SameButData (p q : Port) : Prop where
  ready : q.ready = p.ready
  command : q.command = p.command
  sequence : q.sequence = p.sequence
  result : q.result = p.result
  unread : q.unread = p.unread
  refused : q.refused = p.refused
  frameError : q.frameError = p.frameError
  abortRequest : q.abortRequest = p.abortRequest
  selected : q.selected = p.selected
  room : p.frame.length ≤ Config.frameCapacity → q.frame.length ≤ Config.frameCapacity

theorem Port.SameButData.refl (p : Port) : p.SameButData p :=
  ⟨rfl, rfl, rfl, rfl, rfl, rfl, rfl, rfl, rfl, id⟩

theorem Port.SameButData.trans {p q r : Port} (h : p.SameButData q) (k : q.SameButData r) : p.SameButData r :=
  ⟨k.ready.trans h.ready, k.command.trans h.command, k.sequence.trans h.sequence, k.result.trans h.result,
    k.unread.trans h.unread, k.refused.trans h.refused, k.frameError.trans h.frameError,
    k.abortRequest.trans h.abortRequest, k.selected.trans h.selected, fun r => k.room (h.room r)⟩

theorem hostByte_frame (s : State) (b : Byte) : ∃ port, s.hostByte b = { s with port } ∧ s.port.SameButData port := by
  unfold State.hostByte
  simp only
  split
  · unfold State.firstByte
    simp only
    split <;> exact ⟨_, rfl, rfl, rfl, rfl, rfl, rfl, rfl, rfl, rfl, rfl, id⟩
  · refine ⟨_, rfl, ?_⟩
    unfold Port.storeByte
    split
    · next h => exact ⟨rfl, rfl, rfl, rfl, rfl, rfl, rfl, rfl, rfl, fun _ => by simpa using h⟩
    · exact ⟨rfl, rfl, rfl, rfl, rfl, rfl, rfl, rfl, rfl, id⟩
  · exact ⟨_, rfl, rfl, rfl, rfl, rfl, rfl, rfl, rfl, rfl, rfl, id⟩
  · exact ⟨_, rfl, rfl, rfl, rfl, rfl, rfl, rfl, rfl, rfl, rfl, id⟩
  · exact ⟨_, rfl, rfl, rfl, rfl, rfl, rfl, rfl, rfl, rfl, rfl, id⟩

theorem hostBytes_frame (s : State) (l : List Byte) :
    ∃ port, s.hostBytes l = { s with port } ∧ s.port.SameButData port := by
  unfold State.hostBytes
  split
  · clear * -
    induction l generalizing s with
    | nil => exact ⟨s.port, rfl, Port.SameButData.refl _⟩
    | cons b l ih =>
      obtain ⟨p, e, h⟩ := hostByte_frame s b
      obtain ⟨q, f, k⟩ := ih (s.hostByte b)
      rw [e] at f k
      exact ⟨q, by rw [List.foldl_cons, e, f], h.trans k⟩
  · exact ⟨s.port, rfl, Port.SameButData.refl _⟩

/-- All that the end of a host transaction can do. -/
theorem endOfKind_cases (s : State) (kinds : List TransactionKind) (received : List Byte) (rise : State → State) :
    s.endOfKind kinds received rise = .next s ∨ ∃ port, s.port.SameButData port ∧ port.selected = true ∧ port.kind ∈ kinds ∧
      s.endOfKind kinds received rise = .next (rise { s with port }) := by
  obtain ⟨p, e, h⟩ := hostBytes_frame s received
  unfold State.endOfKind
  simp only [e]
  split
  · next c => exact .inr ⟨p, h, c.1, c.2, rfl⟩
  · exact .inl rfl

end Sys2Proof.Machine
end

