-- ==== Sys2Proof/Laws/Step.lean ====
section
/-! SUPPORT. Everything a command can do, said once: it changes nothing, or its operation is granted, or it is one of the events of
the ports and the resets; and what that leaves of the table. -/

namespace Sys2Proof.Machine

/-! ### Tables that an operation can leave -/

/-- The tables that the grant of a row leaves, at a time and with the table before it. -/
inductive ServedTable (now : Time) (t : Table) : Instr → Table → Prop
  /-- An operation that changes no table state. -/
  | same (i : Instr) : ServedTable now t i t
  | claim (identity : Identity) (cls preferred : Byte) (d : List Byte) :
      ServedTable now t (.claim identity cls preferred d) (serveClaim now t identity cls preferred d).2
  | accept (identity : Identity) (address token : Byte) :
      ServedTable now t (.accept identity address token) (serveAccept now t identity address token).2
  | renew (identity : Identity) (address : Byte) : ServedTable now t (.renew identity address) (serveRenew now t identity address).2
  | release (identity : Identity) (address : Byte) :
      ServedTable now t (.release identity address) (serveRelease now t identity address).2
  | insert (identity : Identity) (cls address pinned : Byte) (lease : Half) (n : Byte) (d : List Byte) :
      ServedTable now t (.insert identity cls address pinned lease n d) (serveInsert now t identity cls address pinned lease n d).2
  | modify (index generation selection cls pinned : Byte) (lease : Half) (address n : Byte) (d : List Byte) :
      ServedTable now t (.modify index generation selection cls pinned lease address n d)
        (serveModify now t index generation selection cls pinned lease address n d).2
  | retire (index generation freeNow : Byte) :
      ServedTable now t (.retire index generation freeNow) (serveRetire now t index generation freeNow).2
  | reserve (address : Byte) : ServedTable now t (.reserve address) (serveReserve now t address).2
  | unreserve (address : Byte) : ServedTable now t (.unreserve address) (serveUnreserve t address).2
  | unquarantine (address : Byte) : ServedTable now t (.unquarantine address) (serveUnquarantine now t address).2
  | approve (slot generation address : Byte) :
      ServedTable now t (.approve slot generation address) (serveApprove now t slot generation address).2
  | deny (slot generation : Byte) : ServedTable now t (.deny slot generation) (serveDeny now t slot generation).2
  | writeClass (cls enabled : Byte) (lease hold : Half) :
      ServedTable now t (.writeClass cls enabled lease hold) (serveWriteClass t cls enabled lease hold).2
  | writeRule (rule valid : Byte) (value : Identity) (length classMatch action low high : Byte) (override : Half)
      (priority : Byte) :
      ServedTable now t (.writeRule rule valid value length classMatch action low high override priority)
        (serveWriteRule t rule valid value length classMatch action low high override priority).2
  | writeParameter (identifier : Byte) (value : Half) :
      ServedTable now t (.writeParameter identifier value) (serveWriteParameter t identifier value).2
  | nextChange : ServedTable now t .nextChange (serveNextChange now t).2
  | rehash (seed : Half) : ServedTable now t (.rehash seed) (serveRehash t seed).2
  | rehashStep : ServedTable now t .rehashStep (serveRehashStep t).2
  | rehashAbortEnding : ServedTable now t .rehashAbortEnding (serveRehashAbortEnding t).2
  | resetKeep : ServedTable now t .resetKeep (serveResetKeep now t).2
  | offerExpiry (i : EntryIx) (deadline : Time) : ServedTable now t (.offerExpiry i deadline)
      (t.expire now { kind := .offer i, deadline } (offerExpired now t i))
  | approvalExpiry (j : SlotIx) (deadline : Time) : ServedTable now t (.approvalExpiry j deadline)
      (t.expire now { kind := .approval j, deadline } (approvalExpired now t j))
  | refusalExpiry (j : SlotIx) (deadline : Time) : ServedTable now t (.refusalExpiry j deadline)
      (t.expire now { kind := .refusal j, deadline } (refusalExpired t j))
  | leaseLapse (i : EntryIx) (deadline : Time) : ServedTable now t (.leaseLapse i deadline)
      (t.expire now { kind := .lease i, deadline } (leaseLapsed now t i))
  | revalidationEnd (i : EntryIx) (deadline : Time) : ServedTable now t (.revalidationEnd i deadline)
      (t.expire now { kind := .revalidate i, deadline } (revalidationEnded now t i))
  | holdEnd (i : EntryIx) (deadline : Time) : ServedTable now t (.holdEnd i deadline)
      (t.expire now { kind := .hold i, deadline } (holdEnded now t i))
  | quarantineEnd (a : Addr) (endTime : Time) : ServedTable now t (.quarantineEnd a endTime) (quarantineEnded now t a endTime)

/-- The three rows of a REHASH, whose first two submit a step in turn (R31, R32, R38). -/
def ofRehash (i : Instr) : Prop :=
  (∃ seed, i = .rehash seed) ∨ i = .rehashStep ∨ i = .rehashAbortEnding

/-! ### What a granted operation hands to its completion -/

/-- The service of an operation belongs to its requester. -/
def Service.requester : Service → Requester
  | .request _ => .bus
  | .command _ | .ackAlert _ | .readAlert | .retention _ | .step => .host
  | .expiry => .expiry

theorem requester_advanceCursor (t : Table) (seed : Half) (shadow : Vector (List EntryIx) 32) (k : EntryIx) :
    (advanceCursor t seed shadow k).1.requester = .host := by
  unfold advanceCursor
  split <;> rfl

theorem requester_visitEntry (t : Table) (r : RehashRun) : (visitEntry t r).1.requester = .host := by
  unfold visitEntry
  simp only
  split
  · exact requester_advanceCursor ..
  · split
    · rfl
    · exact requester_advanceCursor ..

theorem requester_serveRehash (t : Table) (seed : Half) : (serveRehash t seed).1.requester = .host := by
  unfold serveRehash
  split
  · rfl
  · exact requester_visitEntry ..

theorem requester_serveRehashStep (t : Table) : (serveRehashStep t).1.requester = .host := by
  unfold serveRehashStep
  split
  · exact requester_visitEntry ..
  · rfl

/-- A request operation's grant. -/
theorem grantRequest_effect {s : State} {i : Instr} (h : Granted s .bus i) {o : Answer × Table}
    (ht : ServedTable s.expiry.time s.table i o.2) : ∃ table service, Service.requester service = .bus ∧ (service = .step → ofRehash i) ∧
      ServedTable s.expiry.time s.table i table ∧ s.grantRequest i o = .next (s.served .bus table service) :=
  ⟨_, .request o.1, rfl, nofun, ht, grantRequest_of_granted h o⟩

/-- A command operation's grant. -/
theorem grantCommand_effect {s : State} {i : Instr} (h : Granted s .host i) {o : Result × Table}
    (ht : ServedTable s.expiry.time s.table i o.2) : ∃ table service, Service.requester service = .host ∧ (service = .step → ofRehash i) ∧
      ServedTable s.expiry.time s.table i table ∧ s.grantCommand i o = .next (s.served .host table service) :=
  ⟨_, .command o.1, rfl, nofun, ht, grantCommand_of_granted h o⟩

/-- The grant of any operation of the host port. -/
theorem grantHost_effect {s : State} {i : Instr} (h : Granted s .host i) {o : Service × Table} (hs : o.1.requester = .host)
    (hv : o.1 = .step → ofRehash i) (ht : ServedTable s.expiry.time s.table i o.2) : ∃ table service, Service.requester service = .host ∧ (service = .step → ofRehash i) ∧
      ServedTable s.expiry.time s.table i table ∧ s.grantHost i o = .next (s.served .host table service) :=
  ⟨_, _, hs, hv, ht, grantHost_of_granted h o⟩

/-- An expiry operation's grant. -/
theorem grantExpiry_effect {s : State} {i : Instr} (h : Granted s .expiry i) {t : Table}
    (ht : ServedTable s.expiry.time s.table i t) : ∃ table service, Service.requester service = .expiry ∧ (service = .step → ofRehash i) ∧
      ServedTable s.expiry.time s.table i table ∧ s.grantExpiry i t = .next (s.served .expiry table service) :=
  ⟨_, .expiry, rfl, nofun, ht, grantExpiry_of_granted h t⟩

/-- Every row that is a grant: nothing happens, or the operation of its requester goes into service with one of the tables above. -/
theorem exec_grant {i : Instr} {r : Requester} (hr : requesterOf i = some r) (s : State) :
    exec i s = .next s ∨ (Granted s r i ∧ ∃ table service, Service.requester service = r ∧
      (service = .step → ofRehash i) ∧ ServedTable s.expiry.time s.table i table ∧ exec i s = .next (s.served r table service)) := by
  by_cases h : Granted s r i
  · right
    refine ⟨h, ?_⟩
    cases i <;> simp only [requesterOf, Option.some.injEq, reduceCtorEq] at hr <;> subst hr
    case rehash seed => exact grantHost_effect h (requester_serveRehash _ _) (fun _ => .inl ⟨seed, rfl⟩) (.rehash seed)
    case rehashStep => exact grantHost_effect h (requester_serveRehashStep _) (fun _ => .inr (.inl rfl)) .rehashStep
    case rehashAbortEnding => exact grantHost_effect h rfl nofun .rehashAbortEnding
    case resetKeep => exact grantHost_effect h rfl nofun .resetKeep
    case ackAlert => exact grantHost_effect h rfl nofun (.same _)
    case readAlert => exact grantHost_effect h rfl nofun (.same _)
    case claim => exact grantRequest_effect h (.claim _ _ _ _)
    case accept => exact grantRequest_effect h (.accept _ _ _)
    case renew => exact grantRequest_effect h (.renew _ _)
    case release => exact grantRequest_effect h (.release _ _)
    case insert => exact grantCommand_effect h (.insert _ _ _ _ _ _ _)
    case modify => exact grantCommand_effect h (.modify _ _ _ _ _ _ _ _ _)
    case retire => exact grantCommand_effect h (.retire _ _ _)
    case reserve => exact grantCommand_effect h (.reserve _)
    case unreserve => exact grantCommand_effect h (.unreserve _)
    case unquarantine => exact grantCommand_effect h (.unquarantine _)
    case approve => exact grantCommand_effect h (.approve _ _ _)
    case deny => exact grantCommand_effect h (.deny _ _)
    case writeClass => exact grantCommand_effect h (.writeClass _ _ _ _)
    case writeRule => exact grantCommand_effect h (.writeRule _ _ _ _ _ _ _ _ _ _)
    case writeParameter => exact grantCommand_effect h (.writeParameter _ _)
    case nextChange => exact grantCommand_effect h (.nextChange)
    case offerExpiry => exact grantExpiry_effect h (.offerExpiry _ _)
    case approvalExpiry => exact grantExpiry_effect h (.approvalExpiry _ _)
    case refusalExpiry => exact grantExpiry_effect h (.refusalExpiry _ _)
    case leaseLapse => exact grantExpiry_effect h (.leaseLapse _ _)
    case revalidationEnd => exact grantExpiry_effect h (.revalidationEnd _ _)
    case holdEnd => exact grantExpiry_effect h (.holdEnd _ _)
    case quarantineEnd => exact grantExpiry_effect h (.quarantineEnd _ _)
    all_goals
      first
      | exact grantRequest_effect h (.same _)
      | exact grantCommand_effect h (.same _)
  · left
    cases i <;> simp only [requesterOf, Option.some.injEq, reduceCtorEq] at hr <;> subst hr <;>
      first
      | exact grantRequest_of_not_granted h _
      | exact grantHost_of_not_granted h _
      | exact grantExpiry_of_not_granted h _

/-! ### What any row leaves of the table, the authority address and the queue -/

/-- The table and the authority address after a row, and the queue, which no row touches. -/
structure TableEffect (s t : State) : Prop where
  pending : t.pending = s.pending
  table : (t.table = s.table ∧ t.authorityAddress = s.authorityAddress) ∨
    (∃ a, t.table = Table.reset a ∧ t.authorityAddress = a) ∨
    ((∃ i, ServedTable s.expiry.time s.table i t.table) ∧ t.authorityAddress = s.authorityAddress)

theorem TableEffect.of_same {s t : State} (hp : t.pending = s.pending) (ht : t.table = s.table)
    (ha : t.authorityAddress = s.authorityAddress) : TableEffect s t :=
  ⟨hp, .inl ⟨ht, ha⟩⟩

theorem tableEffect_endTransaction (s : State) (before : List BusActivity) : TableEffect s (s.endTransaction before) := by
  rcases endTransaction_cases s before with ⟨_, e, _⟩ | ⟨_, _, e, _⟩ <;> rw [e] <;> exact .of_same rfl rfl rfl

theorem tableEffect_endFrame (s : State) (asel : BitVec 2) : TableEffect s (s.endFrame asel) := by
  unfold State.endFrame
  simp only
  split
  · exact .of_same rfl rfl rfl
  · split
    · exact .of_same rfl rfl rfl
    · unfold State.takeFrame
      split
      · exact .of_same rfl rfl rfl
      · exact ⟨rfl, .inr (.inl ⟨_, rfl, rfl⟩)⟩
      · exact .of_same rfl rfl rfl
      · exact .of_same rfl rfl rfl

/-- Every row answers a next state, with one of these effects on the table. -/
theorem exec_tableEffect (i : Instr) (s : State) : ∃ t, exec i s = .next t ∧ TableEffect s t := by
  cases hr : requesterOf i with
  | some r =>
    rcases exec_grant hr s with h | ⟨_, table, service, _, _, ht, h⟩
    · exact ⟨s, h, .of_same rfl rfl rfl⟩
    · exact ⟨_, h, rfl, .inr (.inr ⟨⟨_, ht⟩, rfl⟩)⟩
  | none =>
    have same : TableEffect s s := .of_same rfl rfl rfl
    cases i <;> simp only [requesterOf, reduceCtorEq] at hr
    case addressByte before a read after later =>
      simp only [exec, execAddressByte]
      split
      · exact ⟨_, rfl, same⟩
      · refine ⟨_, rfl, ?_⟩
        have h := tableEffect_endTransaction s before
        exact ⟨h.pending, h.table⟩
    case writeEnd before => exact ⟨_, rfl, tableEffect_endTransaction s before⟩
    case stopCondition before => exact ⟨_, rfl, tableEffect_endTransaction s before⟩
    case requestCompletion =>
      simp only [exec, execRequestCompletion]
      split
      · exact ⟨_, rfl, .of_same (by simp) (by simp) (by simp)⟩
      · exact ⟨_, rfl, same⟩
    case stretchLimitReached =>
      simp only [exec, execStretchLimitReached]
      split <;> exact ⟨_, rfl, .of_same rfl rfl rfl⟩
    case busStuck =>
      simp only [exec, execBusStuck]
      split <;> exact ⟨_, rfl, .of_same rfl rfl rfl⟩
    case hostTransactionStart received =>
      simp only [exec, execHostTransactionStart]
      split
      · exact ⟨_, rfl, same⟩
      · obtain ⟨p, e, _⟩ := hostBytes_frame s.selectPort received
        exact ⟨_, rfl, by rw [e]; exact .of_same rfl rfl rfl⟩
    case commandFrameEnd received asel =>
      simp only [exec, execCommandFrameEnd]
      rcases endOfKind_cases s [.command] received fun heard => heard.endFrame asel with e | ⟨p, _, _, _, e⟩
      · exact ⟨s, e, same⟩
      · have h := tableEffect_endFrame { s with port := p } asel
        exact ⟨_, e, h.pending, h.table⟩
    case readResult received =>
      simp only [exec, execReadResult]
      rcases endOfKind_cases s [.readResult] received fun heard => { heard with port := heard.port.endRead } with
        e | ⟨p, _, _, _, e⟩
      · exact ⟨s, e, same⟩
      · exact ⟨_, e, .of_same rfl rfl rfl⟩
    case readStatus received rise =>
      simp only [exec, execReadStatus]
      rcases endOfKind_cases s [.readStatus] received fun heard =>
        if rise then { heard with port := heard.port.deselect } else heard with e | ⟨p, _, _, _, e⟩
      · exact ⟨s, e, same⟩
      · exact ⟨_, e, by cases rise <;> exact .of_same rfl rfl rfl⟩
    case unknownTransaction received =>
      simp only [exec, execUnknownTransaction]
      rcases endOfKind_cases s [.unknown, .none] received fun heard => { heard with port := heard.port.deselect } with
        e | ⟨p, _, _, _, e⟩
      · exact ⟨s, e, same⟩
      · exact ⟨_, e, .of_same rfl rfl rfl⟩
    case commandCompletion =>
      simp only [exec, execCommandCompletion]
      split
      · exact ⟨_, rfl, .of_same (by simp; rfl) (by simp; rfl) (by simp; rfl)⟩
      · exact ⟨_, rfl, .of_same (by simp; rfl) (by simp; rfl) (by simp; rfl)⟩
      · refine ⟨_, rfl, ?_⟩
        unfold State.completeAck
        split
        · exact .of_same (by simp; rfl) (by simp; rfl) (by simp; rfl)
        · exact .of_same (by simp; rfl) (by simp; rfl) (by simp; rfl)
      · exact ⟨_, rfl, .of_same (by simp; rfl) (by simp; rfl) (by simp; rfl)⟩
      all_goals exact ⟨_, rfl, same⟩
    case abort =>
      simp only [exec, execAbort]
      split
      · rcases grantCommand_cases s .abort (.ok [], s.table) with e | ⟨_, e⟩
        · exact ⟨_, e, same⟩
        · exact ⟨_, e, .of_same rfl rfl rfl⟩
      · exact ⟨_, rfl, .of_same rfl rfl rfl⟩
    case resetAsserted => exact ⟨_, rfl, rfl, .inr (.inl ⟨_, rfl, rfl⟩)⟩
    case resetEnd asel =>
      simp only [exec, execResetEnd]
      split
      · exact ⟨_, rfl, rfl, .inr (.inl ⟨_, rfl, rfl⟩)⟩
      · exact ⟨_, rfl, same⟩
    case initialisationEnd =>
      simp only [exec, execInitialisationEnd]
      split
      · exact ⟨_, rfl, .of_same (by simp) (by simp) (by simp)⟩
      · exact ⟨_, rfl, same⟩
    case authorityTimeTick =>
      simp only [exec, execAuthorityTimeTick]
      split
      · exact ⟨_, rfl, same⟩
      · exact ⟨_, rfl, .of_same (by simp; rfl) (by simp; rfl) (by simp; rfl)⟩
    case coalescingTimerExpiry =>
      simp only [exec, execCoalescingTimerExpiry]
      split <;> exact ⟨_, rfl, .of_same rfl rfl rfl⟩
    case expiryOperationCompletion =>
      simp only [exec, execExpiryOperationCompletion]
      split
      · exact ⟨_, rfl, .of_same (by simp) (by simp) (by simp)⟩
      · exact ⟨_, rfl, same⟩
    case stepOperationCompletion =>
      simp only [exec, execStepOperationCompletion]
      split
      · exact ⟨_, rfl, .of_same (by simp) (by simp) (by simp)⟩
      · exact ⟨_, rfl, same⟩

/-- A property of table and authority address that every served table and every hard reset keeps is kept by every step. -/
theorem step_keeps_table {P : Table → Addr → Prop} (served : ∀ now i t t' a, ServedTable now t i t' → P t a → P t' a)
    (reset : ∀ a, P (Table.reset a) a) {s t : State} (h : step s = .next t) (hs : P s.table s.authorityAddress) :
    P t.table t.authorityAddress := by
  unfold step at h
  split at h
  · injection h with h; rw [← h]; exact hs
  · next c rest _ =>
    obtain ⟨u, e, eff⟩ := exec_tableEffect c { s with pending := rest }
    rw [e] at h
    injection h with h
    subst h
    rcases eff.table with ⟨h1, h2⟩ | ⟨a, h1, h2⟩ | ⟨⟨_, h1⟩, h2⟩
    · rw [h1, h2]; exact hs
    · rw [h1, h2]; exact reset a
    · rw [h2]; exact served _ _ _ _ _ h1 hs

end Sys2Proof.Machine
end

