-- ==== Sys2Proof/Laws/Changes.lean ====
section
/-! SUPPORT. Every operation over the table is a chain of a few kinds of change, each with the guard under which the operations make
it. An invariant of the table that each kind keeps is therefore kept by every operation. -/

namespace Sys2Proof.Machine

/-- A bucket of the shadow index before a step: none yet, or one of the run's. -/
def Table.ShadowHeld (t : Table) (l : List EntryIx) : Prop :=
  l = [] ∨ ∃ r b, t.run = some r ∧ l = r.shadow.get b

/-- A shadow index that a step leaves: its buckets are those before the step, or one with room and an index more. -/
def Table.ShadowFrom (t : Table) (shadow : Vector (List EntryIx) 32) : Prop :=
  ∀ b : BucketIx, t.ShadowHeld (shadow.get b) ∨
    ∃ k l, t.ShadowHeld l ∧ l.length < Config.bucketCapacity ∧ shadow.get b = insertAscending k l

/-- One change of the table. `ok` names the addresses that entries and the queue may hold; `tidy` says that no block leaks, which an
invariant that is not about blocks leaves out. -/
inductive Change (ok : Addr → Prop) (tidy : Prop) : Table → Table → Prop
  /-- An entry's record, its descriptor untouched; an entry that turns VACANT has none. -/
  | entry (t : Table) (i : EntryIx) (e : Entry) (address : ∀ a, e.life.address = some a → ok a)
      (blocks : e.blocks = (t.entry i).blocks) (bytes : e.inlineBytes = (t.entry i).inlineBytes)
      (bare : tidy → e.life = .vacant → e.blocks = [] ∧ e.inlineBytes = []) : Change ok tidy t (t.setEntry i e)
  /-- An address record, to a state other than FIXED. -/
  | addr (t : Table) (a : Addr) (x : AddrState) (address : ok a) (state : x ≠ .fixed) : Change ok tidy t (t.setAddr a x)
  /-- The quarantine queue. -/
  | queue (t : Table) (q : List QuarantineItem) (address : ∀ x ∈ q, x ∈ t.quarantine ∨ ok x.address) :
      Change ok tidy t { t with quarantine := q }
  /-- Slots, classes, rules, admission state and deadline list. -/
  | rest (t : Table) (slots : Vector Slot 4) (classes : Vector ClassRecord 16) (rules : Vector (Option AdmissionRule) 16)
      (admission : Admission) (deadlines : List DeadlineItem) : Change ok tidy t { t with slots, classes, rules, admission, deadlines }
  /-- A write of a parameter. -/
  | params (t : Table) (which : Param) (v : Half) (p : Params) (written : t.params.write which v = some p) :
      Change ok tidy t { t with params := p }
  /-- An index joins the change set. -/
  | addChange (t : Table) (i : EntryIx) : Change ok tidy t (t.addChange i)
  /-- The lowest index leaves the change set. -/
  | takeChange (t : Table) (i : EntryIx) (l : List EntryIx) (head : t.changeSet = i :: l) : Change ok tidy t { t with changeSet := l }
  /-- An index joins a bucket that has room. -/
  | index (t : Table) (b : BucketIx) (i : EntryIx) (room : (t.bucket b).length < Config.bucketCapacity) :
      Change ok tidy t (t.setBucket b (insertAscending i (t.bucket b)))
  /-- An index leaves its bucket. -/
  | unindex (t : Table) (b : BucketIx) (i : EntryIx) : Change ok tidy t (t.setBucket b ((t.bucket b).filter (· ≠ i)))
  /-- A run begins, goes on or ends. -/
  | run (t : Table) (run : Option RehashRun) (shadow : ∀ r, run = some r → t.ShadowFrom r.shadow) : Change ok tidy t { t with run }
  /-- The switch to the shadow index. -/
  | switch (t : Table) (seed : Half) (index : Vector (List EntryIx) 32) (shadow : t.ShadowFrom index) :
      Change ok tidy t { t with seed, index, run := none }
  /-- A descriptor is dropped. -/
  | drop (t : Table) (i : EntryIx) : Change ok tidy t (t.dropDescriptor i)
  /-- A descriptor is stored in free blocks, for a live entry that has none and where the blocks suffice. -/
  | store (t : Table) (i : EntryIx) (bytes : List Byte) (cut : Bool)
      (room : tidy → (t.entry i).blocks = [] ∧ (t.entry i).life ≠ .vacant ∧
        Table.blocksNeeded bytes.length ≤ t.freeBlocks.length) : Change ok tidy t (t.storeDescriptor i bytes cut)

/-- The entries and the queue hold only such addresses, and no block leaks. -/
structure Good (ok : Addr → Prop) (tidy : Prop) (t : Table) : Prop where
  entries : ∀ i a, (t.entry i).life.address = some a → ok a
  queue : ∀ x ∈ t.quarantine, ok x.address
  pool : tidy → t.PoolIsExact

/-- A change that touches no entry and no block leaks none. -/
theorem Table.PoolIsExact.congr {t u : Table} (h : t.PoolIsExact) (entries : u.entries = t.entries) (pool : u.pool = t.pool) :
    u.PoolIsExact := by
  obtain ⟨⟨a, b, c⟩, d, e, f, g⟩ := h
  unfold Table.entry at a b c d e f
  unfold Table.descriptor Table.entry at f g
  rw [← entries] at a b c d e f g
  rw [← pool] at a d f g
  exact ⟨⟨a, b, c⟩, d, e, f, g⟩

theorem Good.step {ok : Addr → Prop} {tidy : Prop} {t u : Table} (g : Good ok tidy t) (h : Change ok tidy t u) :
    Good ok tidy u := by
  obtain ⟨ge, gq, gp⟩ := g
  cases h
  case entry i e ha hb hd bare =>
    refine ⟨fun k a h => ?_, gq, fun d => Table.exact_setEntry (gp d) hb hd (bare d)⟩
    rw [Table.entry_setEntry] at h
    split at h
    · exact ha a h
    · exact ge k a h
  case queue q hq =>
    refine ⟨ge, fun x hx => ?_, fun d => (gp d).congr rfl rfl⟩
    rcases hq x hx with h | h
    · exact gq x h
    · exact h
  case drop i =>
    refine ⟨fun k a h => ?_, gq, fun d => Table.exact_dropDescriptor i (gp d)⟩
    rw [Table.entry_dropDescriptor] at h
    split at h
    · exact ge _ a h
    · exact ge k a h
  case store i bytes cut room =>
    refine ⟨fun k a h => ?_, gq, fun d => Table.exact_storeDescriptor cut (gp d) (room d).1 (room d).2.1 (room d).2.2⟩
    rw [Table.entry_storeDescriptor] at h
    split at h
    · exact ge _ a h
    · exact ge k a h
  all_goals exact ⟨ge, gq, fun d => (gp d).congr rfl rfl⟩

/-- From a good table, `u` is a chain of changes away. -/
def Leads (ok : Addr → Prop) (tidy : Prop) (t u : Table) : Prop :=
  Good ok tidy t → Good ok tidy u ∧ Relation.ReflTransGen (Change ok tidy) t u

namespace Leads

variable {ok : Addr → Prop} {tidy : Prop} {t u v : Table}

theorem refl : Leads ok tidy t t := fun g => ⟨g, .refl⟩

theorem trans (h : Leads ok tidy t u) (k : Leads ok tidy u v) : Leads ok tidy t v := fun g => by
  obtain ⟨gu, hu⟩ := h g
  obtain ⟨gv, hv⟩ := k gu
  exact ⟨gv, hu.trans hv⟩

theorem of_change (h : Good ok tidy t → Change ok tidy t u) : Leads ok tidy t u := fun g =>
  ⟨g.step (h g), .single (h g)⟩

theorem setEntry (i : EntryIx) (e : Entry) (ha : ∀ a, e.life.address = some a → ok a) (hb : e.blocks = (t.entry i).blocks)
    (hd : e.inlineBytes = (t.entry i).inlineBytes) (bare : tidy → e.life = .vacant → e.blocks = [] ∧ e.inlineBytes = []) :
    Leads ok tidy t (t.setEntry i e) :=
  of_change fun _ => .entry t i e ha hb hd bare

/-- A life other than VACANT. -/
theorem setLife (i : EntryIx) (l : EntryLife) (ha : ∀ a, l.address = some a → ok a) (live : l ≠ .vacant) :
    Leads ok tidy t (t.setLife i l) :=
  setEntry i _ ha rfl rfl fun _ h => absurd h live

/-- VACANT, for an entry without a descriptor. -/
theorem vacate (i : EntryIx) (bare : (t.entry i).blocks = [] ∧ (t.entry i).inlineBytes = []) :
    Leads ok tidy t (t.setLife i .vacant) :=
  setEntry i _ nofun rfl rfl fun _ _ => bare

/-- A record whose life and descriptor are those it had. -/
theorem setRecord (i : EntryIx) (e : Entry) (hl : e.life = (t.entry i).life) (hb : e.blocks = (t.entry i).blocks)
    (hd : e.inlineBytes = (t.entry i).inlineBytes) : Leads ok tidy t (t.setEntry i e) :=
  of_change fun g => .entry t i e (fun a h => g.entries i a (hl ▸ h)) hb hd
    fun d h => by rw [hb, hd]; exact (g.pool d).vacant i (hl ▸ h)

theorem setAddr (a : Addr) (x : AddrState) (ha : ok a) (hx : x ≠ .fixed) : Leads ok tidy t (t.setAddr a x) :=
  of_change fun _ => .addr t a x ha hx

theorem setSlot (j : SlotIx) (x : Slot) : Leads ok tidy t (t.setSlot j x) :=
  of_change fun _ => .rest t _ t.classes t.rules t.admission t.deadlines

theorem setClass (c : ClassIx) (r : ClassRecord) : Leads ok tidy t (t.setClass c r) :=
  of_change fun _ => .rest t t.slots _ t.rules t.admission t.deadlines

theorem setRule (r : RuleIx) (x : Option AdmissionRule) : Leads ok tidy t (t.setRule r x) :=
  of_change fun _ => .rest t t.slots t.classes _ t.admission t.deadlines

theorem removeItem (o : Owner) : Leads ok tidy t (t.removeItem o) :=
  of_change fun _ => .rest t t.slots t.classes t.rules t.admission _

theorem placeItem (x : DeadlineItem) : Leads ok tidy t (t.placeItem x) :=
  of_change fun _ => .rest t t.slots t.classes t.rules t.admission _

theorem moveItem (x : DeadlineItem) : Leads ok tidy t (t.moveItem x) :=
  (removeItem _).trans (placeItem _)

theorem appendMember (c : ClassIx) (i : EntryIx) : Leads ok tidy t (t.appendMember c i) := setClass _ _

theorem removeMember (c : ClassIx) (i : EntryIx) : Leads ok tidy t (t.removeMember c i) := setClass _ _

theorem addChange (i : EntryIx) : Leads ok tidy t (t.addChange i) := of_change fun _ => .addChange t i

theorem dropDescriptor (i : EntryIx) : Leads ok tidy t (t.dropDescriptor i) := of_change fun _ => .drop t i

theorem storeDescriptor (i : EntryIx) (bytes : List Byte) (cut : Bool)
    (room : tidy → (t.entry i).blocks = [] ∧ (t.entry i).life ≠ .vacant ∧
      Table.blocksNeeded bytes.length ≤ t.freeBlocks.length) : Leads ok tidy t (t.storeDescriptor i bytes cut) :=
  of_change fun _ => .store t i bytes cut room

/-- A replacement by what fits, for a live entry (R18). -/
theorem replaceDescriptor (i : EntryIx) (bytes : List Byte) (cut : Bool) (live : (t.entry i).life ≠ .vacant)
    (room : Table.blocksNeeded bytes.length ≤ (t.entry i).blocks.length + t.freeBlocks.length) :
    Leads ok tidy t (t.replaceDescriptor i bytes cut) := by
  refine fun g => ?_
  have stored : Leads ok tidy t ((t.dropDescriptor i).storeDescriptor i bytes cut) :=
    (dropDescriptor i).trans (storeDescriptor i bytes cut fun d => by
      rw [Table.length_freeBlocks_dropDescriptor i (g.pool d).partitioned, Table.entry_dropDescriptor, if_pos rfl]
      exact ⟨rfl, live, room⟩)
  unfold Table.replaceDescriptor
  simp only
  split
  · exact stored g
  · exact (stored.trans (addChange i)) g

theorem evaluateAdmission : Leads ok tidy t t.evaluateAdmission := by
  unfold Table.evaluateAdmission
  split <;> split
  · exact of_change fun _ => .rest t t.slots t.classes t.rules _ t.deadlines
  · exact refl
  · exact of_change fun _ => .rest t t.slots t.classes t.rules _ t.deadlines
  · exact refl

theorem unqueueAddr (a : Addr) (x : AddrState) (ha : ok a) (hx : x ≠ .fixed) : Leads ok tidy t (t.unqueueAddr a x) := by
  refine (setAddr a x ha hx).trans (of_change fun _ => .queue _ _ fun y hy => .inl ?_)
  exact List.mem_of_mem_filter hy

theorem mem_insertBehind {α : Type} (p : α → Bool) (x y : α) (l : List α) (h : y ∈ insertBehind p x l) : y = x ∨ y ∈ l := by
  induction l with
  | nil => simpa [insertBehind] using h
  | cons z l ih =>
    unfold insertBehind at h
    split at h
    · rcases List.mem_cons.1 h with h | h
      · exact .inr (h ▸ List.mem_cons_self)
      · rcases ih h with h | h
        · exact .inl h
        · exact .inr (List.mem_cons_of_mem _ h)
    · simpa using h

theorem quarantineAddr (a : Addr) (d : Time) (ha : ok a) : Leads ok tidy t (t.quarantineAddr a d) := by
  refine (setAddr a (.quarantined d) ha (by nofun)).trans (of_change fun _ => .queue _ _ fun y hy => ?_)
  rcases mem_insertBehind _ _ _ _ hy with h | h
  · exact .inr (h ▸ ha)
  · exact .inl h

theorem releaseAddr (now : Time) (f : Bool) (a : Addr) (ha : ok a) : Leads ok tidy t (t.releaseAddr now f a) := by
  unfold Table.releaseAddr
  split
  · exact setAddr a .free ha (by nofun)
  · exact quarantineAddr a _ ha

theorem startLease (now : Time) (i : EntryIx) (a : Addr) (l : Half) (ha : ok a) : Leads ok tidy t (t.startLease now i a l) :=
  (setLife i _ (fun b h => by injection h with h; exact h ▸ ha) (by nofun)).trans (moveItem _)

theorem countRenewal (i : EntryIx) : Leads ok tidy t (t.countRenewal i) := setRecord i _ rfl rfl rfl

/-- With what the table's own goodness gives. -/
theorem good (h : Good ok tidy t → Leads ok tidy t u) : Leads ok tidy t u := fun g => h g g

theorem retireEntry (now : Time) (f : Bool) (i : EntryIx) : Leads ok tidy t (t.retireEntry now f i) := by
  unfold Table.retireEntry
  simp only
  refine Leads.trans (u := _) ?_ (((removeItem (.entry i)).trans (dropDescriptor i)).trans ((vacate i ?_).trans (addChange i)))
  rotate_left
  · rw [Table.entry_dropDescriptor, if_pos rfl]; exact ⟨rfl, rfl⟩
  refine good fun g => ?_
  have un : Leads ok tidy t (t.setBucket (bucketOf t.seed (t.entry i).identity)
      ((t.bucket (bucketOf t.seed (t.entry i).identity)).filter (· ≠ i))) := of_change fun _ => .unindex t _ i
  split
  · exact un
  · exact un.trans ((setSlot _ _).trans (removeItem _))
  · next h => exact un.trans ((setSlot _ _).trans (setAddr _ _ (g.entries i _ (by rw [h]; rfl)) (by nofun)))
  · next h => exact un.trans ((removeMember _ _).trans (releaseAddr _ _ _ (g.entries i _ (by rw [h]; rfl))))
  · next h => exact un.trans ((removeMember _ _).trans (releaseAddr _ _ _ (g.entries i _ (by rw [h]; rfl))))
  · next h => exact un.trans (releaseAddr _ _ _ (g.entries i _ (by rw [h]; rfl)))

theorem retireAndEvaluate (now : Time) (f : Bool) (i : EntryIx) : Leads ok tidy t (t.retireAndEvaluate now f i) :=
  (retireEntry now f i).trans evaluateAdmission

theorem lapseEntry (now : Time) (i : EntryIx) (a : Addr) (l : Half) (ha : ok a) : Leads ok tidy t (t.lapseEntry now i a l) := by
  unfold Table.lapseEntry
  simp only
  have h : Leads ok tidy t (((t.removeMember (t.entry i).cls i).setLife i (.lapsed a l
      (afterSeconds now (t.classRecord (t.entry i).cls).hold))).setAddr a (.held i)) :=
    (removeMember _ _).trans ((setLife i _ (fun b h => by injection h with h; exact h ▸ ha) (by nofun)).trans
      (setAddr _ _ ha (by nofun)))
  split
  · exact h.trans (retireAndEvaluate _ _ _)
  · exact h.trans ((moveItem _).trans (addChange i))

theorem renewLease (now : Time) (i : EntryIx) : Leads ok tidy t (t.renewLease now i).1 := by
  refine good fun g => ?_
  unfold Table.renewLease
  split
  · next h => exact startLease _ _ _ _ (g.entries i _ (by rw [h]; rfl))
  · next h => exact (startLease _ _ _ _ (g.entries i _ (by rw [h]; rfl))).trans (addChange i)
  · next h =>
    have ha := g.entries i _ (by rw [h]; rfl)
    dsimp only
    exact (startLease _ _ _ _ ha).trans ((setAddr _ _ ha (by nofun)).trans ((appendMember _ _).trans (addChange i)))
  · exact refl

theorem takeEntry (i : EntryIx) (identity : Identity) (c : ClassIx) (life : EntryLife) (bytes : List Byte) (cut : Bool)
    (ha : ∀ a, life.address = some a → ok a) (room : (t.bucket (bucketOf t.seed identity)).length < Config.bucketCapacity)
    (vacant : t.lowestVacant = some i) (live : life ≠ .vacant)
    (blocks : Table.blocksNeeded bytes.length ≤ t.freeBlocks.length) :
    Leads ok tidy t (t.takeEntry i identity c life bytes cut) := by
  refine good fun g => ?_
  have bare (d : tidy) : (t.entry i).blocks = [] := by
    have := List.find?_some vacant
    refine ((g.pool d).vacant i ?_).1
    cases h : (t.entry i).life <;> rw [h] at this <;> first | rfl | cases this
  unfold Table.takeEntry
  simp only
  refine Leads.trans (setEntry i { life, generation := (t.entry i).generation + 1, identity, cls := c, renewCount := 0
                                   truncated := (t.entry i).truncated, inlineBytes := (t.entry i).inlineBytes
                                   blocks := (t.entry i).blocks } ha rfl rfl fun _ h => absurd h live) ?_
  refine Leads.trans (storeDescriptor i bytes cut fun d => ?_)
    (Leads.trans (of_change fun _ => .index _ _ i ?_) (addChange i))
  · rw [Table.entry_setEntry, if_pos rfl]
    exact ⟨bare d, live, blocks⟩
  · simpa using room

/-! ### Address choice -/

theorem chooseAddr_ok {low high a : Addr} {preferred : Option Addr} (hf : ∀ a, t.addr a ≠ .fixed → ok a) (g : Good ok tidy t)
    (h : t.chooseAddr low high preferred = some a) : ok a := by
  unfold Table.chooseAddr at h
  rw [Option.or_eq_some_iff, Option.or_eq_some_iff] at h
  rcases h with (h | ⟨_, h⟩) | ⟨_, h⟩
  · have := (Option.filter_eq_some_iff.1 h).2
    simp only [Bool.and_eq_true, decide_eq_true_eq] at this
    exact hf a (by rw [this.2]; simp)
  · have := List.find?_some h
    simp only [Bool.and_eq_true, decide_eq_true_eq] at this
    exact hf a (by rw [this.2]; simp)
  · split at h
    · have := List.mem_of_find?_eq_some h
      obtain ⟨x, hx, rfl⟩ := List.mem_map.1 this
      exact g.queue x hx
    · cases h

/-! ### The operations -/

/-- A renewal leaves a live entry live. -/
theorem live_renewLease (now : Time) {i : EntryIx} (live : (t.entry i).life ≠ .vacant) :
    ((t.renewLease now i).1.entry i).life ≠ .vacant := by
  unfold Table.renewLease
  split <;> simp_all [Table.startLease, Table.setLife, Table.entry_setEntry]

theorem serveRejoin (now : Time) (i : EntryIx) (a : Addr) (d : List Byte) (live : (t.entry i).life ≠ .vacant) :
    Leads ok tidy t (serveRejoin now t i a d).2 := by
  unfold Machine.serveRejoin
  simp only
  split
  · next fit =>
    exact (renewLease now i).trans ((replaceDescriptor _ _ _ (live_renewLease now live) (Table.fitDescriptor_room fit)).trans
      (countRenewal i))
  · exact renewLease now i

theorem serveNewClaim (now : Time) (identity : Identity) (c : ClassIx) (p : Addr) (d : List Byte)
    (hf : ∀ a, t.addr a ≠ .fixed → ok a) : Leads ok tidy t (serveNewClaim now t identity c p d).2 := by
  refine good fun g => ?_
  unfold Machine.serveNewClaim
  simp only
  split; · exact refl
  split; · exact refl
  split; · exact refl
  split; · exact refl
  split; · exact refl
  next vacant =>
  split; · exact refl
  split; · exact refl
  next room =>
  have room : (t.bucket (bucketOf t.seed identity)).length < Config.bucketCapacity := Nat.not_le.1 room
  split; · exact refl
  next fit =>
  have fit := Table.fitDescriptor_room fit
  split
  · unfold holdClaim
    exact (takeEntry _ _ _ _ _ _ nofun room vacant (by nofun) fit).trans ((setSlot _ _).trans ((placeItem _).trans evaluateAdmission))
  · split
    · exact refl
    · next a ha =>
      have oka := chooseAddr_ok hf g ha
      unfold offerClaim
      exact (takeEntry _ _ _ _ _ _ (fun b h => by injection h with h; exact h ▸ oka) room vacant (by nofun) fit).trans
        ((unqueueAddr _ _ oka (by nofun)).trans ((setSlot _ _).trans ((placeItem _).trans evaluateAdmission)))

theorem serveClaim (now : Time) (identity : Identity) (c p : Byte) (d : List Byte) (hf : ∀ a, t.addr a ≠ .fixed → ok a) :
    Leads ok tidy t (serveClaim now t identity c p d).2 := by
  unfold Machine.serveClaim
  split
  · split
    · exact (setSlot _ _).trans (removeItem _)
    · split
      · unfold serveHeldClaim
        simp only
        split
        · exact refl
        · split
          · exact refl
          · exact refl
          · next h => exact Leads.serveRejoin _ _ _ _ (by rw [h]; nofun)
          · next h => exact Leads.serveRejoin _ _ _ _ (by rw [h]; nofun)
          · next h => exact Leads.serveRejoin _ _ _ _ (by rw [h]; nofun)
          · exact Leads.serveNewClaim _ _ _ _ _ hf
      · exact Leads.serveNewClaim _ _ _ _ _ hf
  · exact refl

theorem serveAccept (now : Time) (identity : Identity) (a k : Byte) : Leads ok tidy t (serveAccept now t identity a k).2 := by
  refine good fun g => ?_
  unfold Machine.serveAccept
  split
  · exact refl
  · simp only
    split
    · next h =>
      have oka := g.entries _ _ (by rw [h]; rfl)
      split; · exact refl
      split; · exact refl
      exact (startLease _ _ _ _ oka).trans ((setAddr _ _ oka (by nofun)).trans ((appendMember _ _).trans ((setSlot _ _).trans
        (addChange _))))
    · split; · exact refl
      split <;> exact refl
    · exact refl
    · exact refl
    · exact refl
    · exact refl

theorem serveRenew (now : Time) (identity : Identity) (a : Byte) : Leads ok tidy t (serveRenew now t identity a).2 := by
  unfold Machine.serveRenew
  split; · exact refl
  split; · exact refl
  simp only
  split
  · exact refl
  · exact refl
  · exact refl
  all_goals
    split; · exact refl
    split; · exact refl
    exact (renewLease _ _).trans (countRenewal _)

theorem serveRelease (now : Time) (identity : Identity) (a : Byte) : Leads ok tidy t (serveRelease now t identity a).2 := by
  unfold Machine.serveRelease
  split; · exact refl
  split; · exact refl
  split; · exact refl
  simp only
  split
  · exact refl
  · split
    · exact refl
    · exact retireAndEvaluate _ _ _
  all_goals
    split; · exact refl
    split; · exact refl
    exact retireAndEvaluate _ _ _

theorem clearRefusal (identity : Identity) : Leads ok tidy t (clearRefusal t identity) := by
  unfold Machine.clearRefusal
  split
  · exact (setSlot _ _).trans (removeItem _)
  · exact refl

theorem insertEntry (now : Time) (i : EntryIx) (identity : Identity) (c : ClassIx) (a : Addr) (pinned : Bool) (l : Half)
    (bytes : List Byte) (cut : Bool) (ha : ok a)
    (room : (t.bucket (bucketOf t.seed identity)).length < Config.bucketCapacity) (vacant : t.lowestVacant = some i)
    (blocks : Table.blocksNeeded bytes.length ≤ t.freeBlocks.length) :
    Leads ok tidy t (insertEntry now t i identity c a pinned l bytes cut) := by
  unfold Machine.insertEntry
  simp only
  refine (Leads.trans ?_ (appendMember _ _)).trans ((Leads.clearRefusal _).trans evaluateAdmission)
  have h : Leads ok tidy t ((t.takeEntry i identity c (.bound a (t.fixedLease c l) none) bytes cut).setAddr a (.bound i)) :=
    (takeEntry _ _ _ _ _ _ (fun b h => by injection h with h; exact h ▸ ha) room vacant (by nofun) blocks).trans
      (setAddr _ _ ha (by nofun))
  split
  · exact h
  · exact h.trans (startLease _ _ _ _ ha)

theorem serveInsert (now : Time) (identity : Identity) (c a p : Byte) (l : Half) (n : Byte) (d : List Byte)
    (hf : ∀ a, t.addr a ≠ .fixed → ok a) : Leads ok tidy t (serveInsert now t identity c a p l n d).2 := by
  unfold Machine.serveInsert
  split
  · split; · exact refl
    split; · exact refl
    split; · exact refl
    next hfix =>
    split; · exact refl
    split; · exact refl
    next room =>
    split; · exact refl
    next vacant =>
    split; · exact refl
    next fit =>
    exact Leads.insertEntry _ _ _ _ _ _ _ _ _ (hf _ hfix) (Nat.not_le.1 room) vacant (Table.fitDescriptor_room fit)
  · exact refl

theorem editAddress (now : Time) (i : EntryIx) (x : Option Addr) (hx : ∀ b, x = some b → ok b) :
    Leads ok tidy t (editAddress now t i x) := by
  refine good fun g => ?_
  unfold Machine.editAddress
  split
  · next b a ha =>
    split
    · exact refl
    · have okb := hx b rfl
      have oka := g.entries i a ha
      refine (setLife i _ ?_ ?_).trans ((setAddr _ _ okb (by nofun)).trans ((releaseAddr _ _ _ oka).trans (addChange i)))
      rotate_left
      · cases hl : (t.entry i).life <;> rw [hl] at ha <;> first | cases ha; done | exact (by nofun)
      intro c hc
      cases hl : (t.entry i).life <;> rw [hl] at hc ha <;> simp only [EntryLife.movedTo, EntryLife.address] at hc ha
      all_goals first
        | (injection hc with hc; exact hc ▸ okb)
        | (injection ha with ha; injection hc with hc; exact hc ▸ ha ▸ oka)
        | cases hc
  · exact refl

/-- What the first three fields of a MODIFY leave for the fourth: the blocks, the entry's own, and that it is live. -/
structure SameStore (i : EntryIx) (t u : Table) : Prop where
  pool : u.pool = t.pool
  blocks : (u.entry i).blocks = (t.entry i).blocks
  live : (t.entry i).life ≠ .vacant → (u.entry i).life ≠ .vacant

theorem sameStore_editLease (i : EntryIx) (l : Option Half) : SameStore i t (editLease t i l) := by
  unfold editLease
  split <;> [exact ⟨rfl, by simp [Table.setLife, Table.entry_setEntry], by simp [Table.setLife, Table.entry_setEntry]⟩;
    exact ⟨rfl, by simp [Table.setLife, Table.entry_setEntry], by simp [Table.setLife, Table.entry_setEntry]⟩; exact ⟨rfl, rfl, id⟩]

theorem sameStore_editPin (now : Time) (i : EntryIx) (p : Option Bool) : SameStore i t (editPin now t i p) := by
  unfold editPin
  split <;> [exact ⟨rfl, by simp [Table.setLife, Table.entry_setEntry], by simp [Table.setLife, Table.entry_setEntry]⟩;
    exact ⟨rfl, by simp [Table.setLife, Table.entry_setEntry], by simp [Table.setLife, Table.entry_setEntry]⟩;
    exact ⟨rfl, by simp [Table.startLease, Table.setLife, Table.entry_setEntry], by simp [Table.startLease, Table.setLife, Table.entry_setEntry]⟩;
    exact ⟨rfl, rfl, id⟩]

theorem sameStore_editClass (i : EntryIx) (c : Option ClassIx) : SameStore i t (editClass t i c) := by
  unfold editClass
  split
  · simp only
    split
    · exact ⟨rfl, rfl, id⟩
    · exact ⟨rfl, by simp [Table.entry_setEntry], by simp [Table.entry_setEntry]⟩
  · exact ⟨rfl, rfl, id⟩

theorem SameStore.trans {i : EntryIx} (h : SameStore i t u) (k : SameStore i u v) : SameStore i t v :=
  ⟨k.pool.trans h.pool, k.blocks.trans h.blocks, fun l => k.live (h.live l)⟩

theorem leads_editLease (i : EntryIx) (l : Option Half) : Leads ok tidy t (editLease t i l) := by
  refine good fun g => ?_
  unfold editLease
  split
  · next h => exact setLife _ _ (fun b hb => g.entries i b (by rw [h]; exact hb)) (by nofun)
  · next h => exact setLife _ _ (fun b hb => g.entries i b (by rw [h]; exact hb)) (by nofun)
  · exact refl

theorem leads_editPin (now : Time) (i : EntryIx) (p : Option Bool) : Leads ok tidy t (editPin now t i p) := by
  refine good fun g => ?_
  unfold editPin
  split
  · next h =>
    exact (setLife _ _ (fun b hb => g.entries i b (by rw [h]; exact hb)) (by nofun)).trans ((removeItem _).trans (addChange i))
  · next h =>
    exact (setLife _ _ (fun b hb => g.entries i b (by rw [h]; exact hb)) (by nofun)).trans ((removeItem _).trans (addChange i))
  · next h => exact (startLease _ _ _ _ (g.entries i _ (by rw [h]; rfl))).trans (addChange i)
  · exact refl

theorem leads_editClass (i : EntryIx) (c : Option ClassIx) : Leads ok tidy t (editClass t i c) := by
  unfold editClass
  split
  · simp only
    split
    · exact refl
    · next c _ =>
      exact (removeMember (t.entry i).cls i).trans ((appendMember c i).trans
        (Leads.trans (setRecord i { t.entry i with cls := c } rfl rfl rfl) (addChange i)))
  · exact refl

theorem applyEdit (now : Time) (i : EntryIx) (x : Edit) (st : Option (List Byte × Bool))
    (hx : ∀ b, x.address = some b → ok b) (live : (t.entry i).life ≠ .vacant)
    (room : ∀ bytes cut, st = some (bytes, cut) →
      Table.blocksNeeded bytes.length ≤ (t.entry i).blocks.length + t.freeBlocks.length) :
    Leads ok tidy t (applyEdit now t i x st) := by
  unfold Machine.applyEdit
  simp only
  have same := ((sameStore_editLease (t := t) i x.lease).trans (sameStore_editPin now i x.pinned)).trans
    (sameStore_editClass i x.cls)
  refine (Leads.trans (leads_editLease i x.lease) ((leads_editPin now i x.pinned).trans (leads_editClass i x.cls))).trans
    (Leads.trans ?_ (Leads.editAddress now i _ hx))
  unfold editDescriptor
  split
  · next bytes cut =>
    refine replaceDescriptor _ _ _ (same.live live) ?_
    unfold Table.freeBlocks
    rw [same.blocks, same.pool]
    exact room bytes cut rfl
  · exact refl

theorem address_of_editOf {sel cls pin : Byte} {lease : Half} {address n : Byte} {d : List Byte} {x : Edit} {b : Addr}
    (h : editOf t sel cls pin lease address n d = some x) (hb : x.address = some b) : t.addr b ≠ .fixed := by
  unfold editOf at h
  split at h
  · simp only [Option.bind_eq_bind, Option.bind_eq_some_iff, Option.pure_def, Option.some.injEq] at h
    obtain ⟨_, _, _, _, _, _, _, _, y, hy, rfl⟩ := h
    simp only at hb
    subst hb
    unfold selected at hy
    split at hy
    · rw [Option.map_eq_some_iff] at hy
      obtain ⟨c, hc, hcb⟩ := hy
      injection hcb with hcb
      subst hcb
      simpa using (Option.filter_eq_some_iff.1 hc).2
    · simp at hy
  · cases h

theorem serveEdit (now : Time) (i : EntryIx) (x : Edit) (hx : ∀ b, x.address = some b → ok b)
    (live : (t.entry i).life ≠ .vacant) : Leads ok tidy t (serveEdit now t i x).2 := by
  unfold Machine.serveEdit
  simp only
  split; · exact refl
  split; · exact refl
  refine Leads.applyEdit _ _ _ _ hx live fun bytes cut h => ?_
  obtain ⟨d, _, fit⟩ := Option.map_eq_some_iff.1 (Option.join_eq_some_iff.1 h)
  exact Table.fitDescriptor_room fit

theorem serveModify (now : Time) (index gen sel c p : Byte) (l : Half) (a n : Byte) (d : List Byte)
    (hf : ∀ a, t.addr a ≠ .fixed → ok a) : Leads ok tidy t (serveModify now t index gen sel c p l a n d).2 := by
  unfold Machine.serveModify
  split; · exact refl
  split
  · next h =>
    split; · exact refl
    next x hx => exact Leads.serveEdit _ _ _ (fun b hb => hf b (address_of_editOf hx hb)) (by rw [h]; nofun)
  · next h =>
    split; · exact refl
    next x hx => exact Leads.serveEdit _ _ _ (fun b hb => hf b (address_of_editOf hx hb)) (by rw [h]; nofun)
  all_goals exact refl

theorem serveRetire (now : Time) (index gen free : Byte) : Leads ok tidy t (serveRetire now t index gen free).2 := by
  unfold Machine.serveRetire
  split; · exact refl
  split; · exact refl
  exact retireAndEvaluate _ _ _

theorem serveReserve (now : Time) (a : Byte) (hf : ∀ a, t.addr a ≠ .fixed → ok a) : Leads ok tidy t (serveReserve now t a).2 := by
  unfold Machine.serveReserve
  split; · exact refl
  simp only
  split
  · exact refl
  · next h => exact setAddr _ _ (hf _ (by rw [h]; simp)) (by nofun)
  · next h => exact unqueueAddr _ _ (hf _ (by rw [h]; simp)) (by nofun)
  all_goals exact refl

theorem serveUnreserve (a : Byte) (hf : ∀ a, t.addr a ≠ .fixed → ok a) : Leads ok tidy t (serveUnreserve t a).2 := by
  unfold Machine.serveUnreserve
  split; · exact refl
  split
  · exact refl
  · next h => exact setAddr _ _ (hf _ (by rw [h]; simp)) (by nofun)
  all_goals exact refl

theorem serveUnquarantine (now : Time) (a : Byte) (hf : ∀ a, t.addr a ≠ .fixed → ok a) :
    Leads ok tidy t (serveUnquarantine now t a).2 := by
  unfold Machine.serveUnquarantine
  split; · exact refl
  split
  · next h => exact unqueueAddr _ _ (hf _ (by rw [h]; simp)) (by nofun)
  all_goals exact refl

theorem approveClaim (now : Time) (j : SlotIx) (c : SlotClaim) (i : EntryIx) (a : Addr) (ha : ok a) :
    Leads ok tidy t (approveClaim now t j c i a) := by
  unfold Machine.approveClaim
  exact (setLife i _ (fun b h => by injection h with h; exact h ▸ ha) (by nofun)).trans ((unqueueAddr _ _ ha (by nofun)).trans
    ((removeItem _).trans ((setSlot _ _).trans ((placeItem _).trans (addChange _)))))

theorem approveAddr_ok {c : SlotClaim} {address : Byte} {a : Addr} (hf : ∀ a, t.addr a ≠ .fixed → ok a) (g : Good ok tidy t)
    (h : approveAddr t c address = .ok a) : ok a := by
  unfold approveAddr at h
  split at h
  · split at h
    · next ha => injection h with h; exact h ▸ chooseAddr_ok hf g ha
    · cases h
  · split at h
    · cases h
    · split at h
      · cases h
      · next hn =>
        split at h
        · cases h
        · injection h with h
          subst h
          exact hf _ fun h => hn (.inr h)

theorem serveApprove (now : Time) (j k a : Byte) (hf : ∀ a, t.addr a ≠ .fixed → ok a) :
    Leads ok tidy t (serveApprove now t j k a).2 := by
  refine good fun g => ?_
  unfold Machine.serveApprove
  split; · exact refl
  split; · exact refl
  next h => exact Leads.approveClaim _ _ _ _ _ (approveAddr_ok hf g h)

theorem serveDeny (now : Time) (j k : Byte) : Leads ok tidy t (serveDeny now t j k).2 := by
  unfold Machine.serveDeny
  split; · exact refl
  unfold denyClaim
  exact (retireEntry _ _ _).trans ((setSlot _ _).trans ((moveItem _).trans evaluateAdmission))

theorem serveWriteClass (c e : Byte) (l h : Half) : Leads ok tidy t (serveWriteClass t c e l h).2 := by
  unfold Machine.serveWriteClass
  split
  · split
    · exact refl
    · exact setClass _ _
  · exact refl

theorem serveWriteRule (r v : Byte) (x : Identity) (n c a low high : Byte) (o : Half) (p : Byte) :
    Leads ok tidy t (serveWriteRule t r v x n c a low high o p).2 := by
  unfold Machine.serveWriteRule
  split
  · exact setRule _ _
  · split
    · exact refl
    · exact setRule _ _
  · exact refl

theorem serveWriteParameter (k : Byte) (v : Half) : Leads ok tidy t (serveWriteParameter t k v).2 := by
  unfold Machine.serveWriteParameter
  split; · exact refl
  split; · exact refl
  next h =>
  simp only
  split
  · exact (of_change fun _ => .params t _ v _ h).trans evaluateAdmission
  · exact of_change fun _ => .params t _ v _ h

theorem serveNextChange (now : Time) : Leads ok tidy t (serveNextChange now t).2 := by
  unfold Machine.serveNextChange
  split
  · exact refl
  · next h => exact of_change fun _ => .takeChange t _ _ h

/-! ### The run -/

theorem dropRun : Leads ok tidy t { t with run := none } := of_change fun _ => .run t none nofun

theorem advanceCursor (seed : Half) (shadow : Vector (List EntryIx) 32) (k : EntryIx) (h : t.ShadowFrom shadow) :
    Leads ok tidy t (advanceCursor t seed shadow k).2 := by
  unfold Machine.advanceCursor
  split
  · exact of_change fun _ => .run t _ fun r hr => by injection hr with hr; subst hr; exact h
  · exact of_change fun _ => .switch t seed shadow h

theorem visitEntry (r : RehashRun) (h : ∀ b : BucketIx, t.ShadowHeld (r.shadow.get b)) : Leads ok tidy t (visitEntry t r).2 := by
  unfold Machine.visitEntry
  simp only
  split
  · exact Leads.advanceCursor _ _ _ fun b => .inl (h b)
  · split
    · exact dropRun
    · next room =>
      refine Leads.advanceCursor _ _ _ fun b => ?_
      rw [Table.get_set]
      split
      · exact .inr ⟨_, _, h _, Nat.not_le.1 room, rfl⟩
      · exact .inl (h b)

theorem serveRehash (seed : Half) : Leads ok tidy t (serveRehash t seed).2 := by
  unfold Machine.serveRehash
  split
  · exact refl
  · refine Leads.visitEntry _ fun b => .inl ?_
    simp

theorem serveRehashStep : Leads ok tidy t (serveRehashStep t).2 := by
  unfold Machine.serveRehashStep
  split
  · next r h => exact Leads.visitEntry r fun b => .inr ⟨r, b, h, rfl⟩
  · exact refl

/-! ### The retention reset and the expiries -/

theorem visit (now : Time) (w : Walk) (i : EntryIx) (h : Leads ok tidy t w.table) : Leads ok tidy t (Walk.visit now w i).table := by
  refine h.trans (good fun g => ?_)
  unfold Walk.visit
  simp only
  split
  · exact retireEntry _ _ _
  · exact retireEntry _ _ _
  · exact retireEntry _ _ _
  · next h =>
    exact (setLife i _ (fun b hb => g.entries i b (by rw [h]; exact hb)) (by nofun)).trans ((moveItem _).trans (addChange _))
  all_goals exact refl

theorem serveResetKeep (now : Time) : Leads ok tidy t (serveResetKeep now t).2 := by
  unfold Machine.serveResetKeep
  simp only
  have h : ∀ (l : List EntryIx) (w : Walk), Leads ok tidy t w.table → Leads ok tidy t (l.foldl (Walk.visit now) w).table := by
    intro l
    induction l with
    | nil => intro w h; exact h
    | cons i l ih => intro w h; exact ih _ (visit now w i h)
  refine (h (List.finRange 96) { table := t, unverified := 0, retired := 0 } refl).trans ?_
  exact of_change fun _ => .rest _ _ _ _ _ _

theorem expire (now : Time) (x : DeadlineItem) (h : Leads ok tidy t u) : Leads ok tidy t (t.expire now x u) := by
  unfold Table.expire
  split
  · exact h
  · exact refl

/-- Every table that an operation leaves is a chain of changes away. -/
theorem of_served {now : Time} {i : Instr} (h : ServedTable now t i u) (hf : ∀ a, t.addr a ≠ .fixed → ok a) : Leads ok tidy t u := by
  cases h
  case same => exact refl
  case claim => exact Leads.serveClaim _ _ _ _ _ hf
  case accept => exact Leads.serveAccept _ _ _ _
  case renew => exact Leads.serveRenew _ _ _
  case release => exact Leads.serveRelease _ _ _
  case insert => exact Leads.serveInsert _ _ _ _ _ _ _ _ hf
  case modify => exact Leads.serveModify _ _ _ _ _ _ _ _ _ _ hf
  case retire => exact Leads.serveRetire _ _ _ _
  case reserve => exact Leads.serveReserve _ _ hf
  case unreserve => exact Leads.serveUnreserve _ hf
  case unquarantine => exact Leads.serveUnquarantine _ _ hf
  case approve => exact Leads.serveApprove _ _ _ _ hf
  case deny => exact Leads.serveDeny _ _ _
  case writeClass => exact Leads.serveWriteClass _ _ _ _
  case writeRule => exact Leads.serveWriteRule _ _ _ _ _ _ _ _ _ _
  case writeParameter => exact Leads.serveWriteParameter _ _
  case nextChange => exact Leads.serveNextChange _
  case rehash => exact Leads.serveRehash _
  case rehashStep => exact Leads.serveRehashStep
  case rehashAbortEnding => exact dropRun
  case resetKeep => exact Leads.serveResetKeep _
  case offerExpiry i d =>
    refine expire _ _ ?_
    unfold offerExpired
    split
    · exact retireAndEvaluate _ _ _
    · exact refl
  case approvalExpiry j d =>
    refine expire _ _ ?_
    unfold approvalExpired
    split
    · exact retireAndEvaluate _ _ _
    · exact refl
  case refusalExpiry j d => exact expire _ _ ((setSlot _ _).trans (removeItem _))
  case leaseLapse i d =>
    refine expire _ _ (good fun g => ?_)
    unfold leaseLapsed
    split
    · next h => exact lapseEntry _ _ _ _ (g.entries i _ (by rw [h]; rfl))
    · exact refl
  case revalidationEnd i d =>
    refine expire _ _ (good fun g => ?_)
    unfold revalidationEnded
    split
    · next h => exact lapseEntry _ _ _ _ (g.entries i _ (by rw [h]; rfl))
    · exact refl
  case holdEnd i d =>
    refine expire _ _ ?_
    unfold holdEnded
    split
    · exact retireAndEvaluate _ _ _
    · exact refl
  case quarantineEnd a d =>
    unfold quarantineEnded
    split
    · next h => exact unqueueAddr _ _ (hf _ (by rw [h.1]; simp)) (by nofun)
    · exact refl

end Leads

/-- What every change keeps, every operation keeps; `ok` holds of the addresses that are not FIXED and of those in use. -/
theorem ServedTable.keeps {ok : Addr → Prop} {tidy : Prop} {P : Table → Prop} (keep : ∀ t u, Change ok tidy t u → P t → P u) {now : Time} {i : Instr}
    {t u : Table} (h : ServedTable now t i u) (g : Good ok tidy t) (hf : ∀ a, t.addr a ≠ .fixed → ok a) (hp : P t) : Good ok tidy u ∧ P u := by
  obtain ⟨gu, chain⟩ := Leads.of_served h hf g
  refine ⟨gu, ?_⟩
  clear gu h
  induction chain with
  | refl => exact hp
  | tail _ c ih => exact keep _ _ c ih

/-- The same for what does not depend on addresses. -/
theorem ServedTable.keeps_plain {P : Table → Prop} (keep : ∀ t u, Change (fun _ => True) False t u → P t → P u) {now : Time}
    {i : Instr} {t u : Table} (h : ServedTable now t i u) (hp : P t) : P u :=
  (ServedTable.keeps keep h ⟨fun _ _ _ => trivial, fun _ _ => trivial, False.elim⟩ (fun _ _ => trivial) hp).2

/-- No operation lets a block leak (R15). -/
theorem ServedTable.keeps_pool {now : Time} {i : Instr} {t u : Table} (h : ServedTable now t i u) (hp : t.PoolIsExact) : u.PoolIsExact :=
  (ServedTable.keeps (tidy := True) (P := fun _ => True) (fun _ _ _ _ => trivial) h
    ⟨fun _ _ _ => trivial, fun _ _ => trivial, fun _ => hp⟩ (fun _ _ => trivial) trivial).1.pool trivial

end Sys2Proof.Machine
end

