-- ==== Sys2Proof/Laws/Operands.lean ====
section
/-! SUPPORT. Which bytes an operand's reader accepts, and the byte that writes the value read. -/

namespace Sys2Proof.Machine

theorem indexOf_of_eq {n : Nat} {b : Byte} {i : Fin n} (h : b.toNat = i.val) : indexOf n b = some i := by
  have lt : b.toNat < n := h ▸ i.isLt
  simp [indexOf, h]

theorem indexOf_of_le {n : Nat} {b : Byte} (h : n ≤ b.toNat) : indexOf n b = none := by
  have : ¬ b.toNat < n := by omega
  simp [indexOf, this]

theorem eq_of_indexOf {n : Nat} {b : Byte} {i : Fin n} (h : indexOf n b = some i) : b.toNat = i.val := by
  unfold indexOf at h
  split at h
  · injection h with h; rw [← h]
  · exact absurd h nofun

theorem addrOf_of_eq {b : Byte} {a : Addr} (h : b.toNat = a.val) : addrOf b = some a :=
  indexOf_of_eq h

theorem addrOf_of_lt {b : Byte} (h : 0x7F < b.toNat) : addrOf b = none :=
  indexOf_of_le h

theorem byteOf_of_eq {n : Nat} {b : Byte} {i : Fin n} (h : b.toNat = i.val) : byteOf i.val = b := by
  rw [← h]
  simp [byteOf]

theorem addrByte_of_eq {b : Byte} {a : Addr} (h : b.toNat = a.val) : addrByte a = b :=
  byteOf_of_eq h

theorem yesNoOf_yesNo (v : Bool) : yesNoOf (yesNo v) = some v := by
  cases v <;> rfl

theorem yesNoOf_of_lt {b : Byte} (h : 1 < b.toNat) : yesNoOf b = none := by
  have h0 : b ≠ 0 := by rintro rfl; simp at h
  have h1 : b ≠ 1 := by rintro rfl; simp at h
  unfold yesNoOf
  rw [if_neg h0, if_neg h1]

/-- Every byte is a yes, a no, or above 1. -/
theorem yesNo_or_lt (b : Byte) : (∃ v, b = yesNo v) ∨ 1 < b.toNat := by
  by_cases h : 1 < b.toNat
  · exact .inr h
  · left
    have : b.toNat = 0 ∨ b.toNat = 1 := by omega
    rcases this with h | h
    · exact ⟨false, BitVec.eq_of_toNat_eq (by simpa [yesNo] using h)⟩
    · exact ⟨true, BitVec.eq_of_toNat_eq (by simpa [yesNo] using h)⟩

end Sys2Proof.Machine
end

