-- ==== Sys2Proof/Laws/Commands.lean ====
section
/-! SUPPORT. What the guards, the argument checks and the shared operations of the host commands answer. -/

namespace Sys2Proof.Machine

/-! ### Arguments -/

theorem isVacant_iff (l : EntryLife) : l.isVacant = true ↔ l = .vacant := by cases l <;> simp [EntryLife.isVacant]

theorem indexOf_iff {n : Nat} (b : Byte) (i : Fin n) : indexOf n b = some i ↔ b.toNat = i.val :=
  ⟨eq_of_indexOf, indexOf_of_eq⟩

theorem yesNoOf_iff (b : Byte) (v : Bool) : yesNoOf b = some v ↔ b = yesNo v := by
  constructor
  · intro h
    unfold yesNoOf at h
    split at h
    · next h0 => cases h; exact h0
    · split at h
      · next h1 => cases h; exact h1
      · cases h
  · rintro rfl; exact yesNoOf_yesNo v

theorem selected_iff {α : Type} (b : Bool) (v : Option α) (x : Option α) :
    selected b v = some x ↔ (b = false ∧ x = none) ∨ (b = true ∧ ∃ a, v = some a ∧ x = some a) := by
  cases b <;> cases v <;> cases x <;> simp [selected, eq_comm]

/-- The arguments of MODIFY spell an edit exactly when check 2 of R164 passes. -/
theorem editOf_iff (t : Table) (sel cls pin : Byte) (lease : Half) (address n : Byte) (d : List Byte) (x : Edit) :
    editOf t sel cls pin lease address n d = some x ↔ x.Spelled t sel cls pin lease address n d := by
  have key : editOf t sel cls pin lease address n d = some x ↔ sel.toNat < 32 ∧
      selected (sel.getLsbD 0) (indexOf 16 cls) = some x.cls ∧ selected (sel.getLsbD 1) (yesNoOf pin) = some x.pinned ∧
      selected (sel.getLsbD 2) (if lease = 0 then none else some lease) = some x.lease ∧
      selected (sel.getLsbD 3) (if n.toNat ≤ 40 ∧ n.toNat = d.length then some d else none) = some x.descriptor ∧
      selected (sel.getLsbD 4) ((addrOf address).filter fun a => t.addr a ≠ .fixed) = some x.address := by
    unfold editOf
    by_cases h : sel.toNat < 32
    · rw [if_pos h]
      simp only [Option.bind_eq_bind, Option.bind_eq_some_iff, Option.pure_def, Option.some.injEq]
      constructor
      · rintro ⟨_, h1, _, h2, _, h3, _, h4, _, h5, rfl⟩; exact ⟨h, h1, h2, h3, h4, h5⟩
      · rintro ⟨_, h1, h2, h3, h4, h5⟩; exact ⟨_, h1, _, h2, _, h3, _, h4, _, h5, rfl⟩
    · rw [if_neg h]; simp [h]
  rw [key]
  simp only [selected_iff, indexOf_iff, yesNoOf_iff]
  constructor
  · rintro ⟨h, h1, h2, h3, h4, h5⟩
    refine ⟨by omega, h1, h2, ?_, ?_, ?_⟩
    · rcases h3 with h3 | ⟨h3, a, h6, h7⟩
      · exact .inl h3
      · right
        split at h6
        · cases h6
        · cases h6; exact ⟨h3, by assumption, h7⟩
    · rcases h4 with h3 | ⟨h3, a, h6, h7⟩
      · exact .inl h3
      · right
        split at h6
        · cases h6; rename_i hh; exact ⟨h3, hh.1, hh.2, h7⟩
        · cases h6
    · rcases h5 with h3 | ⟨h3, a, h6, h7⟩
      · exact .inl h3
      · right
        rw [Option.filter_eq_some_iff] at h6
        exact ⟨h3, a, eq_of_indexOf h6.1, by simpa using h6.2, h7⟩
  · rintro ⟨h, h1, h2, h3, h4, h5⟩
    refine ⟨by omega, h1, h2, ?_, ?_, ?_⟩
    · rcases h3 with h3 | ⟨h3, h6, h7⟩
      · exact .inl h3
      · exact .inr ⟨h3, lease, by rw [if_neg h6], h7⟩
    · rcases h4 with h3 | ⟨h3, h6, h6', h7⟩
      · exact .inl h3
      · exact .inr ⟨h3, d, by rw [if_pos ⟨h6, h6'⟩], h7⟩
    · rcases h5 with h3 | ⟨h3, a, h6, h6', h7⟩
      · exact .inl h3
      · exact .inr ⟨h3, a, by rw [addrOf_of_eq h6]; simp [h6'], h7⟩

/-! ### Guards (R159, R96) -/

/-- All that the entry guard can answer. -/
theorem guardEntry_cases (t : Table) (index generation : Byte) :
   (95 < index.toNat → t.guardEntry index generation = .error .badArgument) ∧
   (∀ k : EntryIx, index.toNat = k.val →
    ((t.entry k).life = .vacant → t.guardEntry index generation = .error (.notFound [])) ∧
    ((t.entry k).life ≠ .vacant → generation ≠ (t.entry k).generation → t.guardEntry index generation = .error (.stale [(t.entry k).generation])) ∧
    ((t.entry k).life ≠ .vacant → generation = (t.entry k).generation → t.guardEntry index generation = .ok k)) := by
  refine ⟨fun h => by simp only [Table.guardEntry, indexOf_of_le (n := 96) h], fun k hk => ?_⟩
  have vac : ∀ l : EntryLife, l.isVacant = true ↔ l = .vacant := by intro l; cases l <;> simp [EntryLife.isVacant]
  simp only [Table.guardEntry, indexOf_of_eq hk]
  refine ⟨?_, ?_, ?_⟩
  · intro h; rw [if_pos ((vac _).2 h)]
  · intro h h2; rw [if_neg (by rwa [vac]), if_pos (fun e => h2 e.symm)]
  · intro h h2; rw [if_neg (by rwa [vac]), if_neg (by simp [h2])]

/-- All that the slot guard can answer (R96). -/
theorem guardSlot_cases (t : Table) (slot generation : Byte) :
   (3 < slot.toNat → t.guardSlot slot generation = .error .badArgument) ∧
   (∀ j : SlotIx, slot.toNat = j.val →
    ((t.slot j).isAwaiting = false → t.guardSlot slot generation = .error (.refusedState [(t.slot j).code])) ∧
    (∀ c k, t.slot j = .awaiting c k → generation ≠ (t.entry k).generation → t.guardSlot slot generation = .error (.stale [byteOf k.val, (t.entry k).generation])) ∧
    (∀ c k, t.slot j = .awaiting c k → generation = (t.entry k).generation → t.guardSlot slot generation = .ok (j, c, k))) := by
  refine ⟨fun h => by simp only [Table.guardSlot, indexOf_of_le (n := 4) h], fun j hj => ?_⟩
  simp only [Table.guardSlot, indexOf_of_eq hj]
  refine ⟨?_, ?_, ?_⟩
  · intro h; cases hs : t.slot j <;> simp_all [Slot.isAwaiting]
  · intro c k h h2; simp only [h, if_pos (show (t.entry k).generation ≠ generation from fun e => h2 e.symm)]
  · intro c k h h2; simp only [h]; rw [if_neg (by simp [h2])]

/-! ### INSERT and RETIRE -/

theorem refusedSlot_congr {t t' : Table} (h : t.slots = t'.slots) (identity) : t.refusedSlot identity = t'.refusedSlot identity := by
  simp only [Table.refusedSlot, Table.slot, h]

/-- The refusal memory of an identity, cleared in a table that has the slots of another. -/
theorem clearRefusal_of {t x : Table} (h : x.slots = t.slots) (identity) :
    clearRefusal x identity = match t.refusedSlot identity with
      | none => x
      | some j => { x with slots := t.slots.set j .free, deadlines := x.deadlines.filter fun y => y.kind.owner ≠ Owner.slot j } := by
  unfold clearRefusal
  rw [refusedSlot_congr h]
  cases t.refusedSlot identity with
  | none => rfl
  | some j => simp only [← h]; rfl

/-- The table after an INSERT that passes its checks (R162), field by field. -/
theorem insertEntry_eq (now : Time) (t : Table) (i : EntryIx) (identity : Identity) (cls : ClassIx) (a : Addr) (pinned : Bool)
    (lease : Half) (bytes : List Byte) (cut : Bool) :
    insertEntry now t i identity cls a pinned lease bytes cut =
    (let duration := t.fixedLease cls lease
     let deadline := afterSeconds now duration
     let bound : Table :=
       if pinned then { t.withTaken i identity cls (.bound a duration none) bytes cut with
          map := t.map.set a (.bound i), classes := t.classesWith cls i }
       else { t.withTaken i identity cls (.bound a duration (some deadline)) bytes cut with
          map := t.map.set a (.bound i), classes := t.classesWith cls i
          deadlines := insertBehind (fun x => !earlier deadline x.deadline) { kind := .lease i, deadline }
                    (t.deadlines.filter fun x => x.kind.owner ≠ Owner.entry i) }
     match t.refusedSlot identity with
      | none => bound
      | some j => { bound with slots := t.slots.set j .free, deadlines := bound.deadlines.filter fun y => y.kind.owner ≠ Owner.slot j }).evaluateAdmission := by
  unfold insertEntry
  simp only
  congr 1
  have key : ∀ p : Bool, ((if p = true then (t.takeEntry i identity cls (.bound a (t.fixedLease cls lease) none) bytes cut).setAddr a (.bound i)
      else ((t.takeEntry i identity cls (.bound a (t.fixedLease cls lease) none) bytes cut).setAddr a (.bound i)).startLease now i a (t.fixedLease cls lease)).appendMember cls i) =
      if p then { t.withTaken i identity cls (.bound a (t.fixedLease cls lease) none) bytes cut with
          map := t.map.set a (.bound i), classes := t.classesWith cls i }
       else { t.withTaken i identity cls (.bound a (t.fixedLease cls lease) (some (afterSeconds now (t.fixedLease cls lease)))) bytes cut with
          map := t.map.set a (.bound i), classes := t.classesWith cls i
          deadlines := insertBehind (fun x => !earlier (afterSeconds now (t.fixedLease cls lease)) x.deadline) { kind := .lease i, deadline := afterSeconds now (t.fixedLease cls lease) }
                    (t.deadlines.filter fun x => x.kind.owner ≠ Owner.entry i) } := by
    intro p
    cases p
    · simp [Table.takeEntry_eq, Table.withTaken, Table.setAddr, Table.startLease, Table.moveItem, Table.placeItem, Table.removeItem, Table.setLife, Table.setEntry, Table.appendMember, Table.setClass, Table.classesWith, Table.entry, Table.get_set, Table.classRecord]
      rfl
    · simp [Table.takeEntry_eq, Table.withTaken, Table.setAddr, Table.appendMember, Table.setClass, Table.classesWith, Table.entry, Table.classRecord]
  rw [key, clearRefusal_of (t := t) (by cases pinned <;> rfl)]

/-- The state code of an address just released (R14, R45). -/
theorem code_withReleased (t : Table) (now : Time) (f : Bool) (a : Addr) :
    ((t.withReleased now f a).evaluateAdmission.addr a).code = if f = true ∨ t.params.quarantineTime = 0 then 2 else 6 := by
  simp only [Table.addr_evaluateAdmission]
  unfold Table.withReleased
  by_cases hq : f = true ∨ t.params.quarantineTime = 0
  · simp only [if_pos hq]; simp [Table.addr, Table.get_set, AddrState.code]
  · simp only [if_neg hq]; simp [Table.addr, Table.get_set, AddrState.code]

/-- The hint of RETRY_LATER(SLOTS) is any least remaining time (R88). -/
theorem slotsHint_of_least {t : Table} {now : Time} {k : SlotIx} {c : SlotClaim} (h : (t.slot k).claim = some c)
    (least : ∀ m other, (t.slot m).claim = some other → remaining now c.deadline ≤ remaining now other.deadline) :
    slotsHint now t = BitVec.ofNat 16 (remaining now c.deadline) := by
  have found : ((List.finRange 4).filterMap fun j => ((t.slot j).claim).map fun c => remaining now c.deadline).min? =
      some (remaining now c.deadline) := by
    rw [List.min?_eq_some_iff]
    refine ⟨List.mem_filterMap.2 ⟨k, List.mem_finRange k, by rw [h]; rfl⟩, fun x hx => ?_⟩
    obtain ⟨m, _, hm⟩ := List.mem_filterMap.1 hx
    obtain ⟨other, ho, rfl⟩ := Option.map_eq_some_iff.1 hm
    exact least m other ho
  unfold slotsHint
  simp only [found, Option.getD_some]

/-! ### The run and the ports -/

/-- The cursor moves on below entry 95 (R32). -/
theorem advanceCursor_next (t : Table) (seed sh) (k next : EntryIx) (h : next.val = k.val + 1) :
    advanceCursor t seed sh k = (.step, { t with run := some { newSeed := seed, shadow := sh, cursor := next } }) := by
  have lt : k.val + 1 < 96 := by have := next.isLt; omega
  have : (⟨k.val + 1, lt⟩ : EntryIx) = next := Fin.ext h.symm
  unfold advanceCursor
  rw [dif_pos lt, this]

/-- A transaction of its kind with no more bytes ends at once. -/
theorem endOfKind_of (s : State) (k : List TransactionKind) (rise : State → State) (h : s.port.selected = true) (hk : s.port.kind ∈ k) :
    s.endOfKind k [] rise = .next (rise s) := by
  simp [State.endOfKind, State.hostBytes, h, hk]

/-- A transaction that evaluates no write only ends. -/
theorem endTransaction_of_no_write (s : State) : s.target.phase ≠ .receiving ∨ s.target.receive = [] →
    s.endTransaction [] = { s with target := s.target.leave } := by
  intro h
  by_cases hp : s.target.phase = .receiving
  · have hr : s.target.receive = [] := by simpa [hp] using h
    simp [State.endTransaction, State.hears, Target.hears, hp, State.evaluateWrite, hr]
  · simp [State.endTransaction, State.hears, Target.hears, hp]

end Sys2Proof.Machine
end

