-- ==== Sys2Proof/Laws/Formats.lean ====
section
/-! SUPPORT. Bytes and numbers are each other's inverses, and the bytes of every request and command are read back from the payload
that spells it. -/

namespace Sys2Proof.Machine

theorem beBytes_length (n v : Nat) : (beBytes n v).length = n := by
  induction n with
  | zero => rfl
  | succ n ih => simp [beBytes, ih]

theorem foldl_be (l : List Byte) (n : Nat) :
    l.foldl (fun n b => n * 256 + b.toNat) n = n * 256 ^ l.length + beValue l := by
  induction l generalizing n with
  | nil => simp [beValue]
  | cons b l ih =>
    simp only [List.foldl_cons, beValue, List.length_cons]
    rw [ih, ih (0 * 256 + b.toNat)]
    ring

theorem beValue_cons (b : Byte) (l : List Byte) : beValue (b :: l) = b.toNat * 256 ^ l.length + beValue l := by
  have := foldl_be l (0 * 256 + b.toNat)
  simpa [beValue] using this

theorem beValue_beBytes (n v : Nat) : beValue (beBytes n v) = v % 256 ^ n := by
  induction n generalizing v with
  | zero => simp [beBytes, beValue, Nat.mod_one]
  | succ n ih =>
    have e : (BitVec.ofNat 8 (v / 256 ^ n)).toNat = v / 256 ^ n % 256 := BitVec.toNat_ofNat ..
    rw [beBytes, beValue_cons, beBytes_length, ih, e, pow_succ, Nat.mod_mul]
    ring

/-! ### The CRCs (R24, R190) -/

/-- The bits of an identity's bytes are the identity's, from the most significant. -/
theorem bits_identityBytes (i : Identity) :
    (identityBytes i).flatMap byteBits = (List.range 48).map fun k => i.getLsbD (47 - k) := by
  have bit : ∀ n k, k < 8 → (BitVec.ofNat 8 (i.toNat / 256 ^ n)).getLsbD k = i.getLsbD (8 * n + k) := by
    intro n k hk
    rw [BitVec.getLsbD_ofNat, show 256 = 2 ^ 8 from rfl, ← pow_mul, Nat.testBit_div_two_pow, BitVec.testBit_toNat, Nat.add_comm]
    simp [hk]
  simp only [identityBytes, beBytes, byteBits, List.flatMap_cons, List.flatMap_nil, List.cons_append, List.nil_append, bit,
    Nat.reduceLT]
  rfl

/-- The bucket function, bit by bit (R24). -/
theorem bucketOf_bits (seed : Half) (i : Identity) : (bucketOf seed i).val =
    (((List.range 48).map fun k => i.getLsbD (47 - k)).foldl (crcBit 0x1021) seed).toNat % 32 := by
  rw [← bits_identityBytes]
  rfl

theorem identityBytes_length (i : Identity) : (identityBytes i).length = 6 := beBytes_length ..

theorem halfBytes_length (i : Half) : (halfBytes i).length = 2 := beBytes_length ..

theorem identityOf_identityBytes (i : Identity) : identityOf (identityBytes i) = i := by
  unfold identityOf identityBytes
  rw [beValue_beBytes]
  apply BitVec.eq_of_toNat_eq
  have := i.isLt
  rw [BitVec.toNat_ofNat]
  omega

theorem halfOf_halfBytes (h : Half) : halfOf (halfBytes h) = h := by
  unfold halfOf halfBytes
  rw [beValue_beBytes]
  apply BitVec.eq_of_toNat_eq
  have := h.isLt
  rw [BitVec.toNat_ofNat]
  omega

theorem byteOf_toNat {n : Nat} (h : n < 256) : (byteOf n).toNat = n := by
  simp [byteOf]; omega

theorem message_passes (kind : Byte) (payload : List Byte) (h : payload.length < 256) (hk : namesRequest kind = true) (i : Instr)
    (hr : requestOf kind payload = some i) : evaluateRequest (requestMessage kind payload) false = .ok i := by
  have e1 : requestMessage kind payload = kind :: byteOf payload.length :: (payload ++ [crc8 (kind :: byteOf payload.length :: payload)]) := rfl
  have e2 : payload ++ [crc8 (kind :: byteOf payload.length :: payload)] ≠ [] := by simp
  have e3 : (requestMessage kind payload).length = (byteOf payload.length).toNat + 3 := by
    rw [e1, byteOf_toNat h]; simp
  have e4 : (requestMessage kind payload).dropLast = kind :: byteOf payload.length :: payload := by
    show (_ ++ [_]).dropLast = _
    exact List.dropLast_concat
  have e5 : (requestMessage kind payload).getLastD 0 = crc8 (kind :: byteOf payload.length :: payload) := by
    show (_ ++ [_]).getLastD 0 = _
    rw [List.getLastD_concat]
  rw [e1] at *
  have n1 : ¬ (byteOf payload.length).toNat + 3 < (byteOf payload.length).toNat + 3 := by omega
  have n3 : ¬ (crc8 (kind :: byteOf payload.length :: payload) ≠ crc8 (kind :: byteOf payload.length :: payload)) := by simp
  unfold evaluateRequest
  rw [if_neg Bool.false_ne_true]
  dsimp only
  rw [if_neg e2, e3, if_neg n1, if_neg n1, e4, e5, if_neg n3, hk, List.dropLast_concat, hr]
  rfl

theorem identityBytes_spell (i : Identity) : ∃ b0 b1 b2 b3 b4 b5, identityBytes i = [b0, b1, b2, b3, b4, b5] ∧
    identityOf [b0, b1, b2, b3, b4, b5] = i :=
  by
  have length := identityBytes_length i
  have value := identityOf_identityBytes i
  generalize identityBytes i = l at length value
  match l, length, value with
  | [b0, b1, b2, b3, b4, b5], _, value => exact ⟨b0, b1, b2, b3, b4, b5, rfl, value⟩

theorem requestOf_claim (i : Identity) (c p : Byte) (d : List Byte) (h : d.length ≤ 40) :
    requestOf 0x10 (identityBytes i ++ [c, p, byteOf d.length] ++ d) = some (.claim i c p d) := by
  obtain ⟨b0, b1, b2, b3, b4, b5, e, f⟩ := identityBytes_spell i
  rw [e]
  simp [requestOf, f, byteOf_toNat (show d.length < 256 by omega), h]

theorem requestOf_accept (i : Identity) (a k : Byte) :
    requestOf 0x11 (identityBytes i ++ [a, k]) = some (.accept i a k) := by
  obtain ⟨b0, b1, b2, b3, b4, b5, e, f⟩ := identityBytes_spell i
  rw [e]; simp [requestOf, f]

theorem requestOf_renew (i : Identity) (a : Byte) : requestOf 0x12 (identityBytes i ++ [a]) = some (.renew i a) := by
  obtain ⟨b0, b1, b2, b3, b4, b5, e, f⟩ := identityBytes_spell i
  rw [e]; simp [requestOf, f]

theorem requestOf_release (i : Identity) (a : Byte) : requestOf 0x13 (identityBytes i ++ [a]) = some (.release i a) := by
  obtain ⟨b0, b1, b2, b3, b4, b5, e, f⟩ := identityBytes_spell i
  rw [e]; simp [requestOf, f]

theorem requestOf_resolve (i : Identity) : requestOf 0x14 (identityBytes i) = some (.resolve i) := by
  obtain ⟨b0, b1, b2, b3, b4, b5, e, f⟩ := identityBytes_spell i
  rw [e]; simp [requestOf, f]


theorem frame_passes (code q : Byte) (args : List Byte) (h : args.length < 256) (b : HostBody) (hc : commandOf code args = some b) :
    checkFrame (commandFrame code q args) false = some { sequence := q, body := b } := by
  have e1 : commandFrame code q args = code :: q :: byteOf args.length :: (args ++ [crc8 (code :: q :: byteOf args.length :: args)]) := rfl
  have e2 : args ++ [crc8 (code :: q :: byteOf args.length :: args)] ≠ [] := by simp
  have e3 : (commandFrame code q args).length = (byteOf args.length).toNat + 4 := by
    rw [e1, byteOf_toNat h]; simp
  have e4 : (commandFrame code q args).dropLast = code :: q :: byteOf args.length :: args := by
    show (_ ++ [_]).dropLast = _
    exact List.dropLast_concat
  have e5 : (commandFrame code q args).getLastD 0 = crc8 (code :: q :: byteOf args.length :: args) := by
    show (_ ++ [_]).getLastD 0 = _
    rw [List.getLastD_concat]
  rw [e1] at *
  have n : ¬ (args ++ [crc8 (code :: q :: byteOf args.length :: args)] = [] ∨ false = true ∨ (byteOf args.length).toNat + 4 ≠ (byteOf args.length).toNat + 4 ∨
     crc8 (code :: q :: byteOf args.length :: args) ≠ crc8 (code :: q :: byteOf args.length :: args)) := by simp
  simp only [checkFrame, e3, e4, e5, if_neg n]
  rw [List.dropLast_concat, hc]; rfl

theorem halfBytes_spell (h : Half) : ∃ b0 b1, halfBytes h = [b0, b1] ∧ halfOf [b0, b1] = h :=
  by
  have length := halfBytes_length h
  have value := halfOf_halfBytes h
  generalize halfBytes h = l at length value
  match l, length, value with
  | [b0, b1], _, value => exact ⟨b0, b1, rfl, value⟩

theorem commandOf_insert (i : Identity) (cls address pinned : Byte) (lease : Half) (n : Byte) (d : List Byte) (hd : d.length ≤ 40) :
    commandOf 0x04 (identityBytes i ++ [cls, address, pinned] ++ halfBytes lease ++ [n] ++ d) = some (.operation (.insert i cls address pinned lease n d)) := by
  obtain ⟨b0, b1, b2, b3, b4, b5, e, f⟩ := identityBytes_spell i
  obtain ⟨c0, c1, e', f'⟩ := halfBytes_spell lease
  rw [e, e']; simp [commandOf, f, f', hd]
theorem commandOf_modify (index gen sel cls pinned : Byte) (lease : Half) (address n : Byte) (d : List Byte) (hd : d.length ≤ 40) :
    commandOf 0x05 ([index, gen, sel, cls, pinned] ++ halfBytes lease ++ [address, n] ++ d) = some (.operation (.modify index gen sel cls pinned lease address n d)) := by
  obtain ⟨c0, c1, e', f'⟩ := halfBytes_spell lease
  rw [e']; simp [commandOf, f', hd]
theorem commandOf_find (i : Identity) : commandOf 0x02 (identityBytes i) = some (.operation (.findIdentity i)) := by
  obtain ⟨b0, b1, b2, b3, b4, b5, e, f⟩ := identityBytes_spell i
  rw [e]; simp [commandOf, f]
theorem commandOf_writeClass (cls en : Byte) (l h : Half) :
    commandOf 0x10 ([cls, en] ++ halfBytes l ++ halfBytes h) = some (.operation (.writeClass cls en l h)) := by
  obtain ⟨c0, c1, e', f'⟩ := halfBytes_spell l
  obtain ⟨d0, d1, e, f⟩ := halfBytes_spell h
  rw [e, e']; simp [commandOf, f, f']
theorem commandOf_writeRule (rule valid : Byte) (value : Identity) (l cm act lo hi : Byte) (o : Half) (p : Byte) :
    commandOf 0x13 ([rule, valid] ++ identityBytes value ++ [l, cm, act, lo, hi] ++ halfBytes o ++ [p]) = some (.operation (.writeRule rule valid value l cm act lo hi o p)) := by
  obtain ⟨b0, b1, b2, b3, b4, b5, e, f⟩ := identityBytes_spell value
  obtain ⟨c0, c1, e', f'⟩ := halfBytes_spell o
  rw [e, e']; simp [commandOf, f, f']
theorem commandOf_writeParameter (i : Byte) (v : Half) : commandOf 0x15 ([i] ++ halfBytes v) = some (.operation (.writeParameter i v)) := by
  obtain ⟨c0, c1, e', f'⟩ := halfBytes_spell v
  rw [e']; simp [commandOf, f']
theorem commandOf_rehash (v : Half) : commandOf 0x1A (halfBytes v) = some (.operation (.rehash v)) := by
  obtain ⟨c0, c1, e', f'⟩ := halfBytes_spell v
  rw [e']; simp [commandOf, f']

/-! ### What a frame can spell -/

/-- No frame spells a later step of a run or its ending: those come from the port itself (R32, R38). -/
theorem commandOf_outer {code : Byte} {args : List Byte} {i : Instr} (h : commandOf code args = some (.operation i)) :
    i ≠ .rehashStep ∧ i ≠ .rehashAbortEnding := by
  unfold commandOf at h
  iterate 29
    rcases ite_eq_iff.1 h with ⟨_, h⟩ | ⟨_, h⟩
    · clear * - h
      split at h <;> first
        | (cases h; exact ⟨nofun, nofun⟩)
        | (split at h <;> cases h; exact ⟨nofun, nofun⟩)
        | cases h
  cases h

/-- A good frame is what its code and arguments spell (R153). -/
theorem checkFrame_body {bytes : List Byte} {overflow : Bool} {f : HostFrame} (h : checkFrame bytes overflow = some f) :
    ∃ code args, commandOf code args = some f.body := by
  unfold checkFrame at h
  split at h
  · split at h
    · cases h
    · obtain ⟨b, hb, rfl⟩ := Option.map_eq_some_iff.1 h
      exact ⟨_, _, hb⟩
  · cases h
end Sys2Proof.Machine
end

