-- ==== Sys2Proof/Laws/Events.lean ====
section
/-! SUPPORT. Every step, said once: the kinds of event that a row can be, with what each needs and what each leaves. -/

namespace Sys2Proof.Machine

/-- What a host transaction's bytes, start and end leave of the port: readiness, command, abort request, and a frame buffer within its
room. -/
structure Port.SameCommand (p q : Port) : Prop where
  ready : q.ready = p.ready
  command : q.command = p.command
  abort : q.abortRequest = p.abortRequest
  room : p.frame.length ≤ Config.frameCapacity → q.frame.length ≤ Config.frameCapacity

theorem Port.SameButData.sameCommand {p q : Port} (h : p.SameButData q) : p.SameCommand q :=
  ⟨h.ready, h.command, h.abortRequest, h.room⟩

/-- What one row does to the part. -/
inductive Event (s : State) : State → Prop
  /-- Nothing: an occasion that is absent. -/
  | same : Event s s
  /-- An operation is granted. -/
  | granted (r : Requester) (i : Instr) (table : Table) (service : Service) (granted : Granted s r i)
      (row : requesterOf i = some r ∨ i = .abort ∧ r = .host) (requester : service.requester = r)
      (step : service = .step → ofRehash i) (effect : ServedTable s.expiry.time s.table i table)
      (runs : exec i s = .next (s.served r table service)) : Event s (s.served r table service)
  /-- A transaction on the member bus ends. -/
  | busEnd (before : List BusActivity) : Event s (s.endTransaction before)
  /-- An address byte, after the end of the transaction before. -/
  | address (before : List BusActivity) (a : Addr) (read : Bool) (after : List BusActivity) (later : List (List BusActivity))
      (alive : s.life ≠ .inReset) :
      Event s ((s.endTransaction before).addressed a read after later)
  /-- A request completes. -/
  | answered (a : Answer) (served : s.service = some (.request a)) :
      Event s { s.endService false with target := s.target.deliver a.bytes }.lookForDue
  /-- A stretch ends at its limit. -/
  | limit (phase : s.target.phase = .stretching) : Event s { s with target := s.target.release Answer.busy.bytes }
  /-- The bus is stuck. -/
  | stuck (phase : s.target.phase.watched = true) :
      Event s { s with target := s.target.abandon, alert := s.alert.busFault s.seen }
  /-- A host transaction begins, goes on or ends without a command taken; an abort request may be made while a REHASH executes. -/
  | port (p : Port) (alive : s.life ≠ .inReset ∨ s.port.selected = true) (same : s.port.SameCommand p) :
      Event s { s with port := p }
  /-- An abort request, which counts while a REHASH executes. -/
  | abort (p : Port) (ready : p.ready = s.port.ready) (command : p.command = s.port.command)
      (request : p.abortRequest = (s.port.abortRequest || s.port.executingRehash))
      (room : s.port.frame.length ≤ Config.frameCapacity → p.frame.length ≤ Config.frameCapacity)
      (quiet : s.port.selected = true ∨ s.port.executingRehash = true ∨ p = s.port) : Event s { s with port := p }
  /-- A command is accepted. -/
  | submitted (p : Port) (i : Instr) (idle : s.port.command = .idle) (wasReady : s.port.ready = true) (ready : p.ready = true)
      (command : p.command = .executing i) (request : p.abortRequest = s.port.abortRequest)
      (room : s.port.frame.length ≤ Config.frameCapacity → p.frame.length ≤ Config.frameCapacity)
      (outer : i ≠ .rehashStep ∧ i ≠ .rehashAbortEnding) :
      Event s { s with port := p, arbiter := { s.arbiter with host := some i } }
  /-- A hard reset begins. -/
  | reset : Event s s.hardReset
  /-- A hard reset begins and ends at once. -/
  | cleared (asel : BitVec 2) : Event s (s.hardReset.endReset asel)
  /-- A hard reset ends. -/
  | resetEnd (asel : BitVec 2) (life : s.life = .inReset) : Event s (s.endReset asel)
  /-- Initialisation ends. -/
  | started (life : s.life = .initialising) : Event s { s with
      life := .running, target := { s.target with listening := true }, port := { s.port with ready := true } }.lookForDue
  /-- A millisecond, after the bus's activity in it. -/
  | tick (alive : s.life ≠ .inReset) :
      Event s { s with target := s.target.hearsMillisecond }.countMillisecond.lookForDue
  /-- The coalescing timer has run out. -/
  | ripened (timer : s.alert.timer = .running 0) :
      Event s { s with alert := { s.alert with timer := .expired }.look s.seen }
  /-- A command completes, with its own completion event. -/
  | completed (v : Service) (r : Result) (served : s.service = some v) (requester : v.requester = .host)
      (ends : v ≠ .step) :
      Event s { s.endService true with port := s.port.place r }.lookForDue
  /-- A retention reset completes. -/
  | retained (r : Result) (served : s.service = some (.retention r)) :
      Event s ({ s.endService true with port := s.port.place r }.retainTarget).lookForDue
  /-- An alert is acknowledged. -/
  | acknowledged (tag : Byte) (served : s.service = some (.ackAlert tag)) : Event s (s.acknowledge tag).lookForDue
  /-- A step of a run completes and the next one is submitted. -/
  | stepped (served : s.service = some .step) : Event s
      { s.endService false with arbiter := { s.arbiter with host := some s.port.nextStep } }.lookForDue
  /-- An expiry operation completes. -/
  | expired (served : s.service = some .expiry) :
      Event s { s.endService false with expiry := { s.expiry with outstanding := false } }.lookForDue

/-- The CS# rise of a COMMAND transaction that the port followed. -/
theorem endFrame_event {s : State} {p : Port} (h : s.port.SameButData p) (selected : s.port.selected = true) (asel : BitVec 2) :
    Event s ({ s with port := p }.endFrame asel) := by
  unfold State.endFrame
  simp only
  split
  · exact .port _ (.inr selected) ⟨h.ready, h.command, h.abortRequest, fun _ => Nat.zero_le _⟩
  · next ready =>
    have ready : p.ready = true := by simpa using ready
    split
    · exact .port _ (.inr selected) ⟨h.ready, h.command, h.abortRequest, fun _ => Nat.zero_le _⟩
    · next f hf =>
      obtain ⟨_, _, spelt⟩ := checkFrame_body hf
      unfold State.takeFrame
      split
      · next i idle body =>
        exact .submitted (p.deselect.acceptCommand f.sequence i) i (h.command.symm.trans idle) (h.ready.symm.trans ready) ready rfl
          h.abortRequest (fun _ => Nat.zero_le _) (commandOf_outer (spelt.trans (congrArg some body)))
      · exact .cleared asel
      · refine .abort _ h.ready h.command ?_ (fun _ => Nat.zero_le _) (.inl selected)
        show (p.abortRequest || p.deselect.executingRehash) = _
        rw [h.abortRequest]
        show (_ || p.executingRehash) = _
        unfold Port.executingRehash
        rw [h.command]
      · exact .port _ (.inr selected) ⟨h.ready, h.command, h.abortRequest, fun _ => Nat.zero_le _⟩

/-- Every row is one of these events. -/
theorem exec_event (i : Instr) (s : State) : ∃ t, exec i s = .next t ∧ Event s t := by
  cases hr : requesterOf i with
  | some r =>
    rcases exec_grant hr s with h | ⟨g, table, service, v, hs, ht, h⟩
    · exact ⟨s, h, .same⟩
    · exact ⟨_, h, .granted r i table service g (.inl hr) v hs ht h⟩
  | none =>
    cases i <;> simp only [requesterOf, reduceCtorEq] at hr
    case addressByte before a read after later =>
      simp only [exec, execAddressByte]
      split
      · exact ⟨_, rfl, .same⟩
      · next h => exact ⟨_, rfl, .address before a read after later h⟩
    case writeEnd before => exact ⟨_, rfl, .busEnd before⟩
    case stopCondition before => exact ⟨_, rfl, .busEnd before⟩
    case requestCompletion =>
      simp only [exec, execRequestCompletion]
      split
      · next a h => exact ⟨_, rfl, .answered a h⟩
      · exact ⟨_, rfl, .same⟩
    case stretchLimitReached =>
      simp only [exec, execStretchLimitReached]
      split
      · next h => exact ⟨_, rfl, .limit h.1⟩
      · exact ⟨_, rfl, .same⟩
    case busStuck =>
      simp only [exec, execBusStuck]
      split
      · next h => exact ⟨_, rfl, .stuck h.1⟩
      · exact ⟨_, rfl, .same⟩
    case hostTransactionStart received =>
      simp only [exec, execHostTransactionStart]
      split
      · exact ⟨_, rfl, .same⟩
      · next alive =>
        obtain ⟨p, e, h⟩ := hostBytes_frame s.selectPort received
        refine ⟨_, rfl, ?_⟩
        rw [e]
        exact .port p (.inl alive) ⟨h.ready, h.command, h.abortRequest, fun _ => h.room (Nat.zero_le _)⟩
    case commandFrameEnd received asel =>
      simp only [exec, execCommandFrameEnd]
      rcases endOfKind_cases s [.command] received fun heard => heard.endFrame asel with e | ⟨p, h, sel, _, e⟩
      · exact ⟨s, e, .same⟩
      · exact ⟨_, e, endFrame_event h (h.selected.symm.trans sel) asel⟩
    case readResult received =>
      simp only [exec, execReadResult]
      rcases endOfKind_cases s [.readResult] received fun heard => { heard with port := heard.port.endRead } with
        e | ⟨p, h, sel, _, e⟩
      · exact ⟨s, e, .same⟩
      · exact ⟨_, e, .port _ (.inr (h.selected.symm.trans sel)) ⟨h.ready, h.command, h.abortRequest, fun _ => Nat.zero_le _⟩⟩
    case readStatus received rise =>
      simp only [exec, execReadStatus]
      rcases endOfKind_cases s [.readStatus] received fun heard =>
        if rise then { heard with port := heard.port.deselect } else heard with e | ⟨p, h, sel, _, e⟩
      · exact ⟨s, e, .same⟩
      · refine ⟨_, e, ?_⟩
        cases rise
        · exact .port _ (.inr (h.selected.symm.trans sel)) h.sameCommand
        · exact .port _ (.inr (h.selected.symm.trans sel)) ⟨h.ready, h.command, h.abortRequest, fun _ => Nat.zero_le _⟩
    case unknownTransaction received =>
      simp only [exec, execUnknownTransaction]
      rcases endOfKind_cases s [.unknown, .none] received fun heard => { heard with port := heard.port.deselect } with
        e | ⟨p, h, sel, _, e⟩
      · exact ⟨s, e, .same⟩
      · exact ⟨_, e, .port _ (.inr (h.selected.symm.trans sel)) ⟨h.ready, h.command, h.abortRequest, fun _ => Nat.zero_le _⟩⟩
    case commandCompletion =>
      simp only [exec, execCommandCompletion]
      split
      · next r h => exact ⟨_, rfl, .completed _ r h rfl nofun⟩
      · next r h => exact ⟨_, rfl, .retained r h⟩
      · next tag h =>
        refine ⟨_, rfl, ?_⟩
        unfold State.completeAck
        split
        · exact .acknowledged tag h
        · exact .completed _ _ h rfl nofun
      · next h => exact ⟨_, rfl, .completed _ _ h rfl nofun⟩
      all_goals exact ⟨_, rfl, .same⟩
    case abort =>
      simp only [exec, execAbort]
      split
      · next w =>
        rcases grantCommand_cases s .abort (.ok [], s.table) with e | ⟨g, e⟩
        · exact ⟨_, e, .same⟩
        · exact ⟨_, e, .granted .host .abort _ _ g (.inr ⟨rfl, rfl⟩) rfl nofun (.same _) ((if_pos w).trans e)⟩
      · refine ⟨_, rfl, .abort _ rfl rfl rfl id ?_⟩
        cases h : s.port.executingRehash
        · exact .inr (.inr (by simp [Port.requestAbort, h]))
        · exact .inr (.inl rfl)
    case resetAsserted => exact ⟨_, rfl, .reset⟩
    case resetEnd asel =>
      simp only [exec, execResetEnd]
      split
      · next h => exact ⟨_, rfl, .resetEnd asel h⟩
      · exact ⟨_, rfl, .same⟩
    case initialisationEnd =>
      simp only [exec, execInitialisationEnd]
      split
      · next h => exact ⟨_, rfl, .started h⟩
      · exact ⟨_, rfl, .same⟩
    case authorityTimeTick =>
      simp only [exec, execAuthorityTimeTick]
      split
      · exact ⟨_, rfl, .same⟩
      · next h => exact ⟨_, rfl, .tick h⟩
    case coalescingTimerExpiry =>
      simp only [exec, execCoalescingTimerExpiry]
      split
      · next h => exact ⟨_, rfl, .ripened h⟩
      · exact ⟨_, rfl, .same⟩
    case expiryOperationCompletion =>
      simp only [exec, execExpiryOperationCompletion]
      split
      · next h => exact ⟨_, rfl, .expired h⟩
      · exact ⟨_, rfl, .same⟩
    case stepOperationCompletion =>
      simp only [exec, execStepOperationCompletion]
      split
      · next h => exact ⟨_, rfl, .stepped h⟩
      · exact ⟨_, rfl, .same⟩

/-- A property that every event keeps, and that the queue of commands has no part in, is kept by every step. -/
theorem step_keeps {P : State → Prop} (queue : ∀ s l, P s → P { s with pending := l }) (keep : ∀ s t, Event s t → P s → P t)
    {s t : State} (h : step s = .next t) (hs : P s) : P t := by
  unfold step at h
  split at h
  · injection h with h; exact h ▸ hs
  · next c rest _ =>
    obtain ⟨u, e, ev⟩ := exec_event c { s with pending := rest }
    rw [e] at h
    injection h with h
    exact h ▸ keep _ _ ev (queue s rest hs)

end Sys2Proof.Machine
end

