-- ==== Sys2Proof/Laws/PerInstr.lean ====
section
/-! SUPPORT. What every command is as syntax, one lemma for each constructor: a well-formed request's message fits the receive buffer,
a well-formed command's frame fits the command frame buffer. -/

namespace Sys2Proof.Laws.Shape

open Sys2Proof.Machine

/-- The message of a well-formed request fits the receive buffer (R133, R137), and the frame of a well-formed command fits the
command frame buffer (R149, 13.4). A row that neither a message nor a frame brings has neither. -/
def Statement (i : Instr) : Prop :=
  i.wellFormed = true →
    (∀ kind payload, requestBody i = some (kind, payload) → (requestMessage kind payload).length ≤ Config.receiveCapacity) ∧
    (∀ code arguments, commandBody i = some (code, arguments) →
      ∀ sequence, (commandFrame code sequence arguments).length ≤ Config.frameCapacity)

/-- A row with no message and no frame. -/
theorem of_neither {i : Instr} (hr : requestBody i = none) (hc : commandBody i = none) : Statement i := by
  intro _
  rw [hr, hc]
  exact ⟨nofun, nofun⟩

/-- A request whose payload fits. -/
theorem of_request {i : Instr} {kind : Byte} {payload : List Byte} (hr : requestBody i = some (kind, payload))
    (hc : commandBody i = none) (fits : i.wellFormed = true → payload.length ≤ 53) : Statement i := by
  intro w
  have n := fits w
  rw [hr, hc]
  refine ⟨fun k p h => ?_, nofun⟩
  obtain ⟨rfl, rfl⟩ := Prod.mk.inj (Option.some.inj h)
  simp only [requestMessage, Config.receiveCapacity, List.length_append, List.length_cons, List.length_nil]
  omega

/-- A command whose arguments fit. -/
theorem of_command {i : Instr} {code : Byte} {arguments : List Byte} (hr : requestBody i = none)
    (hc : commandBody i = some (code, arguments)) (fits : i.wellFormed = true → arguments.length ≤ 56) : Statement i := by
  intro w
  have n := fits w
  rw [hr, hc]
  refine ⟨nofun, fun k p h q => ?_⟩
  obtain ⟨rfl, rfl⟩ := Prod.mk.inj (Option.some.inj h)
  simp only [commandFrame, Config.frameCapacity, List.length_append, List.length_cons, List.length_nil]
  omega

theorem claim : ∀ a b c d, Statement (.claim a b c d) := by
  intro a b c d
  refine of_request rfl rfl fun w => ?_
  have n : d.length ≤ 40 := of_decide_eq_true w
  simp only [List.length_append, List.length_cons, List.length_nil, identityBytes_length]
  omega

theorem accept : ∀ a b c, Statement (.accept a b c) :=
  fun _ _ _ => of_request rfl rfl fun _ => by simp [identityBytes_length]

theorem renew : ∀ a b, Statement (.renew a b) :=
  fun _ _ => of_request rfl rfl fun _ => by simp [identityBytes_length]

theorem release : ∀ a b, Statement (.release a b) :=
  fun _ _ => of_request rfl rfl fun _ => by simp [identityBytes_length]

theorem resolve : ∀ a, Statement (.resolve a) :=
  fun _ => of_request rfl rfl fun _ => by simp [identityBytes_length]

theorem whois : ∀ a, Statement (.whois a) :=
  fun _ => of_request rfl rfl fun _ => by simp

theorem describe : ∀ a b, Statement (.describe a b) :=
  fun _ _ => of_request rfl rfl fun _ => by simp

theorem enumerate : ∀ a b c, Statement (.enumerate a b c) :=
  fun _ _ _ => of_request rfl rfl fun _ => by simp

theorem query : Statement .query :=
  of_request rfl rfl fun _ => by simp

theorem addressByte : ∀ a b c d e, Statement (.addressByte a b c d e) :=
  fun _ _ _ _ _ => of_neither rfl rfl

theorem writeEnd : ∀ a, Statement (.writeEnd a) :=
  fun _ => of_neither rfl rfl

theorem requestCompletion : Statement .requestCompletion :=
  of_neither rfl rfl

theorem stretchLimitReached : Statement .stretchLimitReached :=
  of_neither rfl rfl

theorem busStuck : Statement .busStuck :=
  of_neither rfl rfl

theorem hostTransactionStart : ∀ a, Statement (.hostTransactionStart a) :=
  fun _ => of_neither rfl rfl

theorem commandFrameEnd : ∀ a b, Statement (.commandFrameEnd a b) :=
  fun _ _ => of_neither rfl rfl

theorem readResult : ∀ a, Statement (.readResult a) :=
  fun _ => of_neither rfl rfl

theorem readStatus : ∀ a b, Statement (.readStatus a b) :=
  fun _ _ => of_neither rfl rfl

theorem unknownTransaction : ∀ a, Statement (.unknownTransaction a) :=
  fun _ => of_neither rfl rfl

theorem commandCompletion : Statement .commandCompletion :=
  of_neither rfl rfl

theorem readEntry : ∀ a, Statement (.readEntry a) :=
  fun _ => of_command rfl rfl fun _ => by simp

theorem findIdentity : ∀ a, Statement (.findIdentity a) :=
  fun _ => of_command rfl rfl fun _ => by simp [identityBytes_length]

theorem readBucket : ∀ a, Statement (.readBucket a) :=
  fun _ => of_command rfl rfl fun _ => by simp

theorem insert : ∀ a b c d e f g, Statement (.insert a b c d e f g) := by
  intro a b c d e f g
  refine of_command rfl rfl fun w => ?_
  have n : g.length ≤ 40 := of_decide_eq_true w
  simp only [List.length_append, List.length_cons, List.length_nil, identityBytes_length, halfBytes_length]
  omega

theorem modify : ∀ a b c d e f g h j, Statement (.modify a b c d e f g h j) := by
  intro a b c d e f g h j
  refine of_command rfl rfl fun w => ?_
  have n : j.length ≤ 40 := of_decide_eq_true w
  simp only [List.length_append, List.length_cons, List.length_nil, halfBytes_length]
  omega

theorem retire : ∀ a b c, Statement (.retire a b c) :=
  fun _ _ _ => of_command rfl rfl fun _ => by simp

theorem readAddress : ∀ a, Statement (.readAddress a) :=
  fun _ => of_command rfl rfl fun _ => by simp

theorem reserve : ∀ a, Statement (.reserve a) :=
  fun _ => of_command rfl rfl fun _ => by simp

theorem unreserve : ∀ a, Statement (.unreserve a) :=
  fun _ => of_command rfl rfl fun _ => by simp

theorem unquarantine : ∀ a, Statement (.unquarantine a) :=
  fun _ => of_command rfl rfl fun _ => by simp

theorem readQuarantine : ∀ a, Statement (.readQuarantine a) :=
  fun _ => of_command rfl rfl fun _ => by simp

theorem readSlot : ∀ a, Statement (.readSlot a) :=
  fun _ => of_command rfl rfl fun _ => by simp

theorem approve : ∀ a b c, Statement (.approve a b c) :=
  fun _ _ _ => of_command rfl rfl fun _ => by simp

theorem deny : ∀ a b, Statement (.deny a b) :=
  fun _ _ => of_command rfl rfl fun _ => by simp

theorem readClass : ∀ a, Statement (.readClass a) :=
  fun _ => of_command rfl rfl fun _ => by simp

theorem writeClass : ∀ a b c d, Statement (.writeClass a b c d) :=
  fun _ _ _ _ => of_command rfl rfl fun _ => by simp [halfBytes_length]

theorem readClassList : ∀ a b, Statement (.readClassList a b) :=
  fun _ _ => of_command rfl rfl fun _ => by simp

theorem readRule : ∀ a, Statement (.readRule a) :=
  fun _ => of_command rfl rfl fun _ => by simp

theorem writeRule : ∀ a b c d e f g h j k, Statement (.writeRule a b c d e f g h j k) :=
  fun _ _ _ _ _ _ _ _ _ _ => of_command rfl rfl fun _ => by simp [identityBytes_length, halfBytes_length]

theorem readParameter : ∀ a, Statement (.readParameter a) :=
  fun _ => of_command rfl rfl fun _ => by simp

theorem writeParameter : ∀ a b, Statement (.writeParameter a b) :=
  fun _ _ => of_command rfl rfl fun _ => by simp [halfBytes_length]

theorem readAuthority : Statement .readAuthority :=
  of_command rfl rfl fun _ => by simp

theorem nextChange : Statement .nextChange :=
  of_command rfl rfl fun _ => by simp

theorem ackAlert : ∀ a, Statement (.ackAlert a) :=
  fun _ => of_command rfl rfl fun _ => by simp

theorem readAlert : Statement .readAlert :=
  of_command rfl rfl fun _ => by simp

theorem rehash : ∀ a, Statement (.rehash a) :=
  fun _ => of_command rfl rfl fun _ => by simp [halfBytes_length]

theorem rehashStep : Statement .rehashStep :=
  of_neither rfl rfl

theorem rehashAbortEnding : Statement .rehashAbortEnding :=
  of_neither rfl rfl

theorem abort : Statement .abort :=
  of_command rfl rfl fun _ => by simp

theorem resetKeep : Statement .resetKeep :=
  of_command rfl rfl fun _ => by simp

theorem resetAsserted : Statement .resetAsserted :=
  of_neither rfl rfl

theorem resetEnd : ∀ a, Statement (.resetEnd a) :=
  fun _ => of_neither rfl rfl

theorem initialisationEnd : Statement .initialisationEnd :=
  of_neither rfl rfl

theorem authorityTimeTick : Statement .authorityTimeTick :=
  of_neither rfl rfl

theorem offerExpiry : ∀ a b, Statement (.offerExpiry a b) :=
  fun _ _ => of_neither rfl rfl

theorem approvalExpiry : ∀ a b, Statement (.approvalExpiry a b) :=
  fun _ _ => of_neither rfl rfl

theorem refusalExpiry : ∀ a b, Statement (.refusalExpiry a b) :=
  fun _ _ => of_neither rfl rfl

theorem leaseLapse : ∀ a b, Statement (.leaseLapse a b) :=
  fun _ _ => of_neither rfl rfl

theorem revalidationEnd : ∀ a b, Statement (.revalidationEnd a b) :=
  fun _ _ => of_neither rfl rfl

theorem holdEnd : ∀ a b, Statement (.holdEnd a b) :=
  fun _ _ => of_neither rfl rfl

theorem quarantineEnd : ∀ a b, Statement (.quarantineEnd a b) :=
  fun _ _ => of_neither rfl rfl

theorem coalescingTimerExpiry : Statement .coalescingTimerExpiry :=
  of_neither rfl rfl

theorem stopCondition : ∀ a, Statement (.stopCondition a) :=
  fun _ => of_neither rfl rfl

theorem expiryOperationCompletion : Statement .expiryOperationCompletion :=
  of_neither rfl rfl

theorem stepOperationCompletion : Statement .stepOperationCompletion :=
  of_neither rfl rfl

end Sys2Proof.Laws.Shape
end

