-- ==== Sys2Proof/Laws/Records.lean ====
section
/-! SUPPORT. Every operation over the table keeps the agreement of its records (R2, R23, R42, R44, R67, R79, R122). -/

namespace Sys2Proof.Machine

/-! ### What the searches find -/

namespace Table

/-- The lowest-numbered VACANT entry (R8). -/
theorem lowestVacant_eq_some (t : Table) (i : EntryIx) :
    t.lowestVacant = some i ↔ (t.entry i).life = .vacant ∧ ∀ k, k < i → (t.entry k).life ≠ .vacant := by
  have e : ∀ l : EntryLife, l.isVacant = true ↔ l = .vacant := by intro l; cases l <;> simp [EntryLife.isVacant]
  unfold lowestVacant
  rw [find_finRange_iff, e]
  refine and_congr_right fun _ => forall₂_congr fun k _ => ?_
  rw [← Bool.not_eq_true, e]

theorem lowestVacant_eq_none (t : Table) : t.lowestVacant = none ↔ ∀ k, (t.entry k).life ≠ .vacant := by
  have e : ∀ l : EntryLife, l.isVacant = true ↔ l = .vacant := by intro l; cases l <;> simp [EntryLife.isVacant]
  unfold lowestVacant
  simp only [List.find?_eq_none, List.mem_finRange, forall_const, e, ne_eq]

/-- The lowest-numbered FREE slot (R80). -/
theorem lowestFreeSlot_eq_some (t : Table) (j : SlotIx) :
    t.lowestFreeSlot = some j ↔ t.slot j = .free ∧ ∀ k, k < j → t.slot k ≠ .free := by
  unfold lowestFreeSlot
  rw [find_finRange_iff]
  simp only [decide_eq_true_eq, decide_eq_false_iff_not, ne_eq]

theorem lowestFreeSlot_eq_none (t : Table) : t.lowestFreeSlot = none ↔ ∀ k, t.slot k ≠ .free := by
  unfold lowestFreeSlot
  simp only [List.find?_eq_none, List.mem_finRange, forall_const, decide_eq_true_eq, ne_eq]

/-- The REFUSED slot of an identity (R82). -/
theorem refusedSlot_eq_some {t : Table} {identity : Identity} {j : SlotIx} (h : t.refusedSlot identity = some j) :
    ∃ c, t.slot j = .refused c ∧ c.identity = identity := by
  have := List.find?_some h
  split at this
  · next c e => exact ⟨c, e, by simpa using this⟩
  · cases this

theorem refusedSlot_eq_none (t : Table) (identity : Identity) :
    t.refusedSlot identity = none ↔ ∀ j c, t.slot j = .refused c → c.identity ≠ identity := by
  unfold refusedSlot
  simp only [List.find?_eq_none, List.mem_finRange, forall_const]
  refine forall_congr' fun j => ?_
  cases t.slot j <;> simp

/-- In an exact index no live entry holds an identity that is not found (R27). -/
theorem IndexIsExact.fresh {t : Table} (h : t.IndexIsExact) {identity : Identity} (hn : t.lookup identity = none) (k : EntryIx)
    (live : (t.entry k).life ≠ .vacant) : (t.entry k).identity ≠ identity := by
  rintro rfl
  have := List.find?_eq_none.1 hn k ((h.indexed k _).2 ⟨live, rfl⟩)
  cases hl : (t.entry k).life <;> simp_all [EntryLife.isVacant]

/-- What a lookup finds is a live entry. -/
theorem live_of_lookup {t : Table} {identity : Identity} {i : EntryIx} (h : t.lookup identity = some i) :
    (t.entry i).life ≠ .vacant := by
  have := List.find?_some h
  intro e
  simp [e, EntryLife.isVacant] at this

/-- A chosen address is no entry's (R50, R51). -/
theorem AddressesAgree.chosen {t : Table} (h : t.AddressesAgree) {low high a : Addr} {preferred : Option Addr}
    (hc : t.chooseAddr low high preferred = some a) : (t.addr a).entry = none := by
  unfold chooseAddr at hc
  rw [Option.or_eq_some_iff, Option.or_eq_some_iff] at hc
  rcases hc with (hc | ⟨_, hc⟩) | ⟨_, hc⟩
  · have := (Option.filter_eq_some_iff.1 hc).2
    simp only [Bool.and_eq_true, decide_eq_true_eq] at this
    rw [this.2]; rfl
  · have := List.find?_some hc
    simp only [Bool.and_eq_true, decide_eq_true_eq] at this
    rw [this.2]; rfl
  · split at hc
    · obtain ⟨x, hx, rfl⟩ := List.mem_map.1 (List.mem_of_find?_eq_some hc)
      rw [(h.quarantined x.address x.endTime).2 hx]; rfl
    · cases hc

end Table

namespace Agree

open Table

variable {t u : Table}

/-- The queue without one address. -/
theorem queue_without (h : Agree t) (a : Addr) : (((t.book.queue.filter fun y => y.address ≠ a).map fun y => y.address)).Nodup :=
  h.addresses.once.sublist (List.Sublist.map _ List.filter_sublist)

theorem mem_queue_without (a : Addr) (y : QuarantineItem) :
    y ∈ (t.book.queue.filter fun y => y.address ≠ a) ↔ y ∈ t.quarantine ∧ y.address ≠ a := by
  rw [List.mem_filter, decide_eq_true_eq]
  rfl

/-! ### Retirement and lapse -/

/-- A FREE address is quarantined, read off the book. -/
theorem of_quarantine {v : Table} (h : Agree v) {a : Addr} {d : Time} {p : QuarantineItem → Bool} (ha : v.addr a = .free)
    (hu : u.book = { v.book with
      addr := upd v.book.addr a (.quarantined d), queue := insertBehind p { address := a, endTime := d } v.book.queue }) : Agree u :=
  h.quarantine a d _ ha (perm_insertBehind ..) hu

/-- What retiring an AWAITING entry does. -/
theorem book_retire_awaiting {i : EntryIx} {j : SlotIx} (hl : (t.entry i).life = .awaiting j) (now : Time) (f : Bool) :
    (t.retireEntry now f i).book = { t.book with
      life := upd t.book.life i .vacant
      bucket := upd t.book.bucket (bucketOf t.seed (t.entry i).identity)
        ((t.book.bucket (bucketOf t.seed (t.entry i).identity)).filter (· ≠ i))
      slot := upd t.book.slot j .free
      items := (t.book.items.filter fun y => y.kind.owner ≠ Owner.slot j).filter fun y => y.kind.owner ≠ Owner.entry i } := by
  unfold Table.retireEntry
  simp only [hl, book_addChange, book_setLife, book_dropDescriptor, book_removeItem, book_setSlot, book_setBucket]
  rfl

theorem retire_free (h : Agree t) (now : Time) (i : EntryIx) (live : (t.entry i).life ≠ .vacant) :
    Agree (t.retireEntry now true i) := by
  cases hl : (t.entry i).life with
  | vacant => exact absurd hl live
  | awaiting j => exact h.retire_awaiting i _ j hl rfl (book_retire_awaiting hl ..)
  | offered j a l d =>
    refine h.retire_offered i _ j a l d hl rfl ?_
    unfold Table.retireEntry
    simp only [hl, book_addChange, book_setLife, book_dropDescriptor, book_removeItem, book_setSlot, book_setBucket, book_setAddr]
    rfl
  | lapsed a l d =>
    refine h.retire_lapsed i _ a l d hl rfl ?_
    unfold Table.retireEntry
    simp only [hl, releaseAddr, Bool.true_or, if_true, book_addChange, book_setLife, book_dropDescriptor, book_removeItem,
      book_setBucket, book_setAddr]
    rfl
  | bound a l d | unverified a l d =>
    refine h.retire_listed i _ a ?_ rfl ?_
    · simp [hl]
    · unfold Table.retireEntry
      simp only [hl, releaseAddr, Bool.true_or, if_true, book_addChange, book_setLife, book_dropDescriptor, book_removeItem,
        book_setBucket, book_setAddr, book_removeMember]
      rfl

theorem retireEntry (h : Agree t) (now : Time) (f : Bool) (i : EntryIx) (live : (t.entry i).life ≠ .vacant) :
    Agree (t.retireEntry now f i) := by
  have free := h.retire_free now i live
  by_cases hq : (f || decide (t.params.quarantineTime = 0)) = true
  · have e : ∀ (v : Table) a, v.params = t.params → v.releaseAddr now f a = v.releaseAddr now true a := by
      intro v a hv
      unfold releaseAddr
      rw [hv, if_pos hq, if_pos (Bool.true_or _)]
    refine free.same (congrArg Table.book ?_)
    unfold Table.retireEntry
    cases hl : (t.entry i).life <;> simp only [hl]
    · rw [e ((t.setBucket _ _).removeMember _ _) _ rfl]
    · rw [e ((t.setBucket _ _).removeMember _ _) _ rfl]
    · rw [e (t.setBucket _ _) _ rfl]
  · have e : ∀ (v : Table) a, v.params = t.params →
        v.releaseAddr now f a = v.quarantineAddr a (afterSeconds now t.params.quarantineTime) := by
      intro v a hv
      unfold releaseAddr
      rw [hv, if_neg hq]
    cases hl : (t.entry i).life with
    | vacant => exact absurd hl live
    | awaiting j | offered j a l d => refine free.same ?_; unfold Table.retireEntry; simp only [hl]
    | bound a l d | unverified a l d =>
      refine of_quarantine (a := a) (d := afterSeconds now t.params.quarantineTime)
        (p := fun x => !earlier (afterSeconds now t.params.quarantineTime) x.endTime) free ?_ ?_
      · unfold Table.retireEntry
        simp [hl, releaseAddr, addr_setAddr]
      · unfold Table.retireEntry
        simp only [hl]
        rw [e ((t.setBucket _ _).removeMember _ _) _ rfl]
        simp only [releaseAddr, Bool.true_or, if_true, book_addChange, book_setLife, book_dropDescriptor, book_removeItem,
          book_setBucket, book_setAddr, book_removeMember, book_quarantineAddr, upd_upd]
    | lapsed a l d =>
      refine of_quarantine (a := a) (d := afterSeconds now t.params.quarantineTime)
        (p := fun x => !earlier (afterSeconds now t.params.quarantineTime) x.endTime) free ?_ ?_
      · unfold Table.retireEntry
        simp [hl, releaseAddr, addr_setAddr]
      · unfold Table.retireEntry
        simp only [hl]
        rw [e (t.setBucket _ _) _ rfl]
        simp only [releaseAddr, Bool.true_or, if_true, book_addChange, book_setLife, book_dropDescriptor, book_removeItem,
          book_setBucket, book_setAddr, book_quarantineAddr, upd_upd]

theorem retireAndEvaluate (h : Agree t) (now : Time) (f : Bool) (i : EntryIx) (live : (t.entry i).life ≠ .vacant) :
    Agree (t.retireAndEvaluate now f i) :=
  (h.retireEntry now f i live).same (book_evaluateAdmission _)

theorem lapseEntry (h : Agree t) (now : Time) (i : EntryIx) (a : Addr) (l : Half)
    (hl : (∃ l o, (t.entry i).life = .bound a l o) ∨ ∃ l o, (t.entry i).life = .unverified a l o) :
    Agree (t.lapseEntry now i a l) := by
  by_cases hr : (t.classRecord (t.entry i).cls).hold = 0 ∧ t.run = none
  · have listed : (t.entry i).life.address = some a ∧ ((t.entry i).life.state = .bound ∨ (t.entry i).life.state = .unverified) := by
      rcases hl with ⟨_, _, e⟩ | ⟨_, _, e⟩ <;> rw [e] <;> simp [EntryLife.address, EntryLife.state]
    rw [lapseEntry_retired now l hr.1 hr.2, ← retireEntry_listed now false listed.1 listed.2]
    exact h.retireAndEvaluate now false i (by rcases hl with ⟨_, _, e⟩ | ⟨_, _, e⟩ <;> rw [e] <;> nofun)
  · refine h.lapse i a l (afterSeconds now (t.classRecord (t.entry i).cls).hold) _ hl
      (perm_insertBehind (fun y => !earlier (afterSeconds now (t.classRecord (t.entry i).cls).hold) y.deadline) ..) ?_
    · unfold Table.lapseEntry
      simp only [if_neg hr, book_addChange, book_moveItem, book_setAddr, book_setLife, book_removeMember]
      rfl

/-! ### Leases -/

theorem startLease (h : Agree t) (now : Time) (i : EntryIx) (a : Addr) (l : Half)
    (hl : (∃ l o, (t.entry i).life = .bound a l o) ∨ ∃ l o, (t.entry i).life = .unverified a l o) :
    Agree (t.startLease now i a l) :=
  h.lease i a l _ _ hl (perm_insertBehind ..) (book_startLease ..)

theorem renewLease (h : Agree t) (now : Time) (i : EntryIx) : Agree (t.renewLease now i).1 := by
  unfold Table.renewLease
  split
  · next a l d hl => exact h.startLease now i a l (.inl ⟨_, _, hl⟩)
  · next a l d hl => exact (h.startLease now i a l (.inr ⟨_, _, hl⟩)).same (book_addChange _ _)
  · next a l d hl =>
    refine h.revive i a l l (afterSeconds now l) d _ hl
      (perm_insertBehind (fun y => !earlier (afterSeconds now l) y.deadline) ..) ?_
    · simp only [book_addChange, book_appendMember, book_setAddr, book_startLease]
      rfl
  · exact h

end Agree

end Sys2Proof.Machine
end

