-- ==== Sys2Proof/Laws/Walk.lean ====
section
/-! SUPPORT. The walk of a retention reset over the entries (R186): what one visit does, and what the whole walk has done. -/

namespace Sys2Proof.Machine

open Table

/-- An entry that a retention reset retires. -/
def Entry.leaves (e : Entry) : Bool := e.life.state = .awaiting || e.life.state = .offered || e.life.state = .lapsed

/-- An entry that a retention reset makes UNVERIFIED. -/
def Entry.goesOnProbation (e : Entry) : Bool := e.life.state = .bound && !e.life.pinned

/-- What a retention reset makes of an entry (R186). -/
def Entry.afterRetention (now : Time) (p : Params) (e : Entry) : Entry :=
  match e.life with
  | .awaiting _ | .offered _ _ _ _ | .lapsed _ _ _ => { e with life := .vacant, inlineBytes := [], blocks := [], truncated := false }
  | .bound a l (some _) => { e with life := .unverified a l (afterSeconds now p.revalidateTime) }
  | _ => e

/-- What one visit has done. -/
structure Walk.Visited (now : Time) (w w' : Walk) (i : EntryIx) : Prop where
  entry : ∀ k, w'.table.entry k = if k = i then Entry.afterRetention now w.table.params (w.table.entry i) else w.table.entry k
  cs : ∀ k, k ∈ w'.table.changeSet ↔ k ∈ w.table.changeSet ∨ (k = i ∧ (Entry.leaves (w.table.entry i) ∨ Entry.goesOnProbation (w.table.entry i)))
  rest : w'.table.classes = w.table.classes ∧ w'.table.rules = w.table.rules ∧ w'.table.params = w.table.params ∧ w'.table.seed = w.table.seed ∧ w'.table.run = w.table.run
  u : w'.unverified = w.unverified + (Entry.goesOnProbation (w.table.entry i)).toNat
  r : w'.retired = w.retired + (Entry.leaves (w.table.entry i)).toNat

theorem entry_withoutEntry (t : Table) (i k : EntryIx) : (t.withoutEntry i).entry k = if k = i then { t.entry i with life := .vacant, inlineBytes := [], blocks := [], truncated := false } else t.entry k :=
  get_set _ _ _ _

theorem walk_visit (now w i) : Walk.Visited now w (Walk.visit now w i) i := by
  unfold Walk.visit
  simp only
  cases hl : (w.table.entry i).life with
  | awaiting j =>
    simp only
    rw [retireEntry_awaiting now false hl]
    constructor
    · intro k; rw [show Entry.afterRetention now w.table.params (w.table.entry i) = _ by unfold Entry.afterRetention; rw [hl]]; exact entry_withoutEntry ..
    · intro k; simp [withoutEntry, mem_insertAscending, Entry.leaves, hl, EntryLife.state]; tauto
    · exact ⟨rfl, rfl, rfl, rfl, rfl⟩
    · simp [Entry.goesOnProbation, hl, EntryLife.state]
    · simp [Entry.leaves, hl, EntryLife.state]
  | offered j a l d =>
    simp only
    rw [retireEntry_offered now false hl]
    constructor
    · intro k; rw [show Entry.afterRetention now w.table.params (w.table.entry i) = _ by unfold Entry.afterRetention; rw [hl]]; exact entry_withoutEntry ..
    · intro k; simp [withoutEntry, mem_insertAscending, Entry.leaves, hl, EntryLife.state]; tauto
    · exact ⟨rfl, rfl, rfl, rfl, rfl⟩
    · simp [Entry.goesOnProbation, hl, EntryLife.state]
    · simp [Entry.leaves, hl, EntryLife.state]
  | lapsed a l d =>
    simp only
    rw [retireEntry_lapsed (a := a) now false (by simp [hl, EntryLife.address]) (by simp [hl, EntryLife.state])]
    have e1 : ∀ k, ((w.table.withoutEntry i).withReleased now false a).entry k = (w.table.withoutEntry i).entry k := by intro k; unfold withReleased; simp only; split <;> rfl
    have e2 : ((w.table.withoutEntry i).withReleased now false a).changeSet = (w.table.withoutEntry i).changeSet := by unfold withReleased; simp only; split <;> rfl
    constructor
    · intro k; rw [show Entry.afterRetention now w.table.params (w.table.entry i) = _ by unfold Entry.afterRetention; rw [hl]]; simp only [e1]; exact entry_withoutEntry ..
    · intro k; simp only [e2]; simp [withoutEntry, mem_insertAscending, Entry.leaves, hl, EntryLife.state]; tauto
    · unfold withReleased; simp only; split <;> exact ⟨rfl, rfl, rfl, rfl, rfl⟩
    · simp [Entry.goesOnProbation, hl, EntryLife.state]
    · simp [Entry.leaves, hl, EntryLife.state]
  | bound a l d =>
    cases d with
    | none =>
      simp only
      constructor
      · intro k; rw [show Entry.afterRetention now w.table.params (w.table.entry i) = _ by unfold Entry.afterRetention; rw [hl]]; split <;> simp_all
      · intro k; simp [Entry.leaves, Entry.goesOnProbation, hl, EntryLife.state, EntryLife.pinned]
      · exact ⟨rfl, rfl, rfl, rfl, rfl⟩
      · simp [Entry.goesOnProbation, hl, EntryLife.state, EntryLife.pinned]
      · simp [Entry.leaves, hl, EntryLife.state]
    | some d =>
      simp only
      constructor
      · intro k; rw [show Entry.afterRetention now w.table.params (w.table.entry i) = _ by unfold Entry.afterRetention; rw [hl]]
        exact get_set _ _ _ _
      · intro k; simp [addChange, mem_insertAscending, Entry.leaves, Entry.goesOnProbation, hl, EntryLife.state, EntryLife.pinned]; tauto
      · exact ⟨rfl, rfl, rfl, rfl, rfl⟩
      · simp [Entry.goesOnProbation, hl, EntryLife.state, EntryLife.pinned]
      · simp [Entry.leaves, hl, EntryLife.state]
  | unverified a l d =>
      simp only
      constructor
      · intro k; rw [show Entry.afterRetention now w.table.params (w.table.entry i) = _ by unfold Entry.afterRetention; rw [hl]]; split <;> simp_all
      · intro k; simp [Entry.leaves, Entry.goesOnProbation, hl, EntryLife.state, EntryLife.pinned]
      · exact ⟨rfl, rfl, rfl, rfl, rfl⟩
      · simp [Entry.goesOnProbation, hl, EntryLife.state, EntryLife.pinned]
      · simp [Entry.leaves, hl, EntryLife.state]
  | vacant =>
      simp only
      constructor
      · intro k; rw [show Entry.afterRetention now w.table.params (w.table.entry i) = _ by unfold Entry.afterRetention; rw [hl]]; split <;> simp_all
      · intro k; simp [Entry.leaves, Entry.goesOnProbation, hl, EntryLife.state, EntryLife.pinned]
      · exact ⟨rfl, rfl, rfl, rfl, rfl⟩
      · simp [Entry.goesOnProbation, hl, EntryLife.state, EntryLife.pinned]
      · simp [Entry.leaves, hl, EntryLife.state]

/-- What a walk over a list of entries has done. -/
structure Walk.Done (now : Time) (w w' : Walk) (l : List EntryIx) : Prop where
  entry : ∀ k, w'.table.entry k = if k ∈ l then Entry.afterRetention now w.table.params (w.table.entry k) else w.table.entry k
  cs : ∀ k, k ∈ w'.table.changeSet ↔ k ∈ w.table.changeSet ∨ (k ∈ l ∧ (Entry.leaves (w.table.entry k) ∨ Entry.goesOnProbation (w.table.entry k)))
  rest : w'.table.classes = w.table.classes ∧ w'.table.rules = w.table.rules ∧ w'.table.params = w.table.params ∧ w'.table.seed = w.table.seed ∧ w'.table.run = w.table.run
  u : w'.unverified = w.unverified + l.countP fun k => Entry.goesOnProbation (w.table.entry k)
  r : w'.retired = w.retired + l.countP fun k => Entry.leaves (w.table.entry k)

theorem walk_foldl (now : Time) (l : List EntryIx) (nd : l.Nodup) (w) : Walk.Done now w (l.foldl (Walk.visit now) w) l := by
  induction l generalizing w with
  | nil => exact ⟨by simp, by simp, ⟨rfl, rfl, rfl, rfl, rfl⟩, by simp, by simp⟩
  | cons i l ih =>
    obtain ⟨ni, nl⟩ := List.nodup_cons.1 nd
    have v := walk_visit now w i
    have f := ih nl (Walk.visit now w i)
    have ex : ∀ k ∈ l, (Walk.visit now w i).table.entry k = w.table.entry k := by
      intro k hk; rw [v.entry, if_neg]; rintro rfl; exact ni hk
    obtain ⟨r1, r2, r3, r4, r5⟩ := v.rest
    obtain ⟨f1, f2, f3, f4, f5⟩ := f.rest
    constructor
    · intro k
      rw [List.foldl_cons, f.entry, r3]
      by_cases hk : k ∈ l
      · rw [if_pos hk, if_pos (List.mem_cons_of_mem _ hk), ex k hk]
      · rw [if_neg hk, v.entry]
        by_cases hi : k = i
        · subst hi; simp
        · rw [if_neg hi, if_neg (by simp [hi, hk])]
    · intro k
      rw [List.foldl_cons, f.cs, v.cs]
      by_cases hk : k ∈ l
      · rw [ex k hk]
        have : k ≠ i := by rintro rfl; exact ni hk
        simp [this, hk]
      · by_cases hi : k = i
        · subst hi; simp [ni]
        · simp [hi, hk]
    · exact ⟨f1.trans r1, f2.trans r2, f3.trans r3, f4.trans r4, f5.trans r5⟩
    · rw [List.foldl_cons, f.u, v.u, List.countP_cons]
      rw [List.countP_congr (fun k hk => by rw [ex k hk])]
      cases Entry.goesOnProbation (w.table.entry i) <;> simp
      omega
    · rw [List.foldl_cons, f.r, v.r, List.countP_cons]
      rw [List.countP_congr (fun k hk => by rw [ex k hk])]
      cases Entry.leaves (w.table.entry i) <;> simp
      omega

/-- The retention reset is one walk over all entries, a visit each in ascending index, then the settling (R186, R187). -/
theorem serveResetKeep_steps (now : Time) (t : Table) :
    ∃ walk : Nat → Walk, walk 0 = { table := t, unverified := 0, retired := 0 } ∧
      (∀ i : EntryIx, walk (i.val + 1) = Walk.visit now (walk i.val) i ∧ (walk i.val).table.entry i = t.entry i ∧
        (walk i.val).table.params = t.params) ∧
      Walk.Done now { table := t, unverified := 0, retired := 0 } (walk 96) (List.finRange 96) ∧
      serveResetKeep now t =
        (.retention (.ok [byteOf (walk 96).unverified, byteOf (walk 96).retired]), (walk 96).table.settleRetention) := by
  obtain ⟨walk, taken⟩ : ∃ walk : Nat → Walk, ∀ n, walk n = ((List.finRange 96).take n).foldl (Walk.visit now)
      { table := t, unverified := 0, retired := 0 } := ⟨_, fun _ => rfl⟩
  have done : ∀ n, Walk.Done now { table := t, unverified := 0, retired := 0 } (walk n) ((List.finRange 96).take n) := fun n =>
    taken n ▸ walk_foldl now _ ((List.nodup_finRange 96).sublist (List.take_sublist _ _)) _
  have all : (List.finRange 96).take 96 = List.finRange 96 := List.take_of_length_le (by simp)
  refine ⟨walk, taken 0, fun i => ⟨?_, ?_, (done i.val).rest.2.2.1⟩, all ▸ done 96, by rw [taken, all]; rfl⟩
  · have next : (List.finRange 96).take (i.val + 1) = (List.finRange 96).take i.val ++ [i] := by
      rw [List.take_add_one, List.getElem?_eq_getElem (by simp)]; simp
    rw [taken, taken, next, List.foldl_append]
    rfl
  · rw [(done i.val).entry, if_neg]
    rw [List.mem_take_iff_getElem]
    rintro ⟨j, hj, h⟩
    simp at h hj
    have := congrArg Fin.val h
    simp at this
    omega

end Sys2Proof.Machine
end

