-- ==== Sys2Proof/Laws/ServedRecords.lean ====
section
/-! SUPPORT. Every operation leaves a table whose records agree, when they agreed before it (R2, R23, R42, R44, R67, R79, R122). -/

namespace Sys2Proof.Machine

namespace Agree

open Table

variable {t u : Table}

/-! ### Requests -/

theorem serveRejoin (h : Agree t) (now : Time) (i : EntryIx) (a : Addr) (d : List Byte) : Agree (serveRejoin now t i a d).2 := by
  unfold Machine.serveRejoin
  simp only
  split
  · exact (h.renewLease now i).same (by rw [book_countRenewal, book_replaceDescriptor])
  · exact h.renewLease now i

/-- A claim that is held takes an entry and a slot. -/
theorem holdClaim (h : Agree t) (now : Time) {i : EntryIx} {j : SlotIx} {identity : Identity} (c : ClassIx) (v : Verdict)
    (bytes : List Byte) (cut : Bool) (vacant : t.lowestVacant = some i) (free : t.lowestFreeSlot = some j)
    (fresh : t.lookup identity = none) (refusals : t.refusedSlot identity = none) :
    Agree (holdClaim now t i j identity c v bytes cut).2 := by
  refine h.hold i _ identity c j
    { identity, cls := c, low := Config.lowestAddress, high := Config.highestAddress, override := v.override
      deadline := afterMs now t.params.approvalTime } _ ((lowestVacant_eq_some t i).1 vacant).1 rfl (h.index.fresh fresh)
    ((refusedSlot_eq_none t identity).1 refusals) ((lowestFreeSlot_eq_some t j).1 free).1 ⟨rfl, rfl⟩
    (perm_insertBehind (fun y => !earlier (afterMs now t.params.approvalTime) y.deadline) ..) ?_
  unfold Machine.holdClaim
  simp only [book_evaluateAdmission, book_placeItem, book_setSlot, book_takeEntry]

/-- A claim that is offered an address takes an entry, a slot and the address. -/
theorem offerClaim (h : Agree t) (now : Time) {i : EntryIx} {j : SlotIx} {a : Addr} {identity : Identity} (c : ClassIx) (v : Verdict)
    (bytes : List Byte) (cut : Bool) (vacant : t.lowestVacant = some i) (free : t.lowestFreeSlot = some j)
    (fresh : t.lookup identity = none) (refusals : t.refusedSlot identity = none) (chosen : (t.addr a).entry = none) :
    Agree (offerClaim now t i j a identity c v bytes cut).2 := by
  refine h.offer i _ identity c j
    { identity, cls := c, low := v.low, high := v.high, override := v.override, deadline := afterMs now t.params.offerTime } a
    (t.fixedLease c v.override) _ _ ((lowestVacant_eq_some t i).1 vacant).1 rfl (h.index.fresh fresh)
    ((refusedSlot_eq_none t identity).1 refusals) ((lowestFreeSlot_eq_some t j).1 free).1 ⟨rfl, rfl⟩ chosen
    (mem_queue_without a) (h.queue_without a)
    (perm_insertBehind (fun y => !earlier (afterMs now t.params.offerTime) y.deadline) ..) ?_
  unfold Machine.offerClaim offerAddr
  simp only [book_evaluateAdmission, book_placeItem, book_setSlot, book_unqueueAddr, book_takeEntry]

theorem serveNewClaim (h : Agree t) (now : Time) {identity : Identity} (c : ClassIx) (p : Addr) (d : List Byte)
    (fresh : t.lookup identity = none) (refusals : t.refusedSlot identity = none) :
    Agree (serveNewClaim now t identity c p d).2 := by
  unfold Machine.serveNewClaim
  simp only
  split; · exact h
  split; · exact h
  split; · exact h
  split; · exact h
  next free =>
  split; · exact h
  next vacant =>
  split; · exact h
  split; · exact h
  split; · exact h
  split
  · exact h.holdClaim now _ _ _ _ vacant free fresh refusals
  · split
    · exact h
    · next chosen => exact h.offerClaim now _ _ _ _ vacant free fresh refusals (h.addresses.chosen chosen)

theorem serveClaim (h : Agree t) (now : Time) (identity : Identity) (c p : Byte) (d : List Byte) :
    Agree (serveClaim now t identity c p d).2 := by
  unfold Machine.serveClaim
  split
  · split
    · next j hj =>
      obtain ⟨c, hc, _⟩ := refusedSlot_eq_some hj
      exact h.consume j c hc (by simp only [book_removeItem, book_setSlot])
    · next refusals =>
      split
      · next i hi =>
        unfold serveHeldClaim
        simp only
        split
        · exact h
        · split
          · exact h
          · exact h
          · exact h.serveRejoin ..
          · exact h.serveRejoin ..
          · exact h.serveRejoin ..
          · next e => exact absurd e (live_of_lookup hi)
      · next fresh => exact h.serveNewClaim now _ _ _ fresh refusals
  · exact h

theorem acceptOffer (h : Agree t) (now : Time) {i : EntryIx} {j : SlotIx} {a : Addr} {l : Half} {d : Time}
    (hl : (t.entry i).life = .offered j a l d) : Agree (acceptOffer now t i j a l) := by
  refine h.accept i j a l l (afterSeconds now l) d _ hl
    (perm_insertBehind (fun y => !earlier (afterSeconds now l) y.deadline) ..) ?_
  unfold Machine.acceptOffer
  simp only [book_addChange, book_setSlot, book_appendMember, book_setAddr, book_startLease]
  rfl

theorem serveAccept (h : Agree t) (now : Time) (identity : Identity) (a k : Byte) : Agree (serveAccept now t identity a k).2 := by
  unfold Machine.serveAccept
  split
  · exact h
  · simp only
    split
    · next hl =>
      split; · exact h
      split; · exact h
      exact h.acceptOffer now hl
    · split; · exact h
      split <;> exact h
    · exact h
    · exact h
    · exact h
    · exact h

theorem serveRenew (h : Agree t) (now : Time) (identity : Identity) (a : Byte) : Agree (serveRenew now t identity a).2 := by
  unfold Machine.serveRenew
  split; · exact h
  split; · exact h
  simp only
  split
  · exact h
  · exact h
  · exact h
  all_goals
    split; · exact h
    split; · exact h
    exact (h.renewLease now _).same (book_countRenewal ..)

theorem serveRelease (h : Agree t) (now : Time) (identity : Identity) (a : Byte) : Agree (serveRelease now t identity a).2 := by
  unfold Machine.serveRelease
  split; · exact h
  split; · exact h
  split; · exact h
  next i hi =>
  have live := live_of_lookup hi
  simp only
  split
  · exact h
  · split
    · exact h
    · exact h.retireAndEvaluate now _ _ live
  all_goals
    split; · exact h
    split; · exact h
    exact h.retireAndEvaluate now _ _ live

/-! ### INSERT -/

/-- The insertion into a table without a refusal of the identity. -/
theorem takePinned (h : Agree t) {i : EntryIx} {identity : Identity} (c : ClassIx) {a : Addr} (l : Half) (bytes : List Byte)
    (cut : Bool) (vacant : (t.entry i).life = .vacant) (fresh : ∀ k, (t.entry k).life ≠ .vacant → (t.entry k).identity ≠ identity)
    (refusals : t.refusedSlot identity = none) (ha : t.addr a = .free ∨ t.addr a = .reserved) :
    Agree (((t.takeEntry i identity c (.bound a l none) bytes cut).setAddr a (.bound i)).appendMember c i) := by
  refine h.insert i _ identity c a l vacant rfl fresh ((refusedSlot_eq_none t identity).1 refusals) ha ?_
  simp only [book_appendMember, book_setAddr, book_takeEntry]

theorem life_takePinned (v : Table) (i : EntryIx) (identity : Identity) (c : ClassIx) (a : Addr) (l : Half) (bytes : List Byte)
    (cut : Bool) : (((((v.takeEntry i identity c (.bound a l none) bytes cut).setAddr a (.bound i)).appendMember c i)).entry i).life =
      .bound a l none := by
  have e : ((((v.takeEntry i identity c (.bound a l none) bytes cut).setAddr a (.bound i)).appendMember c i)).book.life =
      upd v.book.life i (.bound a l none) := by
    simp only [book_appendMember, book_setAddr, book_takeEntry]
  exact (congrFun e i).trans (upd_same ..)

theorem insertEntry (h : Agree t) (now : Time) {i : EntryIx} {identity : Identity} (c : ClassIx) {a : Addr} (pinned : Bool) (l : Half)
    (bytes : List Byte) (cut : Bool) (vacant : t.lowestVacant = some i) (fresh : t.lookup identity = none)
    (ha : t.addr a = .free ∨ t.addr a = .reserved) : Agree (insertEntry now t i identity c a pinned l bytes cut) := by
  have vacant := ((lowestVacant_eq_some t i).1 vacant).1
  have fresh := h.index.fresh fresh
  let p := fun y : DeadlineItem => !earlier (afterSeconds now (t.fixedLease c l)) y.deadline
  cases hr : t.refusedSlot identity with
  | none =>
    have hw := h.takePinned c (t.fixedLease c l) bytes cut vacant fresh hr ha
    unfold Machine.insertEntry Machine.clearRefusal
    simp only
    rw [refusedSlot_congr (t' := t) (by cases pinned <;> rfl), hr]
    simp only
    cases pinned
    · refine hw.lease i a (t.fixedLease c l) (afterSeconds now (t.fixedLease c l)) _ (.inl ⟨_, _, life_takePinned ..⟩)
        (perm_insertBehind p ..) ?_
      simp only [Bool.false_eq_true, if_false, book_evaluateAdmission, book_appendMember, book_startLease, book_setAddr, book_takeEntry]
      rfl
    · exact hw.same (by simp only [if_true, book_evaluateAdmission])
  | some j =>
    obtain ⟨r, hj, hi⟩ := refusedSlot_eq_some hr
    let v := (t.setSlot j .free).removeItem (.slot j)
    have bv : v.book = { t.book with slot := upd t.book.slot j .free, items := t.book.items.filter fun y => y.kind.owner ≠ Owner.slot j } := by
      simp only [v, book_removeItem, book_setSlot]
    have hv : Agree v := h.consume j r hj bv
    have vr : v.refusedSlot identity = none := by
      rw [refusedSlot_eq_none]
      intro k d hk he
      have := (Reads.of bv).slot k
      simp only [upd] at this
      split at this
      · rw [hk] at this; cases this
      · next hn => exact hn (h.slots.once k j d r (this.symm.trans hk) hj (he.trans hi.symm))
    have hw := hv.takePinned c (t.fixedLease c l) bytes cut vacant fresh vr ha
    unfold Machine.insertEntry Machine.clearRefusal
    simp only
    rw [refusedSlot_congr (t' := t) (by cases pinned <;> rfl), hr]
    simp only
    cases pinned
    · refine hw.lease i a (t.fixedLease c l) (afterSeconds now (t.fixedLease c l))
        ((insertBehind p { kind := .lease i, deadline := afterSeconds now (t.fixedLease c l) }
          (t.book.items.filter fun y => y.kind.owner ≠ Owner.entry i)).filter fun y => y.kind.owner ≠ Owner.slot j)
        (.inl ⟨_, _, life_takePinned ..⟩) ?_ ?_
      · refine ((perm_insertBehind p ..).filter _).trans ?_
        simp only [book_appendMember, book_setAddr, book_takeEntry, bv]
        rw [List.filter_cons_of_pos (by simp [ItemKind.owner]), List.filter_filter, List.filter_filter]
        simp only [Bool.and_comm]
        exact .refl _
      · simp only [Bool.false_eq_true, if_false, book_evaluateAdmission, book_removeItem, book_setSlot, book_appendMember, book_startLease, book_setAddr, book_takeEntry, bv]
        rfl
    · refine hw.same ?_
      simp only [if_true, book_evaluateAdmission, book_removeItem, book_setSlot, book_appendMember, book_setAddr, book_takeEntry, bv]
      rfl

theorem serveInsert (h : Agree t) (now : Time) (identity : Identity) (c a p : Byte) (l : Half) (n : Byte) (d : List Byte) :
    Agree (serveInsert now t identity c a p l n d).2 := by
  unfold Machine.serveInsert
  split
  · split; · exact h
    split; · exact h
    next fresh =>
    split; · exact h
    split; · exact h
    next _ hn =>
    split; · exact h
    split; · exact h
    next vacant =>
    split; · exact h
    exact h.insertEntry now _ _ _ _ _ vacant fresh (by tauto)
  · exact h

/-! ### MODIFY -/

/-- BOUND or UNVERIFIED. -/
def Listed (t : Table) (i : EntryIx) : Prop := (t.entry i).life.state = .bound ∨ (t.entry i).life.state = .unverified

/-- What the first four fields of a MODIFY leave for the fifth. -/
structure Kept (i : EntryIx) (t u : Table) : Prop where
  listed : Listed u i
  address : (u.entry i).life.address = (t.entry i).life.address
  addr : ∀ a, u.addr a = t.addr a

theorem Kept.trans {v : Table} {i : EntryIx} (h : Kept i t u) (k : Kept i u v) : Kept i t v :=
  ⟨k.listed, k.address.trans h.address, fun a => (k.addr a).trans (h.addr a)⟩

theorem Kept.refl {i : EntryIx} (hl : Listed t i) : Kept i t t := ⟨hl, rfl, fun _ => rfl⟩

/-- A change of the entry's life alone, as a book shows it. -/
theorem Kept.of_book {i : EntryIx} {life : EntryLife} {b : Book} (e : u.book = b) (el : b.life = upd t.book.life i life)
    (ea : b.addr = t.book.addr) (hs : life.state = .bound ∨ life.state = .unverified)
    (ha : life.address = (t.entry i).life.address) : Kept i t u := by
  subst e
  have e : (u.entry i).life = life := (congrFun el i).trans (upd_same ..)
  exact ⟨by unfold Listed; rw [e]; exact hs, by rw [e]; exact ha, fun a => congrFun ea a⟩

/-- A change that leaves every life. -/
theorem Kept.of_same {i : EntryIx} {b : Book} (e : u.book = b) (el : b.life = t.book.life) (ea : b.addr = t.book.addr)
    (hl : Listed t i) : Kept i t u := by
  subst e
  have e : (u.entry i).life = (t.entry i).life := congrFun el i
  exact ⟨by unfold Listed; rw [e]; exact hl, by rw [e], fun a => congrFun ea a⟩

theorem editLease (h : Agree t) {i : EntryIx} (hl : Listed t i) (l : Option Half) :
    Agree (editLease t i l) ∧ Kept i t (editLease t i l) := by
  unfold Machine.editLease
  split
  · next l a _ d e =>
    have b := book_setLife t i (.bound a l d)
    exact ⟨h.lengthen i _ (.inl ⟨_, _, _, _, e, rfl⟩) b,
      .of_book b rfl rfl (.inl rfl) (by rw [e]; rfl)⟩
  · next l a _ d e =>
    have b := book_setLife t i (.unverified a l d)
    exact ⟨h.lengthen i _ (.inr ⟨_, _, _, _, e, rfl⟩) b,
      .of_book b rfl rfl (.inr rfl) (by rw [e]; rfl)⟩
  · exact ⟨h, .refl hl⟩

theorem book_pinEntry (t : Table) (i : EntryIx) (a : Addr) (l : Half) :
    (((t.setLife i (.bound a l none)).removeItem (.entry i)).addChange i).book = { t.book with
      life := upd t.book.life i (.bound a l none), items := t.book.items.filter fun y => y.kind.owner ≠ Owner.entry i } := by
  simp only [book_addChange, book_removeItem, book_setLife]

theorem editPin (h : Agree t) (now : Time) {i : EntryIx} (hl : Listed t i) (p : Option Bool) :
    Agree (editPin now t i p) ∧ Kept i t (editPin now t i p) := by
  unfold Machine.editPin
  split
  · next a l d e =>
    have b := book_pinEntry t i a l
    exact ⟨h.pin i a l (.inl ⟨_, _, e⟩) b, .of_book b rfl rfl (.inl rfl) (by rw [e]; rfl)⟩
  · next a l d e =>
    have b := book_pinEntry t i a l
    exact ⟨h.pin i a l (.inr ⟨_, _, e⟩) b, .of_book b rfl rfl (.inl rfl) (by rw [e]; rfl)⟩
  · next a l e =>
    have b := (book_addChange (t.startLease now i a l) i).trans (book_startLease t now i a l)
    exact ⟨(h.startLease now i a l (.inl ⟨_, _, e⟩)).same (book_addChange ..),
      .of_book b rfl rfl (.inl rfl) (by rw [e]; rfl)⟩
  · exact ⟨h, .refl hl⟩

theorem editClass (h : Agree t) {i : EntryIx} (hl : Listed t i) (c : Option ClassIx) :
    Agree (editClass t i c) ∧ Kept i t (editClass t i c) := by
  unfold Machine.editClass
  split
  · next c =>
    simp only
    split
    · exact ⟨h, .refl hl⟩
    · next hn =>
      have b : ((((t.removeMember (t.entry i).cls i).appendMember c i).setEntry i { t.entry i with cls := c }).addChange i).book =
          { t.book with
            cls := upd t.book.cls i c
            members := upd (upd t.book.members (t.book.cls i) ((t.book.members (t.book.cls i)).filter (· ≠ i))) c
              (t.book.members c ++ [i]) } := by
        simp only [book_addChange, book_setEntry, book_appendMember, book_removeMember]
        show Book.mk (upd t.book.life i (t.book.life i)) (upd t.book.identity i (t.book.identity i)) _ _ _ _ _ _ _ _ = _
        rw [upd_self, upd_self]
        have m : upd t.book.members (t.book.cls i) ((t.book.members (t.book.cls i)).filter (· ≠ i)) c = t.book.members c := by
          unfold upd
          exact if_neg hn
        exact congrArg (fun l => Book.mk _ _ _ _ _ _ _ _ (upd _ c (l ++ [i])) _) m
      exact ⟨h.reclass i c hn hl b, .of_same b rfl rfl hl⟩
  · exact ⟨h, .refl hl⟩

theorem editDescriptor (h : Agree t) {i : EntryIx} (hl : Listed t i) (x : Option (List Byte × Bool)) :
    Agree (editDescriptor t i x) ∧ Kept i t (editDescriptor t i x) := by
  unfold Machine.editDescriptor
  split
  · next bytes cut =>
    have b := book_replaceDescriptor t i bytes cut
    exact ⟨h.same b, .of_same b rfl rfl hl⟩
  · exact ⟨h, .refl hl⟩

theorem editAddress (h : Agree t) (now : Time) {i : EntryIx} (hl : Listed t i) (x : Option Addr)
    (hx : ∀ b, x = some b → some b = (t.entry i).life.address ∨ t.addr b = .free) : Agree (editAddress now t i x) := by
  unfold Machine.editAddress
  split
  · next b a ha =>
    split
    · exact h
    · next hn =>
      have hb : t.addr b = .free := by
        rcases hx b rfl with e | e
        · rw [ha] at e; exact absurd (Option.some.inj e) hn
        · exact e
      have moves : (∃ l d, (t.entry i).life = .bound a l d ∧ (t.entry i).life.movedTo b = .bound b l d) ∨
          ∃ l d, (t.entry i).life = .unverified a l d ∧ (t.entry i).life.movedTo b = .unverified b l d := by
        unfold Listed at hl
        cases e : (t.entry i).life <;> rw [e] at hl ha <;> simp [EntryLife.state, EntryLife.address] at hl ha <;> subst ha
        · exact .inl ⟨_, _, rfl, rfl⟩
        · exact .inr ⟨_, _, rfl, rfl⟩
      have hm : Agree (((t.setLife i ((t.entry i).life.movedTo b)).setAddr b (.bound i)).setAddr a .free) := by
        refine h.move i a b _ (fun e => hn e.symm) hb moves ?_
        simp only [book_setAddr, book_setLife]
      simp only
      unfold releaseAddr
      split
      · exact hm.same (book_addChange ..)
      · refine hm.of_quarantine (a := a)
          (d := afterSeconds now ((t.setLife i ((t.entry i).life.movedTo b)).setAddr b (.bound i)).params.quarantineTime)
          (p := fun x => !earlier
            (afterSeconds now ((t.setLife i ((t.entry i).life.movedTo b)).setAddr b (.bound i)).params.quarantineTime) x.endTime)
          ?_ ?_
        · rw [addr_setAddr, if_pos rfl]
        · simp only [book_addChange, book_quarantineAddr, book_setAddr, book_setLife, upd_upd]
  · exact h

theorem serveEdit (h : Agree t) (now : Time) {i : EntryIx} (hl : Listed t i) (x : Edit) : Agree (serveEdit now t i x).2 := by
  unfold Machine.serveEdit
  simp only
  split; · exact h
  next free =>
  split; · exact h
  unfold applyEdit
  simp only
  obtain ⟨h1, k1⟩ := h.editLease hl x.lease
  obtain ⟨h2, k2⟩ := h1.editPin now k1.listed x.pinned
  obtain ⟨h3, k3⟩ := h2.editClass k2.listed x.cls
  obtain ⟨h4, k4⟩ := h3.editDescriptor k3.listed (Option.join (x.descriptor.map (t.fitReplacement i)))
  have k := ((k1.trans k2).trans k3).trans k4
  refine h4.editAddress now k.listed x.address fun b hb => ?_
  rw [k.address, k.addr]
  have := Option.filter_eq_none_iff.1 free b hb
  simp only [Bool.and_eq_true, decide_eq_true_eq, not_and, Decidable.not_not] at this
  by_cases e : some b = (t.entry i).life.address
  · exact .inl e
  · exact .inr (this e)

theorem serveModify (h : Agree t) (now : Time) (index gen sel c p : Byte) (l : Half) (a n : Byte) (d : List Byte) :
    Agree (serveModify now t index gen sel c p l a n d).2 := by
  unfold Machine.serveModify
  split; · exact h
  split
  · next e =>
    split; · exact h
    exact h.serveEdit now (.inl (by rw [e]; rfl)) _
  · next e =>
    split; · exact h
    exact h.serveEdit now (.inr (by rw [e]; rfl)) _
  all_goals exact h

/-! ### RETIRE and the address commands -/

theorem guardEntry_live {index gen : Byte} {i : EntryIx} (e : t.guardEntry index gen = .ok i) : (t.entry i).life ≠ .vacant := by
  unfold guardEntry at e
  split at e
  · cases e
  · simp only at e
    split at e
    · cases e
    · next hv =>
      split at e
      · cases e
      · injection e with e
        subst e
        intro hl
        rw [hl] at hv
        exact hv rfl

theorem serveRetire (h : Agree t) (now : Time) (index gen free : Byte) : Agree (serveRetire now t index gen free).2 := by
  unfold Machine.serveRetire
  split; · exact h
  next e =>
  split; · exact h
  exact h.retireAndEvaluate now _ _ (guardEntry_live e)

/-- An address outside the queue turns FREE or RESERVED. -/
theorem setAddr (h : Agree t) {a : Addr} (x : AddrState) (hx : x = .free ∨ x = .reserved) (ha : t.addr a = .free ∨ t.addr a = .reserved) :
    Agree (t.setAddr a x) := by
  refine h.unqueue a x t.book.queue hx (by rcases ha with e | e <;> rw [e] <;> rfl) (fun y => ⟨fun hy => ⟨hy, ?_⟩, fun hy => hy.1⟩)
    h.addresses.once (book_setAddr ..)
  rintro rfl
  have := (h.addresses.quarantined y.address y.endTime).2 hy
  rcases ha with e | e <;> rw [e] at this <;> cases this

theorem unqueueAddr (h : Agree t) {a : Addr} {d : Time} (x : AddrState) (hx : x = .free ∨ x = .reserved)
    (ha : t.addr a = .quarantined d) : Agree (t.unqueueAddr a x) :=
  h.unqueue a x _ hx (by rw [ha]; rfl) (mem_queue_without a) (h.queue_without a) (book_unqueueAddr ..)

theorem serveReserve (h : Agree t) (now : Time) (a : Byte) : Agree (serveReserve now t a).2 := by
  unfold Machine.serveReserve
  split; · exact h
  simp only
  split
  · exact h
  · next e => exact h.setAddr _ (.inr rfl) (.inl e)
  · next e => exact h.unqueueAddr _ (.inr rfl) e
  all_goals exact h

theorem serveUnreserve (h : Agree t) (a : Byte) : Agree (serveUnreserve t a).2 := by
  unfold Machine.serveUnreserve
  split; · exact h
  split
  · exact h
  · next e => exact h.setAddr _ (.inl rfl) (.inr e)
  all_goals exact h

theorem serveUnquarantine (h : Agree t) (now : Time) (a : Byte) : Agree (serveUnquarantine now t a).2 := by
  unfold Machine.serveUnquarantine
  split; · exact h
  split
  · next e => exact h.unqueueAddr _ (.inl rfl) e
  all_goals exact h

/-! ### APPROVE and DENY -/

theorem guardSlot_awaiting {slot gen : Byte} {j : SlotIx} {c : SlotClaim} {i : EntryIx} (e : t.guardSlot slot gen = .ok (j, c, i)) :
    t.slot j = .awaiting c i := by
  unfold guardSlot at e
  split at e
  · cases e
  · split at e
    · next hj =>
      split at e
      · cases e
      · injection e with e
        injection e with e1 e
        injection e with e2 e3
        subst e1 e2 e3
        exact hj
    · cases e

theorem approveAddr_unused (h : Agree t) {c : SlotClaim} {address : Byte} {a : Addr} (e : approveAddr t c address = .ok a) :
    (t.addr a).entry = none := by
  unfold approveAddr at e
  split at e
  · split at e
    · next chosen => injection e with e; exact e ▸ h.addresses.chosen chosen
    · cases e
  · split at e
    · cases e
    · split at e
      · cases e
      · split at e
        · cases e
        · next hn =>
          injection e with e
          subst e
          rw [Decidable.not_not.1 hn]
          rfl

theorem approveClaim (h : Agree t) (now : Time) {j : SlotIx} {c : SlotClaim} {i : EntryIx} {a : Addr}
    (hj : t.slot j = .awaiting c i) (ha : (t.addr a).entry = none) : Agree (approveClaim now t j c i a) := by
  refine h.approve i j c a (t.fixedLease (t.entry i).cls c.override) (afterMs now t.params.offerTime) _ _ hj ha (mem_queue_without a)
    (h.queue_without a) (perm_insertBehind (fun y => !earlier (afterMs now t.params.offerTime) y.deadline) ..) ?_
  unfold Machine.approveClaim offerAddr
  simp only [book_addChange, book_placeItem, book_setSlot, book_removeItem, book_unqueueAddr, book_setLife]

theorem serveApprove (h : Agree t) (now : Time) (j k a : Byte) : Agree (serveApprove now t j k a).2 := by
  unfold Machine.serveApprove
  split; · exact h
  next e =>
  split; · exact h
  next ea => exact h.approveClaim now (guardSlot_awaiting e) (h.approveAddr_unused ea)

theorem denyClaim (h : Agree t) (now : Time) {j : SlotIx} {c : SlotClaim} {i : EntryIx} (hj : t.slot j = .awaiting c i) :
    Agree (denyClaim now t j c i) := by
  have hl := h.slots.awaiting _ _ _ hj
  have live : (t.entry i).life ≠ .vacant := by rw [hl]; nofun
  have r := Reads.of (book_retire_awaiting hl now false)
  have named := (h.slots.claimed j c i (.inl hj)).1
  refine (h.retireEntry now false i live).refuse j { c with deadline := afterMs now t.params.approvalTime } _ ?_ ?_ ?_
    (perm_insertBehind (fun y => !earlier (afterMs now t.params.approvalTime) y.deadline) ..) ?_
  · exact (r.slot j).trans (upd_same ..)
  · intro k hk e
    have hkl := r.life k
    simp only [upd] at hkl
    split at hkl
    · exact hk hkl
    · next hn => exact hn (h.index.identity k i (fun v => hk (hkl.trans v)) live (((r.identity k).symm.trans e).trans named))
  · intro k d hk e
    have hks := r.slot k
    simp only [upd] at hks
    split at hks
    · rw [hk] at hks; cases hks
    · exact h.slots.refused k d (hks.symm.trans hk) i live (named.symm.trans e.symm)
  · unfold Machine.denyClaim
    simp only [book_evaluateAdmission, book_moveItem, book_setSlot]
    rfl

theorem serveDeny (h : Agree t) (now : Time) (j k : Byte) : Agree (serveDeny now t j k).2 := by
  unfold Machine.serveDeny
  split; · exact h
  next e => exact h.denyClaim now (guardSlot_awaiting e)

/-! ### Writes and NEXT CHANGE -/

theorem serveWriteClass (h : Agree t) (c e : Byte) (l o : Half) : Agree (serveWriteClass t c e l o).2 := by
  unfold Machine.serveWriteClass
  split
  · split
    · exact h
    · refine h.same ?_
      simp only [book_setClass]
      exact congrArg (fun m => Book.mk _ _ _ _ _ _ _ _ m _) (upd_self t.book.members _)
  · exact h

theorem serveWriteRule (h : Agree t) (r v : Byte) (x : Identity) (n c a low high : Byte) (o : Half) (p : Byte) :
    Agree (serveWriteRule t r v x n c a low high o p).2 := by
  unfold Machine.serveWriteRule
  split
  · exact h.same rfl
  · split
    · exact h
    · exact h.same rfl
  · exact h

theorem serveWriteParameter (h : Agree t) (k : Byte) (v : Half) : Agree (serveWriteParameter t k v).2 := by
  unfold Machine.serveWriteParameter
  split; · exact h
  split; · exact h
  simp only
  split
  · exact h.same (book_evaluateAdmission _)
  · exact h.same rfl

theorem serveNextChange (h : Agree t) (now : Time) : Agree (serveNextChange now t).2 := by
  unfold Machine.serveNextChange
  split
  · exact h
  · exact h.same rfl

/-! ### The retention reset -/

theorem visit (now : Time) (w : Walk) (i : EntryIx) (h : Agree w.table) : Agree (Walk.visit now w i).table := by
  unfold Walk.visit
  simp only
  split
  · next e => exact h.retireEntry now _ _ (by rw [e]; nofun)
  · next e => exact h.retireEntry now _ _ (by rw [e]; nofun)
  · next e => exact h.retireEntry now _ _ (by rw [e]; nofun)
  · next a l d e =>
    refine h.probation i a l (afterSeconds now w.table.params.revalidateTime) _ (.inl ⟨_, _, e⟩)
      (perm_insertBehind (fun y => !earlier (afterSeconds now w.table.params.revalidateTime) y.deadline) ..) ?_
    simp only [book_addChange, book_moveItem, book_setLife]
    rfl
  all_goals exact h

theorem serveResetKeep (h : Agree t) (now : Time) : Agree (serveResetKeep now t).2 := by
  obtain ⟨walk, first, next, done, e⟩ := serveResetKeep_steps now t
  rw [e]
  have all : ∀ n, n ≤ 96 → Agree (walk n).table := by
    intro n
    induction n with
    | zero => intro _; rw [first]; exact h
    | succ n ih =>
      intro hn
      rw [(next ⟨n, hn⟩).1]
      exact visit now _ _ (ih (by omega))
  refine (all 96 (by omega)).settle (fun k => ?_) ?_
  · rw [done.entry k, if_pos (List.mem_finRange k)]
    unfold Entry.afterRetention
    cases hl : (t.entry k).life with
    | bound a l d => cases d <;> simp [EntryLife.slot, EntryLife.state, hl]
    | _ => simp [EntryLife.slot, EntryLife.state, hl]
  · show Book.mk _ _ _ _ _ _ _ (walk 96).table.settleRetention.slot _ _ = _
    rw [show (walk 96).table.settleRetention.slot = fun _ => .free by
      funext j; unfold settleRetention Table.slot; simp]
    rfl

/-! ### Expiries -/

/-- An expiry operation, whose item is its owner's. -/
theorem expire (h : Agree t) (now : Time) (x : DeadlineItem) (hu : t.ownerHolds x → Agree u) : Agree (t.expire now x u) := by
  unfold Table.expire
  split
  · next hs =>
    unfold itemStands at hs
    simp only [Bool.and_eq_true, List.contains_eq_mem, decide_eq_true_eq] at hs
    exact hu ((h.deadlines.listed x).1 hs.1.1)
  · exact h

theorem refusalExpired (h : Agree t) {j : SlotIx} {c : SlotClaim} (hj : t.slot j = .refused c) : Agree (refusalExpired t j) :=
  h.consume j c hj (by unfold Machine.refusalExpired; simp only [book_removeItem, book_setSlot])

end Agree

end Sys2Proof.Machine
end

