-- ==== Sys2Proof/Laws/RunRecords.lean ====
section
/-! SUPPORT. A REHASH run and the records: what the other operations leave of a run (R31, R36, R37), the visits and the switch (R32,
R33), and the agreement of all records after any grant. -/

namespace Sys2Proof.Machine

open Table

variable {t u : Table} {now : Time}

/-! ### What the operations of the bus and the expiries leave while a run goes on -/

/-- No entry enters or leaves VACANT, and no identity changes. -/
structure Frozen (t u : Table) : Prop where
  life : ∀ k, (u.entry k).life = .vacant ↔ (t.entry k).life = .vacant
  identity : ∀ k, (u.entry k).identity = (t.entry k).identity

namespace Frozen

theorem refl : Frozen t t := ⟨fun _ => Iff.rfl, fun _ => rfl⟩

/-- One live entry changes its life. -/
theorem of_upd {i : EntryIx} {l : EntryLife} (live : (t.entry i).life ≠ .vacant) (hl : l ≠ .vacant)
    (life : u.book.life = upd t.book.life i l) (identity : u.book.identity = t.book.identity) : Frozen t u := by
  refine ⟨fun k => ?_, fun k => congrFun identity k⟩
  rw [show (u.entry k).life = upd t.book.life i l k from congrFun life k]
  unfold upd
  split
  · next e => subst e; exact ⟨fun h => absurd h hl, fun h => absurd h live⟩
  · exact Iff.rfl

/-- No life changes. -/
theorem of_same (life : u.book.life = t.book.life) (identity : u.book.identity = t.book.identity) : Frozen t u :=
  ⟨fun k => by rw [show (u.entry k).life = (t.entry k).life from congrFun life k], fun k => congrFun identity k⟩

theorem trans {v : Table} (h : Frozen t u) (g : Frozen u v) : Frozen t v :=
  ⟨fun k => (g.life k).trans (h.life k), fun k => (g.identity k).trans (h.identity k)⟩

theorem startLease (now : Time) {i : EntryIx} (a : Addr) (l : Half) (live : (t.entry i).life ≠ .vacant) :
    Frozen t (t.startLease now i a l) :=
  of_upd (i := i) (l := .bound a l (some (afterSeconds now l))) live nofun (by rw [book_startLease]) (by rw [book_startLease])

theorem renewLease (now : Time) (i : EntryIx) : Frozen t (t.renewLease now i).1 := by
  unfold Table.renewLease
  split
  · next e => exact startLease now _ _ (by rw [e]; nofun)
  · next e => exact (startLease now _ _ (by rw [e]; nofun)).trans (of_same (by rw [book_addChange]) (by rw [book_addChange]))
  · next a l _ e =>
    refine (startLease now a l (by rw [e]; nofun)).trans (of_same ?_ ?_) <;>
      simp only [book_addChange, book_appendMember, book_setAddr]
  · exact refl

theorem lapseEntry (now : Time) {i : EntryIx} (a : Addr) (l : Half) (live : (t.entry i).life ≠ .vacant) (run : t.run ≠ none) :
    Frozen t (t.lapseEntry now i a l) := by
  unfold Table.lapseEntry
  simp only
  rw [if_neg fun h => run h.2]
  refine of_upd (i := i) (l := .lapsed a l (afterSeconds now (t.classRecord (t.entry i).cls).hold)) live nofun ?_ ?_ <;>
    simp only [book_addChange, book_moveItem, book_setAddr, book_setLife, book_removeMember]

end Frozen

/-- A kind that a run defers never stands while it goes on (R36). -/
theorem expire_deferred (run : t.run ≠ none) (x : DeadlineItem) (hx : x.kind.deferred = true) : t.expire now x u = t := by
  unfold Table.expire itemStands
  rw [if_neg]
  simp [Option.isSome_iff_ne_none.2 run, hx]

/-- A row of the bus or of the expiry unit, while a run goes on. -/
theorem ServedTable.frozen {i : Instr} (h : ServedTable now t i u) (outside : requesterOf i ≠ some .host) (run : t.run ≠ none) :
    Frozen t u := by
  have going : t.run.isSome = true := Option.isSome_iff_ne_none.2 run
  cases h
  case same => exact .refl
  case claim identity c p d =>
    unfold serveClaim
    split
    · split
      · refine .of_same ?_ ?_ <;> simp only [book_removeItem, book_setSlot]
      · have none_taken : ∀ c p, Frozen t (serveNewClaim now t identity c p d).2 := by
          intro c p
          unfold serveNewClaim
          simp only
          split; · exact .refl
          split; · exact .refl
          exact .refl
        have rejoined : ∀ i a, Frozen t (serveRejoin now t i a d).2 := by
          intro i a
          unfold serveRejoin
          simp only
          have f := Frozen.renewLease (t := t) now i
          split
          · exact f.trans (.of_same (by rw [book_countRenewal, book_replaceDescriptor]) (by rw [book_countRenewal, book_replaceDescriptor]))
          · exact f
        split
        · unfold serveHeldClaim
          simp only
          split
          · exact .refl
          · split
            · exact .refl
            · exact .refl
            · exact rejoined _ _
            · exact rejoined _ _
            · exact rejoined _ _
            · exact none_taken _ _
        · exact none_taken _ _
    · exact .refl
  case accept =>
    unfold serveAccept
    split
    · exact .refl
    · simp only
      split
      · next j a l _ e =>
        split; · exact .refl
        split; · exact .refl
        unfold acceptOffer
        refine (Frozen.startLease now a l (by rw [e]; nofun)).trans (.of_same ?_ ?_) <;>
          simp only [book_addChange, book_setSlot, book_appendMember, book_setAddr]
      · split; · exact .refl
        split <;> exact .refl
      all_goals exact .refl
  case renew =>
    unfold serveRenew
    split; · exact .refl
    split; · exact .refl
    simp only
    split
    · exact .refl
    · exact .refl
    · exact .refl
    all_goals
      split; · exact .refl
      split; · exact .refl
      exact (Frozen.renewLease now _).trans (.of_same (by rw [book_countRenewal]) (by rw [book_countRenewal]))
  case release =>
    unfold serveRelease
    split; · exact .refl
    exact .refl
  case offerExpiry => rw [expire_deferred run _ rfl]; exact .refl
  case approvalExpiry => rw [expire_deferred run _ rfl]; exact .refl
  case refusalExpiry => rw [expire_deferred run _ rfl]; exact .refl
  case holdEnd => rw [expire_deferred run _ rfl]; exact .refl
  case leaseLapse =>
    unfold Table.expire leaseLapsed
    split
    · split
      · next e => exact Frozen.lapseEntry now _ _ (by rw [e]; nofun) run
      · exact .refl
    · exact .refl
  case revalidationEnd =>
    unfold Table.expire revalidationEnded
    split
    · split
      · next e => exact Frozen.lapseEntry now _ _ (by rw [e]; nofun) run
      · exact .refl
    · exact .refl
  case quarantineEnd =>
    unfold quarantineEnded
    split
    · refine .of_same ?_ ?_ <;> rw [book_unqueueAddr]
    · exact .refl
  all_goals exact absurd rfl outside

/-! ### The run itself, and the records, after an operation that is no part of a REHASH -/

theorem run_serveRejoin (now : Time) (i : EntryIx) (a : Addr) (d : List Byte) : (serveRejoin now t i a d).2.run = t.run := by
  unfold serveRejoin
  simp only
  split <;> simp

theorem run_serveNewClaim (now : Time) (identity : Identity) (c : ClassIx) (p : Addr) (d : List Byte) :
    (serveNewClaim now t identity c p d).2.run = t.run := by
  unfold serveNewClaim holdClaim offerClaim
  simp only
  repeat' split
  all_goals simp

theorem run_applyEdit (now : Time) (i : EntryIx) (x : Edit) (st : Option (List Byte × Bool)) :
    (applyEdit now t i x st).run = t.run := by
  have h1 : ∀ (v : Table) y, (editLease v i y).run = v.run := by intro v y; unfold editLease; split <;> simp
  have h2 : ∀ (v : Table) y, (editPin now v i y).run = v.run := by intro v y; unfold editPin; split <;> simp
  have h3 : ∀ (v : Table) y, (editClass v i y).run = v.run := by
    intro v y; unfold editClass; split
    · simp only; split <;> simp
    · rfl
  have h4 : ∀ (v : Table) y, (editDescriptor v i y).run = v.run := by intro v y; unfold editDescriptor; split <;> simp
  have h5 : ∀ (v : Table) y, (editAddress now v i y).run = v.run := by
    intro v y; unfold editAddress; split
    · split
      · rfl
      · simp
    · rfl
  unfold applyEdit
  simp only [h1, h2, h3, h4, h5]

theorem ServedTable.run_same {i : Instr} (h : ServedTable now t i u) (outer : ¬ ofRehash i) : u.run = t.run := by
  cases h
  case same => rfl
  case claim =>
    unfold serveClaim serveHeldClaim
    simp only
    repeat' split
    all_goals simp [run_serveRejoin, run_serveNewClaim]
  case accept =>
    unfold serveAccept acceptOffer
    simp only
    repeat' split
    all_goals simp
  case renew =>
    unfold serveRenew
    simp only
    repeat' split
    all_goals simp
  case release =>
    unfold serveRelease
    simp only
    repeat' split
    all_goals simp
  case insert =>
    unfold serveInsert insertEntry clearRefusal
    simp only
    repeat' split
    all_goals simp
  case modify =>
    unfold serveModify serveEdit
    simp only
    repeat' split
    all_goals simp [run_applyEdit]
  case retire =>
    unfold serveRetire
    simp only
    repeat' split
    all_goals simp
  case reserve =>
    unfold serveReserve
    simp only
    repeat' split
    all_goals simp
  case unreserve =>
    unfold serveUnreserve
    repeat' split
    all_goals rfl
  case unquarantine =>
    unfold serveUnquarantine
    repeat' split
    all_goals simp
  case approve =>
    unfold serveApprove approveClaim
    simp only
    repeat' split
    all_goals simp
  case deny =>
    unfold serveDeny denyClaim
    simp only
    repeat' split
    all_goals simp
  case writeClass =>
    unfold serveWriteClass
    repeat' split
    all_goals simp
  case writeRule =>
    unfold serveWriteRule
    repeat' split
    all_goals rfl
  case writeParameter =>
    unfold serveWriteParameter
    simp only
    repeat' split
    all_goals simp
  case nextChange =>
    unfold serveNextChange
    split <;> rfl
  case rehash seed => exact absurd (.inl ⟨seed, rfl⟩) outer
  case rehashStep => exact absurd (.inr (.inl rfl)) outer
  case rehashAbortEnding => exact absurd (.inr (.inr rfl)) outer
  case resetKeep =>
    obtain ⟨_, _, _, done, e⟩ := serveResetKeep_steps now t
    rw [e]
    exact done.rest.2.2.2.2
  case offerExpiry =>
    unfold Table.expire offerExpired
    repeat' split
    all_goals simp
  case approvalExpiry =>
    unfold Table.expire approvalExpired
    repeat' split
    all_goals simp
  case refusalExpiry =>
    unfold Table.expire refusalExpired
    split <;> simp
  case leaseLapse =>
    unfold Table.expire leaseLapsed
    repeat' split
    all_goals simp
  case revalidationEnd =>
    unfold Table.expire revalidationEnded
    repeat' split
    all_goals simp
  case holdEnd =>
    unfold Table.expire holdEnded
    repeat' split
    all_goals simp
  case quarantineEnd =>
    unfold quarantineEnded
    split <;> simp

/-- The records after an operation that is no part of a REHASH. -/
theorem ServedTable.agree {i : Instr} (h : ServedTable now t i u) (outer : ¬ ofRehash i) (a : Agree t) : Agree u := by
  cases h
  case same => exact a
  case claim => exact a.serveClaim ..
  case accept => exact a.serveAccept ..
  case renew => exact a.serveRenew ..
  case release => exact a.serveRelease ..
  case insert => exact a.serveInsert ..
  case modify => exact a.serveModify ..
  case retire => exact a.serveRetire ..
  case reserve => exact a.serveReserve ..
  case unreserve => exact a.serveUnreserve ..
  case unquarantine => exact a.serveUnquarantine ..
  case approve => exact a.serveApprove ..
  case deny => exact a.serveDeny ..
  case writeClass => exact a.serveWriteClass ..
  case writeRule => exact a.serveWriteRule ..
  case writeParameter => exact a.serveWriteParameter ..
  case nextChange => exact a.serveNextChange ..
  case rehash seed => exact absurd (.inl ⟨seed, rfl⟩) outer
  case rehashStep => exact absurd (.inr (.inl rfl)) outer
  case rehashAbortEnding => exact absurd (.inr (.inr rfl)) outer
  case resetKeep => exact a.serveResetKeep now
  case offerExpiry =>
    refine a.expire _ _ fun _ => ?_
    unfold offerExpired
    split
    · next e => exact a.retireAndEvaluate _ _ _ (by rw [e]; nofun)
    · exact a
  case approvalExpiry =>
    refine a.expire _ _ fun _ => ?_
    unfold approvalExpired
    split
    · next e => exact a.retireAndEvaluate _ _ _ (by rw [a.slots.awaiting _ _ _ e]; nofun)
    · exact a
  case refusalExpiry =>
    refine a.expire _ _ fun held => ?_
    obtain ⟨c, hc, _⟩ := held
    exact a.refusalExpired hc
  case leaseLapse =>
    refine a.expire _ _ fun _ => ?_
    unfold leaseLapsed
    split
    · next e => exact a.lapseEntry _ _ _ _ (.inl ⟨_, _, e⟩)
    · exact a
  case revalidationEnd =>
    refine a.expire _ _ fun _ => ?_
    unfold revalidationEnded
    split
    · next e => exact a.lapseEntry _ _ _ _ (.inr ⟨_, _, e⟩)
    · exact a
  case holdEnd =>
    refine a.expire _ _ fun _ => ?_
    unfold holdEnded
    split
    · next e => exact a.retireAndEvaluate _ _ _ (by rw [e]; nofun)
    · exact a
  case quarantineEnd =>
    unfold quarantineEnded
    split
    · next e => exact a.unqueueAddr _ (.inl rfl) e.1
    · exact a

/-- The parts make the whole. -/
theorem Agree.records (a : Agree t) (shadow : t.ShadowIsExact) : t.RecordsAgree :=
  ⟨a.index, shadow, a.addresses, a.slots, a.classes, a.deadlines⟩

theorem Table.RecordsAgree.agree (r : t.RecordsAgree) : Agree t :=
  ⟨r.index, r.addresses, r.slots, r.classes, r.deadlines⟩

/-- All records after such an operation: of the host, while no run goes on; of the bus and the expiries, at any time. -/
theorem ServedTable.records {i : Instr} (h : ServedTable now t i u) (outer : ¬ ofRehash i)
    (outside : requesterOf i ≠ some .host ∨ t.run = none) (r : t.RecordsAgree) : u.RecordsAgree := by
  refine (h.agree outer r.agree).records fun run hr => ?_
  rw [h.run_same outer] at hr
  have going : t.run ≠ none := by rw [hr]; nofun
  have f := h.frozen (outside.resolve_right going) going
  intro k b
  rw [r.shadow run hr k b, f.identity k, ne_eq, ne_eq, f.life k]

/-! ### The visits of a run (R32 to R34, R38) -/

/-- What a visit leaves, while its step is in service and at the end of the command: the run goes on exactly when the step does
not end the command. -/
structure Stepped (t : Table) (o : Service × Table) : Prop where
  records : o.2.RecordsAgree
  going : o.2.run ≠ none ↔ o.1 = .step
  host : o.1.requester = .host

theorem dropRun_records (a : Agree t) : Table.RecordsAgree { t with run := none } :=
  (Agree.same (u := { t with run := none }) a rfl).records nofun

/-- The move of the cursor behind entry k, which the shadow index now has. -/
theorem advanceCursor_records (a : Agree t) (seed : Half) (shadow : Vector (List EntryIx) 32) (k : EntryIx)
    (exact : ∀ (i : EntryIx) (b : BucketIx), i ∈ shadow.get b ↔
      i.val < k.val + 1 ∧ (t.entry i).life ≠ .vacant ∧ b = bucketOf seed (t.entry i).identity) :
    Stepped t (advanceCursor t seed shadow k) := by
  unfold advanceCursor
  split
  · next hk =>
    refine ⟨(Agree.same (u := { t with run := some { newSeed := seed, shadow, cursor := ⟨k.val + 1, hk⟩ } }) a rfl).records ?_,
      ⟨fun _ => rfl, fun _ => nofun⟩, rfl⟩
    intro run hr i b
    injection hr with hr
    subst hr
    exact exact i b
  · next hk =>
    unfold switchIndex
    refine ⟨Agree.records (a.switch shadow.get seed ?_ rfl) nofun, ⟨fun h => absurd rfl h, nofun⟩, rfl⟩
    intro i b
    rw [exact i b, and_iff_right (by omega)]

/-- The visit of the entry at the cursor. -/
theorem visitEntry_records (a : Agree t) (r : RehashRun) (exact : ∀ (i : EntryIx) (b : BucketIx), i ∈ r.shadow.get b ↔
      i < r.cursor ∧ (t.entry i).life ≠ .vacant ∧ b = bucketOf r.newSeed (t.entry i).identity) :
    Stepped t (visitEntry t r) := by
  have vac : ∀ l : EntryLife, l.isVacant = true ↔ l = .vacant := by intro l; cases l <;> simp [EntryLife.isVacant]
  unfold visitEntry
  simp only
  split
  · next hv =>
    refine advanceCursor_records a _ _ _ fun i b => ?_
    rw [exact i b]
    refine ⟨fun h => ⟨Nat.lt_succ_of_lt (Fin.lt_def.1 h.1), h.2⟩, fun h => ⟨?_, h.2⟩⟩
    have : i ≠ r.cursor := by rintro rfl; exact h.2.1 ((vac _).1 hv)
    have := Fin.val_ne_of_ne this
    have := h.1
    show i.val < r.cursor.val
    omega
  · next hv =>
    split
    · exact ⟨dropRun_records a, ⟨fun h => absurd rfl h, nofun⟩, rfl⟩
    · refine advanceCursor_records a _ _ _ fun i b => ?_
      rw [Table.get_set]
      have live : (t.entry r.cursor).life ≠ .vacant := fun h => hv ((vac _).2 h)
      split
      · next hb =>
        subst hb
        rw [mem_insertAscending, exact i]
        constructor
        · rintro (rfl | h)
          · exact ⟨by omega, live, rfl⟩
          · exact ⟨Nat.lt_succ_of_lt (Fin.lt_def.1 h.1), h.2⟩
        · intro h
          by_cases e : i = r.cursor
          · exact .inl e
          · refine .inr ⟨?_, h.2⟩
            have := Fin.val_ne_of_ne e
            have := h.1
            show i.val < r.cursor.val
            omega
      · next hb =>
        rw [exact i b]
        refine ⟨fun h => ⟨Nat.lt_succ_of_lt (Fin.lt_def.1 h.1), h.2⟩, fun h => ⟨?_, h.2⟩⟩
        have : i ≠ r.cursor := by rintro rfl; exact hb h.2.2
        have := Fin.val_ne_of_ne this
        have := h.1
        show i.val < r.cursor.val
        omega

/-- The first step of a REHASH. -/
theorem serveRehash_records (r : t.RecordsAgree) (idle : t.run = none) (seed : Half) : Stepped t (serveRehash t seed) := by
  unfold serveRehash
  split
  · exact ⟨r, ⟨fun h => absurd idle h, nofun⟩, rfl⟩
  · refine visitEntry_records r.agree _ fun i b => ?_
    simp

/-- A later step of a run. -/
theorem serveRehashStep_records (r : t.RecordsAgree) (going : t.run ≠ none) : Stepped t (serveRehashStep t) := by
  unfold serveRehashStep
  split
  · next run hr => exact visitEntry_records r.agree run (r.shadow run hr)
  · next hn => exact absurd hn going

/-- The table after a hard reset. -/
theorem reset_records (authority : Addr) : (Table.reset authority).RecordsAgree := by
  have life : ∀ i, ((Table.reset authority).entry i).life = .vacant := fun i => by rw [entry_reset]; rfl
  have addr : ∀ a, (Table.reset authority).addr a = .fixed ∨ (Table.reset authority).addr a = .free := fun a => by
    rw [addr_reset]; split <;> simp
  have queue : (Table.reset authority).quarantine = [] := rfl
  have items : (Table.reset authority).deadlines = [] := rfl
  refine ⟨⟨?_, ?_⟩, nofun, ⟨?_, ?_, ?_, ?_, ?_, ?_, ?_⟩, ⟨?_, ?_, ?_, ?_, ?_, ?_⟩, ⟨?_, ?_⟩, ⟨?_, ?_⟩⟩
  · simp [life, bucket_reset]
  · simp [life]
  · simp [life]
  · simp [life]
  · simp [life]
  · simp [life]
  · intro a i h
    rcases addr a with e | e <;> simp [e] at h
  · intro a d
    rcases addr a with e | e <;> simp [e, queue]
  · simp [queue]
  · simp [life, EntryLife.slot]
  · simp [slot_reset]
  · simp [slot_reset]
  · simp [slot_reset]
  · simp [slot_reset]
  · simp [slot_reset]
  · simp [classRecord_reset, ClassRecord.reset, life, EntryLife.state]
  · simp [classRecord_reset, ClassRecord.reset]
  · rintro ⟨k, d⟩
    cases k <;> simp [ownerHolds, life, slot_reset, EntryLife.state, items]
  · simp [items]

end Sys2Proof.Machine
end

