-- ==== Sys2Proof/Tests/Slice0.lean ====
section
/-! SUPPORT. Tests: the well-formedness checks, a few values that the spec writes out, and for every statement with hypotheses a
state and operands that meet them, clause by clause (`meets_…`, and `granted_asking` for every grant). -/

namespace Sys2Proof.Tests

open Sys2Proof.Machine

set_option Elab.async false

/-! ### Well-formedness -/

theorem test_claim_of_40_bytes_is_well_formed : (Instr.claim 0 0 0 (List.replicate 40 0)).wellFormed = true := by decide
theorem test_claim_of_41_bytes_is_refused : (Instr.claim 0 0 0 (List.replicate 41 0)).wellFormed = false := by decide
theorem test_insert_of_41_bytes_is_refused : (Instr.insert 0 0 0 0 0 41 (List.replicate 41 0)).wellFormed = false := by decide
theorem test_modify_of_41_bytes_is_refused :
    (Instr.modify 0 0 8 0 0 0 0 41 (List.replicate 41 0)).wellFormed = false := by decide

/-! ### Words of the table -/

theorem test_no_word_spells_a_command : decodeTableWord 16 0x1234 = none := rfl
theorem test_fetch_word_changes_nothing : State.reset.withFetchWord 16 0x1234 = State.reset := rfl

/-! ### Values the spec writes out -/

/-- QUERY is the message 18 00 D8 (13.2). -/
theorem test_query_message : requestMessage 0x18 [] = [0x18, 0x00, 0xD8] := by decide +kernel
theorem test_query_is_read : evaluateRequest [0x18, 0x00, 0xD8] false = .ok .query := by decide +kernel
theorem test_identity_zero_under_seed_zero : bucketOf 0 0 = 0 := by decide +kernel
/-- Log 25: what R24's arithmetic gives for the identity of chapter 2's example. -/
theorem test_bucket_of_the_example :
    bucketOf 0xA5C3 0x4C001A00037E = 22 ∧ bucketOf 0x1F2E 0x4C001A00037E = 14 := by decide +kernel
theorem test_tag_after_0xFF_skips_the_acknowledged_0 : ({ Alert.reset with tag := 0xFF } : Alert).advance.tag = 1 := by decide
theorem test_due_is_modular : due 0 0xFFFFFFFF = true ∧ due 0 0x7FFFFFFF = false := by decide

/-! ### Small states -/

/-- The part past initialisation with a table and nothing waiting. -/
def alive (t : Table) : State :=
  { State.reset with
    life := .running, table := t, seen := t
    target := { Target.reset with listening := true }, port := { Port.reset with ready := true } }

/-- That part with one operation waiting. -/
def asking (r : Requester) (i : Instr) (t : Table) : State :=
  { alive t with arbiter :=
      { bus := if r = .bus then some i else none, host := if r = .host then some i else none
        expiry := if r = .expiry then some i else none, lastGranted := .expiry } }

/-- Every operation is granted in some state, with any table: every hypothesis `Granted s r i` is met. -/
theorem granted_asking (r : Requester) (i : Instr) (t : Table) : Granted (asking r i t) r i := by
  cases r <;> exact ⟨rfl, rfl, rfl, rfl⟩

theorem table_asking (r : Requester) (i : Instr) (t : Table) : (asking r i t).table = t := rfl

/-- The table after hard reset. -/
def t0 : Table := Table.reset 0x0C

/-- The identity of the examples. -/
def id1 : Identity := 0x4C001A00037E

/-- A table whose entry 0 holds that identity, in bucket 22, with generation 1. -/
def holding (life : EntryLife) : Table :=
  (t0.setEntry 0 { Entry.reset with life, identity := id1, generation := 1 }).setBucket 22 [0]

/-- The claim of an occupied slot. -/
def claim1 : SlotClaim := { identity := id1, cls := 0, low := 0x10, high := 0x20, override := 0, deadline := 500 }

/-- A claim held for the host: slot 0 and entry 0 AWAITING. -/
def held : Table := (holding (.awaiting 0)).setSlot 0 (.awaiting claim1 0)

/-- An offer outstanding. -/
def offered : Table := (holding (.offered 0 0x10 600 500)).setSlot 0 (.offered claim1 0)

/-- A binding with a lease. -/
def bound : Table := holding (.bound 0x10 600 (some 600000))

/-- A pinned binding. -/
def pinned : Table := holding (.bound 0x10 600 none)

def unverified : Table := holding (.unverified 0x10 600 120000)
def lapsed : Table := holding (.lapsed 0x10 600 60000)

/-- A run whose cursor stands at an entry. -/
def running (k : EntryIx) (t : Table) : Table :=
  { t with run := some { newSeed := 0x1F2E, shadow := Vector.replicate 32 [], cursor := k } }

/-- A rule that decides every claim. -/
def ruleFor (action : Action) : AdmissionRule :=
  { value := 0, prefixLength := 0, classMatch := none, action, low := 0x10, high := 0x20, override := 0, priority := false }

def ruled (action : Action) (t : Table) : Table := t.setRule 0 (some (ruleFor action))

/-- Every slot taken. -/
def noSlot (t : Table) : Table := { t with slots := Vector.replicate 4 (.refused { claim1 with identity := 0 }) }

/-- Every entry taken. -/
def noEntry (t : Table) : Table :=
  { t with entries := Vector.replicate 96 { Entry.reset with life := .bound 0x10 600 none, identity := 1 } }

/-- Every address of the map in one state. -/
def everyAddr (x : AddrState) (t : Table) : Table := { t with map := Vector.replicate 128 x }

/-- A pool without a free block. -/
def noBlock (t : Table) : Table := { t with pool := Vector.replicate 40 (some []) }

/-! ### One step of each kind -/

theorem test_idle_on_an_empty_queue : step State.reset = .next State.reset := rfl

/-- A CLAIM of an unknown identity is offered the lowest free address, 0x08. -/
theorem test_claim_offers_0x08 :
    (serveClaim 0 t0 id1 0 0 []).1 = .offer 0x08 1 500 600 false := by decide +kernel
theorem test_claim_offers_the_preference : (serveClaim 0 t0 id1 0 0x20 []).1 = .offer 0x20 1 500 600 false := by decide +kernel
theorem test_accept_binds : (serveAccept 0 offered id1 0x10 1).1 = .ok [0x10, 0x02, 0x58] := by decide +kernel
theorem test_renew_of_a_pinned_entry : (serveRenew 0 pinned id1 0x10).1 = .ok [0xFF, 0xFF, 0] := by decide +kernel
theorem test_insert_takes_entry_0 :
    (serveInsert 0 t0 id1 0 0x20 1 0 0 []).1 = .ok [0, 1, 0x20, 0x02, 0x58, 0] := by decide +kernel
theorem test_query_after_reset : serveQuery t0 = .ok [0, 96, 111, 4, 0, 0xA5, 0xC3] := by decide +kernel

/-- A pause with SCL high stops the bus-stuck timer, the next fall starts it (R144). -/
theorem test_high_pause_stops_the_stuck_timer :
    (∀ l ∈ [[BusActivity.sclFalls], [.sclFalls, .sclRises, .sclFalls]],
      (Target.hears { Target.reset with phase := .receiving } l).stuck = .running 32) ∧
    (Target.hears { Target.reset with phase := .receiving } [.sclFalls, .sclRises]).stuck = .idle := by decide

/-- A transaction without a whole byte ends at the rise of CS# (R150, log 26). -/
theorem test_empty_transaction_ends :
    ∃ s, execHostTransactionStart [] (alive t0) = .next s ∧ s.port.selected = true ∧ s.port.kind = .none ∧
      ∃ t, execUnknownTransaction [] s = .next t ∧ t.port.selected = false := by
  refine ⟨_, rfl, rfl, rfl, _, rfl, rfl⟩

/-! ### The hypotheses of the statements, met -/

theorem meets_OperationsAreGranted :
    requesterOf .query = some .bus ∧ requesterOf .readAlert = some .host ∧ requesterOf (.holdEnd 0 0) = some .expiry ∧
    Granted (asking .bus .query t0) .bus .query ∧ ¬ Granted State.reset .bus .query := by
  refine ⟨rfl, rfl, rfl, granted_asking _ _ _, ?_⟩
  rintro ⟨h, _⟩
  cases h

theorem meets_ArbiterRotates : ∀ r : Requester, ({ State.reset.arbiter with lastGranted := r } : Arbiter).lastGranted = r :=
  fun _ => rfl

theorem meets_HardResetRestartsThePart : State.reset.life = .inReset ∧ (State.reset.endReset 3).life = .initialising ∧
    (State.reset.endReset 3).seen.dueCandidate (State.reset.endReset 3).expiry.time = none :=
  ⟨rfl, rfl, rfl⟩

/-- A table with one item due at time 1. -/
def due1 : Table := { t0 with deadlines := [{ kind := .offer 0, deadline := 1 }] }

theorem meets_MillisecondCounts :
    ((State.reset.endReset 0).life ≠ .inReset ∧ (State.reset.endReset 0).life = .initialising) ∧
    ({ alive t0 with expiry := { time := 0, outstanding := true } } : State).expiry.outstanding = true ∧
    (alive t0).seen.dueCandidate ((alive t0).expiry.time + 1) = none ∧
    ((alive due1).life = .running ∧ (alive due1).expiry.outstanding = false ∧
      (alive due1).seen.dueCandidate ((alive due1).expiry.time + 1) = some (.offerExpiry 0 1)) := by
  refine ⟨⟨nofun, rfl⟩, rfl, rfl, rfl, rfl, by decide⟩

/-- A table with a deadline item and a quarantined address. -/
def dueBoth (d q : Time) : Table :=
  { t0 with deadlines := [{ kind := .lease 0, deadline := d }], quarantine := [{ address := 0x10, endTime := q }] }

theorem meets_ExpiryUnitSubmitsTheEarlierCandidate :
    (due 0 0x80000001 = true ∧ due 0 0x80000000 = false) ∧ t0.run = none ∧ (running 0 t0).run ≠ none ∧
    t0.dueQuarantine 5 = none ∧
    ((dueBoth 9 5).dueQuarantine 5 = some { address := 0x10, endTime := 5 } ∧ (dueBoth 9 5).dueItem 5 = none) ∧
    ((dueBoth 5 4).dueQuarantine 5 = some { address := 0x10, endTime := 4 } ∧
      (dueBoth 5 4).dueItem 5 = some { kind := .lease 0, deadline := 5 } ∧ earlier 4 5 = true ∧ earlier 5 5 = false) ∧
    ((alive due1).life = .running ∧ (alive due1).expiry.outstanding = false) ∧
    ((pinned.entry 0).life.deadline = none ∧ (bound.entry 0).life.deadline = some 600000) ∧
    (earlier 0 0x7FFFFFFF = true ∧ earlier 0 0x80000000 = false ∧ earlier 5 5 = false) := by
  refine ⟨by decide, rfl, nofun, by decide, by decide, by decide, ⟨rfl, rfl⟩, ⟨rfl, rfl⟩, by decide⟩

/-! #### Member bus target -/

/-- A target in a phase with an answer state. -/
def target (phase : BusPhase) (x : AnswerState) : Target :=
  { Target.reset with listening := true, phase, answerState := x, inFlight := decide (x = .pending) }

def onBus (t : Target) : State := { alive t0 with target := t }

/-- In every phase, and a write of QUERY that a repeated START ends. -/
theorem meets_AddressByteIsAnswered :
    (∀ p x, (onBus (target p x)).life ≠ .inReset ∧ (onBus (target p x)).target.listening = true) ∧
    (∀ p ∈ [BusPhase.unaddressed, .receiving, .sending, .stretching, .discarding], ∀ x ∈ [AnswerState.empty, .pending, .ready],
      ((onBus (target p x)).endTransaction []).target.answerState = x) ∧
    (let s := onBus { target .receiving .empty with receive := [0x18, 0x00, 0xD8] }
     (s.endTransaction []).target.answerState = .pending) ∧
    (0x10 : Addr) ≠ (onBus (target .unaddressed .empty)).authorityAddress ∧
    (State.reset.endReset 0).target.listening = false ∧
    (alive t0).seen.params.stretchLimit ≠ 0 ∧
    (alive { t0 with params := { t0.params with stretchLimit := 0 } }).seen.params.stretchLimit = 0 := by
  refine ⟨fun _ _ => ⟨nofun, rfl⟩, by decide, by decide +kernel, by decide, rfl, by decide, rfl⟩

theorem meets_BytesOnTheBus :
    ({ target .receiving .empty with receive := List.replicate 55 0 } : Target).receive.length < 56 ∧
    56 ≤ ({ target .receiving .empty with receive := List.replicate 56 0 } : Target).receive.length ∧
    (∀ r, ({ target .sending .ready with content := some [1], released := r } : Target).content = some [1] ∧
      ({ target .sending .ready with content := some [1], released := r } : Target).released = r) ∧
    (∀ p x, (target p x).phase = p) ∧
    (∀ x ∈ [(false, AnswerState.empty, BusPhase.receiving), (true, .ready, .sending), (true, .pending, .stretching),
        (false, .pending, .unaddressed)],
      (Target.address (target .unaddressed x.2.1) 0x0C 2 0x0C x.1).phase = x.2.2) := by
  refine ⟨by decide, by decide, fun r => ⟨rfl, rfl⟩, fun _ _ => rfl, by decide⟩

theorem meets_WritesEnd :
    (target .sending .ready).phase ≠ .receiving ∧ (target .receiving .empty).receive = [] ∧
    (let t := { target .receiving .empty with receive := [0x18] }
     t.phase = .receiving ∧ t.receive ≠ [] ∧ evaluateRequest t.receive t.overflow = .error .incomplete) ∧
    (let t := { target .receiving .empty with receive := [0x18, 0x00, 0xD8] }
     t.phase = .receiving ∧ t.receive ≠ [] ∧ evaluateRequest t.receive t.overflow = .ok .query) := by
  refine ⟨nofun, rfl, by decide +kernel, by decide +kernel⟩

theorem meets_RequestChecksInOrder :
    [(0x18 : Byte)] ≠ [] ∧ [(0x18 : Byte), 0].length < 3 ∧
    ([(0x18 : Byte), 1, 0xD8].length < (1 : Byte).toNat + 3 ∧ (0 : Byte).toNat + 3 < [(0x18 : Byte), 0, 0, 0xD8].length) ∧
    ([(0x18 : Byte), 0, 0].length = (0 : Byte).toNat + 3 ∧
      [(0x18 : Byte), 0, 0].getLastD 0 ≠ crc8 [(0x18 : Byte), 0, 0].dropLast) ∧
    (∀ kind ∈ [(0x0F : Byte), 0x19, 0x10], let bytes := [kind, 0, crc8 [kind, 0]]
      bytes.length = (0 : Byte).toNat + 3 ∧ bytes.getLastD 0 = crc8 bytes.dropLast) ∧
    ((0x0F : Byte).toNat < 0x10 ∧ 0x18 < (0x19 : Byte).toNat) ∧
    (∀ x ∈ [((0x10 : Byte), 9), (0x10, 49), (0x11, 8), (0x12, 7), (0x13, 7), (0x14, 6), (0x15, 1), (0x16, 2), (0x17, 3), (0x18, 0)],
      let payload := List.replicate 8 0 ++ [byteOf (x.2 - 9)] ++ List.replicate 40 0
      requestOf x.1 (payload.take x.2) ≠ none ∧ requestOf x.1 (payload.take x.2 ++ [0]) = none) ∧
    (let message := requestMessage 0x10 (List.replicate 8 0 ++ [1])
     message.length = 9 + 3 ∧ message.getLastD 0 = crc8 message.dropLast ∧ (message.getD 10 0).toNat ≠ 9 - 9 ∧
     evaluateRequest message false = .error .length) := by decide +kernel

theorem meets_RequestMessagesAreReadBack :
    requestBody (.claim id1 0 0 (List.replicate 40 7)) =
      some (0x10, identityBytes id1 ++ [0, 0, byteOf 40] ++ List.replicate 40 7) ∧
    (Instr.claim id1 0 0 (List.replicate 40 7)).wellFormed = true ∧ requestBody .query = some (0x18, []) := by
  refine ⟨rfl, by decide, rfl⟩

theorem meets_OperationsComplete :
    (∀ p, let s := { onBus (target p .pending) with service := some (.request Answer.notFound) }
      s.service = some (.request Answer.notFound) ∧ s.target.phase = p) ∧
    ({ alive t0 with service := some .expiry } : State).service = some .expiry :=
  ⟨fun _ => ⟨rfl, rfl⟩, rfl⟩

theorem meets_TimersRunOut :
    (let t := { target .stretching .pending with stretch := Timer.running 0 }
     t.phase = .stretching ∧ t.stretch = .running 0) ∧
    (∀ p l, let t := { target p .empty with stuck := Timer.running 0, receive := l }
      t.stuck = .running 0 ∧ t.phase = p ∧ t.receive = l) ∧
    ({ Alert.reset with timer := .running 0 } : Alert).timer = .running 0 :=
  ⟨⟨rfl, rfl⟩, fun _ _ => ⟨rfl, rfl, rfl⟩, rfl⟩

/-! #### Host command port -/

/-- A port that follows a transaction of a kind. -/
def port (kind : TransactionKind) : Port := { Port.reset with ready := true, selected := true, kind }

def onPort (p : Port) : State := { alive t0 with port := p }

theorem meets_TransactionStarts :
    (alive t0).life ≠ .inReset ∧ (alive t0).port.result = none ∧
    (onPort { port .none with command := .executing .abort }).port.command.isExecuting = true ∧
    (let s := onPort { port .none with result := some [0, 1, 0, 0] }
     s.port.command = .idle ∧ s.port.result = some [0, 1, 0, 0]) ∧
    ((0xC0 : Byte) ≠ 0xC1 ∧ (0xC4 : Byte) ≠ 0xC3) := by
  refine ⟨nofun, rfl, rfl, ⟨rfl, rfl⟩, by decide⟩

theorem meets_CommandFramesEnd :
    ((port .command).selected = true ∧ (port .command).kind = .command ∧ (port .command).ready = true) ∧
    ({ port .command with ready := false } : Port).ready = false ∧ checkFrame [0x16] false = none ∧
    checkFrame (commandFrame 0x16 9 []) false = some { sequence := 9, body := .operation .readAuthority } ∧
    checkFrame (commandFrame 0x1B 9 []) false = some { sequence := 9, body := .operation .abort } ∧
    checkFrame (commandFrame 0x1D 9 []) false = some { sequence := 9, body := .resetClear } ∧
    (port .command).command.isExecuting = false ∧
    ({ port .command with command := .executing (.rehash 1) } : Port).command.isExecuting = true := by
  refine ⟨⟨rfl, rfl, rfl⟩, rfl, ?_, ?_, ?_, ?_, rfl, rfl⟩ <;> decide +kernel

/-- The frame checks one by one, at the boundary of each, and a good frame of every code and allowed length (R153). -/
theorem meets_CommandFramesEnd_checks :
    [(0x16 : Byte), 0, 0].length ≤ 3 ∧ [(0x16 : Byte), 0, 0, 0].length ≠ (1 : Byte).toNat + 4 ∧
    ([(0x16 : Byte), 0, 0, 0].length = (0 : Byte).toNat + 4 ∧
      [(0x16 : Byte), 0, 0, 0].getLastD 0 ≠ crc8 [(0x16 : Byte), 0, 0, 0].dropLast) ∧
    (∀ code ∈ [(0x00 : Byte), 0x1E], let bytes := commandFrame code 9 []
      bytes.length = 4 ∧ bytes.getLastD 0 = crc8 bytes.dropLast ∧ (code.toNat < 0x01 ∨ 0x1D < code.toNat)) := by
  decide +kernel

/-- A code, a number of arguments, and how many bytes of a frame of zeros pass: that many, not one more. -/
def allows (code : Byte) (n : Nat) : Prop :=
  commandOf code (List.replicate n 0) ≠ none ∧ commandOf code (List.replicate (n + 1) 0) = none

theorem meets_CommandFramesEnd_lengths : allows 0x01 1 ∧ allows 0x04 52 ∧ allows 0x05 49 ∧ allows 0x0D 3 ∧ allows 0x13 16 ∧
    allows 0x1D 0 ∧ commandOf 0x04 (List.replicate 11 0) = none ∧ commandOf 0x05 (List.replicate 8 0) = none := by
  unfold allows
  decide +kernel

theorem meets_CommandFramesAreReadBack :
    commandBody (.writeParameter 1 50) = some (0x15, [1] ++ halfBytes 50) ∧
    (Instr.insert id1 0 0x10 0 0 40 (List.replicate 40 7)).wellFormed = true := by
  refine ⟨rfl, by decide⟩

theorem meets_OtherTransactionsEnd :
    ((alive t0).life ≠ .inReset ∧ ∃ opened, exec (.hostTransactionStart []) (alive t0) = .next opened ∧
      ([(0xC1 : Byte), 5].foldl State.hostByte opened).port.frame = [5]) ∧
    (∀ k, (onPort (port k)).port.selected = true ∧ (onPort (port k)).port.kind = k) ∧
    (let p := { port .readResult with contentHeld := true, content := [1], sdo := [0, 1] }
     p.contentHeld = true ∧ p.content.length < p.sdo.length) ∧
    (let p := { port .readResult with contentHeld := true, content := [1], sdo := [0] }
     p.sdo.length ≤ p.content.length) ∧ (port .readResult).contentHeld = false ∧
    (List.replicate 59 (0 : Byte)).length < 60 ∧ 60 ≤ (List.replicate 60 (0 : Byte)).length ∧
    (∀ x ∈ [((0xC1 : Byte), TransactionKind.command), (0xC2, .readResult), (0xC3, .readStatus), (0, .unknown)],
      ([x.1, 0].foldl State.hostByte (onPort (port .none))).port.kind = x.2) := by
  refine ⟨⟨nofun, _, rfl, rfl⟩, fun _ => ⟨rfl, rfl⟩, by decide, by decide, rfl, by decide, by decide, by decide +kernel⟩

theorem meets_CommandCompletes : ∀ p : BusPhase,
    (let s := { onBus (target p .empty) with service := some (.command .badArgument) }
     s.service = some (.command .badArgument)) ∧
    (let s := { onBus (target p .empty) with service := some (.retention .badArgument) }
     s.service = some (.retention .badArgument) ∧ s.target.phase = p) :=
  fun _ => ⟨rfl, rfl, rfl⟩

theorem meets_AlertCommandsAreServed :
    (let s := { alive t0 with service := some (.ackAlert 0) }
     s.service = some (.ackAlert 0) ∧ (0 : Byte) = (s.alert.take s.seen s.table false).tag) ∧
    (let s := { alive t0 with service := some (.ackAlert 1) }
     s.service = some (.ackAlert 1) ∧ (1 : Byte) ≠ (s.alert.take s.seen s.table false).tag) ∧
    ({ alive t0 with service := some .readAlert } : State).service = some .readAlert ∧
    (Alert.reset.tag + 1 ≠ Alert.reset.acknowledged ∧
      ({ Alert.reset with tag := 0xFF } : Alert).tag + 1 = Alert.reset.acknowledged) ∧
    (t0.changeSet = [] ∧ bound.changeSet = [] ∧ (bound.addChange 0).changeSet ≠ [] ∧
      ripe (bound.addChange 0) .idle = false ∧
      ripe { bound with changeSet := [0, 1, 2, 3] } .idle = true) := by
  refine ⟨⟨rfl, by decide +kernel⟩, ⟨rfl, by decide +kernel⟩, rfl, by decide, ?_⟩
  decide +kernel

/-! #### Member requests -/

/-- A table in OPEN to a new claim, and the same with one check that refuses it. -/
theorem meets_ClaimIsRefusedInOrder :
    Granted (asking .bus (.claim id1 0 0 []) t0) .bus (.claim id1 0 0 []) ∧
    (15 < (16 : Byte).toNat ∧ 0x7F < (0x80 : Byte).toNat ∧ (15 : Byte).toNat = (15 : ClassIx).val ∧
      (0x7F : Byte).toNat = (0x7F : Addr).val) ∧
    (t0.setSlot 3 (.refused claim1)).refusedSlot id1 = some 3 ∧
    (t0.refusedSlot id1 = none ∧ t0.lookup id1 = none ∧ (t0.classRecord 0).enabled = true) ∧
    ((t0.setClass 0 { ClassRecord.reset with enabled := false }).classRecord 0).enabled = false ∧
    ((ruled .deny t0).verdict id1 0).action = .deny ∧ (t0.verdict id1 0).action ≠ .deny ∧ (running 1 t0).run ≠ none ∧
    t0.run = none ∧ (noSlot t0).lowestFreeSlot = none ∧
    (∀ m, ((noSlot t0).slot m).claim = some { claim1 with identity := 0 }) ∧ t0.lowestFreeSlot ≠ none ∧ (noEntry t0).lowestVacant = none ∧
    t0.lowestVacant ≠ none ∧ ({ t0 with admission := .restricted } : Table).admission = .restricted ∧
    (t0.verdict id1 0).priority = false ∧ t0.admission = .opened ∧
    4 ≤ ((t0.setBucket 22 [1, 2, 3, 4]).bucket (bucketOf t0.seed id1)).length ∧
    ((t0.setBucket 22 [1, 2, 3]).bucket (bucketOf t0.seed id1)).length < 4 ∧
    Table.fitDescriptor (noBlock t0).params.truncateDescriptors (noBlock t0).freeBlocks.length (List.replicate 9 0) = none ∧
    Table.fitDescriptor t0.params.truncateDescriptors t0.freeBlocks.length (List.replicate 40 0) ≠ none ∧
    (t0.verdict id1 0).action ≠ .holdForHost ∧ (everyAddr .reserved t0).chooseAddr 0x08 0x77 (some 0) = none := by
  refine ⟨granted_asking _ _ _, ?_⟩
  decide +kernel

/-- A new claim on the table after hard reset passes; a rule holds it for the host. -/
theorem passes_t0 (t : Table) (h : t = t0 ∨ t = ruled .holdForHost t0) : t.ClaimPasses id1 0 [] 0 0 [] false := by
  rcases h with rfl | rfl
  · exact ⟨by decide +kernel, by decide +kernel, by decide +kernel, by decide +kernel, by decide +kernel, by decide +kernel,
      by decide +kernel, .inl (by decide +kernel), by decide +kernel, by decide +kernel⟩
  · exact ⟨by decide +kernel, by decide +kernel, by decide +kernel, by decide +kernel, by decide +kernel, by decide +kernel,
      by decide +kernel, .inl (by decide +kernel), by decide +kernel, by decide +kernel⟩

theorem meets_NewClaimIsOfferedOrHeld :
    (bound.lowestVacant = some 1 ∧ (noEntry t0).lowestVacant = none ∧ held.lowestFreeSlot = some 1 ∧
      (noSlot t0).lowestFreeSlot = none ∧ (t0.setSlot 3 (.refused claim1)).refusedSlot id1 = some 3 ∧
      t0.refusedSlot id1 = none ∧ [(0 : EntryIx), 5].Pairwise (· < ·)) ∧
    Granted (asking .bus (.claim id1 0 0 []) t0) .bus (.claim id1 0 0 []) ∧ t0.ClaimPasses id1 0 [] 0 0 [] false ∧
    (ruled .holdForHost t0).ClaimPasses id1 0 [] 0 0 [] false ∧
    ((ruled .holdForHost t0).verdict id1 0).action = .holdForHost ∧ (t0.verdict id1 0).action ≠ .holdForHost ∧
    t0.chooseAddr (t0.verdict id1 0).low (t0.verdict id1 0).high (some 0) = some 0x08 := by
  refine ⟨?_, granted_asking _ _ _, passes_t0 _ (.inl rfl), passes_t0 _ (.inr rfl), ?_⟩ <;> decide +kernel

theorem meets_PendingClaimIsRepeated :
    (offered.refusedSlot id1 = none ∧ offered.lookup id1 = some 0 ∧ (offered.entry 0).cls = 0 ∧ (offered.entry 0).cls ≠ 1 ∧
      (offered.entry 0).life = .offered 0 0x10 600 500) ∧
    (held.refusedSlot id1 = none ∧ held.lookup id1 = some 0 ∧ (held.entry 0).life = .awaiting 0 ∧
      held.slot 0 = .awaiting claim1 0) := by
  decide +kernel

/-- The lives that RENEW and a rejoin act on. -/
theorem meets_RejoinRenewsAndReplaces :
    (∀ t ∈ [bound, unverified, lapsed, pinned],
      t.refusedSlot id1 = none ∧ t.lookup id1 = some 0 ∧ (t.entry 0).cls = 0 ∧ (t.withRenewal 0 0).isSome = true) ∧
    Table.fitDescriptor bound.params.truncateDescriptors ((bound.entry 0).blocks.length + bound.freeBlocks.length)
      (List.replicate 40 0) = some (List.replicate 40 0, false) ∧
    Table.fitDescriptor (noBlock bound).params.truncateDescriptors
      (((noBlock bound).entry 0).blocks.length + (noBlock bound).freeBlocks.length) (List.replicate 9 0) = none := by
  decide +kernel

theorem meets_AcceptBindsTheOffer :
    t0.lookup id1 = none ∧ (∀ t ∈ [held, offered, bound, unverified, lapsed], t.lookup id1 = some 0) ∧
    (held.entry 0).life = .awaiting 0 ∧ (unverified.entry 0).life.state = .unverified ∧
    (lapsed.entry 0).life.state = .lapsed ∧
    ((offered.entry 0).life = .offered 0 0x10 600 500 ∧ (offered.entry 0).life.address = some 0x10 ∧
      (0x11 : Byte) ≠ addrByte 0x10 ∧ (0x10 : Byte) = addrByte 0x10 ∧ (2 : Byte) ≠ (offered.entry 0).generation ∧
      (1 : Byte) = (offered.entry 0).generation) ∧
    (bound.entry 0).life = .bound 0x10 600 (some 600000) ∧ (1 : Byte) = (bound.entry 0).generation := by
  decide +kernel

theorem meets_RenewStartsTheLease :
    (0x7F < (0x80 : Byte).toNat ∧ (0x7F : Byte).toNat ≤ 0x7F ∧ t0.lookup id1 = none) ∧
    (∀ t ∈ [held, offered, bound, unverified, lapsed, pinned], t.lookup id1 = some 0) ∧
    (held.entry 0).life.state = .awaiting ∧ (offered.entry 0).life.state = .offered ∧
    ((bound.entry 0).life.address = some 0x10 ∧ (bound.entry 0).life.state ≠ .offered ∧ (0x11 : Byte) ≠ addrByte 0x10) ∧
    (pinned.entry 0).life = .bound 0x10 600 none ∧ (bound.entry 0).life = .bound 0x10 600 (some 600000) ∧
    (unverified.entry 0).life = .unverified 0x10 600 120000 ∧ (lapsed.entry 0).life = .lapsed 0x10 600 60000 := by
  decide +kernel

theorem meets_ReleaseRetiresTheEntry :
    (0x7F < (0x80 : Byte).toNat ∧ (running 1 t0).run ≠ none ∧ t0.run = none ∧ t0.lookup id1 = none) ∧
    (∀ t ∈ [held, offered, bound, unverified, lapsed, pinned], t.lookup id1 = some 0 ∧ t.run = none) ∧
    (held.entry 0).life = .awaiting 0 ∧ (offered.entry 0).life = .offered 0 0x10 600 500 ∧
    ((pinned.entry 0).life.address = some 0x10 ∧ (pinned.entry 0).life.pinned = true) ∧
    ((bound.entry 0).life.pinned = false ∧ (bound.entry 0).life.state = .bound) ∧
    (unverified.entry 0).life.state = .unverified ∧ (lapsed.entry 0).life.state = .lapsed := by
  decide +kernel

theorem meets_WhoisReadsTheAddressRecord :
    Granted (asking .bus (.whois 0x7F) t0) .bus (.whois 0x7F) ∧ 0x7F < (0x80 : Byte).toNat ∧
    (0x7F : Byte).toNat = (0x7F : Addr).val ∧
    ∀ x ∈ [AddrState.bound 0, .held 0, .fixed, .reserved, .free, .offered 0, .quarantined 0], (t0.setAddr 0x10 x).addr 0x10 = x := by
  refine ⟨granted_asking _ _ _, ?_⟩
  decide +kernel

theorem meets_LookupsAnswer :
    (t0.lookup id1 = none ∧ bound.lookup id1 = some 0 ∧ (held.entry 0).life.state = .awaiting ∧
      (pinned.entry 0).life = .bound 0x10 600 none ∧ (bound.entry 0).life = .bound 0x10 600 (some 600000)) ∧
    (0x7F < (0x80 : Byte).toNat ∧ (∀ i, t0.addr 0x7F ≠ .bound i ∧ t0.addr 0x7F ≠ .held i) ∧
      (t0.setAddr 0x10 (.held 0)).addr 0x10 = .held 0 ∧ (bound.descriptor 0).length < (1 : Byte).toNat ∧
      (0 : Byte).toNat ≤ (bound.descriptor 0).length) ∧
    (15 < (16 : Byte).toNat ∧ (15 : Byte).toNat = (15 : ClassIx).val ∧ (1 : Byte) ≠ 0 ∧ (1 : Byte) ≠ (t0.classRecord 15).generation ∧
      (0 : Byte) = (t0.classRecord 15).generation) ∧
    Granted (asking .bus .query t0) .bus .query := by
  refine ⟨by decide +kernel, by decide +kernel, by decide +kernel, granted_asking _ _ _⟩

/-! #### What claims and commands share -/

/-- Two addresses in the quarantine queue, nothing FREE. -/
def queued (reuse : Bool) : Table :=
  { everyAddr .reserved t0 with
    quarantine := [{ address := 0x40, endTime := 1 }, { address := 0x12, endTime := 2 }]
    params := { t0.params with earlyReuse := reuse } }

theorem meets_AddressIsChosen :
    ((0x20 : Addr) ≠ 0 ∧ (0x08 : Addr) ≤ 0x20 ∧ (0x20 : Addr) ≤ 0x77 ∧ t0.addr 0x20 = .free) ∧
    (t0.addr 0x08 = .free ∧ ∀ b, b < 0x08 → ¬ ((0x08 : Addr) ≤ b ∧ b ≤ 0x77 ∧ t0.addr b = .free)) ∧
    (∀ a, ¬ ((0x10 : Addr) ≤ a ∧ a ≤ 0x20 ∧ (queued true).addr a = .free)) ∧
    (queued false).params.earlyReuse = false ∧ (queued true).params.earlyReuse = true ∧
    ((queued true).quarantine = [{ address := 0x40, endTime := 1 }] ++ { address := 0x12, endTime := 2 } :: [] ∧
      (0x10 : Addr) ≤ 0x12 ∧ (0x12 : Addr) ≤ 0x20 ∧
      ∀ y ∈ [({ address := 0x40, endTime := 1 } : QuarantineItem)], ¬ ((0x10 : Addr) ≤ y.address ∧ y.address ≤ 0x20)) ∧
    (∀ y ∈ (queued true).quarantine, ¬ ((0x50 : Addr) ≤ y.address ∧ y.address ≤ 0x60)) := by
  decide +kernel

/-- Two vacant entries, as a count below LOW_MARK; all vacant, as one above HIGH_MARK. -/
theorem meets_AdmissionIsDecided :
    (((ruled .admitInRange t0).rules.get 0 = some (ruleFor .admitInRange)) ∧ (ruleFor .admitInRange).prefixLength = 0 ∧
      (ruleFor .admitInRange).classMatch = none ∧ ∀ n, t0.rules.get n = none) ∧
    ((noEntry t0).admission = .opened ∧ (noEntry t0).vacantCount < (noEntry t0).params.lowMark.toNat) ∧
    (let t := { t0 with admission := .restricted }
     t.admission = .restricted ∧ t.params.highMark.toNat ≤ t.vacantCount) ∧
    (t0.admission = .opened ∧ t0.params.lowMark.toNat ≤ t0.vacantCount) := by
  decide +kernel

theorem meets_DescriptorsAreReplaced :
    (List.replicate 40 (7 : Byte)).length ≤ 40 ∧ t0.PoolIsPartitioned ∧
    Table.fitDescriptor t0.params.truncateDescriptors ((t0.entry 0).blocks.length + t0.freeBlocks.length)
      (List.replicate 40 7) = some (List.replicate 40 7, false) := by
  refine ⟨by decide, ⟨fun i b h => ?_, fun i => ?_, fun i k _ b h => ?_⟩, by decide +kernel⟩
  · rw [t0, Table.entry_reset] at h; cases h
  · rw [t0, Table.entry_reset]; exact List.nodup_nil
  · rw [t0, Table.entry_reset] at h; cases h

/-! #### Host commands -/

/-- Every command with a first argument that is an index, at the edge of its range. -/
theorem meets_index_ranges :
    (95 < (96 : Byte).toNat ∧ (95 : Byte).toNat = (95 : EntryIx).val) ∧ (31 < (32 : Byte).toNat ∧ (31 : Byte).toNat = (31 : BucketIx).val) ∧
    (3 < (4 : Byte).toNat ∧ (3 : Byte).toNat = (3 : SlotIx).val) ∧ (15 < (16 : Byte).toNat ∧ (15 : Byte).toNat = (15 : RuleIx).val) ∧
    (110 < (111 : Byte).toNat ∧ (110 : Byte).toNat ≤ 110) ∧ (95 < (96 : Byte).toNat ∧ (95 : Byte).toNat ≤ 95) := by decide

theorem meets_ReadEntryReports :
    Granted (asking .host (.readEntry 95) t0) .host (.readEntry 95) ∧ (bound.descriptor 0).length ≤ 40 := by
  refine ⟨granted_asking _ _ _, by decide +kernel⟩

theorem meets_IndexIsRead :
    Granted (asking .host (.findIdentity id1) t0) .host (.findIdentity id1) ∧
    Granted (asking .host (.readBucket 31) t0) .host (.readBucket 31) ∧ t0.lookup id1 = none ∧ bound.lookup id1 = some 0 :=
  ⟨granted_asking _ _ _, granted_asking _ _ _, by decide +kernel, by decide +kernel⟩

theorem meets_InsertBinds :
    (let i := Instr.insert id1 15 0x77 1 0 40 (List.replicate 40 7)
     Granted (asking .host i t0) .host i) ∧
    (15 < (16 : Byte).toNat ∧ 0x7F < (0x80 : Byte).toNat ∧ 1 < (2 : Byte).toNat ∧ 40 < (41 : Byte).toNat ∧
      (40 : Byte).toNat = (List.replicate 40 (7 : Byte)).length ∧ (39 : Byte).toNat ≠ (List.replicate 40 (7 : Byte)).length ∧
      (1 : Byte) = yesNo true ∧ (0 : Byte) = yesNo false) ∧
    (bound.lookup id1 = some 0 ∧ t0.lookup id1 = none ∧ (bound.entry 0).life.address = some 0x10 ∧
      (held.entry 0).life.address = none) ∧
    (∀ x ∈ [AddrState.offered 0, .bound 0, .held 0], (t0.setAddr 0x10 x).addr 0x10 = x) ∧
    (t0.addr 0x07 = .fixed ∧ t0.addr 0x08 = .free ∧ (t0.setAddr 0x10 .reserved).addr 0x10 = .reserved ∧
      (t0.setAddr 0x10 (.quarantined 0)).addr 0x10 = .quarantined 0) ∧
    (4 ≤ ((t0.setBucket 22 [1, 2, 3, 4]).bucket (bucketOf t0.seed id1)).length ∧
      (t0.bucket (bucketOf t0.seed id1)).length < 4) ∧
    ((noEntry t0).lowestVacant = none ∧ t0.lowestVacant = some 0) ∧
    Table.fitDescriptor (noBlock t0).params.truncateDescriptors (noBlock t0).freeBlocks.length (List.replicate 9 0) = none ∧
    Table.fitDescriptor t0.params.truncateDescriptors t0.freeBlocks.length (List.replicate 40 7) =
      some (List.replicate 40 7, false) := by
  refine ⟨granted_asking _ _ _, by decide, ?_⟩
  decide +kernel

/-- A MODIFY that selects nothing, one that selects every field, and a selection byte out of range. -/
theorem meets_ModifyIsChecked :
    ((t0.entry 95).life = .vacant ∧ (bound.entry 0).life ≠ .vacant ∧ (2 : Byte) ≠ (bound.entry 0).generation ∧
      (1 : Byte) = (bound.entry 0).generation ∧ (offered.entry 0).life.state = .offered ∧ (held.entry 0).life.state = .awaiting ∧
      (lapsed.entry 0).life.state = .lapsed ∧ (unverified.entry 0).life.state = .unverified) ∧
    ((pinned.entry 0).life = .bound 0x10 600 none ∧ (bound.entry 0).life = .bound 0x10 600 (some 600000) ∧
      (unverified.entry 0).life = .unverified 0x10 600 120000) ∧
    (∀ x : Edit, ¬ x.Spelled bound 32 0 0 0 0 0 []) ∧
    ({ cls := none, pinned := none, lease := none, descriptor := none, address := none } : Edit).Spelled bound 0 0 0 0 0 0 [] ∧
    ({ cls := some 15, pinned := some true, lease := some 1, descriptor := some [], address := some 0x20 } : Edit).Spelled
      bound 31 15 1 1 0x20 0 [] ∧
    (bound.addr 0x20 = .free ∧ (bound.setAddr 0x20 .reserved).addr 0x20 ≠ .free) ∧
    Table.fitDescriptor (noBlock bound).params.truncateDescriptors
      (((noBlock bound).entry 0).blocks.length + (noBlock bound).freeBlocks.length) (List.replicate 9 0) = none := by
  refine ⟨by decide +kernel, by decide +kernel, fun x h => ?_, ?_, ?_, by decide +kernel, by decide +kernel⟩
  · exact absurd h.inRange (by decide)
  · exact ⟨by decide, .inl ⟨rfl, rfl⟩, .inl ⟨rfl, rfl⟩, .inl ⟨rfl, rfl⟩, .inl ⟨rfl, rfl⟩, .inl ⟨rfl, rfl⟩⟩
  · exact ⟨by decide, .inr ⟨rfl, 15, rfl, rfl⟩, .inr ⟨rfl, true, rfl, rfl⟩, .inr ⟨rfl, by decide, rfl⟩,
      .inr ⟨rfl, by decide, rfl, rfl⟩, .inr ⟨rfl, 0x20, rfl, by decide +kernel, rfl⟩⟩

theorem meets_ModifyAppliesFieldsInOrder :
    (bound.entry 0).life = .bound 0x10 600 (some 600000) ∧ (pinned.entry 0).life = .bound 0x10 600 none ∧
    (unverified.entry 0).life = .unverified 0x10 600 120000 ∧ (15 : ClassIx) ≠ (bound.entry 0).cls ∧
    (bound.entry 0).life.address = some 0x10 ∧ (0x10 : Addr) ≠ 0x20 := by
  decide +kernel

theorem meets_RetireRetires :
    (let i := Instr.retire 0 1 0
     Granted (asking .host i bound) .host i) ∧ 1 < (2 : Byte).toNat ∧
    ((t0.entry 95).life = .vacant ∧ (bound.entry 0).life ≠ .vacant ∧ (1 : Byte) = (bound.entry 0).generation) ∧
    (held.entry 0).life = .awaiting 0 ∧ (offered.entry 0).life = .offered 0 0x10 600 500 ∧
    (bound.entry 0).life.state = .bound ∧ (unverified.entry 0).life.state = .unverified ∧
    (lapsed.entry 0).life.state = .lapsed := by
  refine ⟨granted_asking _ _ _, by decide, ?_⟩
  decide +kernel

theorem meets_HostMovesFreeAddresses :
    (∀ i ∈ [Instr.reserve 0x7F, .unreserve 0x7F, .unquarantine 0x7F], Granted (asking .host i t0) .host i) ∧
    (0x7F < (0x80 : Byte).toNat ∧ (0x7F : Byte).toNat = (0x7F : Addr).val ∧ t0.addr 0x7F = .fixed ∧ t0.addr 0x77 = .free) ∧
    (∀ x ∈ [AddrState.reserved, .quarantined 5, .offered 0, .bound 0, .held 0], (t0.setAddr 0x10 x).addr 0x10 = x) ∧
    ∀ d, t0.addr 0x77 ≠ .quarantined d := by
  refine ⟨fun i _ => granted_asking _ _ _, by decide +kernel, by decide +kernel, fun d => ?_⟩
  rw [show t0.addr 0x77 = .free by decide +kernel]
  nofun

theorem meets_AddressesAndTotalsAreRead :
    (∀ i ∈ [Instr.readAddress 0x7F, .readQuarantine 110, .readAuthority], Granted (asking .host i t0) .host i) ∧
    ((0x80 : Byte).toNat > 0x7F ∧ t0.addr 0x7F = .fixed) := by
  refine ⟨fun i _ => granted_asking _ _ _, by decide +kernel⟩

theorem meets_ApproveOffers :
    (let i := Instr.approve 0 1 0
     Granted (asking .host i held) .host i) ∧ (3 < (4 : Byte).toNat ∧ (t0.slot 3).isAwaiting = false) ∧
    (held.slot 0 = .awaiting claim1 0 ∧ (2 : Byte) ≠ (held.entry 0).generation ∧ (1 : Byte) = (held.entry 0).generation) ∧
    (everyAddr .reserved held).chooseAddr claim1.low claim1.high none = none ∧
    held.chooseAddr claim1.low claim1.high none = some 0x10 ∧
    ((0x0F : Addr) < claim1.low ∧ claim1.high < 0x21 ∧ (everyAddr .fixed held).addr 0x10 = .fixed) ∧
    (claim1.low ≤ 0x10 ∧ (0x20 : Addr) ≤ claim1.high ∧ held.addr 0x20 = .free ∧
      (everyAddr .reserved held).addr 0x20 = .reserved) := by
  refine ⟨granted_asking _ _ _, ?_⟩
  decide +kernel

theorem meets_DenyRefusesAndSlotsAreRead :
    (∀ i ∈ [Instr.deny 0 1, .readSlot 0], Granted (asking .host i held) .host i) ∧
    (held.slot 0 = .awaiting claim1 0 ∧ (1 : Byte) = (held.entry 0).generation ∧ (held.entry 0).life = .awaiting 0) ∧
    (t0.slot 3 = .free ∧ offered.slot 0 = .offered claim1 0 ∧ (t0.setSlot 3 (.refused claim1)).slot 3 = .refused claim1) := by
  refine ⟨fun i _ => granted_asking _ _ _, ?_⟩
  decide +kernel

theorem meets_ClassesAreWrittenAndRead :
    (∀ i ∈ [Instr.writeClass 15 1 1 0, .readClass 15, .readClassList 15 95], Granted (asking .host i t0) .host i) ∧
    (15 < (16 : Byte).toNat ∧ (0 : Half) = 0 ∧ 1 < (2 : Byte).toNat ∧ (1 : Byte) = yesNo true ∧ (1 : Half) ≠ 0) := by
  refine ⟨fun i _ => granted_asking _ _ _, by decide⟩

theorem meets_RulesAreWrittenAndRead :
    (∀ i ∈ [Instr.writeRule 15 1 id1 48 0xFF 3 0x08 0x77 0 1, .readRule 15], Granted (asking .host i t0) .host i) ∧
    (15 < (16 : Byte).toNat ∧ 1 < (2 : Byte).toNat) ∧
    (48 < (49 : Byte).toNat ∧ 15 < (16 : Byte).toNat ∧ (16 : Byte) ≠ 0xFF ∧ 3 < (4 : Byte).toNat ∧ (0x07 : Byte).toNat < 0x08 ∧
      0x77 < (0x78 : Byte).toNat ∧ (0x10 : Byte).toNat < (0x11 : Byte).toNat) ∧
    ((48 : Byte).toNat ≤ 48 ∧ (15 : Byte).toNat ≤ 15 ∧ (3 : Byte).toNat ≤ 3 ∧ (1 : Byte).toNat ≤ 1 ∧ 0x08 ≤ (0x08 : Byte).toNat ∧
      (0x77 : Byte).toNat ≤ 0x77) ∧
    (t0.rules.get 15 = none ∧ (ruled .deny t0).rules.get 0 = some (ruleFor .deny)) := by
  refine ⟨fun i _ => granted_asking _ _ _, ?_⟩
  decide +kernel

/-- Both ends of every range, and the values just outside. -/
theorem meets_ParametersAreWrittenAndRead :
    (∀ i ∈ [Instr.writeParameter 0x0D 3, .readParameter 0x0D], Granted (asking .host i t0) .host i) ∧
    ((0 : Byte).toNat < 0x01 ∧ 0x0D < (0x0E : Byte).toNat ∧ paramOf 0x0E = none ∧ paramOf 0x0D = some .defaultAction) ∧
    (∀ r ∈ [(50, 5000), (100, 60000), (1, 3600), (1, 96)], ∃ low high : Half, low.toNat + 1 = r.1 ∧ r.2 < high.toNat ∧
      r.1 ≤ (low + 1).toNat ∧ (high - 1).toNat ≤ r.2) ∧
    (96 < (97 : Half).toNat ∧ t0.params.highMark.toNat < (17 : Half).toNat ∧ (16 : Half).toNat ≤ t0.params.highMark.toNat ∧
      (7 : Half).toNat < t0.params.lowMark.toNat ∧ t0.params.lowMark.toNat ≤ (8 : Half).toNat) ∧
    (31 < (32 : Half).toNat ∧ (31 : Half).toNat ≤ 31 ∧ 1 < (2 : Half).toNat ∧ (1 : Half).toNat = true.toNat) ∧
    ((1 : Half).toNat = 1 ∧ 3 < (4 : Half).toNat ∧ (0 : Half).toNat = 0 ∧ (2 : Half).toNat = 2 ∧ (3 : Half).toNat = 3) := by
  refine ⟨fun i _ => granted_asking _ _ _, by decide, ?_, by decide, by decide, by decide⟩
  intro r h
  simp only [List.mem_cons, List.not_mem_nil, or_false] at h
  rcases h with rfl | rfl | rfl | rfl
  · exact ⟨49, 5001, by decide⟩
  · exact ⟨99, 60001, by decide⟩
  · exact ⟨0, 3601, by decide⟩
  · exact ⟨0, 97, by decide⟩

theorem meets_NextChangeTakesTheLowest :
    Granted (asking .host .nextChange t0) .host .nextChange ∧ t0.changeSet = [] ∧
    ({ t0 with changeSet := [0, 95] } : Table).changeSet = 0 :: [95] ∧ ({ t0 with changeSet := [0, 95] } : Table).ChangeSetSorted := by
  refine ⟨granted_asking _ _ _, rfl, rfl, ?_⟩
  show List.Pairwise _ [(0 : EntryIx), 95]
  decide

/-! #### REHASH, retention reset, expiries -/

theorem meets_RehashVisitsEveryEntry :
    (∀ i ∈ [Instr.rehash 0x1F2E, .rehashStep], Granted (asking .host i t0) .host i) ∧
    ((0xA5C3 : Half) = t0.seed ∧ (0x1F2E : Half) ≠ t0.seed ∧ (t0.entry 0).life = .vacant ∧ (bound.entry 0).life ≠ .vacant) ∧
    (∀ k ∈ [(0 : EntryIx), 94, 95], (running k bound).run = some { newSeed := 0x1F2E, shadow := Vector.replicate 32 [], cursor := k }) ∧
    ((95 : EntryIx).val = (94 : EntryIx).val + 1 ∧
      ((Vector.replicate 32 ([] : List EntryIx)).get (bucketOf 0x1F2E id1)).length < 4) := by
  refine ⟨fun i _ => granted_asking _ _ _, by decide +kernel, fun _ _ => rfl, by decide +kernel⟩

theorem meets_RehashOverflows :
    Granted (asking .host .rehashStep bound) .host .rehashStep ∧ (bound.entry 0).life ≠ .vacant ∧
    4 ≤ ((Vector.replicate 32 [(1 : EntryIx), 2, 3, 4]).get (bucketOf 0x1F2E (bound.entry 0).identity)).length :=
  ⟨granted_asking _ _ _, by decide +kernel, by decide +kernel⟩

theorem meets_RunsGoOnAndAbort :
    (∀ b, let s := { onPort { port .none with abortRequest := b } with service := some .step }
      s.service = some .step ∧ s.port.abortRequest = b) ∧
    (Granted (asking .host .rehashAbortEnding (running 95 t0)) .host .rehashAbortEnding ∧ (running 95 t0).run ≠ none) ∧
    Granted (asking .host .abort t0) .host .abort ∧
    (∀ i, let s := onPort { port .none with command := .executing i }
      s.arbiter.host ≠ some .abort ∧ s.port.command = .executing i) ∧ isRehash .readAlert = false ∧
    ((alive t0).arbiter.host ≠ some .abort ∧ (alive t0).port.command = .idle) ∧
    (let s := { asking .host .abort t0 with service := some .expiry }
     s.arbiter.host = some .abort ∧ ¬ Granted s .host .abort) :=
  ⟨fun _ => ⟨rfl, rfl⟩, ⟨granted_asking _ _ _, nofun⟩, granted_asking _ _ _, fun _ => ⟨nofun, rfl⟩, rfl, ⟨nofun, rfl⟩, rfl,
    fun granted => nomatch granted.2.1⟩

theorem meets_ResetKeepKeepsBindings :
    Granted (asking .host .resetKeep bound) .host .resetKeep ∧
    (held.entry 0).life.state = .awaiting ∧ (offered.entry 0).life.state = .offered ∧ (lapsed.entry 0).life.state = .lapsed ∧
    (bound.entry 0).life = .bound 0x10 600 (some 600000) ∧ (pinned.entry 0).life.pinned = true := by
  refine ⟨granted_asking _ _ _, ?_⟩
  decide +kernel

/-- A table with one deadline item. -/
def withItem (kind : ItemKind) (t : Table) : Table := { t with deadlines := [{ kind, deadline := 0 }] }

theorem meets_ClaimsAndQuarantinesExpire :
    (∀ i ∈ [Instr.offerExpiry 0 0, .approvalExpiry 0 0, .refusalExpiry 0 0, .quarantineEnd 0x10 0],
      ∀ t, Granted (asking .expiry i t) .expiry i) ∧
    (due 0 0 = true ∧ due 0 1 = false) ∧
    (({ kind := .offer 0, deadline := 0 } : DeadlineItem) ∈ (withItem (.offer 0) offered).deadlines ∧
      (withItem (.offer 0) offered).run = none ∧ ((withItem (.offer 0) offered).entry 0).life = .offered 0 0x10 600 500) ∧
    (({ kind := .approval 0, deadline := 0 } : DeadlineItem) ∈ (withItem (.approval 0) held).deadlines ∧
      (withItem (.approval 0) held).slot 0 = .awaiting claim1 0 ∧ ((withItem (.approval 0) held).entry 0).life = .awaiting 0) ∧
    ({ kind := .refusal 0, deadline := 0 } : DeadlineItem) ∈ (withItem (.refusal 0) t0).deadlines ∧
    ({ kind := .offer 0, deadline := 0 } : DeadlineItem) ∉ t0.deadlines ∧
    ((t0.setAddr 0x10 (.quarantined 0)).addr 0x10 = .quarantined 0 ∧ t0.addr 0x10 ≠ .quarantined 0) := by
  refine ⟨fun i _ t => granted_asking _ _ _, ?_⟩
  decide +kernel

theorem meets_BindingsLapse :
    (∀ i ∈ [Instr.leaseLapse 0 0, .revalidationEnd 0 0, .holdEnd 0 0], ∀ t, Granted (asking .expiry i t) .expiry i) ∧
    (({ kind := .lease 0, deadline := 0 } : DeadlineItem) ∈ (withItem (.lease 0) bound).deadlines ∧
      ((withItem (.lease 0) bound).entry 0).life = .bound 0x10 600 (some 600000)) ∧
    (({ kind := .revalidate 0, deadline := 0 } : DeadlineItem) ∈ (withItem (.revalidate 0) unverified).deadlines ∧
      ((withItem (.revalidate 0) unverified).entry 0).life = .unverified 0x10 600 120000) ∧
    (({ kind := .hold 0, deadline := 0 } : DeadlineItem) ∈ (withItem (.hold 0) lapsed).deadlines ∧
      ((withItem (.hold 0) lapsed).entry 0).life = .lapsed 0x10 600 60000) ∧
    ((bound.classRecord 0).hold ≠ 0 ∧ ((bound.setClass 0 { ClassRecord.reset with hold := 0 }).classRecord 0).hold = 0 ∧
      (running 0 bound).run ≠ none ∧ bound.run = none) := by
  refine ⟨fun i _ t => granted_asking _ _ _, ?_⟩
  decide +kernel

/-! #### Invariants -/

/-- The part in a hard reset, whose end is the next event. -/
def waking : State := { State.reset with pending := [.resetEnd 0] }

theorem waking_rests : waking.RestsAtStart := by
  constructor <;> intro h <;> first | rfl | cases h

theorem meets_StepKeepsThePartAtRest : waking.RestsAtStart ∧ ∃ t, step waking = .next t ∧ t.life = .initialising :=
  ⟨waking_rests, _, rfl, rfl⟩

theorem meets_StepKeepsTheAlertLineRight : waking.RestsAtStart ∧ waking.LineIsRight ∧ ∃ t, step waking = .next t := by
  refine ⟨waking_rests, (lineIsRight_iff _).2 ?_, _, rfl⟩
  show false = Alert.reset.condition _
  simp [Alert.condition, Alert.reset]

/-- A QUERY waits at the arbiter, its grant is the next event. -/
def querying : State :=
  { asking .bus .query t0 with target := target .unaddressed .pending, pending := [.query] }

theorem meets_StepKeepsOneOperationEach :
    (∃ t, step querying = .next t) ∧ querying.OneRequestInFlight ∧ querying.OneCommand ∧ querying.OneExpiry ∧
    querying.SeesCompletedTable ∧ querying.BuffersFit ∧ querying.TimersFitPhase :=
  ⟨⟨_, rfl⟩, by constructor <;> decide, by constructor <;> decide, by constructor <;> decide, fun _ => rfl,
    by constructor <;> decide, by constructor <;> decide⟩

/-- The part with a RETIRE of a table's entry 0 executing, which waits to be granted. -/
def retiring (t : Table) : State :=
  { asking .host (.retire 0 1 0) t with
    port := { Port.reset with ready := true, command := .executing (.retire 0 1 0) }, pending := [.retire 0 1 0] }

theorem retiring_is_one_command (t : Table) (h : t.run = none) :
    (retiring t).OneCommand ∧ (retiring t).RunIsOneCommand ∧ ∃ u, step (retiring t) = .next u := by
  refine ⟨⟨by simp [retiring, asking, alive, CommandState.isExecuting], by simp [retiring, asking, alive, State.reset], nofun⟩,
    ⟨fun i h => ?_, nofun, fun go => absurd h go⟩, _, rfl⟩
  have host : (retiring t).arbiter.host = some (.retire 0 1 0) := rfl
  cases host.symm.trans h
  exact .inl ⟨nofun, nofun, rfl⟩

/-- The table with a pinned binding that INSERT makes: an entry, an address and a class member. -/
def inserted : Table := (serveInsert 0 t0 id1 0 0x20 1 0 0 []).2

theorem inserted_records : inserted.RecordsAgree := by
  have served : ServedTable 0 t0 (.insert id1 0 0x20 1 0 0 []) inserted := .insert id1 0 0x20 1 0 0 []
  refine served.records ?_ (.inr rfl) (reset_records 0x0C)
  rintro (⟨_, h⟩ | h | h) <;> cases h

theorem meets_StepKeepsTheTableInRange_records :
    inserted.run = none ∧ (inserted.entry 0).life.state = .bound ∧ (retiring inserted).OneCommand ∧
    (retiring inserted).RunIsOneCommand ∧ (∃ u, step (retiring inserted) = .next u) ∧ inserted.RecordsAgree :=
  have run : inserted.run = none := by decide +kernel
  have state := retiring_is_one_command inserted run
  ⟨run, by decide +kernel, state.1, state.2.1, state.2.2, inserted_records⟩

theorem meets_StepKeepsTheTableInRange :
    querying.table.params.InRange ∧ querying.table.BucketsFit ∧ querying.table.ChangeSetSorted := by
  refine ⟨by constructor <;> decide, ⟨fun b => ?_, nofun⟩, List.Pairwise.nil⟩
  have : querying.table.bucket b = [] := by simp [querying, table_asking, t0, Table.bucket, Table.reset]
  rw [this]
  exact ⟨Nat.zero_le _, List.Pairwise.nil⟩

/-- A pinned binding with a descriptor of 20 bytes, 12 of them in block 0. -/
def described : Table := (t0.setLife 0 (.bound 0x10 600 none)).storeDescriptor 0 (List.replicate 20 7) false

theorem described_blocks : (described.entry 0).blocks = [0] ∧ described.descriptor 0 = List.replicate 20 7 ∧
    described.freeBlocks.length = 39 := by decide +kernel

theorem described_exact : described.PoolIsExact := by
  have taken : (t0.setLife 0 (.bound 0x10 600 none)).PoolIsExact :=
    Table.exact_setEntry (Table.exact_reset 0x0C) rfl rfl nofun
  exact Table.exact_storeDescriptor false taken (by decide +kernel) (by decide +kernel) (by decide +kernel)

theorem meets_StepKeepsThePoolPartitioned :
    let s := { asking .host (.retire 0 0 1) described with pending := [.retire 0 0 1] }
    s.table.PoolIsPartitioned ∧ s.table.PoolIsExact ∧ (s.table.entry 0).blocks = [0] ∧ ∃ t, step s = .next t :=
  ⟨described_exact.partitioned, described_exact, described_blocks.1, _, rfl⟩

theorem meets_StepKeepsFixedAddresses :
    querying.table.FixedAddressesStay querying.authorityAddress ∧
    (0x0C ≤ querying.authorityAddress.val ∧ querying.authorityAddress.val ≤ 0x0F) ∧
    (State.reset.pending = [] ∧ querying.pending = [.query]) ∧
    (let s := { onPort (port .command) with pending := [.commandFrameEnd [] 3] }
     s.pending = .commandFrameEnd [] 3 :: [] ∧ checkFrame s.port.frame s.port.overflow = none) := by
  refine ⟨⟨fun a => ?_, fun i a h => ?_, nofun⟩, by decide, ⟨rfl, rfl⟩, rfl, rfl⟩
  · rw [show querying.table = Table.reset 0x0C from rfl, Table.addr_reset]
    show _ ↔ a < 0x08 ∨ 0x77 < a ∨ a = 0x0C
    split <;> simp_all
  · rw [show querying.table = Table.reset 0x0C from rfl, Table.entry_reset] at h
    cases h

end Sys2Proof.Tests
end

/-! PROOFS. The identity index is read (R24, R29, R30), and a REHASH run overflows (R34). Each command has two kinds of
lemma here: what its grant leaves, and one equation for each case of what it serves. -/

namespace Sys2Proof.Proofs.IdentityIndex

open Sys2Proof.Machine

/-! ### The bucket function (R24) -/

/-- One bit of the bucket function's CRC, with the register's top bit named by its number. -/
theorem crcBit_half (polynomial register : Half) (bit : Bool) : crcBit polynomial register bit =
    if xor bit (register.getLsbD 15) then (register <<< 1) ^^^ polynomial else register <<< 1 := by
  rw [crcBit, BitVec.msb_eq_getLsbD_last]

theorem bucketOf_eq_foldl (seed : Half) (identity : Identity) : (bucketOf seed identity).val =
    (((List.range 48).map fun k => identity.getLsbD (47 - k)).foldl (fun (register : Half) bit =>
      if xor bit (register.getLsbD 15) then (register <<< 1) ^^^ 0x1021 else register <<< 1) seed).toNat % 32 := by
  have bits : (crcBit 0x1021 : Half → Bool → Half) = fun (register : Half) (bit : Bool) =>
      if xor bit (register.getLsbD 15) then (register <<< 1) ^^^ 0x1021 else register <<< 1 :=
    funext fun register => funext fun bit => crcBit_half 0x1021 register bit
  rw [bucketOf_bits, bits]

/-! ### FIND IDENTITY (R29) -/

theorem exec_findIdentity_of_granted {s : State} {identity : Identity} {r : Result}
    (granted : Granted s .host (.findIdentity identity)) (serves : serveFindIdentity s.table identity = r) :
    exec (.findIdentity identity) s = .next (s.served .host s.table (.command r)) := by
  subst serves
  exact grantCommand_of_granted granted _

theorem serveFindIdentity_of_none {t : Table} {identity : Identity} (absent : t.lookup identity = none) :
    serveFindIdentity t identity = .notFound [byteOf (bucketOf t.seed identity).val] := by
  simp only [serveFindIdentity, absent]

theorem serveFindIdentity_of_some {t : Table} {identity : Identity} {i : EntryIx} (found : t.lookup identity = some i) :
    serveFindIdentity t identity = .ok
      [byteOf i.val, (t.entry i).generation, (t.entry i).life.state.code, byteOf (bucketOf t.seed identity).val] := by
  simp only [serveFindIdentity, found]

/-! ### READ BUCKET (R30) -/

theorem exec_readBucket_of_granted {s : State} {bucket : Byte} {r : Result}
    (granted : Granted s .host (.readBucket bucket)) (serves : serveReadBucket s.table bucket = r) :
    exec (.readBucket bucket) s = .next (s.served .host s.table (.command r)) := by
  subst serves
  exact grantCommand_of_granted granted _

theorem serveReadBucket_of_lt {t : Table} {bucket : Byte} (beyond : 31 < bucket.toNat) :
    serveReadBucket t bucket = .badArgument := by
  simp only [serveReadBucket, indexOf_of_le (n := 32) beyond]

theorem serveReadBucket_of_eq {t : Table} {bucket : Byte} {b : BucketIx} (number : bucket.toNat = b.val) :
    serveReadBucket t bucket = .ok
      ([bucket, byteOf (t.bucket b).length] ++ (t.bucket b).flatMap fun i => [byteOf i.val, (t.entry i).generation]) := by
  simp only [serveReadBucket, indexOf_of_eq number, byteOf_of_eq number]

/-- Settles O35: the bucket function bit by bit, and each of the two commands by the cases of what it serves. -/
theorem indexIsRead : Obligations.IndexIsRead := by
  unfold Obligations.IndexIsRead
  refine ⟨bucketOf_eq_foldl, fun s => ⟨fun identity granted => ⟨fun absent => ?_, fun i found => ?_⟩,
    fun bucket granted => ⟨fun beyond => ?_, fun b number => ⟨?_, fun fits => fits.index b⟩⟩⟩⟩
  · exact exec_findIdentity_of_granted granted (serveFindIdentity_of_none absent)
  · exact exec_findIdentity_of_granted granted (serveFindIdentity_of_some found)
  · exact exec_readBucket_of_granted granted (serveReadBucket_of_lt beyond)
  · exact exec_readBucket_of_granted granted (serveReadBucket_of_eq number)

/-! ### The overflow of a REHASH run (R34) -/

theorem serveRehashStep_of_run {t : Table} {r : RehashRun} (going : t.run = some r) :
    serveRehashStep t = visitEntry t r := by
  simp only [serveRehashStep, going]

theorem exec_rehashStep_of_granted {s : State} {r : RehashRun} {outcome : Service × Table}
    (granted : Granted s .host .rehashStep) (going : s.table.run = some r) (visits : visitEntry s.table r = outcome) :
    exec .rehashStep s = .next (s.served .host outcome.2 outcome.1) := by
  rw [← visits, ← serveRehashStep_of_run going]
  exact grantHost_of_granted granted _

/-- The visit of a non-VACANT entry whose shadow bucket is full: the run is dropped and nothing else changes. -/
theorem visitEntry_of_full {t : Table} {r : RehashRun} (live : (t.entry r.cursor).life ≠ .vacant)
    (full : 4 ≤ (r.shadow.get (bucketOf r.newSeed (t.entry r.cursor).identity)).length) :
    visitEntry t r =
      (.command (.rehashOverflow (bucketOf r.newSeed (t.entry r.cursor).identity) r.cursor), { t with run := none }) := by
  have occupied : ¬ (t.entry r.cursor).life.isVacant = true := fun vacant => live ((isVacant_iff _).1 vacant)
  have capacity : Config.bucketCapacity ≤ (r.shadow.get (bucketOf r.newSeed (t.entry r.cursor).identity)).length := full
  simp only [visitEntry, if_neg occupied, if_pos capacity]

/-- Settles O49: the granted step visits the entry at the cursor, whose shadow bucket is full. -/
theorem rehashOverflows : Obligations.RehashOverflows := by
  unfold Obligations.RehashOverflows
  intro s r granted going live b full
  exact exec_rehashStep_of_granted granted going (visitEntry_of_full live full)

end Sys2Proof.Proofs.IdentityIndex

/-! PROOFS. RESERVE, UNRESERVE and UNQUARANTINE (R54, R55, R56), and the reads of an address, of the quarantine queue and of the
authority's totals (R57, R58, R168). What a granted command leaves follows from one equation for each case of what it serves. -/

namespace Sys2Proof.Proofs.ShortAddresses

open Sys2Proof.Machine

/-- A granted command leaves the table that it serves, with its result in service. -/
theorem exec_of_serves {s : State} {i : Instr} {o : Result × Table} {r : Result} {t' : Table}
    (dispatch : exec i s = s.grantCommand i o) (granted : Granted s .host i) (serves : o = (r, t')) :
    exec i s = .next (s.served .host t' (.command r)) := by
  subst serves
  exact dispatch.trans (grantCommand_of_granted granted _)

/-- A granted command that reads leaves the table as it was, with its result in service. -/
theorem exec_of_reads {s : State} {i : Instr} {o r : Result} (dispatch : exec i s = s.grantCommand i (o, s.table))
    (granted : Granted s .host i) (reads : o = r) : exec i s = .next (s.served .host s.table (.command r)) :=
  exec_of_serves dispatch granted (congrArg (·, s.table) reads)

/-! ### The entry an address names (R40) -/

theorem addrState_entry_eq_some_iff (x : AddrState) (k : EntryIx) :
    x.entry = some k ↔ x = .offered k ∨ x = .bound k ∨ x = .held k := by
  cases x <;> simp [AddrState.entry]

theorem addrState_entry_eq_none {x : AddrState} (idle : x = .fixed ∨ x = .reserved ∨ x = .free) : x.entry = none := by
  rcases idle with rfl | rfl | rfl <;> rfl

theorem ne_quarantined_of_idle {x : AddrState} (idle : x = .fixed ∨ x = .reserved ∨ x = .free) (d : Time) :
    x ≠ .quarantined d := by
  rcases idle with rfl | rfl | rfl <;> nofun

theorem ne_quarantined_of_entry {x : AddrState} {k : EntryIx} (names : x.entry = some k) (d : Time) : x ≠ .quarantined d := by
  rintro rfl
  cases names

theorem inUseAddr_of_entry {t : Table} {a : Addr} {k : EntryIx} (names : (t.addr a).entry = some k) :
    t.inUseAddr a = { code := 0x03, payload := [2, addrByte a, (t.addr a).code, byteOf k.val, (t.entry k).generation] } := by
  simp only [Table.inUseAddr, names, indexByte, Table.generationOf, Option.map_some, Option.getD_some]

section Cases

variable {now : Time} {t : Table} {address : Byte} {a : Addr}

/-! ### RESERVE (R54) -/

theorem serveReserve_of_lt (beyond : 0x7F < address.toNat) : serveReserve now t address = (.badArgument, t) := by
  simp only [serveReserve, addrOf_of_lt beyond]

theorem serveReserve_of_fixed (number : address.toNat = a.val) (state : t.addr a = .fixed) :
    serveReserve now t address = (.badArgument, t) := by
  simp only [serveReserve, addrOf_of_eq number, state]

theorem serveReserve_of_free (number : address.toNat = a.val) (state : t.addr a = .free) :
    serveReserve now t address = (.ok ([address, 2] ++ beBytes 4 0), t.setAddr a .reserved) := by
  simp only [serveReserve, addrOf_of_eq number, addrByte_of_eq number, state, AddrState.code]

theorem serveReserve_of_quarantined {d : Time} (number : address.toNat = a.val) (state : t.addr a = .quarantined d) :
    serveReserve now t address = (.ok ([address, 6] ++ remainingBytes now d), t.unqueueAddr a .reserved) := by
  simp only [serveReserve, addrOf_of_eq number, addrByte_of_eq number, state, AddrState.code]

theorem serveReserve_of_reserved (number : address.toNat = a.val) (state : t.addr a = .reserved) :
    serveReserve now t address = (.ok ([address, 1] ++ beBytes 4 0), t) := by
  simp only [serveReserve, addrOf_of_eq number, addrByte_of_eq number, state, AddrState.code]

theorem serveReserve_of_entry {k : EntryIx} (number : address.toNat = a.val) (names : (t.addr a).entry = some k) :
    serveReserve now t address =
      ({ code := 0x03, payload := [2, address, (t.addr a).code, byteOf k.val, (t.entry k).generation] }, t) := by
  have refuses : serveReserve now t address = (t.inUseAddr a, t) := by
    rcases (addrState_entry_eq_some_iff _ k).1 names with state | state | state <;>
      simp only [serveReserve, addrOf_of_eq number, state]
  rw [refuses, inUseAddr_of_entry names, addrByte_of_eq number]

/-! ### UNRESERVE (R55) and UNQUARANTINE (R56) -/

theorem refusedAddr_of_eq (number : address.toNat = a.val) : t.refusedAddr a = .refusedState [address, (t.addr a).code] := by
  rw [Table.refusedAddr, addrByte_of_eq number]

theorem serveUnreserve_of_lt (beyond : 0x7F < address.toNat) : serveUnreserve t address = (.badArgument, t) := by
  simp only [serveUnreserve, addrOf_of_lt beyond]

theorem serveUnreserve_of_fixed (number : address.toNat = a.val) (state : t.addr a = .fixed) :
    serveUnreserve t address = (.badArgument, t) := by
  simp only [serveUnreserve, addrOf_of_eq number, state]

theorem serveUnreserve_of_reserved (number : address.toNat = a.val) (state : t.addr a = .reserved) :
    serveUnreserve t address = (.ok [address], t.setAddr a .free) := by
  simp only [serveUnreserve, addrOf_of_eq number, addrByte_of_eq number, state]

theorem serveUnreserve_of_ne (number : address.toNat = a.val) (notFixed : t.addr a ≠ .fixed)
    (notReserved : t.addr a ≠ .reserved) :
    serveUnreserve t address = (.refusedState [address, (t.addr a).code], t) := by
  rw [← refusedAddr_of_eq number]
  cases state : t.addr a with
  | fixed => exact absurd state notFixed
  | reserved => exact absurd state notReserved
  | free | quarantined | offered | bound | held => simp only [serveUnreserve, addrOf_of_eq number, state]

theorem serveUnquarantine_of_lt (beyond : 0x7F < address.toNat) : serveUnquarantine now t address = (.badArgument, t) := by
  simp only [serveUnquarantine, addrOf_of_lt beyond]

theorem serveUnquarantine_of_quarantined {d : Time} (number : address.toNat = a.val) (state : t.addr a = .quarantined d) :
    serveUnquarantine now t address = (.ok (address :: remainingBytes now d), t.unqueueAddr a .free) := by
  simp only [serveUnquarantine, addrOf_of_eq number, addrByte_of_eq number, state]

theorem serveUnquarantine_of_ne (number : address.toNat = a.val) (outside : ∀ d, t.addr a ≠ .quarantined d) :
    serveUnquarantine now t address = (.refusedState [address, (t.addr a).code], t) := by
  rw [← refusedAddr_of_eq number]
  cases state : t.addr a with
  | quarantined d => exact absurd state (outside d)
  | fixed | reserved | free | offered | bound | held => simp only [serveUnquarantine, addrOf_of_eq number, state]

/-! ### READ ADDRESS (R57) and READ QUARANTINE (R58) -/

variable {authority : Addr}

theorem serveReadAddress_of_lt (beyond : 0x7F < address.toNat) : serveReadAddress now authority t address = .badArgument := by
  simp only [serveReadAddress, addrOf_of_lt beyond]

/-- Outside QUARANTINED the time and the position read as zero. -/
theorem serveReadAddress_of_ne (number : address.toNat = a.val) (outside : ∀ d, t.addr a ≠ .quarantined d) :
    serveReadAddress now authority t address = .ok [address, (t.addr a).code, yesNo (decide (a = authority)),
      indexByte (t.addr a).entry, t.generationOf (t.addr a).entry, 0, 0, 0, 0, 0] := by
  have zeros : beBytes 4 0 ++ [0] = ([0, 0, 0, 0, 0] : List Byte) := rfl
  cases state : t.addr a with
  | quarantined d => exact absurd state (outside d)
  | fixed | reserved | free | offered | bound | held =>
    simp only [serveReadAddress, addrOf_of_eq number, addrByte_of_eq number, state, zeros, List.cons_append, List.nil_append]

theorem serveReadAddress_of_idle (number : address.toNat = a.val)
    (idle : t.addr a = .fixed ∨ t.addr a = .reserved ∨ t.addr a = .free) :
    serveReadAddress now authority t address =
      .ok [address, (t.addr a).code, yesNo (decide (a = authority)), 0, 0, 0, 0, 0, 0, 0] := by
  rw [serveReadAddress_of_ne number (ne_quarantined_of_idle idle), addrState_entry_eq_none idle]
  rfl

theorem serveReadAddress_of_entry {k : EntryIx} (number : address.toNat = a.val) (names : (t.addr a).entry = some k) :
    serveReadAddress now authority t address = .ok [address, (t.addr a).code, yesNo (decide (a = authority)),
      byteOf k.val, (t.entry k).generation, 0, 0, 0, 0, 0] := by
  rw [serveReadAddress_of_ne number (ne_quarantined_of_entry names), names]
  rfl

theorem serveReadAddress_of_quarantined {d : Time} (number : address.toNat = a.val) (state : t.addr a = .quarantined d) :
    serveReadAddress now authority t address = .ok ([address, 6, yesNo (decide (a = authority)), 0, 0] ++
      remainingBytes now d ++ [byteOf (queuePosition t a)]) := by
  simp only [serveReadAddress, addrOf_of_eq number, addrByte_of_eq number, state, AddrState.code, List.append_assoc]
  rfl

theorem serveReadQuarantine_of_lt {position : Byte} (beyond : 110 < position.toNat) :
    serveReadQuarantine now t position = .badArgument := by
  rw [serveReadQuarantine, if_pos beyond]

theorem serveReadQuarantine_of_le {position : Byte} (within : position.toNat ≤ 110) :
    serveReadQuarantine now t position =
      let items := (t.quarantine.drop position.toNat).take 8
      .ok ([byteOf t.quarantine.length, byteOf items.length] ++
        items.flatMap fun x => addrByte x.address :: remainingBytes now x.endTime) := by
  rw [serveReadQuarantine, if_neg within.not_gt]

end Cases

/-! ### READ AUTHORITY (R168) -/

theorem vacantCount_eq (t : Table) : t.vacantCount = (List.finRange 96).countP fun i => (t.entry i).life = .vacant :=
  List.countP_congr fun i _ => by rw [isVacant_iff, decide_eq_true_iff]

/-- The summary byte by byte: the six entry counts, the six address counts and the four slot counts stand one behind the other. -/
theorem serveReadAuthority_eq (now : Time) (authority : Addr) (t : Table) :
    let entries (st : EntryState) := byteOf (t.countEntries st)
    serveReadAuthority now authority t = .ok (timeBytes now ++ [addrByte authority] ++ halfBytes t.seed ++
      [t.admission.code, entries .vacant, entries .awaiting, entries .offered, entries .bound, entries .unverified,
        entries .lapsed, byteOf ((List.finRange 96).countP fun i => (t.entry i).life.pinned), byteOf (t.countAddrs 2),
        byteOf (t.countAddrs 1), byteOf (t.countAddrs 6), byteOf (t.countAddrs 3), byteOf (t.countAddrs 4),
        byteOf (t.countAddrs 5), byteOf t.freeBlocks.length, byteOf (t.countSlots 0), byteOf (t.countSlots 1),
        byteOf (t.countSlots 2), byteOf (t.countSlots 3), byteOf t.deadlines.length, byteOf t.changeSet.length]) := by
  simp only [serveReadAuthority, AddrState.code, List.map_cons, List.map_nil, List.append_assoc, List.cons_append,
    List.nil_append]

/-! ### The statements -/

/-- Settles O40: each of the three commands by the state of the address it names. -/
theorem hostMovesFreeAddresses : Obligations.HostMovesFreeAddresses := by
  unfold Obligations.HostMovesFreeAddresses
  intro s address
  refine ⟨fun granted => ⟨fun beyond => ?_, fun a number =>
      ⟨fun state => ?_, fun state => ?_, fun d state => ?_, fun state => ?_, fun k names => ?_⟩⟩,
    fun granted => ⟨fun beyond => ?_, fun a number => ⟨fun state => ?_, fun state => ?_, fun notFixed notReserved => ?_⟩⟩,
    fun granted => ⟨fun beyond => ?_, fun a number => ⟨fun d state => ?_, fun outside => ?_⟩⟩⟩
  · exact exec_of_serves rfl granted (serveReserve_of_lt beyond)
  · exact exec_of_serves rfl granted (serveReserve_of_fixed number state)
  · exact exec_of_serves rfl granted (serveReserve_of_free number state)
  · exact exec_of_serves rfl granted (serveReserve_of_quarantined number state)
  · exact exec_of_serves rfl granted (serveReserve_of_reserved number state)
  · exact exec_of_serves rfl granted (serveReserve_of_entry number ((addrState_entry_eq_some_iff _ k).2 names))
  · exact exec_of_serves rfl granted (serveUnreserve_of_lt beyond)
  · exact exec_of_serves rfl granted (serveUnreserve_of_fixed number state)
  · exact exec_of_serves rfl granted (serveUnreserve_of_reserved number state)
  · exact exec_of_serves rfl granted (serveUnreserve_of_ne number notFixed notReserved)
  · exact exec_of_serves rfl granted (serveUnquarantine_of_lt beyond)
  · exact exec_of_serves rfl granted (serveUnquarantine_of_quarantined number state)
  · exact exec_of_serves rfl granted (serveUnquarantine_of_ne number outside)

/-- Settles O41: what each total counts, and each of the three reads by the cases of what it serves. -/
theorem addressesAndTotalsAreRead : Obligations.AddressesAndTotalsAreRead := by
  unfold Obligations.AddressesAndTotalsAreRead
  intro s
  refine ⟨vacantCount_eq _, fun _ => rfl, fun _ => rfl, fun _ => rfl, Table.mem_freeBlocks _,
    fun address granted => ⟨fun beyond => ?_, fun a number => ⟨fun idle => ?_, fun k names => ?_, fun d state => ?_⟩⟩,
    fun position granted => ⟨fun beyond => ?_, fun within => ?_⟩, fun granted => ?_⟩
  · exact exec_of_reads rfl granted (serveReadAddress_of_lt beyond)
  · exact exec_of_reads rfl granted (serveReadAddress_of_idle number idle)
  · exact exec_of_reads rfl granted (serveReadAddress_of_entry number ((addrState_entry_eq_some_iff _ k).2 names))
  · exact exec_of_reads rfl granted (serveReadAddress_of_quarantined number state)
  · exact exec_of_reads rfl granted (serveReadQuarantine_of_lt beyond)
  · exact exec_of_reads rfl granted (serveReadQuarantine_of_le within)
  · exact exec_of_reads rfl granted (serveReadAuthority_eq ..)

end Sys2Proof.Proofs.ShortAddresses

/-! PROOFS. WRITE CLASS, READ CLASS and READ CLASS LIST (R64, R65, R125). What a granted command leaves follows from one equation
for each case of what it serves. -/

namespace Sys2Proof.Proofs.Classes

open Sys2Proof.Machine
open Sys2Proof.Proofs.ShortAddresses (exec_of_serves exec_of_reads)

section Cases

variable {t : Table} {cls : Byte} {c : ClassIx}

/-- The fields of a class, with the class number as the argument byte that names it. -/
theorem classFields_of_eq (number : cls.toNat = c.val) : t.classFields c =
    [cls, yesNo (t.classRecord c).enabled] ++ halfBytes (t.classRecord c).lease ++ halfBytes (t.classRecord c).hold := by
  simp only [Table.classFields, byteOf_of_eq number]

/-! ### WRITE CLASS (R64, R190) -/

variable {enabled : Byte} {lease hold : Half}

theorem serveWriteClass_of_lt (beyond : 15 < cls.toNat) :
    serveWriteClass t cls enabled lease hold = (.badArgument, t) := by
  simp only [serveWriteClass, indexOf_of_le (n := 16) beyond]

theorem serveWriteClass_of_lease_eq_zero : serveWriteClass t cls enabled 0 hold = (.badArgument, t) := by
  unfold serveWriteClass
  split
  · exact if_pos rfl
  · rfl

theorem serveWriteClass_of_enabled_lt (neither : 1 < enabled.toNat) :
    serveWriteClass t cls enabled lease hold = (.badArgument, t) := by
  rw [serveWriteClass, yesNoOf_of_lt neither]
  cases indexOf 16 cls <;> rfl

/-- The written class carries the three fields, and the result reads them back from the table left. -/
theorem serveWriteClass_of_eq (number : cls.toNat = c.val) (on : Bool) (nonzero : lease ≠ 0) :
    serveWriteClass t cls (yesNo on) lease hold = (.ok ([cls, yesNo on] ++ halfBytes lease ++ halfBytes hold),
      t.setClass c { t.classRecord c with enabled := on, lease, hold }) := by
  simp only [serveWriteClass, indexOf_of_eq number, yesNoOf_yesNo, if_neg nonzero, classFields_of_eq number,
    Table.classRecord_setClass, if_true]

/-! ### READ CLASS (R65) -/

theorem serveReadClass_of_lt (beyond : 15 < cls.toNat) : serveReadClass t cls = .badArgument := by
  simp only [serveReadClass, indexOf_of_le (n := 16) beyond]

theorem serveReadClass_of_eq (number : cls.toNat = c.val) :
    let r := t.classRecord c
    serveReadClass t cls = .ok ([cls, yesNo r.enabled] ++ halfBytes r.lease ++ halfBytes r.hold ++
      [r.generation, byteOf r.members.length, byteOf (lapsedOf t c)]) := by
  simp only [serveReadClass, indexOf_of_eq number, classFields_of_eq number]

/-! ### READ CLASS LIST (R125) -/

variable {position : Byte}

theorem serveReadClassList_of_lt (beyond : 15 < cls.toNat) : serveReadClassList t cls position = .badArgument := by
  simp only [serveReadClassList, indexOf_of_le (n := 16) beyond]

theorem serveReadClassList_of_position_lt (beyond : 95 < position.toNat) :
    serveReadClassList t cls position = .badArgument := by
  unfold serveReadClassList
  split
  · rfl
  · exact if_pos beyond

theorem serveReadClassList_of_eq (number : cls.toNat = c.val) (within : position.toNat ≤ 95) :
    let r := t.classRecord c
    let items := (r.members.drop position.toNat).take 8
    serveReadClassList t cls position = .ok ([cls, r.generation, byteOf r.members.length, byteOf items.length] ++
      items.flatMap (classListItem t)) := by
  simp only [serveReadClassList, indexOf_of_eq number, byteOf_of_eq number, if_neg within.not_gt]

end Cases

/-- Settles O44: each of the three commands by the ranges of its arguments. -/
theorem classesAreWrittenAndRead : Obligations.ClassesAreWrittenAndRead := by
  unfold Obligations.ClassesAreWrittenAndRead
  intro s cls
  refine ⟨fun enabled lease hold granted => ⟨?_, ?_⟩, fun granted => ⟨fun beyond => ?_, fun c number => ?_⟩,
    fun position granted => ⟨?_, fun c number within => ?_⟩⟩
  · rintro (beyond | rfl | neither)
    · exact exec_of_serves rfl granted (serveWriteClass_of_lt beyond)
    · exact exec_of_serves rfl granted serveWriteClass_of_lease_eq_zero
    · exact exec_of_serves rfl granted (serveWriteClass_of_enabled_lt neither)
  · rintro c on number rfl nonzero
    exact exec_of_serves rfl granted (serveWriteClass_of_eq number on nonzero)
  · exact exec_of_reads rfl granted (serveReadClass_of_lt beyond)
  · exact exec_of_reads rfl granted (serveReadClass_of_eq number)
  · rintro (beyond | beyond)
    · exact exec_of_reads rfl granted (serveReadClassList_of_lt beyond)
    · exact exec_of_reads rfl granted (serveReadClassList_of_position_lt beyond)
  · exact exec_of_reads rfl granted (serveReadClassList_of_eq number within)

end Sys2Proof.Proofs.Classes

/-! PROOFS. A CLAIM of an identity that an entry holds under another class, in OFFERED or in AWAITING (R85, R86): the check order
leads to the entry, and one equation for each case says what is answered. -/

namespace Sys2Proof.Proofs.PendingClaims

open Sys2Proof.Machine

/-- A granted request leaves the table that it serves, with its answer in service. -/
theorem exec_of_answers {s : State} {i : Instr} {o : Answer × Table} {a : Answer} {t' : Table}
    (dispatch : exec i s = s.grantRequest i o) (granted : Granted s .bus i) (serves : o = (a, t')) :
    exec i s = .next (s.served .bus t' (.request a)) := by
  subst serves
  exact dispatch.trans (grantRequest_of_granted granted _)

theorem cappedLease_toNat (lease : Half) : (cappedLease lease).toNat = min 65534 lease.toNat := by
  rw [cappedLease, BitVec.toNat_ofNat]
  omega

section Cases

variable {now : Time} {t : Table} {identity : Identity} {cls preferred : Byte} {d : List Byte} {c : ClassIx} {p : Addr}
  {i : EntryIx}

/-- Past the argument checks and the refusal memory (R81, R82) a known identity is served by its entry. -/
theorem serveClaim_of_lookup (number : cls.toNat = c.val) (preference : preferred.toNat = p.val)
    (notRefused : t.refusedSlot identity = none) (found : t.lookup identity = some i) :
    serveClaim now t identity cls preferred d = serveHeldClaim now t i identity c p d := by
  simp only [serveClaim, indexOf_of_eq number, addrOf_of_eq preference, notRefused, found]

theorem serveHeldClaim_of_ne (other : (t.entry i).cls ≠ c) :
    serveHeldClaim now t i identity c p d = (.mismatchClass (t.entry i).cls, t) :=
  if_pos other

theorem serveHeldClaim_of_offered {j : SlotIx} {a : Addr} {lease : Half} {deadline : Time} (same : (t.entry i).cls = c)
    (life : (t.entry i).life = .offered j a lease deadline) :
    serveHeldClaim now t i identity c p d =
      (.offer a (t.entry i).generation (remainingHalf now deadline) (cappedLease lease) (t.entry i).truncated, t) := by
  simp only [serveHeldClaim, if_neg (not_not_intro same), life]

theorem serveHeldClaim_of_awaiting {j : SlotIx} {k : EntryIx} {claim : SlotClaim} (same : (t.entry i).cls = c)
    (life : (t.entry i).life = .awaiting j) (slot : t.slot j = .awaiting claim k) :
    serveHeldClaim now t i identity c p d = (.retryLater .approval (remainingHalf now claim.deadline), t) := by
  simp only [serveHeldClaim, if_neg (not_not_intro same), life, slot, Slot.claim, Option.map_some, Option.getD_some]

end Cases

/-- Settles O24: the claim reaches the entry that holds its identity, and the entry's class and state decide the answer. -/
theorem pendingClaimIsRepeated : Obligations.PendingClaimIsRepeated := by
  unfold Obligations.PendingClaimIsRepeated
  intro s identity cls preferred d c p i
  refine ⟨fun _ => rfl, cappedLease_toNat, fun granted number preference notRefused found => ?_⟩
  have reaches := serveClaim_of_lookup (now := s.expiry.time) (d := d) number preference notRefused found
  refine ⟨fun other => ?_, fun j a lease deadline same life => ?_, fun j k claim same life slot => ?_⟩
  · exact exec_of_answers rfl granted (reaches.trans (serveHeldClaim_of_ne other))
  · exact exec_of_answers rfl granted (reaches.trans (serveHeldClaim_of_offered same life))
  · exact exec_of_answers rfl granted (reaches.trans (serveHeldClaim_of_awaiting same life slot))

end Sys2Proof.Proofs.PendingClaims

/-! PROOFS. DENY (R96, R98) and READ SLOT (R102): what the guard refuses, the table after a refusal, and the bytes of a slot. -/

namespace Sys2Proof.Proofs.OfferSlots

open Sys2Proof.Machine
open Sys2Proof.Proofs.ShortAddresses (exec_of_serves exec_of_reads)

section Cases

variable {now : Time} {t : Table} {slot generation : Byte} {j : SlotIx} {c : SlotClaim} {k : EntryIx}

/-! ### DENY (R96, R98) -/

theorem serveDeny_of_error {r : Result} (refuses : t.guardSlot slot generation = .error r) :
    serveDeny now t slot generation = (r, t) := by
  simp only [serveDeny, refuses]

theorem serveDeny_of_ok (number : slot.toNat = j.val) (passes : t.guardSlot slot generation = .ok (j, c, k)) :
    serveDeny now t slot generation =
      (.ok (slot :: halfBytes t.params.approvalTime), denyClaim now t j c k) := by
  simp only [serveDeny, passes, byteOf_of_eq number]

/-- The retirement frees the slot and takes its item; the refusal then fills the slot and places the item anew. -/
theorem denyClaim_of_awaiting (life : (t.entry k).life = .awaiting j) :
    denyClaim now t j c k =
      let deadline := afterMs now t.params.approvalTime
      let gone := t.withoutEntry k
      { gone with
        slots := t.slots.set j (.refused { c with deadline })
        deadlines := insertBehind (fun x => !earlier deadline x.deadline) { kind := .refusal j, deadline }
          (gone.deadlines.filter fun x => x.kind.owner ≠ Owner.slot j) }.evaluateAdmission := by
  have owner : (ItemKind.refusal j).owner = Owner.slot j := rfl
  simp only [denyClaim, Table.retireEntry_awaiting now false life, Table.setSlot, Table.moveItem, Table.removeItem,
    Table.placeItem, owner, Vector.set_set, List.filter_filter, Bool.and_self]

/-! ### READ SLOT (R102) -/

/-- The eighteen bytes that READ SLOT carries of a claim, with the three fields that the slot's state decides. -/
def claimBytes (now : Time) (c : SlotClaim) (entry gen address : Byte) : List Byte :=
  identityBytes c.identity ++ [byteOf c.cls.val, entry, gen, address, addrByte c.low, addrByte c.high] ++
    halfBytes c.override ++ beBytes 4 (remaining now c.deadline)

theorem serveReadSlot_of_lt (beyond : 3 < slot.toNat) : serveReadSlot now t slot = .badArgument := by
  simp only [serveReadSlot, indexOf_of_le (n := 4) beyond]

theorem serveReadSlot_of_free (number : slot.toNat = j.val) (state : t.slot j = .free) :
    serveReadSlot now t slot = .ok (slot :: 0 :: List.replicate 18 0) := by
  simp only [serveReadSlot, indexOf_of_eq number, byteOf_of_eq number, state, Slot.claim, Slot.code]
  rfl

theorem serveReadSlot_of_awaiting (number : slot.toNat = j.val) (state : t.slot j = .awaiting c k) :
    serveReadSlot now t slot = .ok (slot :: 1 :: claimBytes now c (byteOf k.val) (t.entry k).generation 0) := by
  simp only [serveReadSlot, indexOf_of_eq number, byteOf_of_eq number, state, Slot.claim, Slot.code, Slot.entry]
  rfl

theorem serveReadSlot_of_offered (number : slot.toNat = j.val) (state : t.slot j = .offered c k) :
    serveReadSlot now t slot = .ok (slot :: 2 ::
      claimBytes now c (byteOf k.val) (t.entry k).generation (indexByte (t.entry k).life.address)) := by
  simp only [serveReadSlot, indexOf_of_eq number, byteOf_of_eq number, state, Slot.claim, Slot.code, Slot.entry]
  rfl

theorem serveReadSlot_of_refused (number : slot.toNat = j.val) (state : t.slot j = .refused c) :
    serveReadSlot now t slot = .ok (slot :: 3 :: claimBytes now c 0 0 0) := by
  simp only [serveReadSlot, indexOf_of_eq number, byteOf_of_eq number, state, Slot.claim, Slot.code, Slot.entry]
  rfl

end Cases

/-- Settles O43: DENY by what its guard answers, READ SLOT by the state of the slot. -/
theorem denyRefusesAndSlotsAreRead : Obligations.DenyRefusesAndSlotsAreRead := by
  unfold Obligations.DenyRefusesAndSlotsAreRead
  intro s slot generation
  obtain ⟨beyondRange, inRange⟩ := guardSlot_cases s.table slot generation
  refine ⟨fun granted => ⟨fun beyond => ?_, fun j number => ?_⟩, fun granted => ⟨fun beyond => ?_, fun j number =>
    ⟨fun state => ?_, fun c k state => ?_, fun c k state => ?_, fun c state => ?_⟩⟩⟩
  · exact exec_of_serves rfl granted (serveDeny_of_error (beyondRange beyond))
  · obtain ⟨notAwaiting, stale, passes⟩ := inRange j number
    refine ⟨fun state => ?_, fun c k state other => ?_, fun c k state same life => ?_⟩
    · exact exec_of_serves rfl granted (serveDeny_of_error (notAwaiting state))
    · exact exec_of_serves rfl granted (serveDeny_of_error (stale c k state other))
    · exact exec_of_serves rfl granted ((serveDeny_of_ok number (passes c k state same)).trans
        (congrArg _ (denyClaim_of_awaiting life)))
  · exact exec_of_reads rfl granted (serveReadSlot_of_lt beyond)
  · exact exec_of_reads rfl granted (serveReadSlot_of_free number state)
  · exact exec_of_reads rfl granted (serveReadSlot_of_awaiting number state)
  · exact exec_of_reads rfl granted (serveReadSlot_of_offered number state)
  · exact exec_of_reads rfl granted (serveReadSlot_of_refused number state)

end Sys2Proof.Proofs.OfferSlots

/-! PROOFS. WRITE RULE and READ RULE (R109, R110). Which arguments spell a valid admission rule is said once, as the rule that
they spell; what a granted command leaves follows from one equation for each case of what it serves. -/

namespace Sys2Proof.Proofs.AdmissionRules

open Sys2Proof.Machine
open Sys2Proof.Proofs.ShortAddresses (exec_of_serves exec_of_reads)

/-! ### The argument bytes of a rule (R104, R190) -/

theorem exists_yesNo_iff (b : Byte) : (∃ v, yesNo v = b) ↔ b.toNat ≤ 1 := by
  constructor
  · rintro ⟨_ | _, rfl⟩ <;> decide
  · intro within
    obtain ⟨v, spelled⟩ | beyond := yesNo_or_lt b
    · exact ⟨v, spelled.symm⟩
    · exact absurd within beyond.not_ge

theorem actionOf_iff (b : Byte) (a : Action) : actionOf b = some a ↔ a.code = b := by
  constructor
  · intro read
    unfold actionOf at read
    split at read <;> cases read <;> next value => exact BitVec.eq_of_toNat_eq value.symm
  · rintro rfl
    cases a <;> rfl

theorem exists_actionCode_iff (b : Byte) : (∃ a : Action, a.code = b) ↔ b.toNat ≤ 3 := by
  constructor
  · rintro ⟨_ | _ | _ | _, rfl⟩ <;> decide
  · intro within
    have values : b.toNat = 0 ∨ b.toNat = 1 ∨ b.toNat = 2 ∨ b.toNat = 3 := by omega
    rcases values with value | value | value | value
    · exact ⟨.allow, BitVec.eq_of_toNat_eq value.symm⟩
    · exact ⟨.admitInRange, BitVec.eq_of_toNat_eq value.symm⟩
    · exact ⟨.holdForHost, BitVec.eq_of_toNat_eq value.symm⟩
    · exact ⟨.deny, BitVec.eq_of_toNat_eq value.symm⟩

theorem classMatchByte_toNat (c : ClassIx) : (classMatchByte (some c)).toNat = c.val :=
  Nat.mod_eq_of_lt (c.isLt.trans (by decide))

/-- No class number is the byte of ANY. -/
theorem classMatchByte_ne_any (c : ClassIx) : classMatchByte (some c) ≠ 0xFF := by
  intro any
  have number : c.val = 0xFF := (classMatchByte_toNat c).symm.trans (congrArg BitVec.toNat any)
  exact absurd (number ▸ c.isLt) (by decide)

theorem classMatchOf_iff (b : Byte) (x : Option ClassIx) : classMatchOf b = some x ↔ classMatchByte x = b := by
  constructor
  · intro read
    unfold classMatchOf at read
    split at read
    · next any => cases read; exact any.symm
    · obtain ⟨c, index, rfl⟩ := Option.map_eq_some_iff.1 read
      exact byteOf_of_eq (eq_of_indexOf index)
  · rintro rfl
    cases x with
    | none => rfl
    | some c => rw [classMatchOf, if_neg (classMatchByte_ne_any c), indexOf_of_eq (classMatchByte_toNat c), Option.map_some]

theorem exists_classMatchByte_iff (b : Byte) : (∃ x, classMatchByte x = b) ↔ b.toNat ≤ 15 ∨ b = 0xFF := by
  constructor
  · rintro ⟨_ | c, rfl⟩
    · exact .inr rfl
    · exact .inl ((classMatchByte_toNat c).trans_le (Nat.le_of_lt_succ c.isLt))
  · rintro (within | rfl)
    · exact ⟨some ⟨b.toNat, Nat.lt_succ_of_le within⟩, byteOf_of_eq rfl⟩
    · exact ⟨none, rfl⟩

theorem ruleRangeOf_iff (low high : Byte) (l h : Addr) : ruleRangeOf low high = some (l, h) ↔
    l.val = low.toNat ∧ h.val = high.toNat ∧ 0x08 ≤ low.toNat ∧ low.toNat ≤ high.toNat ∧ high.toNat ≤ 0x77 := by
  constructor
  · intro read
    unfold ruleRangeOf at read
    split at read
    · next lowest highest =>
      have lowNumber := eq_of_indexOf lowest
      have highNumber := eq_of_indexOf highest
      split at read
      · next ordered =>
        obtain ⟨above, upwards, below⟩ := ordered
        cases read
        rw [lowNumber, highNumber]
        exact ⟨rfl, rfl, above, upwards, below⟩
      · cases read
    · cases read
  · rintro ⟨lowNumber, highNumber, ordered⟩
    rw [← lowNumber, ← highNumber] at ordered
    simp only [ruleRangeOf, addrOf_of_eq lowNumber.symm, addrOf_of_eq highNumber.symm]
    exact if_pos ordered

/-! ### The rule that the arguments spell (R109) -/

/-- The arguments of a WRITE RULE with valid yes spell an admission rule: each field is its argument's value, and the range is one
that a rule may hold. -/
structure Spells (value : Identity) (length classMatch action low high : Byte) (override : Half) (priority : Byte)
    (a : AdmissionRule) : Prop where
  value_ : a.value = value
  length_ : a.prefixLength.val = length.toNat
  classMatch_ : classMatchByte a.classMatch = classMatch
  action_ : a.action.code = action
  low_ : a.low.val = low.toNat
  high_ : a.high.val = high.toNat
  override_ : a.override = override
  priority_ : yesNo a.priority = priority
  range : 0x08 ≤ low.toNat ∧ low.toNat ≤ high.toNat ∧ high.toNat ≤ 0x77

section Cases

variable {t : Table} {rule valid : Byte} {r : RuleIx} {value : Identity} {length classMatch action low high : Byte}
  {override : Half} {priority : Byte} {a : AdmissionRule}

theorem ruleOf_eq_some_iff : ruleOf value length classMatch action low high override priority = some a ↔
    Spells value length classMatch action low high override priority a := by
  simp only [ruleOf, Option.bind_eq_bind, Option.bind_eq_some_iff, Option.pure_def, Option.some.injEq, indexOf_iff,
    classMatchOf_iff, actionOf_iff, yesNoOf_iff, Prod.exists, ruleRangeOf_iff]
  constructor
  · rintro ⟨_, number, _, fits, _, acts, _, prior, _, _, ⟨lowest, highest, range⟩, rfl⟩
    exact ⟨rfl, number.symm, fits, acts, lowest, highest, rfl, prior.symm, range⟩
  · rintro ⟨rfl, number, fits, acts, lowest, highest, rfl, prior, range⟩
    exact ⟨_, number.symm, _, fits, _, acts, _, prior.symm, _, _, ⟨lowest, highest, range⟩, rfl⟩

theorem exists_spells_iff : (∃ a, Spells value length classMatch action low high override priority a) ↔
    length.toNat ≤ 48 ∧ (classMatch.toNat ≤ 15 ∨ classMatch = 0xFF) ∧ action.toNat ≤ 3 ∧ priority.toNat ≤ 1 ∧
      0x08 ≤ low.toNat ∧ low.toNat ≤ high.toNat ∧ high.toNat ≤ 0x77 := by
  rw [← exists_classMatchByte_iff, ← exists_actionCode_iff, ← exists_yesNo_iff]
  constructor
  · rintro ⟨a, spelled⟩
    exact ⟨spelled.length_ ▸ Nat.le_of_lt_succ a.prefixLength.isLt, ⟨_, spelled.classMatch_⟩, ⟨_, spelled.action_⟩,
      ⟨_, spelled.priority_⟩, spelled.range⟩
  · rintro ⟨within, ⟨x, fits⟩, ⟨act, acts⟩, ⟨first, prior⟩, range⟩
    obtain ⟨above, upwards, below⟩ := range
    exact ⟨{ value, prefixLength := ⟨length.toNat, by omega⟩, classMatch := x, action := act, low := ⟨low.toNat, by omega⟩,
             high := ⟨high.toNat, by omega⟩, override, priority := first },
      rfl, rfl, fits, acts, rfl, rfl, rfl, prior, above, upwards, below⟩

/-- One field out of its range is enough for the arguments to spell no rule. -/
theorem ruleOf_eq_none (outside : 48 < length.toNat ∨ (15 < classMatch.toNat ∧ classMatch ≠ 0xFF) ∨ 3 < action.toNat ∨
    1 < priority.toNat ∨ low.toNat < 0x08 ∨ 0x77 < high.toNat ∨ high.toNat < low.toNat) :
    ruleOf value length classMatch action low high override priority = none := by
  refine Option.eq_none_iff_forall_ne_some.2 fun a read => ?_
  obtain ⟨within, fits, acts, prior, above, upwards, below⟩ := exists_spells_iff.1 ⟨a, ruleOf_eq_some_iff.1 read⟩
  rcases fits with fits | rfl
  · omega
  · simp only [ne_eq, not_true_eq_false, and_false, false_or] at outside
    omega

/-! ### The rule record (R104, 13.5) -/

theorem get_setRule (t : Table) (r : RuleIx) (x : Option AdmissionRule) : (t.setRule r x).rules.get r = x := by
  rw [Table.setRule, Table.get_set, if_pos rfl]

theorem ruleRecord_of_none (number : rule.toNat = r.val) (absent : t.rules.get r = none) :
    t.ruleRecord r = rule :: List.replicate 15 0 := by
  simp only [Table.ruleRecord, absent, byteOf_of_eq number]

theorem ruleRecord_of_some (number : rule.toNat = r.val) (present : t.rules.get r = some a) :
    t.ruleRecord r = [rule, 1] ++ identityBytes a.value ++
      [byteOf a.prefixLength.val, classMatchByte a.classMatch, a.action.code, addrByte a.low, addrByte a.high] ++
      halfBytes a.override ++ [yesNo a.priority] := by
  simp only [Table.ruleRecord, present, byteOf_of_eq number]

/-- A rule that the arguments spell reads back as these arguments. -/
theorem ruleRecord_of_spells (number : rule.toNat = r.val) (present : t.rules.get r = some a)
    (spelled : Spells value length classMatch action low high override priority a) :
    t.ruleRecord r = [rule, 1] ++ identityBytes value ++ [length, classMatch, action, low, high] ++ halfBytes override ++
      [priority] := by
  rw [ruleRecord_of_some number present, spelled.value_, byteOf_of_eq spelled.length_.symm, spelled.classMatch_,
    spelled.action_, addrByte_of_eq spelled.low_.symm, addrByte_of_eq spelled.high_.symm, spelled.override_,
    spelled.priority_]

/-! ### WRITE RULE (R109) -/

theorem serveWriteRule_of_lt (beyond : 15 < rule.toNat) :
    serveWriteRule t rule valid value length classMatch action low high override priority = (.badArgument, t) := by
  simp only [serveWriteRule, indexOf_of_le (n := 16) beyond]

theorem serveWriteRule_of_valid_lt (neither : 1 < valid.toNat) :
    serveWriteRule t rule valid value length classMatch action low high override priority = (.badArgument, t) := by
  rw [serveWriteRule, yesNoOf_of_lt neither]
  cases indexOf 16 rule <;> rfl

theorem serveWriteRule_of_valid_no (number : rule.toNat = r.val) :
    serveWriteRule t rule 0 value length classMatch action low high override priority =
      (.ok (rule :: List.replicate 15 0), t.setRule r none) := by
  have no : yesNoOf 0 = some false := yesNoOf_yesNo false
  simp only [serveWriteRule, indexOf_of_eq number, no, ruleRecord_of_none number (get_setRule t r none)]

theorem serveWriteRule_of_ruleOf_none
    (refused : ruleOf value length classMatch action low high override priority = none) (number : rule.toNat = r.val) :
    serveWriteRule t rule 1 value length classMatch action low high override priority = (.badArgument, t) := by
  have yes : yesNoOf 1 = some true := yesNoOf_yesNo true
  simp only [serveWriteRule, indexOf_of_eq number, yes, refused]

theorem serveWriteRule_of_spells (number : rule.toNat = r.val)
    (spelled : Spells value length classMatch action low high override priority a) :
    serveWriteRule t rule 1 value length classMatch action low high override priority =
      (.ok ([rule, 1] ++ identityBytes value ++ [length, classMatch, action, low, high] ++ halfBytes override ++ [priority]),
        t.setRule r (some a)) := by
  have yes : yesNoOf 1 = some true := yesNoOf_yesNo true
  simp only [serveWriteRule, indexOf_of_eq number, yes, ruleOf_eq_some_iff.2 spelled,
    ruleRecord_of_spells number (get_setRule t r (some a)) spelled]

/-! ### READ RULE (R110) -/

theorem serveReadRule_of_lt (beyond : 15 < rule.toNat) : serveReadRule t rule = .badArgument := by
  simp only [serveReadRule, indexOf_of_le (n := 16) beyond]

theorem serveReadRule_of_eq (number : rule.toNat = r.val) : serveReadRule t rule = .ok (t.ruleRecord r) := by
  simp only [serveReadRule, indexOf_of_eq number]

end Cases

/-- Settles O45: WRITE RULE by what its arguments spell, READ RULE by the rule that the number names. -/
theorem rulesAreWrittenAndRead : Obligations.RulesAreWrittenAndRead := by
  unfold Obligations.RulesAreWrittenAndRead
  intro s rule
  refine ⟨fun valid value length classMatch action low high override priority granted => ⟨?_, ?_, ?_⟩,
    fun granted => ⟨fun beyond => ?_, fun r number => ⟨fun absent => ?_, fun a present => ?_⟩⟩⟩
  · rintro (beyond | neither)
    · exact exec_of_serves rfl granted (serveWriteRule_of_lt beyond)
    · exact exec_of_serves rfl granted (serveWriteRule_of_valid_lt neither)
  · rintro r number rfl
    exact exec_of_serves rfl granted (serveWriteRule_of_valid_no number)
  · rintro r number rfl
    refine ⟨fun outside => ?_, fun within fits acts prior above upwards below => ?_⟩
    · exact exec_of_serves rfl granted (serveWriteRule_of_ruleOf_none (ruleOf_eq_none outside) number)
    · obtain ⟨written, spelled⟩ := exists_spells_iff.2 ⟨within, fits, acts, prior, above, upwards, below⟩
      exact ⟨written, exec_of_serves rfl granted (serveWriteRule_of_spells number spelled), spelled.value_,
        spelled.length_, spelled.classMatch_, spelled.action_, spelled.low_, spelled.high_, spelled.override_,
        spelled.priority_⟩
  · exact exec_of_reads rfl granted (serveReadRule_of_lt beyond)
  · exact exec_of_reads rfl granted ((serveReadRule_of_eq number).trans (congrArg _ (ruleRecord_of_none number absent)))
  · exact exec_of_reads rfl granted ((serveReadRule_of_eq number).trans (congrArg _ (ruleRecord_of_some number present)))

end Sys2Proof.Proofs.AdmissionRules

/-! PROOFS. The lookups of a member: what a lookup by identity finds (R27), and RESOLVE, WHOIS, DESCRIBE, ENUMERATE and QUERY
(R119, R120, R121, R124, R126), with one equation for each case of what is answered. -/

namespace Sys2Proof.Proofs.MemberLookups

open Sys2Proof.Machine
open Sys2Proof.Proofs.PendingClaims (exec_of_answers)

/-- A granted lookup leaves the table as it was, with its answer in service. -/
theorem exec_of_lookup {s : State} {i : Instr} {o a : Answer} (dispatch : exec i s = s.grantRequest i (o, s.table))
    (granted : Granted s .bus i) (answers : o = a) : exec i s = .next (s.served .bus s.table (.request a)) :=
  exec_of_answers dispatch granted (congrArg (·, s.table) answers)

section Cases

variable {now : Time} {t : Table} {identity : Identity} {i : EntryIx} {a : Addr} {address : Byte}

/-! ### Lookup by identity (R27) -/

theorem mem_bucket_of_lookup (found : t.lookup identity = some i) : i ∈ t.bucket (bucketOf t.seed identity) :=
  List.mem_of_find?_eq_some found

theorem identity_of_lookup (found : t.lookup identity = some i) : (t.entry i).identity = identity := by
  have selected := List.find?_some found
  exact of_decide_eq_true (Bool.and_eq_true_iff.1 selected).2

theorem lookup_eq_none_iff : t.lookup identity = none ↔
    ∀ i ∈ t.bucket (bucketOf t.seed identity), (t.entry i).identity ≠ identity ∨ (t.entry i).life = .vacant := by
  rw [Table.lookup, List.find?_eq_none]
  refine forall₂_congr fun i _ => ?_
  rw [← isVacant_iff]
  cases (t.entry i).life.isVacant <;> simp

/-! ### RESOLVE (R119) -/

theorem leaseSeconds_of_deadline_none (pinned : (t.entry i).life.deadline = none) : t.leaseSeconds now i = 0xFFFF := by
  simp only [Table.leaseSeconds, pinned]

theorem leaseSeconds_of_deadline_some {d : Time} (ends : (t.entry i).life.deadline = some d) :
    t.leaseSeconds now i = remainingSeconds now d := by
  simp only [Table.leaseSeconds, ends]

theorem serveResolve_of_lookup_none (absent : t.lookup identity = none) : serveResolve now t identity = .notFound := by
  simp only [serveResolve, absent]

/-- OFFERED and AWAITING entries are not reported. -/
theorem serveResolve_of_pending (found : t.lookup identity = some i)
    (pending : (t.entry i).life.state = .awaiting ∨ (t.entry i).life.state = .offered) :
    serveResolve now t identity = .notFound := by
  cases life : (t.entry i).life with
  | vacant | awaiting | offered => simp only [serveResolve, found, life]
  | bound | unverified | lapsed => simp only [life, EntryLife.state, reduceCtorEq, or_self] at pending

/-- A BOUND, UNVERIFIED or LAPSED entry is reported with its address, and its deadline decides the seconds. -/
theorem serveResolve_of_address (found : t.lookup identity = some i) (holds : (t.entry i).life.address = some a)
    (accepted : (t.entry i).life.state ≠ .offered) :
    serveResolve now t identity = .ok ([addrByte a, (t.entry i).life.state.code] ++ halfBytes (t.leaseSeconds now i) ++
      [byteOf (t.entry i).cls.val]) := by
  cases life : (t.entry i).life with
  | vacant | awaiting => simp only [life, EntryLife.address, reduceCtorEq] at holds
  | offered => simp only [life, EntryLife.state, ne_eq, not_true_eq_false] at accepted
  | bound | unverified | lapsed =>
    rw [life, EntryLife.address, Option.some_inj] at holds
    simp only [serveResolve, found, life, holds]

theorem serveResolve_of_pinned {lease : Half} (found : t.lookup identity = some i)
    (life : (t.entry i).life = .bound a lease none) :
    serveResolve now t identity = .ok ([addrByte a, (t.entry i).life.state.code] ++ halfBytes 0xFFFF ++
      [byteOf (t.entry i).cls.val]) := by
  rw [serveResolve_of_address found (a := a) (by rw [life]; rfl) (by rw [life]; nofun),
    leaseSeconds_of_deadline_none (by rw [life]; rfl)]

theorem serveResolve_of_deadline {lease : Half} {d : Time} (found : t.lookup identity = some i)
    (life : (t.entry i).life = .bound a lease (some d) ∨ (t.entry i).life = .unverified a lease d ∨
      (t.entry i).life = .lapsed a lease d) :
    serveResolve now t identity = .ok ([addrByte a, (t.entry i).life.state.code] ++ halfBytes (remainingSeconds now d) ++
      [byteOf (t.entry i).cls.val]) := by
  obtain ⟨holds, accepted, ends⟩ : (t.entry i).life.address = some a ∧ (t.entry i).life.state ≠ .offered ∧
      (t.entry i).life.deadline = some d := by
    rcases life with life | life | life <;> rw [life] <;> exact ⟨rfl, nofun, rfl⟩
  rw [serveResolve_of_address found holds accepted, leaseSeconds_of_deadline_some ends]

/-! ### What an address record reports (R118, R120, R121) -/

theorem reported_eq_some_iff (x : AddrState) (k : EntryIx) : x.reported = some k ↔ x = .bound k ∨ x = .held k := by
  cases x <;> simp [AddrState.reported]

theorem reported_eq_none {x : AddrState} (unreported : ∀ k, x ≠ .bound k ∧ x ≠ .held k) : x.reported = none := by
  refine Option.eq_none_iff_forall_ne_some.2 fun k names => ?_
  obtain ⟨notBound, notHeld⟩ := unreported k
  exact ((reported_eq_some_iff x k).1 names).elim notBound notHeld

theorem reported_eq_none_of_state {x : AddrState} (state : x = .fixed ∨ x = .reserved ∨ x = .free ∨
    (∃ k, x = .offered k) ∨ ∃ d, x = .quarantined d) : x.reported = none := by
  rcases state with rfl | rfl | rfl | ⟨k, rfl⟩ | ⟨d, rfl⟩ <;> rfl

/-! ### WHOIS (R120) -/

theorem serveWhois_of_lt (beyond : 0x7F < address.toNat) : serveWhois t address = .badRequest .argument := by
  simp only [serveWhois, addrOf_of_lt beyond]

theorem serveWhois_of_bound (number : address.toNat = a.val) (state : t.addr a = .bound i) :
    serveWhois t address = .ok (whoisPayload t i (t.entry i).life.state) := by
  simp only [serveWhois, addrOf_of_eq number, state]

theorem serveWhois_of_held (number : address.toNat = a.val) (state : t.addr a = .held i) :
    serveWhois t address = .ok (whoisPayload t i .lapsed) := by
  simp only [serveWhois, addrOf_of_eq number, state]

theorem serveWhois_of_reported_none (number : address.toNat = a.val) (unreported : (t.addr a).reported = none) :
    serveWhois t address = .notFound := by
  cases state : t.addr a with
  | bound | held => simp only [state, AddrState.reported, reduceCtorEq] at unreported
  | fixed | reserved | free | offered | quarantined => simp only [serveWhois, addrOf_of_eq number, state]

/-! ### DESCRIBE (R121) -/

variable {offset : Byte}

theorem serveDescribe_of_lt (beyond : 0x7F < address.toNat) :
    serveDescribe t address offset = .badRequest .argument := by
  simp only [serveDescribe, addrOf_of_lt beyond]

theorem serveDescribe_of_reported_none (number : address.toNat = a.val) (unreported : (t.addr a).reported = none) :
    serveDescribe t address offset = .notFound := by
  simp only [serveDescribe, addrOf_of_eq number, unreported]

theorem serveDescribe_of_offset_lt (number : address.toNat = a.val) (reports : (t.addr a).reported = some i)
    (beyond : (t.descriptor i).length < offset.toNat) : serveDescribe t address offset = .badRequest .argument := by
  simp only [serveDescribe, addrOf_of_eq number, reports, if_pos beyond]

theorem serveDescribe_of_offset_le (number : address.toNat = a.val) (reports : (t.addr a).reported = some i)
    (within : offset.toNat ≤ (t.descriptor i).length) :
    serveDescribe t address offset = .ok ([byteOf (t.descriptor i).length, yesNo (t.entry i).truncated] ++
      ((t.descriptor i).drop offset.toNat).take 16) := by
  simp only [serveDescribe, addrOf_of_eq number, reports, if_neg within.not_gt]

/-! ### ENUMERATE (R124) -/

variable {cls position generation : Byte} {c : ClassIx}

theorem serveEnumerate_of_lt (beyond : 15 < cls.toNat) :
    serveEnumerate t cls position generation = .badRequest .argument := by
  simp only [serveEnumerate, indexOf_of_le (n := 16) beyond]

theorem serveEnumerate_of_stale (number : cls.toNat = c.val) (behind : position ≠ 0)
    (other : generation ≠ (t.classRecord c).generation) :
    serveEnumerate t cls position generation = .stale (t.classRecord c).generation := by
  simp only [serveEnumerate, indexOf_of_eq number, if_pos (And.intro behind other)]

theorem serveEnumerate_of_current (number : cls.toNat = c.val)
    (current : position = 0 ∨ generation = (t.classRecord c).generation) :
    let r := t.classRecord c
    let items := (r.members.drop position.toNat).take 5
    serveEnumerate t cls position generation =
      .ok ([r.generation, byteOf r.members.length, byteOf items.length] ++ items.flatMap (enumerateItem t)) := by
  have notStale : ¬ (position ≠ 0 ∧ generation ≠ (t.classRecord c).generation) := by
    rwa [not_and_or, not_not, not_not]
  simp only [serveEnumerate, indexOf_of_eq number, if_neg notStale]

/-! ### QUERY (R126) -/

theorem serveQuery_eq : serveQuery t = .ok ([t.admission.code, byteOf t.vacantCount, byteOf (t.countAddrs 2),
    byteOf (t.countSlots 0), yesNo t.run.isSome] ++ halfBytes t.seed) := by
  simp only [serveQuery, AddrState.code, Slot.code]

end Cases

/-- Settles O29: WHOIS by the state of the address that it names. -/
theorem whoisReadsTheAddressRecord : Obligations.WhoisReadsTheAddressRecord := by
  unfold Obligations.WhoisReadsTheAddressRecord
  intro s address granted
  refine ⟨fun beyond => ?_, fun a number => ⟨fun i state => ?_, fun i state => ?_, fun state => ?_⟩⟩
  · exact exec_of_lookup rfl granted (serveWhois_of_lt beyond)
  · exact exec_of_lookup rfl granted (serveWhois_of_bound number state)
  · exact exec_of_lookup rfl granted (serveWhois_of_held number state)
  · exact exec_of_lookup rfl granted (serveWhois_of_reported_none number (reported_eq_none_of_state state))

/-- Settles O30: what a lookup finds, and each of the four requests by the cases of what it answers. -/
theorem lookupsAnswer : Obligations.LookupsAnswer := by
  unfold Obligations.LookupsAnswer
  intro s
  refine ⟨fun identity => ⟨fun i found =>
      ⟨mem_bucket_of_lookup found, identity_of_lookup found, Table.live_of_lookup found⟩,
      lookup_eq_none_iff.1⟩,
    fun identity granted => ⟨fun absent => ?_, fun i found =>
      ⟨fun pending => ?_, fun a lease life => ?_, fun a lease d life => ?_⟩⟩,
    fun address offset granted => ⟨fun beyond => ?_, fun a number => ⟨fun unreported => ?_, fun i state => ?_⟩⟩,
    fun cls position generation granted => ⟨fun beyond => ?_, fun c number => ⟨fun behind other => ?_, fun current => ?_⟩⟩,
    fun granted => ?_⟩
  · exact exec_of_lookup rfl granted (serveResolve_of_lookup_none absent)
  · exact exec_of_lookup rfl granted (serveResolve_of_pending found pending)
  · exact exec_of_lookup rfl granted (serveResolve_of_pinned found life)
  · exact exec_of_lookup rfl granted (serveResolve_of_deadline found life)
  · exact exec_of_lookup rfl granted (serveDescribe_of_lt beyond)
  · exact exec_of_lookup rfl granted (serveDescribe_of_reported_none number (reported_eq_none unreported))
  · have reports := (reported_eq_some_iff _ i).2 state
    exact ⟨fun beyond => exec_of_lookup rfl granted (serveDescribe_of_offset_lt number reports beyond),
      fun within => exec_of_lookup rfl granted (serveDescribe_of_offset_le number reports within)⟩
  · exact exec_of_lookup rfl granted (serveEnumerate_of_lt beyond)
  · exact exec_of_lookup rfl granted (serveEnumerate_of_stale number behind other)
  · exact exec_of_lookup rfl granted (serveEnumerate_of_current number current)
  · exact exec_of_lookup rfl granted serveQuery_eq

end Sys2Proof.Proofs.MemberLookups

/-! PROOFS. READ ENTRY (R160): the entry record, its field that the index argument spells, and its length. -/

namespace Sys2Proof.Proofs.EntryRecords

open Sys2Proof.Machine
open Sys2Proof.Proofs.ShortAddresses (exec_of_reads)

section Cases

variable {now : Time} {t : Table} {index : Byte} {i : EntryIx}

theorem timeBytes_length (time : Time) : (timeBytes time).length = 4 := beBytes_length ..

/-- The fields before the descriptor take 28 bytes, and the descriptor is padded to 40. -/
theorem entryRecord_length (fits : (t.descriptor i).length ≤ 40) : (t.entryRecord now i).length = 68 := by
  have padded : (t.descriptor i).length + (40 - (t.descriptor i).length) = 40 := Nat.add_sub_cancel' fits
  simp only [Table.entryRecord, List.length_append, List.length_cons, List.length_nil, List.length_replicate,
    identityBytes_length, halfBytes_length, timeBytes_length, beBytes_length]
  omega

theorem serveReadEntry_of_lt (beyond : 95 < index.toNat) : serveReadEntry now t index = .badArgument := by
  simp only [serveReadEntry, indexOf_of_le (n := 96) beyond]

/-- The record of the entry that the argument names, in any state of the entry, with the argument as its first byte. -/
theorem serveReadEntry_of_eq (number : index.toNat = i.val) :
    let e := t.entry i
    let d := t.descriptor i
    serveReadEntry now t index = .ok ([index, e.life.state.code, e.generation] ++ identityBytes e.identity ++
      [byteOf e.cls.val, indexByte e.life.address, indexByte e.life.slot,
        (if e.life.pinned then 1 else 0) ||| (if e.truncated then 2 else 0)] ++
      halfBytes (e.life.lease.getD 0) ++ timeBytes (e.life.deadline.getD 0) ++
      beBytes 4 ((e.life.deadline.map (remaining now)).getD 0) ++
      [e.renewCount, byteOf d.length, byteOf e.blocks.length, indexByte e.blocks[0]?, indexByte e.blocks[1]?] ++ d ++
      List.replicate (40 - d.length) 0) := by
  simp only [serveReadEntry, indexOf_of_eq number, Table.entryRecord, byteOf_of_eq number]

end Cases

/-- Settles O34: the index is out of range, or it names an entry, whose record is laid out in 68 bytes. -/
theorem readEntryReports : Obligations.ReadEntryReports := by
  unfold Obligations.ReadEntryReports
  intro s index granted
  refine ⟨fun beyond => ?_, fun i number => ⟨?_, entryRecord_length⟩⟩
  · exact exec_of_reads rfl granted (serveReadEntry_of_lt beyond)
  · exact exec_of_reads rfl granted (serveReadEntry_of_eq number)

end Sys2Proof.Proofs.EntryRecords

/-! PROOFS. WRITE PARAMETER and READ PARAMETER (R112, R114, R170, R172). Which values a parameter accepts is said once for each
kind of parameter; a value that is accepted is the value held afterwards. -/

namespace Sys2Proof.Proofs.GlobalParameters

open Sys2Proof.Machine
open Sys2Proof.Proofs.ShortAddresses (exec_of_serves exec_of_reads)

/-! ### The values of a parameter (R169, R191) -/

theorem paramOf_eq_none {identifier : Byte} (outside : identifier.toNat < 0x01 ∨ 0x0D < identifier.toNat) :
    paramOf identifier = none := by
  unfold paramOf
  split <;> simp only [reduceCtorEq] <;> omega

section Values

variable {v : Half}

theorem offOn_eq (on : Bool) : (if on then 1 else 0 : Half) = BitVec.ofNat 16 on.toNat := by cases on <;> rfl

theorem offOnOf_iff (on : Bool) : offOnOf v = some on ↔ v = BitVec.ofNat 16 on.toNat := by
  constructor
  · intro read
    unfold offOnOf at read
    split at read
    · next off => cases read; exact off
    · split at read
      · next on => cases read; exact on
      · cases read
  · rintro rfl
    cases on <;> rfl

theorem offOnOf_of_toNat {on : Bool} (spelled : v.toNat = on.toNat) : offOnOf v = some on := by
  rw [offOnOf_iff, ← spelled, BitVec.ofNat_toNat, BitVec.setWidth_eq]

theorem offOnOf_of_lt (beyond : 1 < v.toNat) : offOnOf v = none := by
  refine Option.eq_none_iff_forall_ne_some.2 fun on read => ?_
  rw [(offOnOf_iff on).1 read] at beyond
  cases on <;> exact absurd beyond (by decide)

theorem defaultActionOf_iff (d : DefaultAction) : defaultActionOf v = some d ↔ d.code.zeroExtend 16 = v := by
  constructor
  · intro read
    unfold defaultActionOf at read
    split at read <;> cases read <;> next value => exact BitVec.eq_of_toNat_eq value.symm
  · rintro rfl
    cases d <;> rfl

/-- ADMIT_IN_RANGE's code 1 is no value of DEFAULT_ACTION. -/
theorem defaultActionOf_eq_none (outside : v.toNat = 1 ∨ 3 < v.toNat) : defaultActionOf v = none := by
  refine Option.eq_none_iff_forall_ne_some.2 fun d read => ?_
  rw [← (defaultActionOf_iff d).1 read] at outside
  cases d <;> exact absurd outside (by decide)

/-- The five enables that a value's low bits give. -/
def enablesOf (v : Half) : Causes :=
  { changes := v.getLsbD 0, approval := v.getLsbD 1, admission := v.getLsbD 2, busFault := v.getLsbD 3
    done := v.getLsbD 4 }

theorem causesOf_eq (v : Half) : causesOf v = if v.toNat < 32 then some (enablesOf v) else none := rfl

theorem bits_enablesOf (within : v.toNat < 32) : (enablesOf v).bits.zeroExtend 16 = v := by
  have each : ∀ n < 32, (enablesOf (BitVec.ofNat 16 n)).bits.zeroExtend 16 = BitVec.ofNat 16 n := by decide
  simpa only [BitVec.ofNat_toNat, BitVec.setWidth_eq] using each v.toNat within

/-- Each enable has its own bit, so that the bits add up. -/
theorem bits_eq_sum (mask : Causes) : mask.bits.zeroExtend 16 = BitVec.ofNat 16 (mask.changes.toNat +
    2 * mask.approval.toNat + 4 * mask.admission.toNat + 8 * mask.busFault.toNat + 16 * mask.done.toNat) := by
  obtain ⟨changes, approval, admission, busFault, done⟩ := mask
  revert changes approval admission busFault done
  decide

end Values

/-! ### Writing one parameter (R112, R169, R170) -/

/-- A value that a parameter accepts is the value it then reads as. -/
theorem value_of_write {p q : Params} {which : Param} {v : Half} (written : p.write which v = some q) : q.value which = v := by
  cases which with
  | offerTime | approvalTime | quarantineTime | revalidateTime | lowMark | highMark | coalesceCount | coalesceTime |
      stretchLimit =>
    obtain ⟨_, held⟩ := Option.ite_none_right_eq_some.1 written
    cases held
    rfl
  | alertMask =>
    obtain ⟨c, read, rfl⟩ := Option.map_eq_some_iff.1 written
    obtain ⟨within, held⟩ := Option.ite_none_right_eq_some.1 ((causesOf_eq v).symm.trans read)
    cases held
    exact bits_enablesOf within
  | earlyReuse | truncateDescriptors =>
    obtain ⟨on, read, rfl⟩ := Option.map_eq_some_iff.1 written
    exact (offOn_eq on).trans ((offOnOf_iff on).1 read).symm
  | defaultAction =>
    obtain ⟨d, read, rfl⟩ := Option.map_eq_some_iff.1 written
    exact (defaultActionOf_iff d).1 read

section Cases

variable {t : Table} {identifier : Byte} {value : Half} {which : Param} {p : Params}

theorem serveWriteParameter_of_paramOf_none (unknown : paramOf identifier = none) :
    serveWriteParameter t identifier value = (.badArgument, t) := by
  simp only [serveWriteParameter, unknown]

theorem serveWriteParameter_of_write_none (names : paramOf identifier = some which)
    (refuses : t.params.write which value = none) : serveWriteParameter t identifier value = (.badArgument, t) := by
  simp only [serveWriteParameter, names, refuses]

theorem serveWriteParameter_of_write_some (names : paramOf identifier = some which)
    (writes : t.params.write which value = some p) : serveWriteParameter t identifier value =
      (.ok (identifier :: halfBytes value),
        if which.isMark then { t with params := p }.evaluateAdmission else { t with params := p }) := by
  simp only [serveWriteParameter, names, writes, parameterPayload, value_of_write writes]

theorem serveReadParameter_of_paramOf_none (unknown : paramOf identifier = none) :
    serveReadParameter t identifier = .badArgument := by
  simp only [serveReadParameter, unknown]

theorem serveReadParameter_of_paramOf_some (names : paramOf identifier = some which) :
    serveReadParameter t identifier = .ok (identifier :: halfBytes (t.params.value which)) := by
  simp only [serveReadParameter, names, parameterPayload]

end Cases

/-! ### The two commands, granted -/

section Granted

variable {s : State} {identifier : Byte} {value : Half} {which : Param} {p : Params}

theorem exec_of_write_none (granted : Granted s .host (.writeParameter identifier value))
    (names : paramOf identifier = some which) (refuses : s.table.params.write which value = none) :
    exec (.writeParameter identifier value) s = .next (s.served .host s.table (.command .badArgument)) :=
  exec_of_serves rfl granted (serveWriteParameter_of_write_none names refuses)

theorem exec_of_write_some (granted : Granted s .host (.writeParameter identifier value))
    (names : paramOf identifier = some which) (writes : s.table.params.write which value = some p) :
    exec (.writeParameter identifier value) s = .next (s.served .host
      (if which.isMark then { s.table with params := p }.evaluateAdmission else { s.table with params := p })
      (.command (.ok (identifier :: halfBytes value)))) :=
  exec_of_serves rfl granted (serveWriteParameter_of_write_some names writes)

/-- A parameter whose only check is a range: refused below it and above it, written inside. -/
theorem exec_of_range {low high : Nat} (granted : Granted s .host (.writeParameter identifier value))
    (names : paramOf identifier = some which) (unmarked : which.isMark = false)
    (checks : s.table.params.write which value =
      if low ≤ value.toNat ∧ value.toNat ≤ high then some p else none) :
    (value.toNat < low ∨ high < value.toNat → exec (.writeParameter identifier value) s =
      .next (s.served .host s.table (.command .badArgument))) ∧
    (low ≤ value.toNat → value.toNat ≤ high → exec (.writeParameter identifier value) s =
      .next (s.served .host { s.table with params := p } (.command (.ok (identifier :: halfBytes value))))) := by
  constructor
  · intro outside
    exact exec_of_write_none granted names (checks.trans (if_neg (by omega)))
  · intro above below
    have written := exec_of_write_some granted names (checks.trans (if_pos ⟨above, below⟩))
    rwa [unmarked] at written

/-- A parameter that is off or on: refused above 1, written as the off or on that the value spells. -/
theorem exec_of_offOn {put : Bool → Params} (granted : Granted s .host (.writeParameter identifier value))
    (names : paramOf identifier = some which) (unmarked : which.isMark = false)
    (reads : s.table.params.write which value = (offOnOf value).map put) :
    (1 < value.toNat → exec (.writeParameter identifier value) s =
      .next (s.served .host s.table (.command .badArgument))) ∧
    (∀ on : Bool, value.toNat = on.toNat → exec (.writeParameter identifier value) s =
      .next (s.served .host { s.table with params := put on } (.command (.ok (identifier :: halfBytes value))))) := by
  constructor
  · intro beyond
    exact exec_of_write_none granted names (by rw [reads, offOnOf_of_lt beyond, Option.map_none])
  · intro on spelled
    have written := exec_of_write_some granted names (p := put on) (by rw [reads, offOnOf_of_toNat spelled, Option.map_some])
    rwa [unmarked] at written

theorem exec_of_reads_value {held : Half} (granted : Granted s .host (.readParameter identifier))
    (names : paramOf identifier = some which) (holds : s.table.params.value which = held) :
    exec (.readParameter identifier) s =
      .next (s.served .host s.table (.command (.ok (identifier :: halfBytes held)))) :=
  exec_of_reads rfl granted (holds ▸ serveReadParameter_of_paramOf_some names)

end Granted

/-! ### What a parameter accepts, at its ends (R112, R169) -/

section Writes

variable {p : Params} {v : Half}

/-- A range from 0 has no value below it. -/
theorem ite_le_eq_ite_between {α : Type} (n high : Nat) (x y : α) :
    (if n ≤ high then x else y) = if 0 ≤ n ∧ n ≤ high then x else y := by
  simp only [Nat.zero_le, true_and]

theorem write_lowMark_eq_none (outside : 96 < v.toNat ∨ p.highMark.toNat < v.toNat) : p.write .lowMark v = none :=
  if_neg (by omega)

theorem write_highMark_eq_none (outside : 96 < v.toNat ∨ v.toNat < p.lowMark.toNat) : p.write .highMark v = none :=
  if_neg (by omega)

theorem write_alertMask_eq_none (beyond : 31 < v.toNat) : p.write .alertMask v = none := by
  simp only [Params.write, causesOf_eq, if_neg (show ¬ v.toNat < 32 by omega), Option.map_none]

theorem write_alertMask_eq_some (within : v.toNat ≤ 31) :
    p.write .alertMask v = some { p with alertMask := enablesOf v } := by
  simp only [Params.write, causesOf_eq, if_pos (Nat.lt_succ_of_le within), Option.map_some]

theorem write_defaultAction_eq_none (outside : v.toNat = 1 ∨ 3 < v.toNat) : p.write .defaultAction v = none := by
  simp only [Params.write, defaultActionOf_eq_none outside, Option.map_none]

theorem write_defaultAction_eq_some {d : DefaultAction} (spelled : v.toNat = (d.code.zeroExtend 16 : Half).toNat) :
    p.write .defaultAction v = some { p with defaultAction := d } := by
  simp only [Params.write, (defaultActionOf_iff d).2 (BitVec.eq_of_toNat_eq spelled.symm), Option.map_some]

end Writes

/-- Settles O46: a write by the values that its parameter accepts, a read by the parameter that the identifier names. -/
theorem parametersAreWrittenAndRead : Obligations.ParametersAreWrittenAndRead := by
  unfold Obligations.ParametersAreWrittenAndRead
  intro s identifier value
  refine ⟨fun granted => ⟨fun outside => ?unknown, ?offerTime, ?approvalTime, ?quarantineTime, ?revalidateTime,
      ?coalesceCount, ?coalesceTime, ?stretchLimit, ?lowMark, ?highMark, ?alertMask, ?earlyReuse, ?truncateDescriptors,
      ?defaultAction⟩,
    fun granted => ⟨fun unknown => ?readUnknown, fun which names => ?readNamed, fun outside => ?readOutside, ?reads⟩⟩
  case unknown => exact exec_of_serves rfl granted (serveWriteParameter_of_paramOf_none (paramOf_eq_none outside))
  case offerTime | approvalTime | revalidateTime | coalesceCount =>
    rintro rfl
    exact exec_of_range granted rfl rfl rfl
  case quarantineTime | coalesceTime | stretchLimit =>
    rintro rfl
    exact exec_of_range granted rfl rfl (ite_le_eq_ite_between ..)
  case lowMark =>
    rintro rfl
    exact ⟨fun outside => exec_of_write_none granted rfl (write_lowMark_eq_none outside),
      fun within ordered => exec_of_write_some granted (which := .lowMark) rfl (if_pos ⟨within, ordered⟩)⟩
  case highMark =>
    rintro rfl
    exact ⟨fun outside => exec_of_write_none granted rfl (write_highMark_eq_none outside),
      fun within ordered => exec_of_write_some granted (which := .highMark) rfl (if_pos ⟨within, ordered⟩)⟩
  case alertMask =>
    rintro rfl
    exact ⟨fun beyond => exec_of_write_none granted rfl (write_alertMask_eq_none beyond),
      fun within => exec_of_write_some granted rfl (write_alertMask_eq_some within)⟩
  case earlyReuse | truncateDescriptors =>
    rintro rfl
    exact exec_of_offOn granted rfl rfl rfl
  case defaultAction =>
    rintro rfl
    exact ⟨fun outside => exec_of_write_none granted rfl (write_defaultAction_eq_none outside),
      fun allow => exec_of_write_some granted rfl (write_defaultAction_eq_some (d := .allow) allow),
      fun hold => exec_of_write_some granted rfl (write_defaultAction_eq_some (d := .holdForHost) hold),
      fun deny => exec_of_write_some granted rfl (write_defaultAction_eq_some (d := .deny) deny)⟩
  case readUnknown => exact exec_of_reads rfl granted (serveReadParameter_of_paramOf_none unknown)
  case readNamed => exact exec_of_reads rfl granted (serveReadParameter_of_paramOf_some names)
  case readOutside => exact exec_of_reads rfl granted (serveReadParameter_of_paramOf_none (paramOf_eq_none outside))
  case reads =>
    refine ⟨?_, ?_, ?_, ?_, ?_, ?_, ?_, ?_, ?_, ?alertMask, ?earlyReuse, ?truncateDescriptors, ?defaultAction⟩
    case alertMask => rintro rfl; exact exec_of_reads_value granted rfl (bits_eq_sum _)
    case earlyReuse | truncateDescriptors => rintro rfl; exact exec_of_reads_value granted rfl (offOn_eq _)
    case defaultAction =>
      rintro rfl
      refine exec_of_reads_value granted rfl ?_
      show s.table.params.defaultAction.code.zeroExtend 16 = _
      cases s.table.params.defaultAction <;> rfl
    all_goals rintro rfl; exact exec_of_reads_value granted rfl rfl

end Sys2Proof.Proofs.GlobalParameters

/-! PROOFS. The extension pool (R14, R15, R16): every kind of change to the table keeps it partitioned, and so every step does;
that no block leaks is kept by every operation as a whole. -/

namespace Sys2Proof.Proofs.ExtensionPool

open Sys2Proof.Machine

/-- Only the blocks that the entries list and the pool itself decide whether the pool is partitioned. -/
theorem partitioned_congr {t u : Table} (h : t.PoolIsPartitioned) (blocks : ∀ i, (u.entry i).blocks = (t.entry i).blocks)
    (pool : u.pool = t.pool) : u.PoolIsPartitioned := by
  refine ⟨fun i b listed => ?_, fun i => ?_, fun i k other b listed => ?_⟩
  · rw [blocks] at listed
    rw [pool]
    exact h.occupied i b listed
  · rw [blocks]
    exact h.once i
  · rw [blocks] at listed ⊢
    exact h.apart i k other b listed

theorem blocks_setEntry {t : Table} {i : EntryIx} {e : Entry} (same : e.blocks = (t.entry i).blocks) (k : EntryIx) :
    ((t.setEntry i e).entry k).blocks = (t.entry k).blocks := by
  rw [Table.entry_setEntry]
  split
  · next here => rw [here, same]
  · rfl

/-- A descriptor dropped or stored keeps the pool partitioned; no other change touches the pool or a list of blocks. -/
theorem partitioned_of_change {ok : Addr → Prop} {tidy : Prop} {t u : Table} (change : Change ok tidy t u)
    (h : t.PoolIsPartitioned) : u.PoolIsPartitioned := by
  cases change with
  | entry i e _ blocks => exact partitioned_congr h (blocks_setEntry blocks) rfl
  | drop i => exact Table.partitioned_dropDescriptor t i h
  | store i bytes cut => exact Table.partitioned_storeDescriptor t i bytes cut h
  | addr | queue | rest | params | addChange | takeChange | index | unindex | run | switch =>
    exact partitioned_congr h (fun _ => rfl) rfl

/-- Settles O59: a served operation is a chain of changes, each of which keeps the partition; the whole operation leaks nothing. -/
theorem stepKeepsThePoolPartitioned : Obligations.StepKeepsThePoolPartitioned := by
  unfold Obligations.StepKeepsThePoolPartitioned
  intro s t steps
  constructor
  · exact step_keeps_table (P := fun table _ => table.PoolIsPartitioned)
      (fun _ _ _ _ _ served => served.keeps_plain fun _ _ => partitioned_of_change)
      (fun authority => (Table.exact_reset authority).partitioned) steps
  · exact step_keeps_table (P := fun table _ => table.PoolIsExact) (fun _ _ _ _ _ served => served.keeps_pool)
      Table.exact_reset steps

end Sys2Proof.Proofs.ExtensionPool

/-! PROOFS. FIXED addresses (R40, R41, R42, R44): no kind of change makes or ends a FIXED record, and no operation puts a FIXED
address into an entry or the queue. The authority address is one of four, and three rows alone set it (R41, R159, R183). -/

namespace Sys2Proof.Proofs.FixedAddresses

open Sys2Proof.Machine

/-! ### The FIXED records -/

/-- A change at addresses that are not FIXED leaves the FIXED records as they are. -/
theorem fixed_of_change {authority : Addr} {tidy : Prop} {t u : Table} (change : Change (fun a => ¬ isFixed authority a) tidy t u)
    (h : ∀ a, t.addr a = .fixed ↔ isFixed authority a) (a : Addr) : u.addr a = .fixed ↔ isFixed authority a := by
  cases change with
  | addr b x address state =>
    rw [Table.addr_setAddr]
    split
    · next here => exact iff_of_false state (here ▸ address)
    · exact h a
  | entry | queue | rest | params | addChange | takeChange | index | unindex | run | switch | drop | store => exact h a

theorem fixedAddressesStay_of_served {now : Time} {i : Instr} {t u : Table} {authority : Addr} (served : ServedTable now t i u)
    (h : t.FixedAddressesStay authority) : u.FixedAddressesStay authority := by
  have usable : ∀ a, t.addr a ≠ .fixed → ¬ isFixed authority a := fun a state fixed => state ((h.fixed a).2 fixed)
  obtain ⟨good, fixed⟩ := served.keeps (tidy := False) (fun _ _ => fixed_of_change) ⟨h.entries, h.queue, False.elim⟩ usable h.fixed
  exact ⟨fixed, good.entries, good.queue⟩

theorem fixedAddressesStay_reset (authority : Addr) : (Table.reset authority).FixedAddressesStay authority := by
  refine ⟨fun a => ?_, fun i a holds => ?_, nofun⟩
  · rw [Table.addr_reset]
    rw [ite_eq_left_iff]
    exact ⟨fun free => by_contra fun notFixed => (nomatch free notFixed), fun fixed notFixed => absurd fixed notFixed⟩
  · rw [Table.entry_reset] at holds
    cases holds

/-! ### The authority address -/

theorem authorityOf_val (asel : BitVec 2) : (Config.authorityOf asel).val = 0x0C + asel.toNat := by
  have level := asel.isLt
  have number : (Config.authorityOf asel).val = (0x0C + asel.toNat) % 128 := rfl
  omega

theorem authorityOf_range (asel : BitVec 2) :
    0x0C ≤ (Config.authorityOf asel).val ∧ (Config.authorityOf asel).val ≤ 0x0F := by
  have level := asel.isLt
  have number := authorityOf_val asel
  omega

/-- An event leaves the authority address, or sets it to one of the four. -/
theorem authorityAddress_of_event {s t : State} (event : Event s t) : t.authorityAddress = s.authorityAddress ∨
    0x0C ≤ t.authorityAddress.val ∧ t.authorityAddress.val ≤ 0x0F := by
  cases event with
  | reset => exact .inr (by decide : 0x0C ≤ Config.unsampledAuthority.val ∧ Config.unsampledAuthority.val ≤ 0x0F)
  | cleared asel | resetEnd asel => exact .inr (authorityOf_range asel)
  | busEnd before => exact .inl (rest_endTransaction s before).2.1
  | address before => exact .inl (rest_endTransaction s before).2.1
  | same | granted | limit | stuck | port | abort | submitted | ripened => exact .inl rfl
  | answered | started | tick | completed | retained | acknowledged | stepped | expired =>
    exact .inl (authorityAddress_lookForDue _)

theorem authorityAddress_of_grant {i : Instr} {r : Requester} {s t : State} (row : requesterOf i = some r)
    (runs : exec i s = .next t) : t.authorityAddress = s.authorityAddress := by
  obtain idle | ⟨_, table, service, _, _, _, grants⟩ := exec_grant row s
  · cases idle.symm.trans runs; rfl
  · cases grants.symm.trans runs; rfl

/-- The end of a transaction on the host port leaves the authority address when the rise of CS# does. -/
theorem authorityAddress_of_endOfKind {s t : State} {kinds : List TransactionKind} {received : List Byte}
    {rise : State → State} (runs : s.endOfKind kinds received rise = .next t)
    (keeps : ∀ port, (rise { s with port }).authorityAddress = s.authorityAddress) :
    t.authorityAddress = s.authorityAddress := by
  obtain idle | ⟨port, _, _, _, ends⟩ := endOfKind_cases s kinds received rise
  · cases idle.symm.trans runs; rfl
  · cases ends.symm.trans runs; exact keeps port

/-- A good frame that is not a RESET CLEAR taken in IDLE leaves the authority address. -/
theorem authorityAddress_takeFrame {s : State} {f : HostFrame} {asel : BitVec 2}
    (unclear : ¬ (s.port.command = .idle ∧ f.body = .resetClear)) :
    (s.takeFrame f asel).authorityAddress = s.authorityAddress := by
  unfold State.takeFrame
  split
  · rfl
  · next idle clear => exact absurd ⟨idle, clear⟩ unclear
  · rfl
  · rfl

theorem authorityAddress_endFrame {s : State} {asel : BitVec 2}
    (unclear : ¬ (s.port.ready = true ∧ s.port.command = .idle ∧
      ∃ q, checkFrame s.port.frame s.port.overflow = some { sequence := q, body := .resetClear })) :
    (s.endFrame asel).authorityAddress = s.authorityAddress := by
  unfold State.endFrame
  dsimp only
  split
  · rfl
  · next ready =>
    split
    · rfl
    · next f checked =>
      refine authorityAddress_takeFrame (s := { s with port := s.port.deselect }) fun ⟨idle, clear⟩ => unclear ?_
      exact ⟨Bool.not_eq_false _ ▸ ready, idle, f.sequence, by rw [checked, ← clear]⟩

theorem hostByte_pending (s : State) (l : List Instr) (b : Byte) :
    State.hostByte { s with pending := l } b = { s.hostByte b with pending := l } := by
  unfold State.hostByte State.firstByte
  dsimp only
  split
  · split <;> rfl
  all_goals rfl

theorem hostBytes_pending (s : State) (l : List Instr) (received : List Byte) :
    received.foldl State.hostByte { s with pending := l } = { received.foldl State.hostByte s with pending := l } := by
  induction received generalizing s with
  | nil => rfl
  | cons b received ih => rw [List.foldl_cons, hostByte_pending, ih, List.foldl_cons]

/-- The CS# rise of a COMMAND transaction, unless its frame is a RESET CLEAR that the port takes. -/
theorem authorityAddress_commandFrameEnd {s t : State} {received : List Byte} {asel : BitVec 2}
    (unclear : let heard := received.foldl State.hostByte s
      ¬ (s.port.selected = true ∧ heard.port.kind = .command ∧ heard.port.ready = true ∧ heard.port.command = .idle ∧
        ∃ q, checkFrame heard.port.frame heard.port.overflow = some { sequence := q, body := .resetClear }))
    (runs : exec (.commandFrameEnd received asel) s = .next t) : t.authorityAddress = s.authorityAddress := by
  change s.endOfKind [.command] received (fun heard => heard.endFrame asel) = .next t at runs
  obtain ⟨port, heard, same⟩ := hostBytes_frame s received
  unfold State.endOfKind at runs
  dsimp only at runs
  split at runs
  · next ends =>
    obtain ⟨selected, kind⟩ := ends
    have followed : s.port.selected = true := by
      rw [heard] at selected
      exact same.selected.symm.trans selected
    rw [State.hostBytes, if_pos followed] at runs kind heard
    cases runs
    rw [authorityAddress_endFrame fun ⟨ready, idle, clear⟩ =>
      unclear ⟨followed, List.mem_singleton.1 kind, ready, idle, clear⟩, heard]
  · cases runs; rfl

/-- Every other row but the two that begin and end a hard reset. -/
theorem authorityAddress_exec {c : Instr} {s t : State} (notAsserted : c ≠ .resetAsserted) (notEnded : ∀ asel, c ≠ .resetEnd asel)
    (unclear : ∀ received asel, c = .commandFrameEnd received asel →
      let heard := received.foldl State.hostByte s
      ¬ (s.port.selected = true ∧ heard.port.kind = .command ∧ heard.port.ready = true ∧ heard.port.command = .idle ∧
        ∃ q, checkFrame heard.port.frame heard.port.overflow = some { sequence := q, body := .resetClear }))
    (runs : exec c s = .next t) : t.authorityAddress = s.authorityAddress := by
  cases row : requesterOf c with
  | some r => exact authorityAddress_of_grant row runs
  | none =>
    cases c <;> simp only [requesterOf, reduceCtorEq] at row
    case resetAsserted => exact absurd rfl notAsserted
    case resetEnd asel => exact absurd rfl (notEnded asel)
    case commandFrameEnd received asel => exact authorityAddress_commandFrameEnd (unclear received asel rfl) runs
    case readResult | unknownTransaction =>
      simp only [exec, execReadResult, execUnknownTransaction] at runs
      exact authorityAddress_of_endOfKind runs fun _ => rfl
    case readStatus =>
      simp only [exec, execReadStatus] at runs
      refine authorityAddress_of_endOfKind runs fun port => ?_
      dsimp only
      split <;> rfl
    case writeEnd before | stopCondition before => cases runs; exact (rest_endTransaction s before).2.1
    case addressByte before a read after later =>
      simp only [exec, execAddressByte] at runs
      split at runs <;> cases runs
      · rfl
      · exact (rest_endTransaction s before).2.1
    case hostTransactionStart received =>
      simp only [exec, execHostTransactionStart] at runs
      split at runs <;> cases runs
      · rfl
      · obtain ⟨port, heard, _⟩ := hostBytes_frame s.selectPort received
        rw [heard]; rfl
    case commandCompletion =>
      simp only [exec, execCommandCompletion] at runs
      split at runs <;> cases runs
      case h_3 tag _ =>
        rw [authorityAddress_lookForDue, State.completeAck]
        split <;> rfl
      case h_1 | h_2 | h_4 => exact authorityAddress_lookForDue _
      all_goals rfl
    case abort =>
      simp only [exec, execAbort] at runs
      split at runs
      · obtain idle | ⟨_, grants⟩ := grantCommand_cases s .abort (.ok [], s.table)
        · cases idle.symm.trans runs; rfl
        · cases grants.symm.trans runs; rfl
      · cases runs; rfl
    case requestCompletion | stretchLimitReached | busStuck | initialisationEnd | authorityTimeTick | coalescingTimerExpiry |
      expiryOperationCompletion | stepOperationCompletion =>
      simp only [exec, execRequestCompletion, execStretchLimitReached, execBusStuck, execInitialisationEnd,
        execAuthorityTimeTick, execCoalescingTimerExpiry, execExpiryOperationCompletion, execStepOperationCompletion] at runs
      split at runs <;> cases runs <;> simp only [authorityAddress_lookForDue] <;> rfl

/-- Settles O60: the FIXED records by the kinds of change, the range of the authority address by the events, and that it stays by the
rows one by one. -/
theorem stepKeepsFixedAddresses : Obligations.StepKeepsFixedAddresses := by
  unfold Obligations.StepKeepsFixedAddresses
  intro s t steps
  refine ⟨?_, fun low high => ?_, fun idle => ?_, fun c rest queue notAsserted notEnded unclear => ?_⟩
  · exact step_keeps_table (P := Table.FixedAddressesStay) (fun _ _ _ _ _ => fixedAddressesStay_of_served)
      fixedAddressesStay_reset steps
  · refine step_keeps (P := fun s => 0x0C ≤ s.authorityAddress.val ∧ s.authorityAddress.val ≤ 0x0F) (fun _ _ range => range)
      (fun s t event range => ?_) steps ⟨low, high⟩
    obtain same | four := authorityAddress_of_event event
    · rw [same]; exact range
    · exact four
  · rw [step, idle] at steps
    cases steps; rfl
  · rw [step, queue] at steps
    refine authorityAddress_exec (s := { s with pending := rest }) notAsserted notEnded (fun received asel row => ?_) steps
    rw [hostBytes_pending]
    exact unclear received asel row

end Sys2Proof.Proofs.FixedAddresses

/-! PROOFS. The end of a transaction on the member bus (R134, R138): the target and the bus's place at the arbiter are all that it can
change. -/

namespace Sys2Proof.Proofs.BusFrames

open Sys2Proof.Machine

theorem endTransaction_frame (s : State) (before : List BusActivity) :
    ∃ target bus, s.endTransaction before = { s with target, arbiter := { s.arbiter with bus } } := by
  obtain ⟨target, ends, _⟩ | ⟨target, request, ends, _⟩ := endTransaction_cases s before
  · exact ⟨target, s.arbiter.bus, ends⟩
  · exact ⟨target, some request, ends⟩

section Fields

variable (s : State) (before : List BusActivity)

@[simp] theorem table_endTransaction : (s.endTransaction before).table = s.table := by
  obtain ⟨target, bus, ends⟩ := endTransaction_frame s before
  rw [ends]

@[simp] theorem seen_endTransaction : (s.endTransaction before).seen = s.seen := by
  obtain ⟨target, bus, ends⟩ := endTransaction_frame s before
  rw [ends]

@[simp] theorem service_endTransaction : (s.endTransaction before).service = s.service := by
  obtain ⟨target, bus, ends⟩ := endTransaction_frame s before
  rw [ends]

@[simp] theorem expiry_endTransaction : (s.endTransaction before).expiry = s.expiry := by
  obtain ⟨target, bus, ends⟩ := endTransaction_frame s before
  rw [ends]

@[simp] theorem port_endTransaction : (s.endTransaction before).port = s.port := by
  obtain ⟨target, bus, ends⟩ := endTransaction_frame s before
  rw [ends]

@[simp] theorem alert_endTransaction : (s.endTransaction before).alert = s.alert := by
  obtain ⟨target, bus, ends⟩ := endTransaction_frame s before
  rw [ends]

@[simp] theorem arbiterHost_endTransaction : (s.endTransaction before).arbiter.host = s.arbiter.host := by
  obtain ⟨target, bus, ends⟩ := endTransaction_frame s before
  rw [ends]

@[simp] theorem arbiterExpiry_endTransaction : (s.endTransaction before).arbiter.expiry = s.arbiter.expiry := by
  obtain ⟨target, bus, ends⟩ := endTransaction_frame s before
  rw [ends]

end Fields

end Sys2Proof.Proofs.BusFrames

/-! PROOFS. The part at rest (R182, R184): no event but a hard reset's own happens in a hard reset, and until initialisation ends the
events on the two ports and the milliseconds, the only ones left, change nothing that rests. -/

namespace Sys2Proof.Proofs.HardReset

open Sys2Proof.Machine

/-! ### States that rest -/

theorem rests_of_running {s : State} (life : s.life = .running) : s.RestsAtStart := by
  constructor <;> intro other <;> cases life.symm.trans other

theorem rests_hardReset (s : State) : s.hardReset.RestsAtStart := by
  constructor
  case inReset => exact fun _ => rfl
  all_goals exact nofun

theorem rests_endReset {s : State} (asel : BitVec 2) (h : s = { State.reset with pending := s.pending }) :
    (s.endReset asel).RestsAtStart := by
  rw [h]
  constructor
  case inReset => exact nofun
  case table | port => exact fun _ => ⟨rfl, rfl⟩
  case engine | bus => exact fun _ => ⟨rfl, rfl, rfl⟩
  case alert => exact fun _ => rfl

/-- What a hard reset and initialisation have in common: nothing waits, is served or goes on at a port. -/
structure Quiet (s : State) : Prop where
  service : s.service = none
  listening : s.target.listening = false
  phase : s.target.phase = .unaddressed
  ready : s.port.ready = false
  command : s.port.command = .idle
  alert : s.alert = Alert.reset

theorem quiet_of_rests {s : State} (h : s.RestsAtStart) (start : s.life ≠ .running) : Quiet s := by
  cases life : s.life with
  | running => exact absurd life start
  | inReset =>
    rw [h.inReset life]
    exact ⟨rfl, rfl, rfl, rfl, rfl, rfl⟩
  | initialising =>
    obtain ⟨service, _, _⟩ := h.engine life
    obtain ⟨listening, phase, _⟩ := h.bus life
    obtain ⟨ready, command⟩ := h.port life
    exact ⟨service, listening, phase, ready, command, h.alert life⟩

theorem running_of_service {s : State} {v : Service} (h : s.RestsAtStart) (served : s.service = some v) : s.life = .running :=
  by_contra fun start => by cases (quiet_of_rests h start).service.symm.trans served

theorem running_of_phase {s : State} (h : s.RestsAtStart) (phase : s.target.phase ≠ .unaddressed) : s.life = .running :=
  by_contra fun start => phase (quiet_of_rests h start).phase

theorem running_of_ready {s : State} (h : s.RestsAtStart) (ready : s.port.ready = true) : s.life = .running :=
  by_contra fun start => by cases (quiet_of_rests h start).ready.symm.trans ready

theorem port_inReset {s : State} (h : s.RestsAtStart) (life : s.life = .inReset) : s.port = Port.reset :=
  congrArg State.port (h.inReset life)

/-! ### Events while the part rests -/

/-- What the bus does leaves a target in a hard reset as it is, and the rest of a target in initialisation. -/
theorem rests_target {s : State} (h : s.RestsAtStart) {target : Target} (inReset : s.life = .inReset → target = s.target)
    (same : s.life = .initialising → target.listening = s.target.listening ∧ target.phase = s.target.phase ∧
      target.inFlight = s.target.inFlight) : State.RestsAtStart { s with target } := by
  refine ⟨fun life => ?_, h.table, h.engine, fun life => ?_, h.port, h.alert⟩
  · rw [inReset life]
    exact h.inReset life
  · obtain ⟨listening, phase, inFlight⟩ := same life
    show target.listening = false ∧ target.phase = .unaddressed ∧ target.inFlight = false
    rw [listening, phase, inFlight]
    exact h.bus life

theorem rests_port {s : State} (h : s.RestsAtStart) {port : Port} (inReset : s.life = .inReset → port = s.port)
    (ready : port.ready = s.port.ready) (command : port.command = s.port.command) : State.RestsAtStart { s with port } := by
  refine ⟨fun life => ?_, h.table, h.engine, h.bus, fun life => ?_, h.alert⟩
  · rw [inReset life]
    exact h.inReset life
  · show port.ready = false ∧ port.command = .idle
    rw [ready, command]
    exact h.port life

/-- A target out of any transaction takes no part in what the bus does. -/
theorem hears_reset (l : List BusActivity) : Target.reset.hears l = Target.reset := by
  induction l with
  | nil => rfl
  | cons x l ih => cases x <;> exact ih

theorem endTransaction_of_phase {s : State} (phase : s.target.phase ≠ .receiving) (before : List BusActivity) :
    s.endTransaction before = { s with target := (s.target.hears before).leave } := by
  have heard : (s.hears before).target.phase ≠ .receiving := (sameButData_hears s.target before).phase.trans_ne phase
  simp only [State.endTransaction, if_neg heard]
  rfl

theorem rests_endTransaction {s : State} (h : s.RestsAtStart) (before : List BusActivity) :
    (s.endTransaction before).RestsAtStart := by
  by_cases running : s.life = .running
  · exact rests_of_running ((rest_endTransaction s before).1.trans running)
  · have phase := (quiet_of_rests h running).phase
    have same := sameButData_hears s.target before
    rw [endTransaction_of_phase (phase ▸ nofun)]
    refine rests_target h (fun life => ?_) fun _ => ⟨same.listening, phase.symm, same.inFlight⟩
    rw [h.inReset life]
    exact congrArg Target.leave (hears_reset before)

/-- Before initialisation ends no address byte is the part's (R184). -/
theorem address_of_not_listening {t : Target} (deaf : t.listening = false) (authority : Addr) (limit : Half) (a : Addr)
    (read : Bool) : t.address authority limit a read = { t with shifted := [], released := false, acks := [false] } :=
  if_pos (.inr deaf)

theorem rests_addressed {s : State} (h : s.RestsAtStart) (alive : s.life ≠ .inReset) (a : Addr) (read : Bool)
    (after : List BusActivity) (later : List (List BusActivity)) : (s.addressed a read after later).RestsAtStart := by
  by_cases running : s.life = .running
  · exact rests_of_running running
  · refine rests_target h (fun life => absurd life alive) fun _ => ?_
    rw [address_of_not_listening (quiet_of_rests h running).listening]
    have same := (sameButData_watch { s.target with shifted := [], released := false, acks := [false] } true).trans
      (sameButData_hears _ after)
    exact ⟨same.listening, same.phase, same.inFlight⟩

/-- A millisecond counts authority time, which rests in a hard reset alone. -/
theorem rests_countMillisecond {s : State} (h : s.RestsAtStart) (alive : s.life ≠ .inReset) :
    State.RestsAtStart { s with target := s.target.hearsMillisecond }.countMillisecond.lookForDue := by
  by_cases running : s.life = .running
  · exact rests_of_running ((life_lookForDue _).trans running)
  · rw [lookForDue_of_quiet (s := State.countMillisecond { s with target := s.target.hearsMillisecond }) (.inl running)]
    have same := sameButData_hearsMillisecond s.target
    refine ⟨fun life => absurd life alive, h.table, h.engine, fun life => ?_, h.port, fun life => ?_⟩
    · show s.target.hearsMillisecond.listening = false ∧ s.target.hearsMillisecond.phase = .unaddressed ∧
        s.target.hearsMillisecond.inFlight = false
      rw [same.listening, same.phase, same.inFlight]
      exact h.bus life
    · show { s.alert with timer := s.alert.timer.tick } = Alert.reset
      rw [h.alert life]
      rfl

theorem rests_of_event {s t : State} (event : Event s t) (h : s.RestsAtStart) : t.RestsAtStart := by
  cases event with
  | same => exact h
  | reset => exact rests_hardReset s
  | cleared asel => exact rests_endReset asel rfl
  | resetEnd asel life => exact rests_endReset asel (h.inReset life)
  | started => exact rests_of_running (life_lookForDue _)
  | granted r i table service granted => exact rests_of_running granted.1
  | busEnd before => exact rests_endTransaction h before
  | address before a read after later alive =>
    exact rests_addressed (rests_endTransaction h before) ((rest_endTransaction s before).1.trans_ne alive) a read after later
  | tick alive => exact rests_countMillisecond h alive
  | port p alive same =>
    refine rests_port h (fun life => ?_) same.ready same.command
    have selected := alive.resolve_left (not_not_intro life)
    rw [port_inReset h life] at selected
    cases selected
  | abort p ready command request room quiet =>
    refine rests_port h (fun life => ?_) ready command
    rw [port_inReset h life] at quiet ⊢
    exact (quiet.resolve_left nofun).resolve_left nofun
  | submitted p i idle ready =>
    have running := running_of_ready h ready
    exact rests_of_running running
  | limit phase =>
    have running := running_of_phase h fun out => by cases out.symm.trans phase
    exact rests_of_running running
  | stuck watched =>
    have running := running_of_phase h fun out => by rw [out] at watched; cases watched
    exact rests_of_running running
  | ripened timer =>
    have running : s.life = .running := by_contra fun start => by rw [(quiet_of_rests h start).alert] at timer; cases timer
    exact rests_of_running running
  | answered _ served | completed _ _ served | retained _ served | acknowledged _ served | stepped served | expired served =>
    have running := running_of_service h served
    exact rests_of_running ((life_lookForDue _).trans running)

theorem rests_pending (s : State) (l : List Instr) (h : s.RestsAtStart) : State.RestsAtStart { s with pending := l } := by
  refine ⟨fun life => ?_, h.table, h.engine, h.bus, h.port, h.alert⟩
  rw [h.inReset life]

/-- Settles O55: every event keeps the rest, as `rests_of_event` says case by case. -/
theorem stepKeepsThePartAtRest : Obligations.StepKeepsThePartAtRest := by
  unfold Obligations.StepKeepsThePartAtRest
  intro s t h steps
  exact step_keeps rests_pending (fun _ _ => rests_of_event) steps h

end Sys2Proof.Proofs.HardReset

/-! PROOFS. ALERT# (R177 to R179): every event that the alert unit takes ends with a look at the line, and what other events change
has no part in its condition. -/

namespace Sys2Proof.Proofs.AlertLine

open Sys2Proof.Machine
open Sys2Proof.Proofs.BusFrames
open Sys2Proof.Proofs.HardReset (rests_of_event rests_pending)

theorem line_reset (t : Table) : Alert.reset.line = Alert.reset.condition t := rfl

/-- A millisecond makes no timer EXPIRED and none that was not so. -/
theorem condition_tick (a : Alert) (t : Table) : { a with timer := a.timer.tick }.condition t = a.condition t := by
  have ripens : ripe t a.timer.tick = ripe t a.timer := by
    cases a.timer <;> rfl
  simp only [Alert.condition, Alert.pending, ripens]

theorem line_of_event {s t : State} (event : Event s t) (rests : s.RestsAtStart)
    (h : s.alert.line = s.alert.condition s.seen) : t.alert.line = t.alert.condition t.seen := by
  cases event with
  | reset | cleared => exact line_reset _
  | resetEnd asel life =>
    have alert : s.alert = Alert.reset := congrArg State.alert (rests.inReset life)
    show s.alert.line = s.alert.condition _
    rw [alert]
    exact line_reset _
  | same | granted | limit | port | abort | submitted => exact h
  | busEnd before | address before =>
    show (s.endTransaction before).alert.line = (s.endTransaction before).alert.condition (s.endTransaction before).seen
    rw [alert_endTransaction, seen_endTransaction]
    exact h
  | stuck | ripened => rfl
  | tick =>
    rw [alert_lookForDue, seen_lookForDue]
    exact h.trans (condition_tick s.alert s.seen).symm
  | started =>
    rw [alert_lookForDue, seen_lookForDue]
    exact h
  | answered | completed | retained | acknowledged | stepped | expired =>
    rw [alert_lookForDue, seen_lookForDue]
    rfl

/-- Settles O56: the line is its condition after every event of a part that rests while it starts. -/
theorem stepKeepsTheAlertLineRight : Obligations.StepKeepsTheAlertLineRight := by
  unfold Obligations.StepKeepsTheAlertLineRight
  intro right s t rests line steps
  have kept := step_keeps (P := fun s => s.RestsAtStart ∧ s.alert.line = s.alert.condition s.seen)
    (fun s l h => ⟨rests_pending s l h.1, h.2⟩) (fun s t event h => ⟨rests_of_event event h.1, line_of_event event h.1 h.2⟩)
    steps ⟨rests, (lineIsRight_iff s).1 line⟩
  exact (lineIsRight_iff t).2 kept.2

end Sys2Proof.Proofs.AlertLine

/-! PROOFS. One operation of each requester at most (R21, R70, R133, R149), what the other blocks see (R19), the room in the buffers
(R133, R149) and the timers' phases (R142, R144): each invariant is kept by every event. The three counts are one invariant of a
requester and its flag. -/

namespace Sys2Proof.Proofs.OneOperation

open Sys2Proof.Machine
open Sys2Proof.Proofs.BusFrames

/-! ### One operation of a requester, and its flag -/

/-- A requester's operation waits at the arbiter. -/
def Waits (s : State) (r : Requester) : Prop := (s.arbiter.waiting r).isSome = true

/-- A requester's operation is in service. -/
def Serves (s : State) (r : Requester) : Prop := ∃ v, s.service = some v ∧ v.requester = r

/-- The flag says whether an operation of the requester waits or is in service; never two do. -/
structure OneOf (s : State) (r : Requester) (flag : Bool) : Prop where
  counted : flag = true ↔ Waits s r ∨ Serves s r
  one : ¬ (Waits s r ∧ Serves s r)

section OneOf

variable {s t : State} {r r' : Requester} {flag : Bool} {v : Service}

theorem not_serves_of_none (idle : s.service = none) : ¬ Serves s r := by
  rintro ⟨v, served, _⟩
  cases idle.symm.trans served

theorem serves_iff_of_some (served : s.service = some v) : Serves s r ↔ v.requester = r := by
  constructor
  · rintro ⟨w, other, asks⟩
    cases served.symm.trans other
    exact asks
  · exact fun asks => ⟨v, served, asks⟩

theorem OneOf.congr (h : OneOf s r flag) (waits : t.arbiter.waiting r = s.arbiter.waiting r) (service : t.service = s.service) :
    OneOf t r flag := by
  have sameWaits : Waits t r ↔ Waits s r := by rw [Waits, Waits, waits]
  have sameServes : Serves t r ↔ Serves s r := by rw [Serves, Serves, service]
  exact ⟨by rw [sameWaits, sameServes]; exact h.counted, by rw [sameWaits, sameServes]; exact h.one⟩

theorem oneOf_none (waits : t.arbiter.waiting r = none) (serves : ¬ Serves t r) : OneOf t r false := by
  have idle : ¬ Waits t r := by rw [Waits, waits]; exact nofun
  exact ⟨iff_of_false nofun (not_or.2 ⟨idle, serves⟩), fun both => idle both.1⟩

theorem oneOf_submitted (waits : Waits t r) (serves : ¬ Serves t r) : OneOf t r true :=
  ⟨iff_of_true rfl (.inl waits), fun both => serves both.2⟩

theorem OneOf.idle (h : OneOf s r flag) (clear : flag = false) : ¬ Waits s r ∧ ¬ Serves s r := by
  have counted := h.counted
  rw [clear] at counted
  exact not_or.1 (counted.not.1 nofun)

theorem waiting_remove (a : Arbiter) (last : Requester) (r : Requester) :
    ({ a.remove r with lastGranted := last } : Arbiter).waiting r = none := by
  cases r <;> rfl

theorem waiting_remove_of_ne (a : Arbiter) (last : Requester) (other : r ≠ r') :
    ({ a.remove r' with lastGranted := last } : Arbiter).waiting r = a.waiting r := by
  cases r' with
  | bus => cases r <;> trivial
  | host => cases r <;> trivial
  | expiry => cases r <;> trivial

/-- A grant moves the requester's one operation from the arbiter into service. -/
theorem OneOf.served {i : Instr} (h : OneOf s r flag) (granted : Granted s r' i) (asks : v.requester = r') (table : Table) :
    OneOf (s.served r' table v) r flag := by
  obtain ⟨_, idle, _, waiting⟩ := granted
  have serves : Serves (s.served r' table v) r ↔ v.requester = r := serves_iff_of_some rfl
  by_cases same : r = r'
  · subst same
    have waits : Waits s r := by rw [Waits, waiting]; rfl
    have gone : ¬ Waits (s.served r table v) r := by rw [Waits, arbiter_served, waiting_remove]; exact nofun
    exact ⟨iff_of_true (h.counted.2 (.inl waits)) (.inr (serves.2 asks)), fun both => gone both.1⟩
  · have waits : Waits (s.served r' table v) r ↔ Waits s r := by
      rw [Waits, Waits, arbiter_served, waiting_remove_of_ne _ _ same]
    have apart : ¬ Serves (s.served r' table v) r := fun both => same (serves.1 both ▸ asks)
    exact ⟨h.counted.trans (or_congr waits.symm (iff_of_false (not_serves_of_none idle) apart)), fun both => apart both.2⟩

/-- The end of another requester's operation. -/
theorem OneOf.ended (h : OneOf s r flag) (served : s.service = some v) (other : v.requester ≠ r) (idle : t.service = none)
    (waits : t.arbiter.waiting r = s.arbiter.waiting r) : OneOf t r flag := by
  have sameWaits : Waits t r ↔ Waits s r := by rw [Waits, Waits, waits]
  have sameServes : Serves t r ↔ Serves s r :=
    iff_of_false (not_serves_of_none idle) fun serves => other ((serves_iff_of_some served).1 serves)
  exact ⟨by rw [sameWaits, sameServes]; exact h.counted, by rw [sameWaits, sameServes]; exact h.one⟩

/-- The end of the requester's own operation: none of its own can have waited. -/
theorem OneOf.completed (h : OneOf s r flag) (served : s.service = some v) (own : v.requester = r) (idle : t.service = none)
    (waits : t.arbiter.waiting r = s.arbiter.waiting r) : OneOf t r false := by
  have alone : ¬ Waits s r := fun both => h.one ⟨both, (serves_iff_of_some served).2 own⟩
  have gone : ¬ Waits t r := by rw [Waits, waits]; exact alone
  exact ⟨iff_of_false nofun (not_or.2 ⟨gone, not_serves_of_none idle⟩), fun both => gone both.1⟩

/-- The kinds of operation in service are the requesters' (R20). -/
theorem any_iff {kind : Service → Bool} (asks : ∀ v, kind v = true ↔ v.requester = r) (s : State) :
    s.service.any kind = true ↔ Serves s r := by
  rw [Option.any_eq_true]
  exact exists_congr fun v => and_congr Iff.rfl (asks v)

theorem isRequest_iff (v : Service) : v.isRequest = true ↔ v.requester = .bus := by
  cases v <;> simp [Service.isRequest, Service.requester]

theorem isHost_iff (v : Service) : v.isHost = true ↔ v.requester = .host := by
  cases v <;> simp [Service.isHost, Service.requester]

theorem isExpiry_iff (v : Service) : v.isExpiry = true ↔ v.requester = .expiry := by
  cases v <;> simp [Service.isExpiry, Service.requester]

end OneOf

/-! ### The expiry unit's look -/

theorem OneOf.lookForDue {s : State} {r : Requester} {flag : Bool} (h : OneOf s r flag) (other : r ≠ .expiry) :
    OneOf s.lookForDue r flag := by
  refine h.congr ?_ (service_lookForDue s)
  cases r with
  | bus => exact arbiterBus_lookForDue s
  | host => exact arbiterHost_lookForDue s
  | expiry => exact absurd rfl other

/-- The look submits an operation only while the mark is clear, and sets the mark with it. -/
theorem oneOf_lookForDue {s : State} (h : OneOf s .expiry s.expiry.outstanding) :
    OneOf s.lookForDue .expiry s.lookForDue.expiry.outstanding := by
  obtain same | ⟨i, _, clear, _, submits⟩ := lookForDue_cases s
  · rw [same]; exact h
  · rw [submits]
    exact oneOf_submitted rfl (h.idle clear).2

/-! ### One expiry operation (R70) -/

theorem oneExpiry_iff (s : State) : s.OneExpiry ↔ OneOf s .expiry s.expiry.outstanding := by
  constructor
  · rintro ⟨outstanding, one⟩
    rw [any_iff isExpiry_iff] at outstanding one
    exact ⟨outstanding, one⟩
  · rintro ⟨counted, one⟩
    rw [← any_iff isExpiry_iff] at counted one
    exact ⟨counted, one⟩

theorem oneOf_endTransaction {s : State} {r : Requester} {flag : Bool} (h : OneOf s r flag) (before : List BusActivity)
    (other : r ≠ .bus) : OneOf (s.endTransaction before) r flag := by
  refine h.congr ?_ (service_endTransaction s before)
  cases r with
  | bus => exact absurd rfl other
  | host => exact arbiterHost_endTransaction s before
  | expiry => exact arbiterExpiry_endTransaction s before

theorem oneExpiry_of_event {s t : State} (event : Event s t) (h : OneOf s .expiry s.expiry.outstanding) :
    OneOf t .expiry t.expiry.outstanding := by
  cases event with
  | same => exact h
  | granted r i table service granted _ asks => exact h.served granted asks table
  | busEnd before =>
    rw [expiry_endTransaction]
    exact oneOf_endTransaction h before nofun
  | address before =>
    have ended := oneOf_endTransaction h before nofun
    rw [← expiry_endTransaction s before] at ended
    exact ended.congr rfl rfl
  | limit | stuck | port | abort | submitted | ripened | resetEnd => exact h.congr rfl rfl
  | reset | cleared => exact oneOf_none rfl (not_serves_of_none rfl)
  | started | tick => exact oneOf_lookForDue (h.congr rfl rfl)
  | answered a served => exact oneOf_lookForDue (h.ended served nofun rfl rfl)
  | completed v r served asks =>
    exact oneOf_lookForDue (h.ended served (asks.trans_ne nofun) rfl rfl)
  | retained r served | acknowledged tag served | stepped served => exact oneOf_lookForDue (h.ended served nofun rfl rfl)
  | expired served => exact oneOf_lookForDue (h.completed served rfl rfl rfl)

/-! ### One command (R149, R155, R157) -/

theorem oneCommand_iff (s : State) : s.OneCommand ↔ OneOf s .host s.port.command.isExecuting ∧
    (s.port.abortRequest = true → s.port.executingRehash = true) := by
  constructor
  · rintro ⟨executing, one, abort⟩
    rw [any_iff isHost_iff] at executing one
    exact ⟨⟨executing, one⟩, abort⟩
  · rintro ⟨⟨counted, one⟩, abort⟩
    rw [← any_iff isHost_iff] at counted one
    exact ⟨counted, one, abort⟩

theorem executingRehash_congr {p q : Port} (command : q.command = p.command) : q.executingRehash = p.executingRehash := by
  rw [Port.executingRehash, Port.executingRehash, command]

theorem oneCommand_of_event {s t : State} (event : Event s t) (h : s.OneCommand) : t.OneCommand := by
  obtain ⟨counts, abort⟩ := (oneCommand_iff s).1 h
  refine (oneCommand_iff t).2 ?_
  cases event with
  | same => exact ⟨counts, abort⟩
  | granted r i table service granted _ asks => exact ⟨counts.served granted asks table, abort⟩
  | busEnd before =>
    rw [port_endTransaction]
    exact ⟨oneOf_endTransaction counts before nofun, abort⟩
  | address before =>
    have ended := oneOf_endTransaction counts before nofun
    rw [← port_endTransaction s before] at ended abort
    exact ⟨ended.congr rfl rfl, abort⟩
  | limit | stuck | ripened | resetEnd => exact ⟨counts.congr rfl rfl, abort⟩
  | reset | cleared => exact ⟨oneOf_none rfl (not_serves_of_none rfl), nofun⟩
  | port p alive same =>
    rw [same.abort, executingRehash_congr same.command, same.command]
    exact ⟨counts.congr rfl rfl, abort⟩
  | abort p ready command request =>
    rw [request, executingRehash_congr command, command, Bool.or_eq_true]
    exact ⟨counts.congr rfl rfl, fun either => either.elim abort id⟩
  | submitted p i idle wasReady ready command request room outer =>
    have alone := counts.idle (by rw [idle]; rfl)
    rw [request, command]
    refine ⟨oneOf_submitted rfl alone.2, fun asked => ?_⟩
    have none : s.port.executingRehash = false := by rw [Port.executingRehash, idle]
    cases none.symm.trans (abort asked)
  | started | tick =>
    rw [port_lookForDue]
    exact ⟨OneOf.lookForDue (counts.congr rfl rfl) nofun, abort⟩
  | answered _ served | expired served =>
    rw [port_lookForDue]
    exact ⟨OneOf.lookForDue (counts.ended served nofun rfl rfl) nofun, abort⟩
  | completed v r served asks =>
    rw [port_lookForDue]
    exact ⟨OneOf.lookForDue (counts.completed served asks rfl rfl) nofun, nofun⟩
  | retained r served | acknowledged tag served =>
    rw [port_lookForDue]
    exact ⟨OneOf.lookForDue (counts.completed served rfl rfl rfl) nofun, nofun⟩
  | stepped served =>
    rw [port_lookForDue]
    have executing := counts.counted.2 (.inr ⟨_, served, rfl⟩)
    refine ⟨OneOf.lookForDue ?_ nofun, abort⟩
    show OneOf _ .host s.port.command.isExecuting
    rw [executing]
    exact oneOf_submitted rfl (not_serves_of_none rfl)

/-! ### One request in flight (R133, R139, R140) -/

/-- The answer buffer and the phase agree with the mark: PENDING exactly while a request is in flight, RECEIVING only while none is,
STRETCHING only while one is. -/
structure MarkFits (t : Target) : Prop where
  pending : t.answerState = .pending ↔ t.inFlight = true
  receiving : t.phase = .receiving → t.inFlight = false
  stretching : t.phase = .stretching → t.inFlight = true

theorem oneRequestInFlight_iff (s : State) :
    s.OneRequestInFlight ↔ OneOf s .bus s.target.inFlight ∧ MarkFits s.target := by
  constructor
  · rintro ⟨pending, request, one, receiving, stretching⟩
    rw [any_iff isRequest_iff] at request one
    exact ⟨⟨request, one⟩, pending, receiving, stretching⟩
  · rintro ⟨⟨counted, one⟩, pending, receiving, stretching⟩
    rw [← any_iff isRequest_iff] at counted one
    exact ⟨pending, counted, one, receiving, stretching⟩

theorem MarkFits.same {t u : Target} (h : MarkFits t) (same : t.SameButData u) : MarkFits u := by
  refine ⟨?_, ?_, ?_⟩
  · rw [same.answerState, same.inFlight]; exact h.pending
  · rw [same.phase, same.inFlight]; exact h.receiving
  · rw [same.phase, same.inFlight]; exact h.stretching

/-- The target behind an answered address byte, before the activity that follows it. -/
theorem markFits_address {t : Target} (h : MarkFits t) (authority : Addr) (limit : Half) (a : Addr)
    (read : Bool) : MarkFits (t.address authority limit a read) := by
  unfold Target.address
  dsimp only
  split
  · exact ⟨h.pending, h.receiving, h.stretching⟩
  · split
    · split
      · next stretches => exact ⟨h.pending, nofun, fun _ => h.pending.1 stretches.1⟩
      · exact ⟨h.pending, nofun, nofun⟩
    · split
      · exact ⟨h.pending, h.receiving, h.stretching⟩
      · next answered => exact ⟨h.pending, fun _ => Bool.eq_false_iff.2 fun inFlight => answered (h.pending.2 inFlight), nofun⟩

theorem markFits_endTransaction {s : State} (h : MarkFits s.target) (before : List BusActivity) :
    MarkFits (s.endTransaction before).target ∧ (s.endTransaction before).target.phase = .unaddressed := by
  obtain ⟨target, ends, out, _, _, _, _, inFlight, answer⟩ | ⟨target, request, ends, _, out, _, _, _, _, inFlight, answer⟩ :=
    endTransaction_cases s before <;> rw [ends]
  · refine ⟨⟨?_, fun receiving => ?_, fun stretching => ?_⟩, out⟩
    · rw [inFlight]
      obtain same | ⟨receiving, ready⟩ := answer
      · rw [same]; exact h.pending
      · rw [ready, h.receiving receiving]; exact iff_of_false nofun nofun
    · cases out.symm.trans receiving
    · cases out.symm.trans stretching
  · refine ⟨⟨iff_of_true answer inFlight, fun receiving => ?_, fun stretching => ?_⟩, out⟩
    · cases out.symm.trans receiving
    · cases out.symm.trans stretching

theorem markFits_addressed {s : State} (h : MarkFits s.target) (a : Addr) (read : Bool) (after : List BusActivity)
    (later : List (List BusActivity)) : MarkFits (s.addressed a read after later).target := by
  have answered := markFits_address h s.authorityAddress s.seen.params.stretchLimit a read
  have heard := (answered.same (sameButData_watch _ true)).same (sameButData_hears _ after)
  exact ⟨heard.pending, heard.receiving, heard.stretching⟩

theorem inFlight_addressed (s : State) (a : Addr) (read : Bool) (after : List BusActivity) (later : List (List BusActivity)) :
    (s.addressed a read after later).target.inFlight = s.target.inFlight := by
  have answered : (s.target.address s.authorityAddress s.seen.params.stretchLimit a read).inFlight = s.target.inFlight := by
    unfold Target.address
    dsimp only
    split
    · rfl
    · split
      · split <;> rfl
      · split <;> rfl
  exact ((sameButData_watch _ true).trans (sameButData_hears _ after)).inFlight.trans answered

/-- A write's end may submit the request that it brings, which is then the only one. -/
theorem oneRequest_endTransaction {s : State} (counts : OneOf s .bus s.target.inFlight) (fits : MarkFits s.target)
    (before : List BusActivity) : OneOf (s.endTransaction before) .bus (s.endTransaction before).target.inFlight := by
  obtain ⟨target, ends, _, _, _, _, _, inFlight, _⟩ | ⟨target, request, ends, receiving, _, _, _, _, _, inFlight, _⟩ :=
    endTransaction_cases s before <;> rw [ends]
  · show OneOf _ _ target.inFlight
    rw [inFlight]
    exact counts.congr rfl rfl
  · show OneOf _ _ target.inFlight
    rw [inFlight]
    exact oneOf_submitted rfl (counts.idle (fits.receiving receiving)).2

/-- An answer written ends the request in flight; a stretched read goes on in SENDING. -/
theorem deliver_fits (t : Target) (answer : List Byte) :
    (t.deliver answer).inFlight = false ∧ MarkFits (t.deliver answer) := by
  unfold Target.deliver
  dsimp only
  split
  · exact ⟨rfl, iff_of_false nofun nofun, nofun, nofun⟩
  · next phase => exact ⟨rfl, iff_of_false nofun nofun, fun _ => rfl, fun stretching => absurd stretching phase⟩

/-- A retention reset drops the request in flight, and with it what depended on it (R146). -/
theorem retain_fits (t : Target) : t.retain.inFlight = false ∧ MarkFits t.retain := by
  unfold Target.retain Target.retainPhase
  dsimp only
  split
  · exact ⟨rfl, iff_of_false nofun nofun, nofun, nofun⟩
  · exact ⟨rfl, iff_of_false nofun nofun, nofun, nofun⟩
  all_goals
    next phase =>
    refine ⟨rfl, iff_of_false nofun nofun, fun other => ?_, fun other => ?_⟩ <;> cases phase.symm.trans other

/-- A write abandoned is answered BAD_REQUEST, and no request was in flight in it (R145). -/
theorem abandon_fits {t : Target} (h : MarkFits t) : t.abandon.inFlight = t.inFlight ∧ MarkFits t.abandon := by
  unfold Target.abandon
  dsimp only
  split
  · next write =>
    have idle : ¬ t.inFlight = true := by rw [h.receiving write.1]; nofun
    exact ⟨rfl, iff_of_false nofun idle, nofun, nofun⟩
  · exact ⟨rfl, h.pending, nofun, nofun⟩

theorem oneRequest_of_event {s t : State} (event : Event s t) (h : s.OneRequestInFlight) : t.OneRequestInFlight := by
  obtain ⟨counts, fits⟩ := (oneRequestInFlight_iff s).1 h
  refine (oneRequestInFlight_iff t).2 ?_
  cases event with
  | same => exact ⟨counts, fits⟩
  | granted r i table service granted _ asks => exact ⟨counts.served granted asks table, fits⟩
  | busEnd before =>
    exact ⟨oneRequest_endTransaction counts fits before, (markFits_endTransaction fits before).1⟩
  | address before a read after later =>
    refine ⟨?_, markFits_addressed (markFits_endTransaction fits before).1 a read after later⟩
    rw [inFlight_addressed]
    exact (oneRequest_endTransaction counts fits before).congr rfl rfl
  | limit => exact ⟨counts.congr rfl rfl, fits.pending, nofun, nofun⟩
  | stuck =>
    obtain ⟨inFlight, abandoned⟩ := abandon_fits fits
    refine ⟨?_, abandoned⟩
    show OneOf _ _ s.target.abandon.inFlight
    rw [inFlight]
    exact counts.congr rfl rfl
  | port | abort | submitted | ripened | resetEnd => exact ⟨counts.congr rfl rfl, fits⟩
  | reset | cleared => exact ⟨oneOf_none rfl (not_serves_of_none rfl), iff_of_false nofun nofun, nofun, nofun⟩
  | started =>
    rw [target_lookForDue]
    exact ⟨OneOf.lookForDue (counts.congr rfl rfl) nofun, fits.pending, fits.receiving, fits.stretching⟩
  | tick =>
    have heard := fits.same (sameButData_hearsMillisecond s.target)
    rw [target_lookForDue]
    refine ⟨OneOf.lookForDue ?_ nofun, heard.pending, heard.receiving, heard.stretching⟩
    show OneOf _ _ s.target.hearsMillisecond.inFlight
    rw [(sameButData_hearsMillisecond s.target).inFlight]
    exact counts.congr rfl rfl
  | answered a served =>
    obtain ⟨inFlight, delivered⟩ := deliver_fits s.target a.bytes
    rw [target_lookForDue]
    refine ⟨OneOf.lookForDue ?_ nofun, delivered⟩
    show OneOf _ _ (s.target.deliver a.bytes).inFlight
    rw [inFlight]
    exact counts.completed served rfl rfl rfl
  | retained r served =>
    obtain ⟨inFlight, retained⟩ := retain_fits s.target
    rw [target_lookForDue]
    refine ⟨OneOf.lookForDue ?_ nofun, retained⟩
    show OneOf _ _ s.target.retain.inFlight
    rw [inFlight]
    exact oneOf_none rfl (not_serves_of_none rfl)
  | completed v r served asks =>
    rw [target_lookForDue]
    exact ⟨OneOf.lookForDue (counts.ended served (asks.trans_ne nofun) rfl rfl) nofun, fits⟩
  | acknowledged _ served | stepped served | expired served =>
    rw [target_lookForDue]
    exact ⟨OneOf.lookForDue (counts.ended served nofun rfl rfl) nofun, fits⟩

/-! ### What the other blocks see (R19) -/

theorem sees_of_event {s t : State} (event : Event s t) (h : s.SeesCompletedTable) : t.SeesCompletedTable := by
  cases event with
  | granted => exact nofun
  | reset | cleared | resetEnd => exact fun _ => rfl
  | same | limit | stuck | port | abort | submitted | ripened => exact h
  | busEnd before | address before =>
    show (s.endTransaction before).service = none → (s.endTransaction before).seen = (s.endTransaction before).table
    rw [service_endTransaction, seen_endTransaction, table_endTransaction]
    exact h
  | started | tick =>
    rw [State.SeesCompletedTable, service_lookForDue, seen_lookForDue, table_lookForDue]
    exact h
  | answered | completed | retained | acknowledged | stepped | expired =>
    rw [State.SeesCompletedTable, service_lookForDue, seen_lookForDue, table_lookForDue]
    exact fun _ => rfl

/-! ### Room in the buffers (R133, R149) -/

theorem receive_endTransaction (s : State) (before : List BusActivity) : (s.endTransaction before).target.receive = [] := by
  obtain ⟨settled, leaves⟩ := target_endTransaction s before
  rw [leaves]
  rfl

theorem receive_address {t : Target} (empty : t.receive = []) (authority : Addr) (limit : Half) (a : Addr) (read : Bool) :
    (t.address authority limit a read).receive = [] := by
  unfold Target.address
  dsimp only
  split
  · exact empty
  · split
    · split <;> exact empty
    · split
      · exact empty
      · rfl

theorem room_addressed {s : State} (empty : s.target.receive = []) (a : Addr) (read : Bool) (after : List BusActivity)
    (later : List (List BusActivity)) : (s.addressed a read after later).target.receive.length ≤ Config.receiveCapacity := by
  have answered := receive_address empty s.authorityAddress s.seen.params.stretchLimit a read
  refine ((sameButData_watch _ true).trans (sameButData_hears _ after)).room ?_
  rw [answered]
  exact Nat.zero_le _

theorem room_deliver (t : Target) (answer : List Byte) : (t.deliver answer).receive = t.receive := by
  unfold Target.deliver
  dsimp only
  split <;> rfl

theorem room_retain {t : Target} (h : t.receive.length ≤ Config.receiveCapacity) :
    t.retain.receive.length ≤ Config.receiveCapacity := by
  unfold Target.retain Target.retainPhase
  dsimp only
  split
  · exact Nat.zero_le _
  all_goals exact h

theorem fit_of_event {s t : State} (event : Event s t) (h : s.BuffersFit) : t.BuffersFit := by
  obtain ⟨receive, frame⟩ := h
  cases event with
  | same | granted | ripened | resetEnd | limit => exact ⟨receive, frame⟩
  | reset | cleared => exact ⟨Nat.zero_le _, Nat.zero_le _⟩
  | stuck => exact ⟨Nat.zero_le _, frame⟩
  | port p _ same => exact ⟨receive, same.room frame⟩
  | abort p _ _ _ room => exact ⟨receive, room frame⟩
  | submitted p _ _ _ _ _ _ room => exact ⟨receive, room frame⟩
  | busEnd before =>
    refine ⟨?_, by rw [port_endTransaction]; exact frame⟩
    rw [receive_endTransaction]
    exact Nat.zero_le _
  | address before a read after later =>
    refine ⟨room_addressed (receive_endTransaction s before) a read after later, ?_⟩
    show (s.endTransaction before).port.frame.length ≤ _
    rw [port_endTransaction]
    exact frame
  | started | acknowledged | stepped | expired | completed =>
    refine ⟨?_, ?_⟩
    · rw [target_lookForDue]; exact receive
    · rw [port_lookForDue]; exact frame
  | tick =>
    refine ⟨?_, ?_⟩
    · rw [target_lookForDue]; exact (sameButData_hearsMillisecond s.target).room receive
    · rw [port_lookForDue]; exact frame
  | answered a =>
    refine ⟨?_, ?_⟩
    · rw [target_lookForDue]
      show (s.target.deliver a.bytes).receive.length ≤ _
      rw [room_deliver]; exact receive
    · rw [port_lookForDue]; exact frame
  | retained =>
    refine ⟨?_, ?_⟩
    · rw [target_lookForDue]; exact room_retain receive
    · rw [port_lookForDue]; exact frame

/-! ### The timers' phases (R142, R144) -/

/-- The stretch timer runs only in STRETCHING, the bus-stuck timer only in the phases that it watches. -/
structure TimersFit (t : Target) : Prop where
  stretch : t.stretch ≠ .idle → t.phase = .stretching
  stuck : t.stuck ≠ .idle → t.phase.watched = true

theorem timersFit_iff (s : State) : s.TimersFitPhase ↔ TimersFit s.target :=
  ⟨fun ⟨stretch, stuck⟩ => ⟨stretch, stuck⟩, fun ⟨stretch, stuck⟩ => ⟨stretch, stuck⟩⟩

theorem TimersFit.same {t u : Target} (h : TimersFit t) (same : t.SameButData u) : TimersFit u := by
  refine ⟨?_, fun runs => ?_⟩
  · rw [same.stretch, same.phase]; exact h.stretch
  · by_contra unwatched
    rw [Bool.not_eq_true] at unwatched
    obtain kept | idle := same.stuck unwatched
    · rw [kept] at runs
      rw [same.phase, h.stuck runs] at unwatched
      cases unwatched
    · exact runs idle

theorem timersFit_idle {t : Target} (stretch : t.stretch = .idle) (stuck : t.stuck = .idle) : TimersFit t :=
  ⟨fun runs => absurd stretch runs, fun runs => absurd stuck runs⟩

/-- A read that sends is watched, and its stretch is over. -/
theorem timersFit_release (t : Target) (content : List Byte) : TimersFit (t.release content) :=
  ⟨fun runs => absurd rfl runs, fun _ => rfl⟩

theorem tick_eq_idle_iff (timer : Timer) : timer.tick = .idle ↔ timer = .idle := by
  cases timer <;> simp [Timer.tick]

theorem timersFit_tick {t : Target} (h : TimersFit t) : TimersFit { t with stretch := t.stretch.tick, stuck := t.stuck.tick } :=
  ⟨fun runs => h.stretch ((tick_eq_idle_iff _).not.1 runs), fun runs => h.stuck ((tick_eq_idle_iff _).not.1 runs)⟩

/-- An address byte starts the stretch timer with the phase STRETCHING; behind its ninth clock the bus-stuck timer follows SCL. -/
theorem timersFit_address {t : Target} (stretch : t.stretch = .idle) (authority : Addr) (limit : Half) (a : Addr) (read : Bool) :
    TimersFit ((t.address authority limit a read).watch true) := by
  refine ⟨?_, fun runs => ?_⟩
  · show (t.address authority limit a read).stretch ≠ .idle → (t.address authority limit a read).phase = .stretching
    unfold Target.address
    dsimp only
    split
    · exact fun runs => absurd stretch runs
    · split
      · split
        · exact fun _ => rfl
        · exact fun runs => absurd rfl runs
      · split
        · exact fun runs => absurd stretch runs
        · exact fun runs => absurd stretch runs
  · show (t.address authority limit a read).phase.watched = true
    by_contra unwatched
    rw [Bool.not_eq_true] at unwatched
    simp only [Target.watch, unwatched, Bool.and_false, Bool.false_eq_true, if_false, ne_eq, not_true_eq_false] at runs

theorem timersFit_addressed {s : State} (stretch : s.target.stretch = .idle) (a : Addr) (read : Bool) (after : List BusActivity)
    (later : List (List BusActivity)) : TimersFit (s.addressed a read after later).target := by
  have heard := (timersFit_address stretch s.authorityAddress s.seen.params.stretchLimit a read).same (sameButData_hears _ after)
  exact ⟨heard.stretch, heard.stuck⟩

theorem timersFit_deliver {t : Target} (h : TimersFit t) (answer : List Byte) : TimersFit (t.deliver answer) := by
  unfold Target.deliver
  dsimp only
  split
  · exact timersFit_release _ answer
  · exact ⟨h.stretch, h.stuck⟩

/-- A write that a retention reset discards goes on being watched; no stretch can have run in it. -/
theorem timersFit_retain {t : Target} (h : TimersFit t) : TimersFit t.retain := by
  unfold Target.retain Target.retainPhase
  dsimp only
  split
  · next receiving => exact ⟨fun runs => (nomatch receiving.symm.trans (h.stretch runs)), fun _ => rfl⟩
  · exact timersFit_release _ _
  all_goals exact ⟨h.stretch, h.stuck⟩

theorem timers_of_event {s t : State} (event : Event s t) (h : TimersFit s.target) : TimersFit t.target := by
  have left : ∀ before, (s.endTransaction before).target.stretch = .idle ∧ (s.endTransaction before).target.stuck = .idle := by
    intro before
    obtain ⟨settled, leaves⟩ := target_endTransaction s before
    rw [leaves]
    exact ⟨rfl, rfl⟩
  cases event with
  | same | granted | ripened | resetEnd | port | abort | submitted => exact h
  | reset | cleared | stuck => exact timersFit_idle rfl rfl
  | limit => exact timersFit_release _ _
  | busEnd before => exact timersFit_idle (left before).1 (left before).2
  | address before a read after later => exact timersFit_addressed (left before).1 a read after later
  | started => rw [target_lookForDue]; exact ⟨h.stretch, h.stuck⟩
  | acknowledged | stepped | expired | completed => rw [target_lookForDue]; exact h
  | tick => rw [target_lookForDue]; exact timersFit_tick (h.same (sameButData_hearsMillisecond s.target))
  | answered a => rw [target_lookForDue]; exact timersFit_deliver h a.bytes
  | retained => rw [target_lookForDue]; exact timersFit_retain h

/-- Settles O57: each of the six invariants is kept by every event. -/
theorem stepKeepsOneOperationEach : Obligations.StepKeepsOneOperationEach := by
  unfold Obligations.StepKeepsOneOperationEach
  intro s t steps
  refine ⟨?_, ?_, ?_, ?_, ?_, ?_⟩
  · exact step_keeps (fun _ _ ⟨pending, request, one, receiving, stretching⟩ => ⟨pending, request, one, receiving, stretching⟩)
      (fun _ _ => oneRequest_of_event) steps
  · exact step_keeps (fun _ _ ⟨executing, one, abort⟩ => ⟨executing, one, abort⟩) (fun _ _ => oneCommand_of_event) steps
  · rw [oneExpiry_iff, oneExpiry_iff]
    exact step_keeps (P := fun s => OneOf s .expiry s.expiry.outstanding) (fun _ _ h => h.congr rfl rfl)
      (fun _ _ => oneExpiry_of_event) steps
  · exact step_keeps (fun _ _ h => h) (fun _ _ => sees_of_event) steps
  · exact step_keeps (fun _ _ ⟨receive, frame⟩ => ⟨receive, frame⟩) (fun _ _ => fit_of_event) steps
  · rw [timersFit_iff, timersFit_iff]
    exact step_keeps (P := fun s => TimersFit s.target) (fun _ _ h => h) (fun _ _ => timers_of_event) steps

end Sys2Proof.Proofs.OneOperation

/-! PROOFS. The table in range (R2, R23, R30, R32, R112, R169, R173): the parameters, the buckets and the change set by the kinds of
change to a table; a run as the work of one REHASH, and the agreement of the records with it, by the events. -/

namespace Sys2Proof.Proofs.TableInRange

open Sys2Proof.Machine
open Sys2Proof.Proofs.BusFrames
open Sys2Proof.Proofs.OneOperation (executingRehash_congr)

/-! ### The parameters (R112, R169) -/

theorem inRange_reset : Params.reset.InRange := by
  constructor <;> decide

/-- A write is refused unless it keeps the parameter in its range. -/
theorem inRange_write {p q : Params} {which : Param} {v : Half} (h : p.InRange) (written : p.write which v = some q) :
    q.InRange := by
  obtain ⟨offer, approval, quarantine, revalidate, ⟨ordered, high⟩, count, time, stretch⟩ := h
  cases which with
  | offerTime =>
    obtain ⟨range, ⟨⟩⟩ := Option.ite_none_right_eq_some.1 written
    exact ⟨range, approval, quarantine, revalidate, ⟨ordered, high⟩, count, time, stretch⟩
  | approvalTime =>
    obtain ⟨range, ⟨⟩⟩ := Option.ite_none_right_eq_some.1 written
    exact ⟨offer, range, quarantine, revalidate, ⟨ordered, high⟩, count, time, stretch⟩
  | quarantineTime =>
    obtain ⟨range, ⟨⟩⟩ := Option.ite_none_right_eq_some.1 written
    exact ⟨offer, approval, range, revalidate, ⟨ordered, high⟩, count, time, stretch⟩
  | revalidateTime =>
    obtain ⟨range, ⟨⟩⟩ := Option.ite_none_right_eq_some.1 written
    exact ⟨offer, approval, quarantine, range, ⟨ordered, high⟩, count, time, stretch⟩
  | lowMark =>
    obtain ⟨⟨_, below⟩, ⟨⟩⟩ := Option.ite_none_right_eq_some.1 written
    exact ⟨offer, approval, quarantine, revalidate, ⟨below, high⟩, count, time, stretch⟩
  | highMark =>
    obtain ⟨⟨range, above⟩, ⟨⟩⟩ := Option.ite_none_right_eq_some.1 written
    exact ⟨offer, approval, quarantine, revalidate, ⟨above, range⟩, count, time, stretch⟩
  | coalesceCount =>
    obtain ⟨range, ⟨⟩⟩ := Option.ite_none_right_eq_some.1 written
    exact ⟨offer, approval, quarantine, revalidate, ⟨ordered, high⟩, range, time, stretch⟩
  | coalesceTime =>
    obtain ⟨range, ⟨⟩⟩ := Option.ite_none_right_eq_some.1 written
    exact ⟨offer, approval, quarantine, revalidate, ⟨ordered, high⟩, count, range, stretch⟩
  | stretchLimit =>
    obtain ⟨range, ⟨⟩⟩ := Option.ite_none_right_eq_some.1 written
    exact ⟨offer, approval, quarantine, revalidate, ⟨ordered, high⟩, count, time, range⟩
  | alertMask | earlyReuse | truncateDescriptors | defaultAction =>
    obtain ⟨_, _, rfl⟩ := Option.map_eq_some_iff.1 written
    exact ⟨offer, approval, quarantine, revalidate, ⟨ordered, high⟩, count, time, stretch⟩

section Changes

variable {ok : Addr → Prop} {tidy : Prop} {t u : Table}

theorem inRange_of_change (change : Change ok tidy t u) (h : t.params.InRange) : u.params.InRange := by
  cases change with
  | params which v p written => exact inRange_write h written
  | entry | addr | queue | rest | addChange | takeChange | index | unindex | run | switch | drop | store => exact h

/-! ### The change set (R173, R174) -/

theorem sorted_of_change (change : Change ok tidy t u) (h : t.ChangeSetSorted) : u.ChangeSetSorted := by
  cases change with
  | addChange i => exact (pairwise_insertAscending i t.changeSet h).1
  | takeChange i l head =>
    have whole : (i :: l).Pairwise (· < ·) := head ▸ h
    exact (List.pairwise_cons.1 whole).2
  | entry | addr | queue | rest | params | index | unindex | run | switch | drop | store => exact h

/-! ### The buckets (R23, R30, R34) -/

theorem bucketFits_nil : bucketFits [] := ⟨Nat.zero_le _, List.Pairwise.nil⟩

theorem length_insertAscending_le {n : Nat} (x : Fin n) (l : List (Fin n)) : (insertAscending x l).length ≤ l.length + 1 := by
  induction l with
  | nil => exact Nat.le_refl _
  | cons y l ih =>
    unfold insertAscending
    split
    · exact Nat.le_refl _
    · split
      · exact Nat.le_succ _
      · exact Nat.succ_le_succ ih

theorem bucketFits_insert {l : List EntryIx} (h : bucketFits l) (k : EntryIx) (room : l.length < Config.bucketCapacity) :
    bucketFits (insertAscending k l) :=
  ⟨(length_insertAscending_le k l).trans room, (pairwise_insertAscending k l h.2).1⟩

theorem bucketFits_filter {l : List EntryIx} (h : bucketFits l) (p : EntryIx → Bool) : bucketFits (l.filter p) :=
  ⟨(List.length_filter_le p l).trans h.1, h.2.filter p⟩

theorem bucketFits_held (h : t.BucketsFit) {l : List EntryIx} (held : t.ShadowHeld l) : bucketFits l := by
  obtain rfl | ⟨r, b, going, rfl⟩ := held
  · exact bucketFits_nil
  · exact h.shadow r going b

/-- A shadow index that a visit leaves fits when the one before it did. -/
theorem bucketFits_shadow (h : t.BucketsFit) {shadow : Vector (List EntryIx) 32} (grows : t.ShadowFrom shadow) (b : BucketIx) :
    bucketFits (shadow.get b) := by
  obtain held | ⟨k, l, held, room, inserted⟩ := grows b
  · exact bucketFits_held h held
  · rw [inserted]
    exact bucketFits_insert (bucketFits_held h held) k room

theorem bucketsFit_setBucket (h : t.BucketsFit) (b : BucketIx) {l : List EntryIx} (fits : bucketFits l) :
    (t.setBucket b l).BucketsFit := by
  refine ⟨fun c => ?_, h.shadow⟩
  rw [Table.bucket_setBucket]
  split
  · exact fits
  · exact h.index c

theorem buckets_of_change (change : Change ok tidy t u) (h : t.BucketsFit) : u.BucketsFit := by
  cases change with
  | index b i room => exact bucketsFit_setBucket h b (bucketFits_insert (h.index b) i room)
  | unindex b i => exact bucketsFit_setBucket h b (bucketFits_filter (h.index b) _)
  | run run shadow => exact ⟨h.index, fun r going b => bucketFits_shadow h (shadow r going) b⟩
  | switch seed index shadow => exact ⟨fun b => bucketFits_shadow h shadow b, nofun⟩
  | entry | addr | queue | rest | params | addChange | takeChange | drop | store => exact ⟨h.index, h.shadow⟩

end Changes

theorem bucketsFit_reset (authority : Addr) : (Table.reset authority).BucketsFit := by
  refine ⟨fun b => ?_, nofun⟩
  rw [Table.bucket_reset]
  exact bucketFits_nil

/-! ### A run is the work of one REHASH (R31, R35, R155) -/

/-- The two kept together: a run belongs to the REHASH that executes, and the records agree. -/
def RunsInOrder (s : State) : Prop := s.RunIsOneCommand ∧ s.table.RecordsAgree

section Events

variable {s t : State}

/-- What leaves the table, the port's command and the host's place at the arbiter leaves both, also when the service ends. -/
theorem RunsInOrder.congr (h : RunsInOrder s) (table : t.table = s.table) (host : t.arbiter.host = s.arbiter.host)
    (command : t.port.command = s.port.command) (service : t.service = s.service ∨ t.service = none) : RunsInOrder t := by
  obtain ⟨⟨waiting, stepping, frozen⟩, records⟩ := h
  have served : ∀ v, t.service = some v → s.service = some v := fun v serves => by
    obtain same | ended := service
    · exact same ▸ serves
    · cases ended.symm.trans serves
  unfold RunsInOrder
  rw [table]
  refine ⟨⟨?_, fun serves => ?_, ?_⟩, records⟩
  · rw [host, command, executingRehash_congr command]
    exact waiting
  · rw [executingRehash_congr command]
    exact stepping (served _ serves)
  · rw [table, host, executingRehash_congr command]
    intro going
    obtain ⟨executing, steps, next⟩ := frozen going
    exact ⟨executing, fun v serves => steps v (served v serves), next⟩

/-- With no run, the host's place at the arbiter and the service decide. -/
theorem runsInOrder_of_no_run (idle : t.table.run = none) (records : t.table.RecordsAgree)
    (waiting : ∀ i, t.arbiter.host = some i → i ≠ .rehashStep ∧ i ≠ .rehashAbortEnding ∧ t.port.command = .executing i)
    (stepping : t.service ≠ some .step) : RunsInOrder t :=
  ⟨⟨fun i waits => .inl (waiting i waits), fun serves => absurd serves stepping, fun going => absurd idle going⟩, records⟩

/-- The row of a step or of the ending is granted only while its REHASH executes. -/
theorem executing_of_granted (h : s.RunIsOneCommand) {i : Instr} (granted : Granted s .host i)
    (row : i = .rehashStep ∨ i = .rehashAbortEnding) : s.port.executingRehash = true := by
  obtain ⟨notStep, notEnding, _⟩ | ⟨_, executing⟩ := h.waiting i granted.2.2.2
  · exact (row.elim notStep notEnding).elim
  · exact executing

/-- Before a REHASH's first step there is no run. -/
theorem no_run_of_granted (h : s.RunIsOneCommand) {i : Instr} (granted : Granted s .host i)
    (outer : i ≠ .rehashStep ∧ i ≠ .rehashAbortEnding) : s.table.run = none := by
  by_contra going
  obtain ⟨_, _, next⟩ := h.frozen going
  exact (next i granted.2.2.2).elim outer.1 outer.2

/-- A step of a run leaves the port and, at the arbiter, nothing of the host; the run goes on only while a step is in service. -/
theorem runsInOrder_of_stepped {outcome : Service × Table} (records : outcome.2.RecordsAgree)
    (steps : outcome.2.run ≠ none → outcome.1 = .step) (executing : s.port.executingRehash = true) :
    RunsInOrder (s.served .host outcome.2 outcome.1) := by
  have alone : (s.served .host outcome.2 outcome.1).arbiter.host = none := rfl
  refine ⟨⟨fun i waits => ?_, fun _ => executing, fun going => ⟨executing, fun v serves _ => ?_, fun i waits => ?_⟩⟩,
    records⟩
  · cases alone.symm.trans waits
  · cases serves
    exact steps going
  · cases alone.symm.trans waits

/-- An operation that is no part of a REHASH, of the host or of another requester. -/
theorem runsInOrder_of_outer (h : RunsInOrder s) {r : Requester} {i : Instr} {table : Table} {service : Service}
    (granted : Granted s r i) (asks : service.requester = r) (outer : ¬ ofRehash i) (notStep : service ≠ .step)
    (outside : requesterOf i ≠ some .host ∨ s.table.run = none) (away : r = .host → s.table.run = none)
    (effect : ServedTable s.expiry.time s.table i table) : RunsInOrder (s.served r table service) := by
  obtain ⟨⟨waiting, _, frozen⟩, records⟩ := h
  have same : table.run = s.table.run := effect.run_same outer
  have host : ∀ k, (s.served r table service).arbiter.host = some k → s.arbiter.host = some k := by
    intro k waits
    cases r with
    | host => cases waits
    | bus | expiry => exact waits
  refine ⟨⟨fun k waits => waiting k (host k waits), fun serves => ?_, fun going => ?_⟩, effect.records outer outside records⟩
  · exact absurd (Option.some_inj.1 serves) notStep
  · have running : s.table.run ≠ none := same ▸ going
    obtain ⟨executing, _, next⟩ := frozen running
    refine ⟨executing, fun v serves isHost => ?_, fun k waits => next k (host k waits)⟩
    cases serves
    have own : r = .host := asks.symm.trans ((OneOperation.isHost_iff _).1 isHost)
    exact absurd (away own) running

theorem runsInOrder_of_granted (h : RunsInOrder s) {r : Requester} {i : Instr} {table : Table} {service : Service}
    (granted : Granted s r i) (row : requesterOf i = some r ∨ i = .abort ∧ r = .host) (asks : service.requester = r)
    (step : service = .step → ofRehash i) (effect : ServedTable s.expiry.time s.table i table)
    (runs : exec i s = .next (s.served r table service)) : RunsInOrder (s.served r table service) := by
  by_cases ofRun : ofRehash i
  · have host : r = .host := by
      obtain ⟨seed, rfl⟩ | rfl | rfl := ofRun <;>
        exact row.elim (fun asked => (Option.some_inj.1 asked).symm) fun abort => abort.2
    subst host
    obtain ⟨seed, rfl⟩ | rfl | rfl := ofRun
    · have idle := no_run_of_granted h.1 granted ⟨nofun, nofun⟩
      have served : exec (.rehash seed) s = .next _ := grantHost_of_granted granted _
      rw [← Host.Outcome.next.inj (served.symm.trans runs)]
      obtain ⟨_, _, command⟩ | ⟨other, _⟩ := h.1.waiting _ granted.2.2.2
      · have first := serveRehash_records h.2 idle seed
        exact runsInOrder_of_stepped first.records first.going.1 (by rw [Port.executingRehash, command]; rfl)
      · exact absurd other (by simp)
    · have executing := executing_of_granted h.1 granted (.inl rfl)
      have served : exec .rehashStep s = .next _ := grantHost_of_granted granted _
      rw [← Host.Outcome.next.inj (served.symm.trans runs)]
      by_cases idle : s.table.run = none
      · have stays : serveRehashStep s.table = (.step, s.table) := by rw [serveRehashStep, idle]
        rw [stays]
        exact runsInOrder_of_stepped h.2 (fun _ => rfl) executing
      · have later := serveRehashStep_records h.2 idle
        exact runsInOrder_of_stepped later.records later.going.1 executing
    · have executing := executing_of_granted h.1 granted (.inr rfl)
      have served : exec .rehashAbortEnding s = .next _ := grantHost_of_granted granted _
      rw [← Host.Outcome.next.inj (served.symm.trans runs)]
      exact runsInOrder_of_stepped (dropRun_records h.2.agree) (fun going => absurd rfl going) executing
  · have away : r = .host → s.table.run = none := by
      rintro rfl
      exact no_run_of_granted h.1 granted ⟨fun is => ofRun (.inr (.inl is)), fun is => ofRun (.inr (.inr is))⟩
    refine runsInOrder_of_outer h granted asks ofRun (fun is => ofRun (step is)) ?_ away effect
    by_cases own : r = .host
    · exact .inr (away own)
    · refine .inl fun asked => ?_
      obtain other | ⟨_, abort⟩ := row
      · exact own (Option.some_inj.1 (other.symm.trans asked))
      · exact own abort

/-- The end of a command: its operation was the host's one, and no run outlives it. -/
theorem runsInOrder_of_completed (h : RunsInOrder s) (one : s.OneCommand) {v : Service} (served : s.service = some v)
    (asks : v.requester = .host) (ends : v ≠ .step) (table : t.table = s.table) (host : t.arbiter.host = s.arbiter.host)
    (service : t.service = none) : RunsInOrder t := by
  have isHost : v.isHost = true := (OneOperation.isHost_iff v).2 asks
  have idle : s.table.run = none := by
    by_contra going
    obtain ⟨_, steps, _⟩ := h.1.frozen going
    exact ends (steps v served isHost)
  have alone : s.arbiter.host = none := by
    by_contra waits
    refine one.one ⟨Option.isSome_iff_ne_none.2 waits, ?_⟩
    rw [served]
    exact isHost
  refine runsInOrder_of_no_run (table ▸ idle) (table ▸ h.2) (fun i waits => ?_) (service ▸ nofun)
  cases (host.trans alone).symm.trans waits

theorem nextStep_cases (p : Port) : p.nextStep = .rehashStep ∨ p.nextStep = .rehashAbortEnding := by
  unfold Port.nextStep
  split
  · exact .inr rfl
  · exact .inl rfl

/-- The end of a step: the next one, or the ending, waits for the REHASH that executes. -/
theorem runsInOrder_of_submitted (records : s.table.RecordsAgree) (executing : s.port.executingRehash = true)
    (table : t.table = s.table) (host : t.arbiter.host = some s.port.nextStep) (command : t.port.command = s.port.command)
    (service : t.service = none) : RunsInOrder t := by
  have going : t.port.executingRehash = true := (executingRehash_congr command).trans executing
  have next : ∀ i, t.arbiter.host = some i → i = .rehashStep ∨ i = .rehashAbortEnding := fun i waits => by
    cases host.symm.trans waits
    exact nextStep_cases s.port
  refine ⟨⟨fun i waits => .inr ⟨next i waits, going⟩, fun serves => ?_, fun _ => ⟨going, fun v serves => ?_, next⟩⟩,
    table ▸ records⟩
  · cases service.symm.trans serves
  · cases service.symm.trans serves

theorem runsInOrder_of_event (event : Event s t) (one : s.OneCommand) (h : RunsInOrder s) : RunsInOrder t := by
  cases event with
  | same => exact h
  | granted r i table service granted row asks step effect runs => exact runsInOrder_of_granted h granted row asks step effect runs
  | busEnd before | address before =>
    exact h.congr (table_endTransaction s before) (arbiterHost_endTransaction s before)
      (congrArg Port.command (port_endTransaction s before)) (.inl (service_endTransaction s before))
  | limit | stuck | ripened => exact h.congr rfl rfl rfl (.inl rfl)
  | port p _ same => exact h.congr rfl rfl same.command (.inl rfl)
  | abort p _ command => exact h.congr rfl rfl command (.inl rfl)
  | submitted p i idle _ _ command _ _ outer =>
    have still : s.port.executingRehash = false := by rw [Port.executingRehash, idle]
    have noRun : s.table.run = none := by
      by_contra going
      cases still.symm.trans (h.1.frozen going).1
    refine runsInOrder_of_no_run noRun h.2 (fun k waits => ?_) fun serves => ?_
    · cases waits
      exact ⟨outer.1, outer.2, command⟩
    · cases still.symm.trans (h.1.stepping serves)
  | reset | cleared => exact runsInOrder_of_no_run rfl (reset_records _) nofun nofun
  | resetEnd =>
    obtain ⟨⟨waiting, stepping, _⟩, _⟩ := h
    exact ⟨⟨waiting, stepping, fun going => absurd rfl going⟩, reset_records _⟩
  | started =>
    exact h.congr (table_lookForDue _) (arbiterHost_lookForDue _) (by rw [port_lookForDue]) (.inl (service_lookForDue _))
  | tick =>
    exact h.congr (table_lookForDue _) (arbiterHost_lookForDue _) (congrArg Port.command (port_lookForDue _))
      (.inl (service_lookForDue _))
  | answered | expired =>
    exact h.congr (table_lookForDue _) (arbiterHost_lookForDue _) (congrArg Port.command (port_lookForDue _))
      (.inr (service_lookForDue _))
  | completed v r served asks ends =>
    exact runsInOrder_of_completed h one served asks ends (table_lookForDue _) (arbiterHost_lookForDue _) (service_lookForDue _)
  | retained r served | acknowledged tag served =>
    exact runsInOrder_of_completed h one served rfl nofun (table_lookForDue _) (arbiterHost_lookForDue _) (service_lookForDue _)
  | stepped served =>
    obtain ⟨⟨_, stepping, _⟩, records⟩ := h
    exact runsInOrder_of_submitted records (stepping served) (table_lookForDue _) (arbiterHost_lookForDue _)
      (congrArg Port.command (port_lookForDue _)) (service_lookForDue _)

end Events

/-- Settles O58: three invariants by the kinds of change, the fourth by the events. -/
theorem stepKeepsTheTableInRange : Obligations.StepKeepsTheTableInRange := by
  unfold Obligations.StepKeepsTheTableInRange
  intro s t steps
  refine ⟨?_, ?_, ?_, fun one order records => ?_⟩
  · exact step_keeps_table (P := fun table _ => table.params.InRange)
      (fun _ _ _ _ _ served => served.keeps_plain fun _ _ => inRange_of_change) (fun _ => inRange_reset) steps
  · exact step_keeps_table (P := fun table _ => table.BucketsFit)
      (fun _ _ _ _ _ served => served.keeps_plain fun _ _ => buckets_of_change) bucketsFit_reset steps
  · exact step_keeps_table (P := fun table _ => table.ChangeSetSorted)
      (fun _ _ _ _ _ served => served.keeps_plain fun _ _ => sorted_of_change) (fun _ => List.Pairwise.nil) steps
  · have kept := step_keeps (P := fun s => s.OneCommand ∧ RunsInOrder s)
      (fun s l h => ⟨⟨h.1.executing, h.1.one, h.1.abort⟩, h.2.congr rfl rfl rfl (.inl rfl)⟩)
      (fun s t event h => ⟨OneOperation.oneCommand_of_event event h.1, runsInOrder_of_event event h.1 h.2⟩) steps
      ⟨one, order, records⟩
    exact kept.2

end Sys2Proof.Proofs.TableInRange

/-! PROOFS. The machine's step, and the engine's grants (R19, R20): the rotation of the arbiter, and what every row that is an
operation does when it is granted and when it is not. -/

namespace Sys2Proof.Proofs.EngineService

open Sys2Proof.Machine

/-- Settles O1: the step's own definition on a queue that is not empty. -/
theorem stepRunsTheFrontCommand : Obligations.StepRunsTheFrontCommand := by
  unfold Obligations.StepRunsTheFrontCommand
  intro c rest s
  rfl

/-- Settles O2: the effect that every row has on the table says that it answers a next state, with the queue as it was. -/
theorem everyCommandAnswersANextState : Obligations.EveryCommandAnswersANextState := by
  unfold Obligations.EveryCommandAnswersANextState
  intro i s
  obtain ⟨t, runs, effect⟩ := exec_tableEffect i s
  exact ⟨t, runs, effect.pending⟩

/-! ### The arbiter (R20) -/

theorem find_three {α : Type} (p : α → Bool) (a b c : α) :
    [a, b, c].find? p = if p a then some a else if p b then some b else if p c then some c else none := by
  simp only [List.find?_cons, List.find?_nil]
  cases p a <;> cases p b <;> cases p c <;> rfl

/-- Settles O4: the rotation from each last-granted mark, and the first in it that has an operation waiting. -/
theorem arbiterRotates : Obligations.ArbiterRotates := by
  unfold Obligations.ArbiterRotates
  intro a
  refine ⟨fun last => ?_, fun last => ?_, fun last => ?_⟩ <;>
    rw [Arbiter.next, last, Requester.rotation, find_three] <;> rfl

/-! ### Grants (R19, R20) -/

/-- Every row that is an operation is the grant of that operation: to the engine it brings a table and what its completion hands
back, and nothing else. -/
theorem exec_is_grant {i : Instr} {r : Requester} (row : requesterOf i = some r) (s : State) :
    ∃ table service, (Granted s r i → exec i s = .next (s.served r table service)) ∧ (¬ Granted s r i → exec i s = .next s) := by
  cases i with
  | claim | accept | renew | release | resolve | whois | describe | enumerate | query =>
    cases row
    exact ⟨_, _, fun granted => grantRequest_of_granted granted _, fun refused => grantRequest_of_not_granted refused _⟩
  | readEntry | findIdentity | readBucket | insert | modify | retire | readAddress | reserve | unreserve | unquarantine
  | readQuarantine | readSlot | approve | deny | readClass | writeClass | readClassList | readRule | writeRule | readParameter
  | writeParameter | readAuthority | nextChange | ackAlert | readAlert | rehash | rehashStep | rehashAbortEnding | resetKeep =>
    cases row
    exact ⟨_, _, fun granted => grantHost_of_granted granted _, fun refused => grantHost_of_not_granted refused _⟩
  | offerExpiry | approvalExpiry | refusalExpiry | leaseLapse | revalidationEnd | holdEnd | quarantineEnd =>
    cases row
    exact ⟨_, _, fun granted => grantExpiry_of_granted granted _, fun refused => grantExpiry_of_not_granted refused _⟩
  | addressByte | writeEnd | requestCompletion | stretchLimitReached | busStuck | hostTransactionStart | commandFrameEnd
  | readResult | readStatus | unknownTransaction | commandCompletion | abort | resetAsserted | resetEnd | initialisationEnd
  | authorityTimeTick | coalescingTimerExpiry | stopCondition | expiryOperationCompletion | stepOperationCompletion =>
    cases row

/-- Settles O3: every such row is a grant, and a grant changes the table, the service and the arbiter. -/
theorem operationsAreGranted : Obligations.OperationsAreGranted := by
  unfold Obligations.OperationsAreGranted
  intro i r s row
  obtain ⟨table, service, grants, stays⟩ := exec_is_grant row s
  exact ⟨fun granted => ⟨table, service, grants granted⟩, stays⟩

end Sys2Proof.Proofs.EngineService

/-! PROOFS. The values after hard reset (R182), how a hard reset and initialisation begin and end (R183, R184), and that the part after
reset has every invariant. -/

namespace Sys2Proof.Proofs.ResetValues

open Sys2Proof.Machine
open Sys2Proof.Proofs.FixedAddresses (authorityOf_val)

section Table

variable (authority : Addr)

theorem vacantCount_reset : (Table.reset authority).vacantCount = 96 := by
  refine (List.countP_eq_length.2 fun i _ => ?_).trans (List.length_finRange ..)
  rw [Table.entry_reset]
  rfl

theorem freeBlocks_length_reset : (Table.reset authority).freeBlocks.length = 40 := by
  have free : (Table.reset authority).freeBlocks = List.finRange 40 :=
    List.filter_eq_self.2 fun b _ => by simp [Table.reset]
  rw [free, List.length_finRange]

theorem descriptor_reset (i : EntryIx) : (Table.reset authority).descriptor i = [] := by
  simp only [Table.descriptor, Table.entry_reset, Entry.reset, List.flatMap_nil, List.append_nil]

theorem rule_reset (r : RuleIx) : (Table.reset authority).rules.get r = none := by
  simp [Table.reset]

end Table

/-- Settles O5: the table's values at any authority address, and those of the other blocks as State.reset holds them. -/
theorem valuesAfterHardReset : Obligations.ValuesAfterHardReset := by
  unfold Obligations.ValuesAfterHardReset
  refine ⟨fun authority => ?_, rfl, rfl, rfl, ?target, ?port, rfl⟩
  case target => exact ⟨rfl, rfl, rfl, rfl, rfl, rfl, rfl, rfl, rfl, rfl⟩
  case port => exact ⟨rfl, rfl, rfl, rfl, rfl, rfl, rfl, rfl, rfl, rfl, rfl⟩
  refine ⟨fun i => ?entry, freeBlocks_length_reset authority, rfl, Table.bucket_reset authority, rfl, fun a => ?address, rfl,
    Table.slot_reset authority, Table.classRecord_reset authority, rule_reset authority, rfl, vacantCount_reset authority, rfl,
    rfl, rfl⟩
  case entry =>
    have descriptor := descriptor_reset authority i
    rw [Table.entry_reset]
    exact ⟨rfl, rfl, rfl, rfl, rfl, rfl, descriptor, rfl⟩
  case address =>
    rw [Table.addr_reset]
    exact ⟨fun fixed => if_pos fixed, fun free => if_neg free⟩

/-! ### How a hard reset begins and ends (R182 to R184) -/

theorem execResetEnd_of_inReset {s : State} (life : s.life = .inReset) (asel : BitVec 2) :
    exec (.resetEnd asel) s = .next (s.endReset asel) :=
  if_pos life

/-- With no candidate due the expiry unit's first look submits nothing. -/
theorem execInitialisationEnd_of_initialising {s : State} (life : s.life = .initialising)
    (quiet : s.seen.dueCandidate s.expiry.time = none) : exec .initialisationEnd s = .next { s with
      life := .running, target := { s.target with listening := true }, port := { s.port with ready := true } } :=
  (if_pos life).trans (congrArg _ (lookForDue_of_quiet (.inr (.inr quiet))))

/-- Settles O6: each of the three rows in the state that it needs. -/
theorem hardResetRestartsThePart : Obligations.HardResetRestartsThePart := by
  unfold Obligations.HardResetRestartsThePart
  intro s
  refine ⟨rfl, fun asel life => ⟨Config.authorityOf asel, authorityOf_val asel, ?_⟩, fun life quiet => ?_⟩
  · exact execResetEnd_of_inReset life asel
  · exact execInitialisationEnd_of_initialising life quiet

/-! ### The invariants after reset -/

/-- Settles O54: the first of the hard resets, in which nothing waits, is served or goes on. -/
theorem resetHasTheInvariants : Obligations.ResetHasTheInvariants := by
  unfold Obligations.ResetHasTheInvariants
  refine ⟨HardReset.rests_hardReset State.reset, fun _ => rfl, (lineIsRight_iff _).2 rfl, ?request, ?command, ?expiry,
    ⟨Nat.zero_le _, Nat.zero_le _⟩, ?timers, TableInRange.inRange_reset, TableInRange.bucketsFit_reset _, List.Pairwise.nil,
    (Table.exact_reset _).partitioned, Table.exact_reset _, ⟨nofun, nofun, fun going => absurd rfl going⟩, reset_records _,
    FixedAddresses.fixedAddressesStay_reset _, Nat.le_refl _, by decide⟩
  case request => constructor <;> decide
  case command => constructor <;> decide
  case expiry => constructor <;> decide
  case timers => exact ⟨fun runs => absurd rfl runs, fun runs => absurd rfl runs⟩

end Sys2Proof.Proofs.ResetValues

/-! PROOFS. Authority time (R60, R61): a millisecond, due and remaining times, the due candidate and the expiry unit's look (R36, R45,
R70, R184). -/

namespace Sys2Proof.Proofs.AuthorityTime

open Sys2Proof.Machine
open Sys2Proof.Proofs.MemberLookups (leaseSeconds_of_deadline_none leaseSeconds_of_deadline_some)

/-! ### The millisecond (R60, R70) -/

theorem exec_tick_of_alive {s : State} (alive : s.life ≠ .inReset) : exec .authorityTimeTick s =
    .next { s with target := s.target.hearsMillisecond }.countMillisecond.lookForDue :=
  if_neg alive

/-- Settles O7: the counted millisecond, and the look that ends it. -/
theorem millisecondCounts : Obligations.MillisecondCounts := by
  unfold Obligations.MillisecondCounts
  intro s alive
  refine ⟨fun quiet => ?_, fun i life clear candidate => ?_⟩
  · refine (exec_tick_of_alive alive).trans (congrArg _ (lookForDue_of_quiet ?_))
    obtain life | rest := quiet
    · exact .inl fun running => by cases life.symm.trans running
    · exact .inr rest
  · exact (exec_tick_of_alive alive).trans (congrArg _ (lookForDue_of_candidate life clear candidate))

/-! ### Due, earlier and remaining times (R45, R61) -/

section Times

variable {now deadline : Time}

theorem due_iff : due now deadline = true ↔ (now - deadline).toNat < 2 ^ 31 := decide_eq_true_iff

theorem earlier_iff : earlier now deadline = true ↔ 1 ≤ (deadline - now).toNat ∧ (deadline - now).toNat < 2 ^ 31 := by
  rw [earlier, Bool.and_eq_true, decide_eq_true_iff, decide_eq_true_iff]

theorem remaining_of_due (passed : due now deadline = true) : remaining now deadline = 0 := if_pos passed

theorem remaining_of_not_due (ahead : due now deadline = false) : remaining now deadline = (deadline - now).toNat :=
  if_neg (Bool.eq_false_iff.1 ahead)

/-- The cap keeps the seconds within two bytes. -/
theorem remainingSeconds_toNat (now deadline : Time) :
    (remainingSeconds now deadline).toNat = min 65534 ((remaining now deadline + 999) / 1000) := by
  rw [remainingSeconds, BitVec.toNat_ofNat]
  omega

theorem remainingSeconds_of_due (passed : due now deadline = true) : remainingSeconds now deadline = 0 := by
  rw [remainingSeconds, remaining_of_due passed]
  rfl

end Times

/-! ### The due candidate (R36, R47, R70) -/

section Candidates

variable {t : Table} {now : Time}

theorem dueItem_of_no_run (idle : t.run = none) : t.dueItem now = (t.deadlines.head?.filter fun x => due now x.deadline) := by
  simp only [Table.dueItem, idle]

theorem dueItem_of_run (going : t.run ≠ none) :
    t.dueItem now = t.deadlines.find? fun x => due now x.deadline && !x.kind.deferred := by
  obtain ⟨r, run⟩ := Option.ne_none_iff_exists'.1 going
  simp only [Table.dueItem, run]

theorem dueCandidate_of_items (queue : t.dueQuarantine now = none) :
    t.dueCandidate now = (t.dueItem now).map DeadlineItem.row := by
  unfold Table.dueCandidate
  rw [queue]
  cases t.dueItem now <;> rfl

theorem dueCandidate_of_queue {q : QuarantineItem} (queue : t.dueQuarantine now = some q) (items : t.dueItem now = none) :
    t.dueCandidate now = some (.quarantineEnd q.address q.endTime) := by
  simp only [Table.dueCandidate, queue, items]

/-- Of two candidates the earlier is submitted, the deadline item when neither is. -/
theorem dueCandidate_of_both {q : QuarantineItem} {x : DeadlineItem} (queue : t.dueQuarantine now = some q)
    (item : t.dueItem now = some x) : t.dueCandidate now =
      if earlier q.endTime x.deadline then some (.quarantineEnd q.address q.endTime) else some x.row := by
  simp only [Table.dueCandidate, queue, item]

end Candidates

theorem deferred_eq (kind : ItemKind) : kind.deferred = match kind with
    | .offer _ | .approval _ | .hold _ | .refusal _ => true
    | .lease _ | .revalidate _ => false := by
  cases kind <;> rfl

/-- Settles O8: the times, the candidate and the look, each by its cases. -/
theorem expiryUnitSubmitsTheEarlierCandidate : Obligations.ExpiryUnitSubmitsTheEarlierCandidate := by
  unfold Obligations.ExpiryUnitSubmitsTheEarlierCandidate
  refine ⟨fun now deadline => ⟨due_iff, fun passed => ⟨remaining_of_due passed, remainingSeconds_of_due passed⟩,
      fun ahead => ⟨remaining_of_not_due ahead, ?seconds⟩, earlier_iff⟩,
    fun t now => ⟨fun i => ⟨leaseSeconds_of_deadline_none, fun d => leaseSeconds_of_deadline_some⟩, deferred_eq,
      dueItem_of_no_run, dueItem_of_run, dueCandidate_of_items, fun q => dueCandidate_of_queue,
      fun q x queue item => ⟨fun first => ?queueFirst, fun first => ?itemFirst⟩⟩,
    fun s => ⟨lookForDue_of_quiet, fun i => lookForDue_of_candidate⟩⟩
  case seconds => rw [remainingSeconds_toNat, remaining_of_not_due ahead]
  case queueFirst => rw [dueCandidate_of_both queue item, if_pos first]
  case itemFirst => rw [dueCandidate_of_both queue item, if_neg (Bool.eq_false_iff.1 first)]

end Sys2Proof.Proofs.AuthorityTime

/-! PROOFS. The member bus target (chapter 8): bytes and edges (R135, R136, R144), the end of a write (R134, R138, R139), the address
byte (R134, R141, R142), and the timers' events (R142, R145, R178). -/

namespace Sys2Proof.Proofs.BusTarget

open Sys2Proof.Machine

/-! ### Bytes and edges (R135, R136, R141, R144, R146) -/

section Bytes

variable {t : Target} {b : BusByte}

theorem byte_of_receiving (phase : t.phase = .receiving) (room : t.receive.length < 56) :
    t.byte b = { t with receive := t.receive ++ [b.data], acks := t.acks ++ [true] } := by
  simp only [Target.byte, phase, if_pos room]

theorem byte_of_full (phase : t.phase = .receiving) (full : 56 ≤ t.receive.length) :
    t.byte b = { t with overflow := true, acks := t.acks ++ [false] } := by
  simp only [Target.byte, phase, if_neg full.not_gt]

theorem byte_of_sending {content : List Byte} (phase : t.phase = .sending) (held : t.content = some content)
    (shifting : t.released = false) : t.byte b =
      { t with shifted := t.shifted ++ [content.getD t.shifted.length 0xFF], released := !b.ack } := by
  simp only [Target.byte, phase, held, shifting, Bool.false_eq_true, if_false, contentAt, Option.getD_some]

theorem byte_of_released (phase : t.phase = .sending) (released : t.released = true) : t.byte b = t := by
  simp only [Target.byte, phase, if_pos released]

theorem byte_of_discarding (phase : t.phase = .discarding) : t.byte b = { t with acks := t.acks ++ [false] } := by
  simp only [Target.byte, phase]

theorem byte_of_apart (phase : t.phase = .unaddressed ∨ t.phase = .stretching) : t.byte b = t := by
  obtain phase | phase := phase <;> simp only [Target.byte, phase]

theorem fall_of_watched (phase : t.phase = .receiving ∨ t.phase = .sending ∨ t.phase = .discarding) :
    t.hear .sclFalls = { t with stuck := .running 32 } := by
  have watched : t.phase.watched = true := by
    obtain phase | phase | phase := phase <;> rw [phase] <;> rfl
  simp only [Target.hear, Target.watch, watched, Bool.and_self, if_true]

theorem fall_of_unwatched (phase : t.phase = .unaddressed ∨ t.phase = .stretching) :
    t.hear .sclFalls = { t with stuck := .idle } := by
  have unwatched : t.phase.watched = false := by
    obtain phase | phase := phase <;> rw [phase] <;> rfl
  simp only [Target.hear, Target.watch, unwatched, Bool.and_false, Bool.false_eq_true, if_false]

end Bytes

/-! ### The end of a transaction (R134, R138, R139) -/

section Writes

variable {s : State}

theorem endTransaction_of_error {reason : BadReason} (phase : s.target.phase = .receiving) (bytes : s.target.receive ≠ [])
    (refused : evaluateRequest s.target.receive s.target.overflow = .error reason) : s.endTransaction [] =
      { s with target := { s.target.leave with answer := (Answer.badRequest reason).bytes, answerState := .ready } } := by
  have heard : (s.hears []).target = s.target := rfl
  simp only [State.endTransaction, State.evaluateWrite, heard, if_pos phase, if_neg bytes, refused]
  rfl

theorem endTransaction_of_ok {i : Instr} (phase : s.target.phase = .receiving) (bytes : s.target.receive ≠ [])
    (good : evaluateRequest s.target.receive s.target.overflow = .ok i) : s.endTransaction [] = { s with
      target := { s.target.leave with answer := [], answerState := .pending, inFlight := true }
      arbiter := { s.arbiter with bus := some i } } := by
  have heard : (s.hears []).target = s.target := rfl
  simp only [State.endTransaction, State.evaluateWrite, heard, if_pos phase, if_neg bytes, good]
  rfl

end Writes

/-- Settles O11: the bytes held when the write ends decide; WRITE_END and STOP_CONDITION end it alike. -/
theorem writesEnd : Obligations.WritesEnd := by
  unfold Obligations.WritesEnd
  intro s
  refine ⟨rfl, fun noWrite => ?_, fun phase bytes => ⟨fun reason refused => ?_, fun i good => ?_⟩⟩
  · have ends := endTransaction_of_no_write s noWrite
    exact ⟨congrArg _ ends, congrArg _ ends⟩
  · have ends := endTransaction_of_error phase bytes refused
    exact ⟨congrArg _ ends, congrArg _ ends⟩
  · have ends := endTransaction_of_ok phase bytes good
    exact ⟨congrArg _ ends, congrArg _ ends⟩

/-! ### The address byte (R134, R141, R142) -/

section Address

variable {s : State} {a : Addr} {read : Bool} {later : List (List BusActivity)}

theorem exec_addressByte_of_alive (alive : s.life ≠ .inReset) (before after : List BusActivity) :
    exec (.addressByte before a read after later) s = .next ((s.endTransaction before).addressed a read after later) :=
  if_neg alive

/-- The activity behind an address byte follows the address byte's own row. -/
theorem addressed_after (s : State) (after : List BusActivity) : s.addressed a read after later =
    { s.addressed a read [] later with target := (s.addressed a read [] later).target.hears after } :=
  congrArg (fun target => { s with target }) (hears_coming _ after later).symm

end Address

/-- Settles O10: the byte in each phase, the edges of SCL, and the activity of a row before and behind its own event. -/
theorem bytesOnTheBus : Obligations.BytesOnTheBus := by
  unfold Obligations.BytesOnTheBus
  refine ⟨fun t b => ⟨byte_of_receiving, byte_of_full, fun content => byte_of_sending, byte_of_released, byte_of_discarding,
      byte_of_apart⟩,
    fun t => ⟨fall_of_watched, fall_of_unwatched, rfl, fun _ => rfl, fun _ => rfl⟩,
    fun s before after a read later => ⟨rfl, rfl, ?_⟩⟩
  by_cases alive : s.life = .inReset
  · exact ⟨_, if_pos alive, fun other => absurd alive other⟩
  · refine ⟨_, exec_addressByte_of_alive (s := { s with target := s.target.hears before }) alive [] [], fun _ => ?_⟩
    rw [exec_addressByte_of_alive alive, addressed_after]
    rfl

section Address

variable {t : Target} {authority : Addr} {limit : Half} {a : Addr}

theorem readContent_of_empty (empty : t.answerState = .empty) : t.readContent = Answer.noAnswer.bytes := by
  rw [Target.readContent, empty]

theorem readContent_of_ready (ready : t.answerState = .ready) : t.readContent = t.answer := by
  rw [Target.readContent, ready]

theorem readContent_of_pending (pending : t.answerState = .pending) : t.readContent = Answer.busy.bytes := by
  rw [Target.readContent, pending]

/-- Another address, or before initialisation ends: NACK, and nothing else. -/
theorem address_of_other (read : Bool) (other : a ≠ authority ∨ t.listening = false) :
    (t.leave.address authority limit a read).watch true =
      { t.leave with shifted := [], released := false, acks := [false] } := by
  have deaf : a ≠ authority ∨ t.leave.listening = false := other
  simp only [Target.address, if_pos deaf]
  rfl

variable (own : ¬ (a ≠ authority ∨ t.leave.listening = false))

include own

theorem address_write_of_pending (pending : t.answerState = .pending) :
    (t.leave.address authority limit a false).watch true =
      { t.leave with shifted := [], released := false, acks := [false] } := by
  have waits : t.leave.answerState = .pending := pending
  simp only [Target.address, if_neg own, Bool.false_eq_true, if_false, if_pos waits]
  rfl

theorem address_write (answered : t.answerState ≠ .pending) :
    (t.leave.address authority limit a false).watch true = { t.leave with
      shifted := [], released := false, acks := [true], phase := .receiving, stuck := .running 32 } := by
  have free : ¬ t.leave.answerState = .pending := answered
  simp only [Target.address, if_neg own, Bool.false_eq_true, if_false, if_neg free]
  rfl

/-- A read that need not stretch sends what the answer state gives it. -/
theorem address_read (sends : ¬ (t.answerState = .pending ∧ limit ≠ 0)) :
    (t.leave.address authority limit a true).watch true = { t.leave with
      shifted := [], released := false, acks := [true], phase := .sending, content := some t.readContent
      stuck := .running 32 } := by
  have now : ¬ (t.leave.answerState = .pending ∧ limit ≠ 0) := sends
  simp only [Target.address, if_neg own, if_true, if_neg now]
  rfl

theorem address_read_of_pending (pending : t.answerState = .pending) (limited : limit ≠ 0) :
    (t.leave.address authority limit a true).watch true = { t.leave with
      shifted := [], released := false, acks := [true], phase := .stretching, stretch := .running limit.toNat } := by
  have waits : t.leave.answerState = .pending ∧ limit ≠ 0 := ⟨pending, limited⟩
  simp only [Target.address, if_neg own, if_true, if_pos waits]
  rfl

end Address

/-- The row of an address byte alone, once the transaction before it has ended. -/
theorem exec_addressByte_alone {s : State} (alive : s.life ≠ .inReset) {settled target : Target}
    (leaves : (s.endTransaction []).target = settled.leave) {a : Addr} {read : Bool}
    (answers : (settled.leave.address s.authorityAddress s.seen.params.stretchLimit a read).watch true = target)
    (later : List (List BusActivity)) : exec (.addressByte [] a read [] later) s =
      .next { s.endTransaction [] with target := { target with coming := later } } := by
  obtain ⟨_, authority, seen, _⟩ := rest_endTransaction s []
  rw [← leaves, ← authority, ← seen] at answers
  rw [exec_addressByte_of_alive alive, ← answers]
  rfl

/-- Settles O9: the transaction open before ends, and the target out of it answers by the address, the direction and the answer
state. -/
theorem addressByteIsAnswered : Obligations.AddressByteIsAnswered := by
  unfold Obligations.AddressByteIsAnswered
  intro s a later alive
  obtain ⟨settled, leaves⟩ := target_endTransaction s []
  obtain ⟨_, _, _, listens⟩ := rest_endTransaction s []
  have deaf : settled.listening = s.target.listening := (congrArg Target.listening leaves).symm.trans listens
  refine ⟨s.endTransaction [], rfl, fun out => ?out, fun read other => ?other, fun own listening => ?own⟩
  case out => exact endTransaction_of_no_write s (.inl (out ▸ nofun))
  case other =>
    rw [leaves]
    exact exec_addressByte_alone alive leaves (address_of_other read (other.imp_right deaf.trans)) later
  case own =>
    have mine : ¬ (a ≠ s.authorityAddress ∨ settled.leave.listening = false) := by
      rintro (other | off)
      · exact other own
      · cases (deaf.trans listening).symm.trans off
    rw [leaves]
    refine ⟨fun pending => ?_, fun answered => ?_, fun empty => ?_, fun ready => ?_, fun pending unlimited => ?_,
      fun pending limited => ?_⟩
    · exact exec_addressByte_alone alive leaves (address_write_of_pending mine pending) later
    · exact exec_addressByte_alone alive leaves (address_write mine answered) later
    · have sends := address_read (limit := s.seen.params.stretchLimit) mine fun wait => by cases empty.symm.trans wait.1
      rw [readContent_of_empty (t := settled) empty] at sends
      exact exec_addressByte_alone alive leaves sends later
    · have sends := address_read (limit := s.seen.params.stretchLimit) mine fun wait => by cases ready.symm.trans wait.1
      rw [readContent_of_ready (t := settled) ready] at sends
      exact exec_addressByte_alone alive leaves sends later
    · have sends := address_read mine fun wait => wait.2 unlimited
      rw [readContent_of_pending (t := settled) pending] at sends
      exact exec_addressByte_alone alive leaves sends later
    · exact exec_addressByte_alone alive leaves (address_read_of_pending mine pending limited) later

/-! ### The timers' events (R142, R143, R145, R178) -/

section Timers

variable {s : State}

theorem exec_stretchLimit (phase : s.target.phase = .stretching) (ended : s.target.stretch = .running 0) :
    exec .stretchLimitReached s = .next { s with target := s.target.release Answer.busy.bytes } :=
  if_pos ⟨phase, ended⟩

theorem exec_busStuck (watched : s.target.phase.watched = true) (ended : s.target.stuck = .running 0) :
    exec .busStuck s = .next { s with target := s.target.abandon, alert := s.alert.busFault s.seen } :=
  if_pos ⟨watched, ended⟩

theorem abandon_of_write {t : Target} (phase : t.phase = .receiving) (bytes : t.receive ≠ []) : t.abandon =
    { t.leave with answer := (Answer.badRequest .incomplete).bytes, answerState := .ready } := by
  simp only [Target.abandon, if_pos (And.intro phase bytes)]
  rfl

theorem abandon_of_no_write {t : Target} (noWrite : ¬ (t.phase = .receiving ∧ t.receive ≠ [])) : t.abandon = t.leave := by
  simp only [Target.abandon, if_neg noWrite]

theorem exec_coalescingTimerExpiry (ended : s.alert.timer = .running 0) : exec .coalescingTimerExpiry s =
    .next { s with alert := { s.alert with timer := .expired }.look s.seen } :=
  if_pos ended

end Timers

/-- Settles O15: each timer's row once no millisecond is left to it. -/
theorem timersRunOut : Obligations.TimersRunOut := by
  unfold Obligations.TimersRunOut
  intro s
  refine ⟨exec_stretchLimit, fun ended => ⟨fun phase => ?_, fun phase bytes => ?_⟩, exec_coalescingTimerExpiry⟩
  · have watched : s.target.phase.watched = true := by
      obtain phase | phase | ⟨phase, _⟩ := phase <;> rw [phase] <;> rfl
    have noWrite : ¬ (s.target.phase = .receiving ∧ s.target.receive ≠ []) := by
      rintro ⟨receiving, bytes⟩
      obtain phase | phase | ⟨_, empty⟩ := phase
      · cases phase.symm.trans receiving
      · cases phase.symm.trans receiving
      · exact bytes empty
    rw [exec_busStuck watched ended, abandon_of_no_write noWrite]
    rfl
  · rw [exec_busStuck (by rw [phase]; rfl) ended, abandon_of_write phase bytes]
    rfl

end Sys2Proof.Proofs.BusTarget

/-! PROOFS. Request messages (R137, R138, R190): the check byte bit by bit, what a kind and a payload spell, the intake checks in their
order, and every well-formed request read back from its message. -/

namespace Sys2Proof.Proofs.RequestMessages

open Sys2Proof.Machine

/-! ### The check byte (R190) -/

theorem byteBits_eq (b : Byte) : byteBits b = (List.range 8).map fun k => b.getLsbD (7 - k) := rfl

/-- One bit of the check byte's CRC, with the register's top bit named by its number. -/
theorem crcBit_byte (polynomial register : Byte) (bit : Bool) : crcBit polynomial register bit =
    if xor bit (register.getLsbD 7) then (register <<< 1) ^^^ polynomial else register <<< 1 := by
  rw [crcBit, BitVec.msb_eq_getLsbD_last]

theorem crc8_eq_foldl (bytes : List Byte) :
    crc8 bytes = (bytes.flatMap fun b => (List.range 8).map fun k => b.getLsbD (7 - k)).foldl
      (fun (register : Byte) bit => if xor bit (register.getLsbD 7) then (register <<< 1) ^^^ 0x31 else register <<< 1) 0xFF := by
  have bits : (crcBit 0x31 : Byte → Bool → Byte) = fun (register : Byte) (bit : Bool) =>
      if xor bit (register.getLsbD 7) then (register <<< 1) ^^^ 0x31 else register <<< 1 :=
    funext fun register => funext fun bit => crcBit_byte 0x31 register bit
  rw [← bits]
  rfl

/-! ### What a kind and a payload spell (R137) -/

/-- A CLAIM's payload: the identity, class, preference and descriptor length, and as many descriptor bytes, at most 40. -/
def ClaimLength (kind : Byte) (payload : List Byte) : Prop :=
  kind = 0x10 ∧ 9 ≤ payload.length ∧ payload.length ≤ 49 ∧ (payload.getD 8 0).toNat = payload.length - 9

/-- The payload lengths of the other kinds (13.2). -/
def fixedLengths : List (Nat × Nat) :=
  [(0x11, 8), (0x12, 7), (0x13, 7), (0x14, 6), (0x15, 1), (0x16, 2), (0x17, 3), (0x18, 0)]

theorem length_of_requestOf {kind : Byte} {payload : List Byte} {i : Instr} (spelled : requestOf kind payload = some i) :
    ClaimLength kind payload ∨ (kind.toNat, payload.length) ∈ fixedLengths := by
  unfold requestOf at spelled
  obtain ⟨rfl, claim⟩ | ⟨_, spelled⟩ := ite_eq_iff.1 spelled
  · split at claim
    · next _ _ _ _ _ _ _ _ n descriptor =>
      obtain ⟨⟨same, fits⟩, _⟩ := Option.ite_none_right_eq_some.1 claim
      refine .inl ⟨rfl, ?_, ?_, ?_⟩ <;> simp only [List.length_cons, List.getD_cons_succ, List.getD_cons_zero] <;> omega
    · cases claim
  · right
    iterate 8
      obtain ⟨rfl, fixed⟩ | ⟨_, spelled⟩ := ite_eq_iff.1 spelled
      · split at fixed
        · simp [fixedLengths]
        · cases fixed
    cases spelled

theorem eq_byteOf {b : Byte} {n : Nat} (number : b.toNat = n) : b = byteOf n := by
  rw [← number, byteOf, BitVec.ofNat_toNat, BitVec.setWidth_eq]

theorem requestOf_of_claimLength {kind : Byte} {payload : List Byte} (fits : ClaimLength kind payload) :
    ∃ i, requestOf kind payload = some i := by
  obtain ⟨rfl, least, most, same⟩ := fits
  match payload, least with
  | i0 :: i1 :: i2 :: i3 :: i4 :: i5 :: cls :: preferred :: n :: descriptor, _ =>
    simp only [List.length_cons, List.getD_cons_succ, List.getD_cons_zero] at most same
    have agrees : n.toNat = descriptor.length ∧ n.toNat ≤ 40 := ⟨by omega, by omega⟩
    exact ⟨_, (if_pos rfl).trans (if_pos agrees)⟩

theorem requestOf_of_fixedLength {kind : Byte} {payload : List Byte} (fits : (kind.toNat, payload.length) ∈ fixedLengths) :
    ∃ i, requestOf kind payload = some i := by
  simp only [fixedLengths, List.mem_cons, List.not_mem_nil, or_false, Prod.mk.injEq] at fits
  obtain ⟨number, length⟩ | ⟨number, length⟩ | ⟨number, length⟩ | ⟨number, length⟩ | ⟨number, length⟩ | ⟨number, length⟩ |
    ⟨number, length⟩ | ⟨number, length⟩ := fits <;> rw [eq_byteOf number]
  · match payload, length with
    | [_, _, _, _, _, _, _, _], _ => exact ⟨_, rfl⟩
  · match payload, length with
    | [_, _, _, _, _, _, _], _ => exact ⟨_, rfl⟩
  · match payload, length with
    | [_, _, _, _, _, _, _], _ => exact ⟨_, rfl⟩
  · match payload, length with
    | [_, _, _, _, _, _], _ => exact ⟨_, rfl⟩
  · match payload, length with
    | [_], _ => exact ⟨_, rfl⟩
  · match payload, length with
    | [_, _], _ => exact ⟨_, rfl⟩
  · match payload, length with
    | [_, _, _], _ => exact ⟨_, rfl⟩
  · match payload, length with
    | [], _ => exact ⟨_, rfl⟩

/-! ### The intake checks in order (R138) -/

theorem names_of_range {kind : Byte} (low : 0x10 ≤ kind.toNat) (high : kind.toNat ≤ 0x18) : ¬ namesRequest kind = false := by
  rw [Bool.not_eq_false, namesRequest, Bool.and_eq_true, decide_eq_true_iff, decide_eq_true_iff]
  exact ⟨low, high⟩

section Checks

variable {bytes rest : List Byte} {kind length : Byte}

theorem evaluate_overflow (bytes : List Byte) : evaluateRequest bytes true = .error .length := if_pos rfl

theorem evaluate_of_short (short : bytes.length < 3) : evaluateRequest bytes false = .error .incomplete := by
  match bytes, short with
  | [], _ => rfl
  | [_], _ => rfl
  | [_, _], _ => rfl

theorem evaluate_of_lt (payload : rest ≠ []) (short : (kind :: length :: rest).length < length.toNat + 3) :
    evaluateRequest (kind :: length :: rest) false = .error .incomplete := by
  simp only [evaluateRequest, Bool.false_eq_true, if_false, if_neg payload, if_pos short]

theorem evaluate_of_gt (payload : rest ≠ []) (long : length.toNat + 3 < (kind :: length :: rest).length) :
    evaluateRequest (kind :: length :: rest) false = .error .length := by
  simp only [evaluateRequest, Bool.false_eq_true, if_false, if_neg payload, if_neg long.not_gt, if_pos long]

variable (payload : rest ≠ []) (whole : (kind :: length :: rest).length = length.toNat + 3)

include payload whole

theorem evaluate_of_check (wrong : (kind :: length :: rest).getLastD 0 ≠ crc8 (kind :: length :: rest).dropLast) :
    evaluateRequest (kind :: length :: rest) false = .error .check := by
  simp only [evaluateRequest, Bool.false_eq_true, if_false, if_neg payload, if_neg whole.not_lt, if_neg whole.not_gt,
    if_pos wrong]

variable (right : (kind :: length :: rest).getLastD 0 = crc8 (kind :: length :: rest).dropLast)

include right

theorem evaluate_of_kind (unknown : kind.toNat < 0x10 ∨ 0x18 < kind.toNat) :
    evaluateRequest (kind :: length :: rest) false = .error .kind := by
  have names : namesRequest kind = false := by
    rw [namesRequest, Bool.and_eq_false_iff, decide_eq_false_iff_not, decide_eq_false_iff_not]
    exact unknown.imp Nat.not_le_of_lt Nat.not_le_of_lt
  simp only [evaluateRequest, Bool.false_eq_true, if_false, if_neg payload, if_neg whole.not_lt, if_neg whole.not_gt,
    if_neg (not_not_intro right), if_pos names]

/-- Past the checks on the frame of a message, what its kind and its payload spell decides. -/
theorem evaluate_of_spelled {i : Instr} (low : 0x10 ≤ kind.toNat) (high : kind.toNat ≤ 0x18)
    (spelled : requestOf kind rest.dropLast = some i) : evaluateRequest (kind :: length :: rest) false = .ok i := by
  simp only [evaluateRequest, Bool.false_eq_true, if_false, if_neg payload, if_neg whole.not_lt, if_neg whole.not_gt,
    if_neg (not_not_intro right), if_neg (names_of_range low high), spelled]

theorem evaluate_of_unspelled (low : 0x10 ≤ kind.toNat) (high : kind.toNat ≤ 0x18)
    (unspelled : requestOf kind rest.dropLast = none) : evaluateRequest (kind :: length :: rest) false = .error .length := by
  simp only [evaluateRequest, Bool.false_eq_true, if_false, if_neg payload, if_neg whole.not_lt, if_neg whole.not_gt,
    if_neg (not_not_intro right), if_neg (names_of_range low high), unspelled]

end Checks

/-- Settles O12: R138's checks are the branches of the intake in their order; past them the lengths that spell a request are exactly
the allowed ones. -/
theorem requestChecksInOrder : Obligations.RequestChecksInOrder := by
  unfold Obligations.RequestChecksInOrder
  refine ⟨crc8_eq_foldl, fun bytes _ => ⟨evaluate_overflow bytes, evaluate_of_short, ?_⟩⟩
  rintro kind length rest rfl payload
  refine ⟨evaluate_of_lt payload, evaluate_of_gt payload, fun whole => ⟨evaluate_of_check payload whole, fun right =>
    ⟨evaluate_of_kind payload whole right, fun low high => ?_⟩⟩⟩
  have size : rest.dropLast.length = length.toNat := by
    simp only [List.length_cons] at whole
    rw [List.length_dropLast]
    omega
  simp only [← size]
  constructor
  · intro wrong
    refine evaluate_of_unspelled payload whole right low high (Option.eq_none_iff_forall_ne_some.2 fun i spelled => ?_)
    rcases length_of_requestOf spelled with ⟨claim, least, most, same⟩ | fixed
    · exact wrong.elim (fun not => not (.inl ⟨claim, least, most⟩)) fun differs => differs.2 same
    · refine wrong.elim (fun not => not (.inr fixed)) fun differs => ?_
      rw [differs.1] at fixed
      simp [fixedLengths] at fixed
  · intro allowed agrees
    obtain ⟨i, spelled⟩ : ∃ i, requestOf kind rest.dropLast = some i := by
      rcases allowed with ⟨claim, least, most⟩ | fixed
      · exact requestOf_of_claimLength ⟨claim, least, most, not_not.1 fun differs => agrees ⟨claim, differs⟩⟩
      · exact requestOf_of_fixedLength fixed
    exact ⟨i, evaluate_of_spelled payload whole right low high spelled⟩

/-! ### Every request read back -/

/-- Settles O13: a message with the right length and check byte passes the frame checks, and each kind's payload spells its request. -/
theorem requestMessagesAreReadBack : Obligations.RequestMessagesAreReadBack := by
  unfold Obligations.RequestMessagesAreReadBack
  intro i kind payload body good
  cases i with
  | claim identity cls preferred d =>
    cases body
    have short : d.length ≤ 40 := of_decide_eq_true good
    exact message_passes _ _ (by simp [identityBytes_length]; omega) rfl _ (requestOf_claim identity cls preferred d short)
  | accept identity address token =>
    cases body
    exact message_passes _ _ (by simp [identityBytes_length]) rfl _ (requestOf_accept identity address token)
  | renew identity address =>
    cases body
    exact message_passes _ _ (by simp [identityBytes_length]) rfl _ (requestOf_renew identity address)
  | release identity address =>
    cases body
    exact message_passes _ _ (by simp [identityBytes_length]) rfl _ (requestOf_release identity address)
  | resolve identity =>
    cases body
    exact message_passes _ _ (by simp [identityBytes_length]) rfl _ (requestOf_resolve identity)
  | whois address => cases body; exact message_passes _ _ (by simp) rfl _ rfl
  | describe address offset => cases body; exact message_passes _ _ (by simp) rfl _ rfl
  | enumerate cls position generation => cases body; exact message_passes _ _ (by simp) rfl _ rfl
  | query => cases body; exact message_passes _ _ (by simp) rfl _ rfl
  | _ => cases body

end Sys2Proof.Proofs.RequestMessages

/-! PROOFS. Completions (R140, R142, R156): the byte order and the codes of answers and results (R190, chapter 13), and what the
completion of a request, of an expiry operation and of a command leaves. -/

namespace Sys2Proof.Proofs.Completions

open Sys2Proof.Machine

/-! ### Byte order (R190) -/

/-- A byte of a field by its place, counted from the least significant. -/
theorem byteOf_div {w : Nat} (v : BitVec w) (place : Nat) : byteOf (v.toNat / 256 ^ place) = v.extractLsb' (8 * place) 8 := by
  rw [BitVec.extractLsb', Nat.shiftRight_eq_div_pow, Nat.pow_mul]
  rfl

theorem halfBytes_eq (h : Half) : halfBytes h = [byteOf (h.toNat / 256), byteOf (h.toNat % 256)] := by
  have low : byteOf (h.toNat / 256 ^ 0) = byteOf (h.toNat % 256) := by
    rw [pow_zero, Nat.div_one]
    exact BitVec.eq_of_toNat_eq (by simp [byteOf])
  exact congrArg (fun b => [byteOf (h.toNat / 256), b]) low

theorem timeBytes_eq (t : Time) :
    timeBytes t = [t.extractLsb' 24 8, t.extractLsb' 16 8, t.extractLsb' 8 8, t.extractLsb' 0 8] := by
  rw [← byteOf_div t 3, ← byteOf_div t 2, ← byteOf_div t 1, ← byteOf_div t 0]
  rfl

theorem identityBytes_eq (i : Identity) : identityBytes i = [i.extractLsb' 40 8, i.extractLsb' 32 8, i.extractLsb' 24 8,
    i.extractLsb' 16 8, i.extractLsb' 8 8, i.extractLsb' 0 8] := by
  rw [← byteOf_div i 5, ← byteOf_div i 4, ← byteOf_div i 3, ← byteOf_div i 2, ← byteOf_div i 1, ← byteOf_div i 0]
  rfl

theorem addrByte_toNat (a : Addr) : (addrByte a).toNat = a.val := byteOf_toNat (a.isLt.trans (by decide))

/-- A number is the four bytes of its value as a time: what lies above 32 bits does not show. -/
theorem beBytes_four (n : Nat) : beBytes 4 n = timeBytes (BitVec.ofNat 32 n) := by
  have digit (place : Nat) (inside : 8 * place + 8 ≤ 32) :
      byteOf (n / 256 ^ place) = byteOf ((BitVec.ofNat 32 n).toNat / 256 ^ place) := by
    rw [byteOf_div]
    refine BitVec.eq_of_getLsbD_eq fun bit small => ?_
    rw [BitVec.getLsbD_extractLsb', BitVec.getLsbD_ofNat, byteOf, BitVec.getLsbD_ofNat, show 256 = 2 ^ 8 from rfl, ← pow_mul,
      Nat.testBit_div_two_pow, Nat.add_comm bit]
    simp only [small, decide_true, Bool.true_and, show 8 * place + bit < 32 by omega]
  have digits : [byteOf (n / 256 ^ 3), byteOf (n / 256 ^ 2), byteOf (n / 256 ^ 1), byteOf (n / 256 ^ 0)] =
      timeBytes (BitVec.ofNat 32 n) := by
    rw [digit 3 (by omega), digit 2 (by omega), digit 1 (by omega), digit 0 (by omega)]
    rfl
  exact digits

theorem answerFlags_toNat (revived truncated : Bool) :
    (answerFlags revived truncated).toNat = revived.toNat + 2 * truncated.toNat := by
  cases revived <;> cases truncated <;> rfl

/-! ### Requests and expiry operations (R70, R140, R142) -/

section Completion

variable {s : State}

theorem exec_requestCompletion {a : Answer} (served : s.service = some (.request a)) : exec .requestCompletion s =
    .next { s.endService false with target := s.target.deliver a.bytes }.lookForDue := by
  simp only [exec, execRequestCompletion, served]
  rfl

theorem deliver_of_other {t : Target} (phase : t.phase ≠ .stretching) (bytes : List Byte) :
    t.deliver bytes = { t with answer := bytes, answerState := .ready, inFlight := false } := if_neg phase

theorem deliver_of_stretching {t : Target} (phase : t.phase = .stretching) (bytes : List Byte) :
    t.deliver bytes = { t with
      answer := bytes, answerState := .ready, inFlight := false, phase := .sending, content := some bytes, stretch := .idle
      stuck := .running 32 } := if_pos phase

theorem exec_expiryOperationCompletion (served : s.service = some .expiry) : exec .expiryOperationCompletion s =
    .next { s.endService false with expiry := { s.expiry with outstanding := false } }.lookForDue := by
  simp only [exec, execExpiryOperationCompletion, served]
  rfl

end Completion

/-- Settles O14: the codes are the definitions'; a completion is the end of service, then what its requester takes. -/
theorem operationsComplete : Obligations.OperationsComplete := by
  unfold Obligations.OperationsComplete
  refine ⟨fun _ => rfl, fun n => byteOf_toNat, addrByte_toNat, halfBytes_eq, identityBytes_eq, answerFlags_toNat, ?codes,
    ⟨rfl, fun _ _ => rfl, fun _ _ => rfl, rfl⟩, fun s => ⟨fun a served => ⟨fun phase => ?other, fun phase => ?stretching⟩, ?expiry⟩⟩
  case codes =>
    intros
    exact ⟨rfl, rfl, rfl, rfl, rfl, rfl, rfl, rfl, rfl, rfl, rfl, rfl, rfl, rfl, rfl, rfl, rfl, rfl, rfl, rfl, rfl, rfl, rfl,
      rfl, rfl, rfl, rfl, rfl⟩
  case other =>
    rw [exec_requestCompletion served, deliver_of_other phase]
    rfl
  case stretching =>
    rw [exec_requestCompletion served, deliver_of_stretching phase]
    rfl
  case expiry => exact exec_expiryOperationCompletion

/-! ### Commands (R146, R156) -/

section Completion

variable {s : State}

theorem exec_commandCompletion {r : Result} (served : s.service = some (.command r)) :
    exec .commandCompletion s = .next (s.completeCommand r).lookForDue := by
  simp only [exec, execCommandCompletion, served]

theorem exec_retentionCompletion {r : Result} (served : s.service = some (.retention r)) :
    exec .commandCompletion s = .next ((s.completeCommand r).retainTarget).lookForDue := by
  simp only [exec, execCommandCompletion, served]

end Completion

section Retention

variable {t : Target}

theorem retain_of_receiving (phase : t.phase = .receiving) : t.retain = { t with
    answer := [], answerState := .empty, inFlight := false, phase := .discarding, receive := [], overflow := false } := by
  simp only [Target.retain, Target.retainPhase, phase]

theorem retain_of_stretching (phase : t.phase = .stretching) : t.retain = { t with
    answer := [], answerState := .empty, inFlight := false, phase := .sending, content := some Answer.noAnswer.bytes
    stretch := .idle, stuck := .running 32 } := by
  simp only [Target.retain, Target.retainPhase, phase]
  rfl

theorem retain_of_other (notReceiving : t.phase ≠ .receiving) (notStretching : t.phase ≠ .stretching) :
    t.retain = { t with answer := [], answerState := .empty, inFlight := false } := by
  unfold Target.retain Target.retainPhase
  split
  · next phase => exact absurd phase notReceiving
  · next phase => exact absurd phase notStretching
  all_goals rfl

end Retention

/-- Settles O20: a command's completion is the end of its service with its result placed; a retention reset's sends the target
along. -/
theorem commandCompletes : Obligations.CommandCompletes := by
  unfold Obligations.CommandCompletes
  refine ⟨fun _ _ => rfl, ?codes, ⟨rfl, timeBytes_eq, beBytes_four, rfl, rfl, fun _ => rfl, fun _ => rfl, rfl, rfl⟩,
    fun s r => ⟨exec_commandCompletion, fun served => ⟨fun phase => ?receiving, fun phase => ?stretching,
      fun notReceiving notStretching => ?other⟩⟩⟩
  case codes =>
    intros
    exact ⟨rfl, rfl, rfl, rfl, rfl, rfl, rfl, rfl, rfl, rfl, rfl, rfl, rfl, rfl, rfl⟩
  case receiving =>
    rw [exec_retentionCompletion served, State.retainTarget, retain_of_receiving (t := (s.completeCommand r).target) phase]
    rfl
  case stretching =>
    rw [exec_retentionCompletion served, State.retainTarget, retain_of_stretching (t := (s.completeCommand r).target) phase]
    rfl
  case other =>
    rw [exec_retentionCompletion served, State.retainTarget,
      retain_of_other (t := (s.completeCommand r).target) notReceiving notStretching]
    rfl

end Sys2Proof.Proofs.Completions

/-! PROOFS. The host command port (chapter 9): the start of a transaction (R150 to R152, R158), its bytes and its end (R151, R153 to
R159), the frame checks (R153), and every well-formed command read back from its frame. -/

namespace Sys2Proof.Proofs.HostPort

open Sys2Proof.Machine
open Sys2Proof.Proofs.FixedAddresses (authorityOf_val)
open Sys2Proof.Proofs.RequestMessages (eq_byteOf)

/-! ### The start of a transaction (R150, R152, R158) -/

section Start

variable {s : State}

theorem exec_transactionStart (alive : s.life ≠ .inReset) (received : List Byte) :
    exec (.hostTransactionStart received) s = .next (received.foldl State.hostByte s.selectPort) := if_neg alive

theorem firstByte_of_command : s.firstByte 0xC1 =
    { s with port := { s.port with kind := .command, sdo := s.port.sdo ++ [s.port.status] } } := rfl

theorem firstByte_of_readStatus : s.firstByte 0xC3 = { s with port := { s.port with
    kind := .readStatus, sdo := s.port.sdo ++ [s.port.status], status := s.statusByte } } := rfl

/-- READ RESULT without a result to read: the NONE frame. -/
theorem firstByte_of_noResult (without : s.port.command.isExecuting = true ∨ s.port.result = none) :
    s.firstByte 0xC2 = { s with port := { s.port with
      kind := .readResult, sdo := s.port.sdo ++ [s.port.status], content := Result.none.bytes s.port.sequence
      contentHeld := false } } := by
  have content : s.port.readContent = Result.none.bytes s.port.sequence := by
    rw [Port.readContent]
    obtain executing | empty := without
    · rw [if_pos executing]
    · rw [empty, Option.getD_none, ite_self]
  have held : s.port.holdsResult = false := by
    rw [Port.holdsResult]
    obtain executing | empty := without
    · rw [executing, Bool.not_true, Bool.false_and]
    · rw [empty, Option.isSome_none, Bool.and_false]
  rw [← content, ← held]
  rfl

theorem firstByte_of_result {frame : List Byte} (idle : s.port.command = .idle) (result : s.port.result = some frame) :
    s.firstByte 0xC2 = { s with port := { s.port with
      kind := .readResult, sdo := s.port.sdo ++ [s.port.status], content := frame, contentHeld := true } } := by
  have content : s.port.readContent = frame := by rw [Port.readContent, idle, result]; rfl
  have held : s.port.holdsResult = true := by rw [Port.holdsResult, idle, result]; rfl
  rw [← held]
  conv_rhs => rw [← content]
  rfl

theorem firstByte_of_unknown {b : Byte} (notCommand : b ≠ 0xC1) (notResult : b ≠ 0xC2) (notStatus : b ≠ 0xC3) :
    s.firstByte b = { s with port := { s.port with kind := .unknown, sdo := s.port.sdo ++ [s.port.status] } } := by
  have kind : kindOf b = .unknown := by rw [kindOf, if_neg notCommand, if_neg notResult, if_neg notStatus]
  simp only [State.firstByte, kind]

end Start

/-- Settles O16: the fall of CS# captures the status, and the first byte opens one of the four kinds. -/
theorem transactionStarts : Obligations.TransactionStarts := by
  unfold Obligations.TransactionStarts
  intro s alive
  refine ⟨exec_transactionStart alive [], exec_transactionStart alive [0xC1], fun without => ?_, fun frame idle result => ?_,
    exec_transactionStart alive [0xC3], fun b notCommand notResult notStatus => ?_, ?bits⟩
  · exact (exec_transactionStart alive [0xC2]).trans
      (congrArg Host.Outcome.next (firstByte_of_noResult (s := s.selectPort) without))
  · exact (exec_transactionStart alive [0xC2]).trans
      (congrArg Host.Outcome.next (firstByte_of_result (s := s.selectPort) idle result))
  · exact (exec_transactionStart alive [b]).trans
      (congrArg Host.Outcome.next (firstByte_of_unknown (s := s.selectPort) notCommand notResult notStatus))
  case bits =>
    simp only [State.statusByte, BitVec.getLsbD_or, flagBit_get]
    simp

/-! ### The argument lengths of the command codes (13.5) -/

/-- The command codes whose arguments have one length, by that length. -/
def codesOfLength : List (Nat × List Nat) :=
  [(0, [0x16, 0x17, 0x19, 0x1B, 0x1C, 0x1D]), (1, [0x01, 0x03, 0x07, 0x08, 0x09, 0x0A, 0x0B, 0x0C, 0x0F, 0x12, 0x14, 0x18]),
    (2, [0x0E, 0x11, 0x1A]), (3, [0x06, 0x0D, 0x15]), (6, [0x02, 0x10]), (16, [0x13])]

/-- A code with the length of its arguments. -/
def fixedArguments : List (Nat × Nat) :=
  codesOfLength.flatMap fun row => row.2.map fun code => (code, row.1)

/-- The lengths that a code allows (13.5). -/
def ArgumentLength (code : Byte) (n : Nat) : Prop :=
  code = 0x04 ∧ 12 ≤ n ∧ n ≤ 52 ∨ code = 0x05 ∧ 9 ≤ n ∧ n ≤ 49 ∨ (code.toNat, n) ∈ fixedArguments

theorem argumentLength_of_commandOf {code : Byte} {arguments : List Byte} {body : HostBody}
    (spelled : commandOf code arguments = some body) : ArgumentLength code arguments.length := by
  unfold commandOf at spelled
  iterate 3
    obtain ⟨rfl, fixed⟩ | ⟨_, spelled⟩ := ite_eq_iff.1 spelled
    · split at fixed
      · exact .inr (.inr (by simp [fixedArguments, codesOfLength]))
      · cases fixed
  obtain ⟨rfl, insert⟩ | ⟨_, spelled⟩ := ite_eq_iff.1 spelled
  · split at insert
    · obtain ⟨fits, _⟩ := Option.ite_none_right_eq_some.1 insert
      refine .inl ⟨rfl, ?_, ?_⟩ <;> simp only [List.length_cons] <;> omega
    · cases insert
  obtain ⟨rfl, modify⟩ | ⟨_, spelled⟩ := ite_eq_iff.1 spelled
  · split at modify
    · obtain ⟨fits, _⟩ := Option.ite_none_right_eq_some.1 modify
      refine .inr (.inl ⟨rfl, ?_, ?_⟩) <;> simp only [List.length_cons] <;> omega
    · cases modify
  iterate 24
    obtain ⟨rfl, fixed⟩ | ⟨_, spelled⟩ := ite_eq_iff.1 spelled
    · split at fixed
      · exact .inr (.inr (by simp [fixedArguments, codesOfLength]))
      · cases fixed
  cases spelled

theorem commandOf_of_codesOfLength : ∀ row ∈ codesOfLength, ∀ code ∈ row.2, ∀ arguments : List Byte,
    arguments.length = row.1 → (commandOf (byteOf code) arguments).isSome = true := by
  intro row listed code named arguments length
  simp only [codesOfLength, List.mem_cons, List.not_mem_nil, or_false] at listed
  obtain rfl | rfl | rfl | rfl | rfl | rfl := listed
  · match arguments, length with
    | [], _ => fin_cases named <;> rfl
  · match arguments, length with
    | [_], _ => fin_cases named <;> rfl
  · match arguments, length with
    | [_, _], _ => fin_cases named <;> rfl
  · match arguments, length with
    | [_, _, _], _ => fin_cases named <;> rfl
  · match arguments, length with
    | [_, _, _, _, _, _], _ => fin_cases named <;> rfl
  · match arguments, length with
    | [_, _, _, _, _, _, _, _, _, _, _, _, _, _, _, _], _ => fin_cases named; rfl

theorem commandOf_of_argumentLength {code : Byte} {arguments : List Byte} (fits : ArgumentLength code arguments.length) :
    ∃ body, commandOf code arguments = some body := by
  obtain ⟨rfl, least, most⟩ | ⟨rfl, least, most⟩ | fixed := fits
  · match arguments, least with
    | i0 :: i1 :: i2 :: i3 :: i4 :: i5 :: cls :: address :: pinned :: l0 :: l1 :: n :: descriptor, _ =>
      simp only [List.length_cons] at most
      have short : descriptor.length ≤ 40 := by omega
      exact ⟨_, if_pos short⟩
  · match arguments, least with
    | index :: generation :: selection :: cls :: pinned :: l0 :: l1 :: address :: n :: descriptor, _ =>
      simp only [List.length_cons] at most
      have short : descriptor.length ≤ 40 := by omega
      exact ⟨_, if_pos short⟩
  · obtain ⟨row, listed, among⟩ := List.mem_flatMap.1 fixed
    obtain ⟨number, named, same⟩ := List.mem_map.1 among
    obtain ⟨code_eq, length⟩ := Prod.mk.inj same
    rw [eq_byteOf code_eq.symm]
    exact Option.isSome_iff_exists.1 (commandOf_of_codesOfLength row listed number named arguments length.symm)

/-- A code with a length of its own lies between 0x01 and 0x1D. -/
theorem code_of_argumentLength {code : Byte} {n : Nat} (fits : ArgumentLength code n) :
    0x01 ≤ code.toNat ∧ code.toNat ≤ 0x1D := by
  obtain ⟨rfl, _⟩ | ⟨rfl, _⟩ | fixed := fits
  · decide
  · decide
  · have all : ∀ p ∈ fixedArguments, 0x01 ≤ p.1 ∧ p.1 ≤ 0x1D := by decide
    exact all _ fixed

/-! ### The frame checks (R153) -/

section Frame

variable {code sequence length : Byte} {rest : List Byte}

theorem checkFrame_of_short {bytes : List Byte} {overflow : Bool} (short : bytes.length ≤ 3) :
    checkFrame bytes overflow = none := by
  match bytes, short with
  | [], _ => rfl
  | [_], _ => rfl
  | [_, _], _ => rfl
  | [_, _, _], _ => rfl

theorem checkFrame_of_overflow (bytes : List Byte) : checkFrame bytes true = none := by
  unfold checkFrame
  split
  · exact if_pos (.inr (.inl rfl))
  · rfl

theorem checkFrame_of_length (wrong : (code :: sequence :: length :: rest).length ≠ length.toNat + 4) :
    checkFrame (code :: sequence :: length :: rest) false = none := if_pos (.inr (.inr (.inl wrong)))

theorem checkFrame_of_check
    (wrong : (code :: sequence :: length :: rest).getLastD 0 ≠ crc8 (code :: sequence :: length :: rest).dropLast) :
    checkFrame (code :: sequence :: length :: rest) false = none := if_pos (.inr (.inr (.inr wrong)))

/-- Past the checks on the frame itself, what its code and arguments spell decides. -/
theorem checkFrame_of_whole (payload : rest ≠ []) (whole : (code :: sequence :: length :: rest).length = length.toNat + 4)
    (right : (code :: sequence :: length :: rest).getLastD 0 = crc8 (code :: sequence :: length :: rest).dropLast) :
    checkFrame (code :: sequence :: length :: rest) false =
      (commandOf code rest.dropLast).map fun body => { sequence, body } := by
  refine if_neg ?_
  rintro (empty | overflow | long | wrong)
  · exact payload empty
  · cases overflow
  · exact long whole
  · exact wrong right

end Frame

/-! ### The rise of CS# in a COMMAND transaction (R153 to R155, R157, R159) -/

section Rise

variable {s : State} {asel : BitVec 2}

theorem exec_commandFrameEnd (selected : s.port.selected = true) (kind : s.port.kind = .command) :
    exec (.commandFrameEnd [] asel) s = .next (s.endFrame asel) := by
  simp only [exec, execCommandFrameEnd]
  exact endOfKind_of s _ _ selected (List.mem_singleton.2 kind)

theorem endFrame_of_notReady (notReady : s.port.ready = false) :
    s.endFrame asel = { s with port := { s.port.deselect with refused := true } } := if_pos notReady

variable (ready : s.port.ready = true)

include ready

theorem endFrame_of_bad (bad : checkFrame s.port.frame s.port.overflow = none) :
    s.endFrame asel = { s with port := { s.port.deselect with frameError := true } } := by
  simp only [State.endFrame, ready, Bool.true_eq_false, if_false, bad]

theorem endFrame_of_good {f : HostFrame} (good : checkFrame s.port.frame s.port.overflow = some f) :
    s.endFrame asel = { s with port := s.port.deselect }.takeFrame f asel := by
  simp only [State.endFrame, ready, Bool.true_eq_false, if_false, good]

/-- A good frame reaches the command state of a part that is ready. -/
theorem exec_of_taken {f : HostFrame} {u : State} (selected : s.port.selected = true) (kind : s.port.kind = .command)
    (good : checkFrame s.port.frame s.port.overflow = some f)
    (takes : { s with port := s.port.deselect }.takeFrame f asel = u) : exec (.commandFrameEnd [] asel) s = .next u := by
  rw [exec_commandFrameEnd selected kind, endFrame_of_good ready good, takes]

end Rise

section Take

variable {s : State} {q : Byte} {i : Instr} {asel : BitVec 2}

theorem command_of_isExecuting {c : CommandState} (executing : c.isExecuting = true) : ∃ k, c = .executing k := by
  cases c with
  | idle => cases executing
  | executing k => exact ⟨k, rfl⟩

theorem command_of_not_isExecuting {c : CommandState} (idle : c.isExecuting = false) : c = .idle := by
  cases c with
  | idle => rfl
  | executing _ => cases idle

theorem takeFrame_of_idle (idle : s.port.command.isExecuting = false) :
    s.takeFrame { sequence := q, body := .operation i } asel = s.submitCommand q i := by
  simp only [State.takeFrame, command_of_not_isExecuting idle]

theorem takeFrame_of_resetClear (idle : s.port.command.isExecuting = false) :
    s.takeFrame { sequence := q, body := .resetClear } asel = s.hardReset.endReset asel := by
  simp only [State.takeFrame, command_of_not_isExecuting idle]

theorem takeFrame_of_abort (executing : s.port.command.isExecuting = true) :
    s.takeFrame { sequence := q, body := .operation .abort } asel = { s with port := s.port.acceptAbort } := by
  obtain ⟨_, command⟩ := command_of_isExecuting executing
  simp only [State.takeFrame, command]

theorem takeFrame_of_busy {body : HostBody} (executing : s.port.command.isExecuting = true) (other : body ≠ .operation .abort) :
    s.takeFrame { sequence := q, body } asel = { s with port := { s.port with refused := true } } := by
  obtain ⟨_, command⟩ := command_of_isExecuting executing
  unfold State.takeFrame
  split
  · next idle _ => cases command.symm.trans idle
  · next idle _ => cases command.symm.trans idle
  · next abort => exact absurd abort other
  · rfl

end Take

/-- Settles O17: the frame checks, then what the port's readiness and its command make of the frame. -/
theorem commandFramesEnd : Obligations.CommandFramesEnd := by
  unfold Obligations.CommandFramesEnd
  refine ⟨fun bytes overflow => ⟨checkFrame_of_short, fun full => full ▸ checkFrame_of_overflow bytes, ?_⟩,
    fun s asel selected kind => ⟨fun notReady => ?_, fun ready bad => ?_, fun q i ready good => ⟨fun idle => ?_,
      fun executing abort => ?_, fun executing other => ?_⟩, fun q ready good => ⟨fun idle => ?_, fun executing => ?_⟩⟩⟩
  · rintro code sequence length rest rfl payload rfl
    refine ⟨checkFrame_of_length, fun whole => ⟨checkFrame_of_check, fun right => ?_⟩⟩
    have size : rest.dropLast.length = length.toNat := by
      simp only [List.length_cons] at whole
      rw [List.length_dropLast]
      omega
    have unspelled (not : ¬ ArgumentLength code length.toNat) : commandOf code rest.dropLast = none :=
      Option.eq_none_iff_forall_ne_some.2 fun _ spelled => not (size ▸ argumentLength_of_commandOf spelled)
    have same : ∀ p, p ∈ fixedArguments ↔ p ∈ [(0x01, 1), (0x02, 6), (0x03, 1), (0x06, 3), (0x07, 1), (0x08, 1), (0x09, 1),
        (0x0A, 1), (0x0B, 1), (0x0C, 1), (0x0D, 3), (0x0E, 2), (0x0F, 1), (0x10, 6), (0x11, 2), (0x12, 1), (0x13, 16), (0x14, 1),
        (0x15, 3), (0x16, 0), (0x17, 0), (0x18, 1), (0x19, 0), (0x1A, 2), (0x1B, 0), (0x1C, 0), (0x1D, 0)] := fun p =>
      List.Perm.mem_iff (by decide)
    simp only [checkFrame_of_whole payload whole right, Option.map_eq_none_iff, ← same]
    refine ⟨fun outside => unspelled fun fits => ?_, fun _ _ => ⟨unspelled, fun fits => ?_⟩⟩
    · obtain ⟨low, high⟩ := code_of_argumentLength fits
      omega
    · obtain ⟨body, spelled⟩ := commandOf_of_argumentLength (arguments := rest.dropLast) (size ▸ fits)
      exact ⟨body, by rw [spelled]; rfl⟩
  · rw [exec_commandFrameEnd selected kind, endFrame_of_notReady notReady]
    rfl
  · rw [exec_commandFrameEnd selected kind, endFrame_of_bad ready bad]
    rfl
  · exact exec_of_taken ready selected kind good (takeFrame_of_idle idle)
  · subst abort
    exact exec_of_taken ready selected kind good (takeFrame_of_abort executing)
  · exact exec_of_taken ready selected kind good (takeFrame_of_busy executing fun same => other (HostBody.operation.inj same))
  · refine ⟨Config.authorityOf asel, authorityOf_val asel, ?_⟩
    exact exec_of_taken ready selected kind good (takeFrame_of_resetClear idle)
  · exact exec_of_taken ready selected kind good (takeFrame_of_busy executing nofun)

/-! ### Every command read back -/

/-- Settles O18: a frame with the right length and check byte passes the frame checks, and each code's arguments spell its
command. -/
theorem commandFramesAreReadBack : Obligations.CommandFramesAreReadBack := by
  unfold Obligations.CommandFramesAreReadBack
  refine ⟨fun i code q arguments body good => ?_, fun q => frame_passes _ q [] (by simp) _ rfl⟩
  cases i with
  | insert identity cls address pinned lease n d =>
    cases body
    have short : d.length ≤ 40 := of_decide_eq_true good
    exact frame_passes _ q _ (by simp [identityBytes_length, halfBytes_length]; omega) _
      (commandOf_insert identity cls address pinned lease n d short)
  | modify index generation selection cls pinned lease address n d =>
    cases body
    have short : d.length ≤ 40 := of_decide_eq_true good
    exact frame_passes _ q _ (by simp [halfBytes_length]; omega) _
      (commandOf_modify index generation selection cls pinned lease address n d short)
  | findIdentity identity =>
    cases body
    exact frame_passes _ q _ (by simp [identityBytes_length]) _ (commandOf_find identity)
  | writeClass cls enabled lease hold =>
    cases body
    exact frame_passes _ q _ (by simp [halfBytes_length]) _ (commandOf_writeClass cls enabled lease hold)
  | writeRule rule valid value length classMatch action low high override priority =>
    cases body
    exact frame_passes _ q _ (by simp [identityBytes_length, halfBytes_length]) _
      (commandOf_writeRule rule valid value length classMatch action low high override priority)
  | writeParameter identifier value =>
    cases body
    exact frame_passes _ q _ (by simp [halfBytes_length]) _ (commandOf_writeParameter identifier value)
  | rehash seed =>
    cases body
    exact frame_passes _ q _ (by simp [halfBytes_length]) _ (commandOf_rehash seed)
  | readEntry | readBucket | retire | readAddress | reserve | unreserve | unquarantine | readQuarantine | readSlot | approve | deny
  | readClass | readClassList | readRule | readParameter | readAuthority | nextChange | ackAlert | readAlert | abort | resetKeep =>
    cases body
    exact frame_passes _ q _ (by simp) _ rfl
  | _ => cases body

/-! ### Bytes of a transaction, and the end of the other kinds (R150, R151, R158) -/

section Bytes

variable {s : State} {b : Byte}

theorem hostByte_of_command (kind : s.port.kind = .command) (room : s.port.frame.length < 60) :
    s.hostByte b = { s with port := { s.port with frame := s.port.frame ++ [b], sdo := s.port.sdo ++ [0xFF] } } := by
  simp only [State.hostByte, kind, Port.storeByte, if_pos room]

theorem hostByte_of_full (kind : s.port.kind = .command) (full : 60 ≤ s.port.frame.length) :
    s.hostByte b = { s with port := { s.port with overflow := true, sdo := s.port.sdo ++ [0xFF] } } := by
  simp only [State.hostByte, kind, Port.storeByte, if_neg full.not_gt]

theorem hostByte_of_readResult (kind : s.port.kind = .readResult) : s.hostByte b = { s with port := { s.port with
    sdo := s.port.sdo ++ [s.port.content.getD (s.port.sdo.length - 1) 0xFF] } } := by
  simp only [State.hostByte, kind, contentAt]

theorem hostByte_of_readStatus (kind : s.port.kind = .readStatus) : s.hostByte b = { s with port := { s.port with
    sdo := s.port.sdo ++ [s.port.status], status := s.statusByte } } := by
  simp only [State.hostByte, kind]

theorem hostByte_of_unknown (kind : s.port.kind = .unknown) :
    s.hostByte b = { s with port := { s.port with sdo := s.port.sdo ++ [0xFF] } } := by
  simp only [State.hostByte, kind]

theorem hostBytes_of_selected (selected : s.port.selected = true) (received : List Byte) :
    s.hostBytes received = received.foldl State.hostByte s := if_pos selected

/-- The bytes before a rise of CS# act first, then the rise. -/
theorem endOfKind_of_heard (selected : s.port.selected = true) (received : List Byte) {kinds : List TransactionKind}
    (kind : (received.foldl State.hostByte s).port.kind ∈ kinds) (rise : State → State) :
    s.endOfKind kinds received rise = (received.foldl State.hostByte s).endOfKind kinds [] rise := by
  have heard := hostBytes_of_selected selected received
  have still : (received.foldl State.hostByte s).port.selected = true := by
    obtain ⟨port, hears, same⟩ := hostBytes_frame s received
    rw [← heard, hears]
    exact same.selected.trans selected
  rw [endOfKind_of _ kinds rise still kind]
  simp only [State.endOfKind, heard, still, kind, and_self, if_true]

end Bytes

section Ends

variable {p : Port}

theorem readWhole_of_held (held : p.contentHeld = true) (whole : p.content.length < p.sdo.length) : p.readWhole = true := by
  rw [Port.readWhole, held, Bool.true_and]
  exact decide_eq_true whole

theorem readWhole_of_not (part : p.contentHeld = false ∨ p.sdo.length ≤ p.content.length) : p.readWhole = false := by
  obtain other | short := part
  · rw [Port.readWhole, other, Bool.false_and]
  · rw [Port.readWhole, decide_eq_false (Nat.not_le_of_lt (Nat.lt_succ_of_le short)), Bool.and_false]

theorem endRead_of_whole (whole : p.readWhole = true) : p.endRead = { p.deselect with unread := false } := by
  rw [Port.endRead, whole, Bool.not_true, Bool.and_false]

theorem endRead_of_part (part : p.readWhole = false) : p.endRead = p.deselect := by
  rw [Port.endRead, part, Bool.not_false, Bool.and_true]
  rfl

end Ends

/-- Settles O19: each byte by the kind of its transaction, then the rise of CS#. -/
theorem otherTransactionsEnd : Obligations.OtherTransactionsEnd := by
  unfold Obligations.OtherTransactionsEnd
  refine ⟨fun s received alive opened opens => ?_, fun s selected => ⟨fun b => ⟨hostByte_of_command, hostByte_of_full,
    hostByte_of_readResult, hostByte_of_unknown⟩, fun received asel rise => ?_, fun kind => ?_, fun kind => ?_, fun kind => ?_⟩⟩
  · cases (exec_transactionStart alive []).symm.trans opens
    exact exec_transactionStart alive received
  · simp only [exec, execCommandFrameEnd, execReadResult, execReadStatus, execUnknownTransaction]
    exact ⟨fun kind => endOfKind_of_heard selected received (List.mem_singleton.2 kind) _,
      fun kind => endOfKind_of_heard selected received (List.mem_singleton.2 kind) _,
      fun kind => endOfKind_of_heard selected received (List.mem_singleton.2 kind) _,
      fun kind => endOfKind_of_heard selected received (List.mem_cons.2 (.inl kind)) _⟩
  · simp only [exec, execReadResult, endOfKind_of s _ _ selected (List.mem_singleton.2 kind)]
    refine ⟨fun held whole => ?_, fun part => ?_⟩
    · rw [endRead_of_whole (readWhole_of_held held whole)]
      rfl
    · rw [endRead_of_part (readWhole_of_not part)]
      rfl
  · simp only [exec, execReadStatus]
    refine ⟨fun b => ?_, endOfKind_of s _ _ selected (List.mem_singleton.2 kind)⟩
    have hears : [b].foldl State.hostByte s = { s with port := { s.port with
        sdo := s.port.sdo ++ [s.port.status], status := s.statusByte } } := hostByte_of_readStatus kind
    rw [endOfKind_of_heard selected [b] (by rw [hears]; exact List.mem_singleton.2 kind), hears]
    exact endOfKind_of _ _ _ selected (List.mem_singleton.2 kind)
  · simp only [exec, execUnknownTransaction]
    refine endOfKind_of s _ _ selected ?_
    obtain unknown | none := kind
    · rw [unknown]
      decide
    · rw [none]
      decide

end Sys2Proof.Proofs.HostPort

/-! PROOFS. The alert unit (R173 to R181): its two commands at their completion, the advances of the tag, what it takes at the
completion of any operation, the causes and the line. -/

namespace Sys2Proof.Proofs.AlertUnit

open Sys2Proof.Machine

/-! ### The tag, and what an operation's completion brings (R175, R176, R178) -/

theorem advances_succ (a : Alert) (n : Nat) : a.advances (n + 1) = (a.advances n).advance := by
  induction n generalizing a with
  | zero => rfl
  | succ n ih => exact ih a.advance

theorem busFaultLatch_advances (a : Alert) (n : Nat) : (a.advances n).busFaultLatch = a.busFaultLatch := by
  induction n with
  | zero => rfl
  | succ n ih => rw [advances_succ, ← ih]; rfl

theorem toNat_decide (p : Prop) [Decidable p] : (decide p).toNat = if p then 1 else 0 := by
  by_cases p <;> simp [*]

theorem toNat_eq_ite (b : Bool) : b.toNat = if b = true then 1 else 0 := by
  cases b <;> rfl

section Timer

variable {timer : CoalescingTimer} {before after : Table}

theorem atCompletion_of_empty (empty : after.changeSet = []) : timer.atCompletion before after = .idle := if_pos empty

theorem atCompletion_of_going (changes : after.changeSet ≠ []) (going : timer ≠ .idle) : timer.atCompletion before after = timer := by
  cases timer with
  | idle => exact absurd rfl going
  | running _ | expired => exact if_neg changes

theorem atCompletion_of_idle (changes : after.changeSet ≠ []) : CoalescingTimer.idle.atCompletion before after =
    if 0 < newChanges before after ∧ ripe after .idle = false then .running after.params.coalesceTime.toNat else .idle :=
  if_neg changes

theorem newChanges_pos : 0 < newChanges before after ↔ (after.changeSet.filter fun i => i ∉ before.changeSet) ≠ [] :=
  List.length_pos_iff

/-- What was added to the change set is in it. -/
theorem changeSet_of_added (added : (after.changeSet.filter fun i => i ∉ before.changeSet) ≠ []) : after.changeSet ≠ [] := by
  intro empty
  rw [empty] at added
  exact added rfl

end Timer

theorem tag_take (a : Alert) (before after : Table) (completion : Bool) : (a.take before after completion).tag =
    (a.advances ((after.changeSet.filter fun i => i ∉ before.changeSet).length +
      ((List.finRange 4).filter fun j => (after.slot j).isAwaiting && !(before.slot j).isAwaiting).length +
      (if before.admission ≠ after.admission then 1 else 0) + (if completion then 1 else 0))).tag := by
  have awaiting : newAwaiting before after = _ := List.countP_eq_length_filter
  rw [← awaiting, ← toNat_decide, ← toNat_eq_ite]
  rfl

theorem timer_take (a : Alert) (before after : Table) (completion : Bool) :
    (a.take before after completion).timer = a.timer.atCompletion before after := rfl

/-! ### The two commands (R180, R181) -/

section Commands

variable {s : State} {tag : Byte}

theorem exec_ackCompletion (served : s.service = some (.ackAlert tag)) :
    exec .commandCompletion s = .next (s.completeAck tag).lookForDue := by
  simp only [exec, execCommandCompletion, served]

theorem exec_reportCompletion (served : s.service = some .readAlert) :
    exec .commandCompletion s = .next s.completeReport.lookForDue := by
  simp only [exec, execCommandCompletion, served]

theorem completeAck_of_ne (differs : tag ≠ (s.endService false).alert.tag) :
    s.completeAck tag = s.completeCommand (.staleTag (s.endService true).alert.tag) := if_neg differs

theorem completeAck_of_eq (same : tag = (s.endService false).alert.tag) : s.completeAck tag = s.acknowledge tag := if_pos same

/-- An acknowledged tag is the tag: no cause drives the line. -/
theorem acknowledge_of_eq {a : Alert} (same : tag = a.tag) (t : Table) : a.acknowledge tag t = { a with
    acknowledged := tag, admissionLatch := false, busFaultLatch := false, doneLatch := false, timer := .idle, line := false } := by
  have high : ({ a with
      acknowledged := tag, admissionLatch := false, busFaultLatch := false, doneLatch := false
      timer := .idle } : Alert).condition t = false := by
    rw [Alert.condition, Bool.and_eq_false_iff]
    exact .inl (decide_eq_false fun differs => differs same.symm)
  rw [Alert.acknowledge, Alert.look, high]

end Commands

/-- Settles O21: the two commands are granted as marks alone and completed by the alert unit; its tag, timer, latches and line at
any operation's completion. -/
theorem alertCommandsAreServed : Obligations.AlertCommandsAreServed := by
  unfold Obligations.AlertCommandsAreServed
  intro s tag
  refine ⟨fun granted => grantHost_of_granted granted _, fun granted => grantHost_of_granted granted _, ⟨fun served same => ?_,
    fun served differs => ?_, fun served => ?_⟩, fun a => ⟨fun apart => ?_, fun next => ?_, rfl, advances_succ a, tag_advances_ne a⟩,
    fun a before after completion => ?take, fun a t => ⟨ripe_iff t, Iff.rfl, approval_iff a t, rfl, rfl, rfl, ?bits, rfl,
      fun _ => rfl, rfl, ?condition⟩⟩
  · rw [exec_ackCompletion served, completeAck_of_eq same, State.acknowledge,
      acknowledge_of_eq (a := (s.endService false).alert) same]
    rfl
  · rw [exec_ackCompletion served, completeAck_of_ne differs]
    rfl
  · rw [exec_reportCompletion served]
    rfl
  · rw [Alert.advance, if_neg apart]
  · rw [Alert.advance, if_pos next]
  case take =>
    refine ⟨tag_take a before after completion, acknowledged_advances a _, ?_, ?_, ?_, rfl, atCompletion_of_empty,
      atCompletion_of_going, fun changes idle quiet => ?_, fun added idle calm => ?_⟩
    · exact busFaultLatch_advances a _
    · exact (Bool.or_eq_true_iff.trans (or_congr_right decide_eq_true_iff))
    · exact Bool.or_eq_true_iff
    · have stays : ¬ (0 < newChanges before after ∧ ripe after .idle = false) := fun ⟨added, calm⟩ =>
        quiet.elim (newChanges_pos.1 added) fun ready => Bool.noConfusion (ready.symm.trans calm)
      rw [timer_take, idle, atCompletion_of_idle changes, if_neg stays]
    · rw [timer_take, idle, atCompletion_of_idle (changeSet_of_added added), if_pos ⟨newChanges_pos.2 added, calm⟩]
  case bits =>
    rintro ⟨changes, approval, admission, busFault, done⟩
    revert changes approval admission busFault done
    decide
  case condition => rw [condition_iff, anyEnabled_iff]

end Sys2Proof.Proofs.AlertUnit

/-! PROOFS. CLAIM (R81 to R90): the refusals in their order, a new claim held or offered, and a rejoin. -/

namespace Sys2Proof.Proofs.Claims

open Sys2Proof.Machine
open Sys2Proof.Proofs.PendingClaims (exec_of_answers serveClaim_of_lookup)

section Cases

variable {now : Time} {t : Table} {identity : Identity} {cls preferred : Byte} {d : List Byte} {c : ClassIx} {p : Addr}

/-! ### Arguments and refusal memory (R81, R82) -/

theorem serveClaim_of_outside (outside : 15 < cls.toNat ∨ 0x7F < preferred.toNat) :
    serveClaim now t identity cls preferred d = (.badRequest .argument, t) := by
  obtain noClass | noAddress := outside
  · simp only [serveClaim, indexOf_of_le (n := 16) noClass]
  · rw [serveClaim, addrOf_of_lt noAddress]
    cases indexOf 16 cls <;> rfl

theorem serveClaim_of_refused {j : SlotIx} (number : cls.toNat = c.val) (preference : preferred.toNat = p.val)
    (refused : t.refusedSlot identity = some j) : serveClaim now t identity cls preferred d = (.denied .host,
      { t with slots := t.slots.set j .free, deadlines := t.deadlines.filter fun x => x.kind.owner ≠ Owner.slot j }) := by
  simp only [serveClaim, indexOf_of_eq number, addrOf_of_eq preference, refused]
  rfl

theorem serveClaim_of_unknown (number : cls.toNat = c.val) (preference : preferred.toNat = p.val)
    (notRefused : t.refusedSlot identity = none) (unknown : t.lookup identity = none) :
    serveClaim now t identity cls preferred d = serveNewClaim now t identity c p d := by
  simp only [serveClaim, indexOf_of_eq number, addrOf_of_eq preference, notRefused, unknown]

/-! ### The checks of a new claim, each under the ones before it (R87) -/

theorem not_restricted (admitted : t.admission = .opened ∨ (t.verdict identity c).priority = true) :
    ¬ (t.admission = .restricted ∧ (t.verdict identity c).priority = false) := by
  rintro ⟨restricted, common⟩
  obtain opened | priority := admitted
  · cases restricted.symm.trans opened
  · cases common.symm.trans priority

theorem serveNewClaim_of_disabled (disabled : (t.classRecord c).enabled = false) :
    serveNewClaim now t identity c p d = (.denied .cls, t) := if_pos disabled

variable (enabled : (t.classRecord c).enabled = true)

include enabled

theorem serveNewClaim_of_deny (deny : (t.verdict identity c).action = .deny) :
    serveNewClaim now t identity c p d = (.denied .rule, t) := by
  simp only [serveNewClaim, enabled, Bool.true_eq_false, if_false, if_pos deny]

variable (notDenied : (t.verdict identity c).action ≠ .deny)

include notDenied

theorem serveNewClaim_of_run (run : t.run ≠ none) : serveNewClaim now t identity c p d = (.retryLater .rehash 1000, t) := by
  simp only [serveNewClaim, enabled, Bool.true_eq_false, if_false, if_neg notDenied, if_pos (Option.isSome_iff_ne_none.2 run),
    Config.retryHint]

variable (noRun : t.run = none)

include noRun

theorem serveNewClaim_of_noSlot (noSlot : t.lowestFreeSlot = none) :
    serveNewClaim now t identity c p d = (.retryLater .slots (slotsHint now t), t) := by
  simp only [serveNewClaim, enabled, Bool.true_eq_false, if_false, if_neg notDenied, noRun, Option.isSome_none,
    Bool.false_eq_true, noSlot]

variable {j : SlotIx} (slot : t.lowestFreeSlot = some j)

include slot

theorem serveNewClaim_of_noEntry (noEntry : t.lowestVacant = none) :
    serveNewClaim now t identity c p d = (.full .entries, t) := by
  simp only [serveNewClaim, enabled, Bool.true_eq_false, if_false, if_neg notDenied, noRun, Option.isSome_none,
    Bool.false_eq_true, slot, noEntry]

variable {i : EntryIx} (entry : t.lowestVacant = some i)

include entry

theorem serveNewClaim_of_restricted (restricted : t.admission = .restricted) (common : (t.verdict identity c).priority = false) :
    serveNewClaim now t identity c p d = (.retryLater .restricted 1000, t) := by
  simp only [serveNewClaim, enabled, Bool.true_eq_false, if_false, if_neg notDenied, noRun, Option.isSome_none,
    Bool.false_eq_true, slot, entry, if_pos (And.intro restricted common), Config.retryHint]

variable (admitted : t.admission = .opened ∨ (t.verdict identity c).priority = true)

include admitted

theorem serveNewClaim_of_fullBucket (full : 4 ≤ (t.bucket (bucketOf t.seed identity)).length) :
    serveNewClaim now t identity c p d = (.full .bucket, t) := by
  simp only [serveNewClaim, enabled, Bool.true_eq_false, if_false, if_neg notDenied, noRun, Option.isSome_none,
    Bool.false_eq_true, slot, entry, if_neg (not_restricted admitted), Config.bucketCapacity, if_pos full]

variable (room : (t.bucket (bucketOf t.seed identity)).length < 4)

include room

theorem serveNewClaim_of_noFit
    (noFit : Table.fitDescriptor t.params.truncateDescriptors t.freeBlocks.length d = none) :
    serveNewClaim now t identity c p d = (.full .descriptor, t) := by
  simp only [serveNewClaim, enabled, Bool.true_eq_false, if_false, if_neg notDenied, noRun, Option.isSome_none,
    Bool.false_eq_true, slot, entry, if_neg (not_restricted admitted), Config.bucketCapacity, if_neg room.not_ge, noFit]

variable {bytes : List Byte} {cut : Bool}
  (fits : Table.fitDescriptor t.params.truncateDescriptors t.freeBlocks.length d = some (bytes, cut))

include fits

theorem serveNewClaim_of_hold (hold : (t.verdict identity c).action = .holdForHost) :
    serveNewClaim now t identity c p d = holdClaim now t i j identity c (t.verdict identity c) bytes cut := by
  simp only [serveNewClaim, enabled, Bool.true_eq_false, if_false, if_neg notDenied, noRun, Option.isSome_none,
    Bool.false_eq_true, slot, entry, if_neg (not_restricted admitted), Config.bucketCapacity, if_neg room.not_ge, fits,
    if_pos hold]

variable (notHeld : (t.verdict identity c).action ≠ .holdForHost)

include notHeld

theorem serveNewClaim_of_noAddress
    (noAddress : t.chooseAddr (t.verdict identity c).low (t.verdict identity c).high (some p) = none) :
    serveNewClaim now t identity c p d = (.full .addresses, t) := by
  simp only [serveNewClaim, enabled, Bool.true_eq_false, if_false, if_neg notDenied, noRun, Option.isSome_none,
    Bool.false_eq_true, slot, entry, if_neg (not_restricted admitted), Config.bucketCapacity, if_neg room.not_ge, fits,
    if_neg notHeld, noAddress]

theorem serveNewClaim_of_address {a : Addr}
    (address : t.chooseAddr (t.verdict identity c).low (t.verdict identity c).high (some p) = some a) :
    serveNewClaim now t identity c p d = offerClaim now t i j a identity c (t.verdict identity c) bytes cut := by
  simp only [serveNewClaim, enabled, Bool.true_eq_false, if_false, if_neg notDenied, noRun, Option.isSome_none,
    Bool.false_eq_true, slot, entry, if_neg (not_restricted admitted), Config.bucketCapacity, if_neg room.not_ge, fits,
    if_neg notHeld, address]

end Cases

/-- Settles O22: R81's arguments, R82's refusal memory, then the checks of R87 one under the other. -/
theorem claimIsRefusedInOrder : Obligations.ClaimIsRefusedInOrder := by
  unfold Obligations.ClaimIsRefusedInOrder
  intro s identity cls preferred d i t refused granted
  refine ⟨fun outside => exec_of_answers rfl granted (serveClaim_of_outside outside), fun c p number preference =>
    ⟨fun j held => exec_of_answers rfl granted (serveClaim_of_refused number preference held), fun notRefused unknown => ?_⟩⟩
  have answers {a : Answer} (serves : serveNewClaim s.expiry.time t identity c p d = (a, t)) : refused a :=
    exec_of_answers rfl granted ((serveClaim_of_unknown number preference notRefused unknown).trans serves)
  refine ⟨fun disabled => answers (serveNewClaim_of_disabled disabled), fun enabled =>
    ⟨fun deny => answers (serveNewClaim_of_deny enabled deny),
      fun notDenied run => answers (serveNewClaim_of_run enabled notDenied run), fun notDenied noRun =>
      ⟨fun noSlot => ⟨answers (serveNewClaim_of_noSlot enabled notDenied noRun noSlot), fun k claim held least =>
        slotsHint_of_least held least⟩, fun slots => ?_⟩⟩⟩
  obtain ⟨j, slot⟩ := Option.ne_none_iff_exists'.1 slots
  refine ⟨fun noEntry => answers (serveNewClaim_of_noEntry enabled notDenied noRun slot noEntry), fun entries => ?_⟩
  obtain ⟨k, entry⟩ := Option.ne_none_iff_exists'.1 entries
  refine ⟨fun restricted common => answers (serveNewClaim_of_restricted enabled notDenied noRun slot entry restricted common),
    fun admitted => ⟨fun full => answers (serveNewClaim_of_fullBucket enabled notDenied noRun slot entry admitted full),
      fun room => ⟨fun noFit => answers (serveNewClaim_of_noFit enabled notDenied noRun slot entry admitted room noFit),
        fun fit notHeld noAddress => ?_⟩⟩⟩
  obtain ⟨⟨bytes, cut⟩, fits⟩ := Option.ne_none_iff_exists'.1 fit
  exact answers (serveNewClaim_of_noAddress enabled notDenied noRun slot entry admitted room fits notHeld noAddress)

/-! ### The ordered collections (R45, R68) -/

/-- A new item splits a collection: nothing that qualifies stands behind it, and what stands before it ends with one that does. -/
theorem insertBehind_splits {α : Type} (qualifies : α → Bool) (x : α) (l : List α) : ∃ front back,
    l = front ++ back ∧ insertBehind qualifies x l = front ++ x :: back ∧ (∀ y ∈ back, qualifies y = false) ∧
    (∀ y, front.getLast? = some y → qualifies y = true) := by
  induction l with
  | nil => exact ⟨[], [], rfl, rfl, nofun, nofun⟩
  | cons y ys ih =>
    by_cases some : (y :: ys).any qualifies = true
    · obtain ⟨front, back, whole, placed, behind, before⟩ := ih
      refine ⟨y :: front, back, by rw [whole]; rfl, ?_, behind, fun z last => ?_⟩
      · rw [insertBehind, if_pos some, placed]
        rfl
      · cases front with
        | nil =>
          cases last
          rw [List.any_cons, Bool.or_eq_true_iff] at some
          refine some.resolve_right fun later => ?_
          obtain ⟨w, among, yes⟩ := List.any_eq_true.1 later
          rw [whole] at among
          cases (behind w among).symm.trans yes
        | cons f fs => exact before z (by rwa [List.getLast?_cons_cons] at last)
    · refine ⟨[], y :: ys, rfl, if_neg some, fun z among => ?_, nofun⟩
      exact Bool.eq_false_iff.2 fun yes => some (List.any_eq_true.2 ⟨z, among, yes⟩)

/-! ### A new claim held or offered (R89, R90) -/

section Outcomes

variable (now : Time) (t : Table) (i : EntryIx) (j : SlotIx) (identity : Identity) (c : ClassIx) (v : Verdict) (bytes : List Byte)
  (cut : Bool)

theorem holdClaim_eq : holdClaim now t i j identity c v bytes cut = (.retryLater .approval t.params.approvalTime,
    { t.withTaken i identity c (.awaiting j) bytes cut with
      slots := t.slots.set j (.awaiting
        { identity, cls := c, low := 0x08, high := 0x77, override := v.override, deadline := afterMs now t.params.approvalTime } i)
      deadlines := insertBehind (fun x => !earlier (afterMs now t.params.approvalTime) x.deadline)
        { kind := .approval j, deadline := afterMs now t.params.approvalTime } t.deadlines }.evaluateAdmission) := by
  rw [holdClaim, Table.takeEntry_eq]
  rfl

theorem generation_withTaken (life : EntryLife) :
    ((t.withTaken i identity c life bytes cut).entry i).generation = (t.entry i).generation + 1 := by
  simp only [Table.withTaken, Table.entry, Table.get_set, if_true]

theorem offerClaim_eq (a : Addr) : offerClaim now t i j a identity c v bytes cut =
    (.offer a ((t.entry i).generation + 1) t.params.offerTime (cappedLease (t.fixedLease c v.override)) cut,
    { t.withTaken i identity c (.offered j a (t.fixedLease c v.override) (afterMs now t.params.offerTime)) bytes cut with
      map := t.map.set a (.offered i)
      quarantine := t.quarantine.filter fun x => x.address ≠ a
      slots := t.slots.set j (.offered
        { identity, cls := c, low := v.low, high := v.high, override := v.override, deadline := afterMs now t.params.offerTime } i)
      deadlines := insertBehind (fun x => !earlier (afterMs now t.params.offerTime) x.deadline)
        { kind := .offer i, deadline := afterMs now t.params.offerTime } t.deadlines }.evaluateAdmission) := by
  rw [offerClaim, Table.takeEntry_eq]
  simp only [generation_withTaken]
  rfl

end Outcomes

/-- Settles O23: the searches and collections by their laws, and the two outcomes of a new claim that passes R87. -/
theorem newClaimIsOfferedOrHeld : Obligations.NewClaimIsOfferedOrHeld := by
  unfold Obligations.NewClaimIsOfferedOrHeld
  refine ⟨fun t => ⟨t.lowestVacant_eq_some, t.lowestVacant_eq_none, t.lowestFreeSlot_eq_some, t.lowestFreeSlot_eq_none, fun identity =>
      ⟨fun j => Table.refusedSlot_eq_some, t.refusedSlot_eq_none identity⟩⟩, insertBehind_splits, insertBehind_splits,
    fun i l => ⟨mem_insertAscending i l, fun ascending => (pairwise_insertAscending i l ascending).1⟩, ?owners, ?claims⟩
  case owners =>
    intro kind
    cases kind <;> rfl
  case claims =>
    intro s identity cls preferred d bytes cut c p j i t v ends lease waiting granted number preference passes
    obtain ⟨notRefused, unknown, enabled, notDenied, noRun, slot, entry, admitted, room, fits⟩ := passes
    have unknown := serveClaim_of_unknown (now := s.expiry.time) (d := d) number preference notRefused unknown
    refine ⟨fun hold => ?_, fun a notHeld address => ?_⟩
    · have holds := serveNewClaim_of_hold (now := s.expiry.time) (p := p) enabled notDenied noRun slot entry admitted room fits hold
      exact exec_of_answers rfl granted (unknown.trans (holds.trans (holdClaim_eq ..)))
    · have offers :=
        serveNewClaim_of_address (now := s.expiry.time) enabled notDenied noRun slot entry admitted room fits notHeld address
      exact exec_of_answers rfl granted (unknown.trans (offers.trans (offerClaim_eq ..)))

/-! ### A rejoin (R83, R84) -/

section Rejoin

variable {now : Time} {t : Table} {identity : Identity} {c : ClassIx} {p a : Addr} {d : List Byte} {i : EntryIx} {renewed : Table}
  {seconds : Half} {revived : Bool}

/-- An entry that a renewal serves is BOUND, UNVERIFIED or LAPSED at the address of the renewal. -/
theorem life_of_withRenewal (renews : t.withRenewal now i = some (a, renewed, seconds, revived)) :
    (∃ lease old, (t.entry i).life = .bound a lease old) ∨ (∃ lease old, (t.entry i).life = .unverified a lease old) ∨
      ∃ lease old, (t.entry i).life = .lapsed a lease old := by
  have address := (t.renewLease_eq now i a renewed seconds revived renews).2.2
  cases life : (t.entry i).life with
  | vacant | awaiting _ | offered _ _ _ _ =>
    simp only [Table.withRenewal, life] at renews
    cases renews
  | bound b lease old => rw [life] at address; cases address; exact .inl ⟨lease, old, rfl⟩
  | unverified b lease old => rw [life] at address; cases address; exact .inr (.inl ⟨lease, old, rfl⟩)
  | lapsed b lease old => rw [life] at address; cases address; exact .inr (.inr ⟨lease, old, rfl⟩)

variable (renews : t.withRenewal now i = some (a, renewed, seconds, revived))

include renews

theorem serveHeldClaim_of_rejoin (same : (t.entry i).cls = c) :
    serveHeldClaim now t i identity c p d = serveRejoin now t i a d := by
  obtain ⟨_, _, life⟩ | ⟨_, _, life⟩ | ⟨_, _, life⟩ := life_of_withRenewal renews <;>
    simp only [serveHeldClaim, if_neg (not_not_intro same), life]

/-- A renewal leaves the room for a descriptor as it was. -/
theorem fitReplacement_renewed : renewed.fitReplacement i d =
    Table.fitDescriptor t.params.truncateDescriptors ((t.entry i).blocks.length + t.freeBlocks.length) d := by
  obtain ⟨⟨life, entry⟩, pool, params, _⟩ := Table.withRenewal_frame renews
  have free : renewed.freeBlocks = t.freeBlocks := by rw [Table.freeBlocks, pool]; rfl
  rw [Table.fitReplacement, entry, params, free]

theorem serveRejoin_of_noFit (noFit : renewed.fitReplacement i d = none) :
    serveRejoin now t i a d = (.fullRejoin a seconds revived, renewed) := by
  obtain ⟨renewal, lease, _⟩ := t.renewLease_eq now i a renewed seconds revived renews
  simp only [serveRejoin, renewal, noFit, lease]

theorem serveRejoin_of_fit {bytes : List Byte} {cut : Bool} (fits : renewed.fitReplacement i d = some (bytes, cut)) :
    serveRejoin now t i a d = (.ok ([addrByte a] ++ halfBytes seconds ++ [answerFlags revived cut]),
      (renewed.replaceDescriptor i bytes cut).countRenewal i) := by
  obtain ⟨renewal, lease, _⟩ := t.renewLease_eq now i a renewed seconds revived renews
  simp only [serveRejoin, renewal, fits, lease]

/-- Neither the renewal nor the new descriptor touches the renew count. -/
theorem renewCount_replaced (bytes : List Byte) (cut : Bool) :
    ((renewed.replaceDescriptor i bytes cut).entry i).renewCount = (t.entry i).renewCount := by
  obtain ⟨⟨life, entry⟩, _⟩ := Table.withRenewal_frame renews
  rw [Table.entry_replaceDescriptor, if_pos rfl, entry]

end Rejoin

/-- Settles O25: the renewal, then the descriptor that fits in the room the entry has, then the count. -/
theorem rejoinRenewsAndReplaces : Obligations.RejoinRenewsAndReplaces := by
  unfold Obligations.RejoinRenewsAndReplaces
  intro s identity cls preferred d c p a i renewed seconds revived t e fit granted number preference notRefused found same renews
  have rejoins : serveClaim s.expiry.time t identity cls preferred d = serveRejoin s.expiry.time t i a d :=
    (serveClaim_of_lookup number preference notRefused found).trans (serveHeldClaim_of_rejoin renews same)
  have room : renewed.fitReplacement i d = fit := fitReplacement_renewed renews
  refine ⟨fun noFit => ?_, fun bytes cut fits => ?_⟩
  · exact exec_of_answers rfl granted (rejoins.trans (serveRejoin_of_noFit renews (room.trans noFit)))
  · have serves := rejoins.trans (serveRejoin_of_fit renews (room.trans fits))
    simp only [Table.countRenewal, renewCount_replaced renews] at serves
    exact exec_of_answers rfl granted serves

end Sys2Proof.Proofs.Claims

/-! PROOFS. ACCEPT (R91 to R93), RENEW (R127, R128) and RELEASE (R130, R131). -/

namespace Sys2Proof.Proofs.MemberRequests

open Sys2Proof.Machine
open Sys2Proof.Proofs.PendingClaims (exec_of_answers)
open Sys2Proof.Proofs.MemberLookups (leaseSeconds_of_deadline_some)

/-! ### ACCEPT (R91 to R93) -/

section Accept

variable {now : Time} {t : Table} {identity : Identity} {address token : Byte} {i : EntryIx} {a : Addr}

theorem serveAccept_of_unknown (unknown : t.lookup identity = none) :
    serveAccept now t identity address token = (.notFound, t) := by
  simp only [serveAccept, unknown]

variable (found : t.lookup identity = some i)

include found

theorem serveAccept_of_state (other : (∃ j, (t.entry i).life = .awaiting j) ∨ (t.entry i).life.state = .unverified ∨
    (t.entry i).life.state = .lapsed) :
    serveAccept now t identity address token = (.mismatchState (t.entry i).life.state, t) := by
  cases life : (t.entry i).life with
  | awaiting _ | unverified _ _ _ | lapsed _ _ _ => simp only [serveAccept, found, life]
  | vacant | offered _ _ _ _ | bound _ _ _ => simp [life, EntryLife.state] at other

theorem serveAccept_of_address (at_ : (t.entry i).life.address = some a)
    (state : (t.entry i).life.state = .offered ∨ (t.entry i).life.state = .bound) (other : address ≠ addrByte a) :
    serveAccept now t identity address token = (.mismatchAddress (addrByte a), t) := by
  cases life : (t.entry i).life with
  | offered _ b _ _ | bound b _ _ =>
    rw [life] at at_
    cases at_
    simp only [serveAccept, found, life, if_pos other]
  | vacant | awaiting _ | unverified _ _ _ | lapsed _ _ _ => simp [life, EntryLife.state] at state

theorem serveAccept_of_token (at_ : (t.entry i).life.address = some a)
    (state : (t.entry i).life.state = .offered ∨ (t.entry i).life.state = .bound) (same : address = addrByte a)
    (other : token ≠ (t.entry i).generation) :
    serveAccept now t identity address token = (.mismatchToken, t) := by
  cases life : (t.entry i).life with
  | offered _ b _ _ | bound b _ _ =>
    rw [life] at at_
    cases at_
    simp only [serveAccept, found, life, if_neg (not_not_intro same), if_pos other]
  | vacant | awaiting _ | unverified _ _ _ | lapsed _ _ _ => simp [life, EntryLife.state] at state

theorem serveAccept_of_bound {lease : Half} {old : Option Time} (life : (t.entry i).life = .bound a lease old)
    (same : address = addrByte a) (right : token = (t.entry i).generation) :
    serveAccept now t identity address token = (.ok ([addrByte a] ++ halfBytes (t.leaseSeconds now i)), t) := by
  simp only [serveAccept, found, life, if_neg (not_not_intro same), if_neg (not_not_intro right)]

theorem serveAccept_of_offered {j : SlotIx} {lease : Half} {old : Time} (life : (t.entry i).life = .offered j a lease old)
    (same : address = addrByte a) (right : token = (t.entry i).generation) :
    serveAccept now t identity address token =
      (.ok ([addrByte a] ++ halfBytes ((acceptOffer now t i j a lease).leaseSeconds now i)), acceptOffer now t i j a lease) := by
  simp only [serveAccept, found, life, if_neg (not_not_intro same), if_neg (not_not_intro right)]

end Accept

/-- An entry with a lease started has the lease's time left. -/
theorem leaseSeconds_of_entries {u t : Table} {i : EntryIx} {e : Entry} {a : Addr} {lease : Half} {deadline now : Time}
    (entries : u.entries = (t.withLease i e a lease deadline).entries) :
    u.leaseSeconds now i = remainingSeconds now deadline := by
  have life : (u.entry i).life.deadline = some deadline := by
    simp only [Table.entry, entries, Table.withLease, Table.get_set, if_true]
    rfl
  exact leaseSeconds_of_deadline_some life

/-- Settles O26: the entry's state, then the address, then the token; an offer accepted starts the lease and frees the slot. -/
theorem acceptBindsTheOffer : Obligations.AcceptBindsTheOffer := by
  unfold Obligations.AcceptBindsTheOffer
  intro s identity address token t now answered granted
  refine ⟨fun unknown => exec_of_answers rfl granted (serveAccept_of_unknown unknown), fun i found =>
    ⟨fun other => ?_, fun a at_ state => ⟨fun other => ?_, fun same other => ?_⟩, fun a lease old life same right => ?_,
      fun j a lease old life same right => ?_⟩⟩
  · exact exec_of_answers rfl granted (serveAccept_of_state found other)
  · exact exec_of_answers rfl granted (serveAccept_of_address found at_ state other)
  · exact exec_of_answers rfl granted (serveAccept_of_token found at_ state same other)
  · exact exec_of_answers rfl granted (serveAccept_of_bound found life same right)
  · have serves := serveAccept_of_offered (now := s.expiry.time) found life same right
    rw [leaseSeconds_of_entries (u := acceptOffer s.expiry.time s.table i j a lease) rfl] at serves
    exact exec_of_answers rfl granted serves

/-! ### RENEW (R127, R128) -/

section Renew

variable {now : Time} {t : Table} {identity : Identity} {address : Byte} {i : EntryIx} {a : Addr} {lease : Half}

theorem addrOf_ne_none (inside : address.toNat ≤ 0x7F) : ¬ addrOf address = none := by
  rw [addrOf_of_eq (a := ⟨address.toNat, Nat.lt_succ_of_le inside⟩) rfl]
  exact nofun

theorem serveRenew_of_outside (outside : 0x7F < address.toNat) :
    serveRenew now t identity address = (.badRequest .argument, t) := if_pos (addrOf_of_lt outside)

variable (inside : address.toNat ≤ 0x7F)

include inside

theorem serveRenew_of_unknown (unknown : t.lookup identity = none) : serveRenew now t identity address = (.notFound, t) := by
  simp only [serveRenew, if_neg (addrOf_ne_none inside), unknown]

variable (found : t.lookup identity = some i)

include found

theorem serveRenew_of_state (early : (t.entry i).life.state = .awaiting ∨ (t.entry i).life.state = .offered) :
    serveRenew now t identity address = (.mismatchState (t.entry i).life.state, t) := by
  cases life : (t.entry i).life with
  | awaiting _ | offered _ _ _ _ => simp only [serveRenew, if_neg (addrOf_ne_none inside), found, life]
  | vacant | bound _ _ _ | unverified _ _ _ | lapsed _ _ _ => simp [life, EntryLife.state] at early

theorem serveRenew_of_address (at_ : (t.entry i).life.address = some a) (state : (t.entry i).life.state ≠ .offered)
    (other : address ≠ addrByte a) : serveRenew now t identity address = (.mismatchAddress (addrByte a), t) := by
  cases life : (t.entry i).life with
  | vacant | awaiting _ => simp [life, EntryLife.address] at at_
  | offered _ _ _ _ => simp [life, EntryLife.state] at state
  | bound b _ _ | unverified b _ _ | lapsed b _ _ =>
    rw [life] at at_
    cases at_
    simp only [serveRenew, if_neg (addrOf_ne_none inside), found, life, if_pos other]

theorem serveRenew_of_pinned (life : (t.entry i).life = .bound a lease none) (same : address = addrByte a) :
    serveRenew now t identity address = (.ok [0xFF, 0xFF, 0], t) := by
  simp only [serveRenew, if_neg (addrOf_ne_none inside), found, life, if_neg (not_not_intro same), EntryLife.pinned, if_true]
  rfl

/-- Past the checks a renewal starts the lease and counts. -/
theorem serveRenew_of_renews {renewed : Table} {seconds : Half} {revived : Bool}
    (renews : t.withRenewal now i = some (a, renewed, seconds, revived)) (leased : (t.entry i).life.pinned = false)
    (same : address = addrByte a) : serveRenew now t identity address =
      (.ok (halfBytes seconds ++ [answerFlags revived false]), renewed.countRenewal i) := by
  obtain ⟨renewal, left, at_⟩ := t.renewLease_eq now i a renewed seconds revived renews
  have none : t.withRenewal now i ≠ none := by rw [renews]; exact nofun
  cases life : (t.entry i).life with
  | vacant | awaiting _ | offered _ _ _ _ => simp [Table.withRenewal, life] at none
  | bound b _ _ | unverified b _ _ | lapsed b _ _ =>
    rw [life] at at_ leased
    cases at_
    simp only [serveRenew, if_neg (addrOf_ne_none inside), found, life, if_neg (not_not_intro same), leased,
      Bool.false_eq_true, if_false, renewal, left]

end Renew

/-- A renewal counted after the lease has started is the lease started for the entry with the count. -/
theorem countRenewal_withLease (t : Table) (i : EntryIx) (a : Addr) (lease : Half) (deadline : Time) :
    (t.withLease i (t.entry i) a lease deadline).countRenewal i = t.withLease i
      { t.entry i with renewCount := if (t.entry i).renewCount = 255 then 255 else (t.entry i).renewCount + 1 } a lease deadline := by
  simp only [Table.countRenewal, Table.setEntry, Table.entry, Table.withLease, Table.get_set, if_true, Vector.set_set]
  rfl

/-- Settles O27: the address, the entry's state, the address again, the pin; then the lease starts and the renewal counts. -/
theorem renewStartsTheLease : Obligations.RenewStartsTheLease := by
  unfold Obligations.RenewStartsTheLease
  intro s identity address t now run granted
  refine ⟨fun outside => exec_of_answers rfl granted (serveRenew_of_outside outside), fun inside unknown =>
    exec_of_answers rfl granted (serveRenew_of_unknown inside unknown), fun i inside found => ⟨fun early => ?_,
      fun a at_ state other => ?_, fun a lease life same => ?_, fun a lease same => ?_⟩⟩
  · exact exec_of_answers rfl granted (serveRenew_of_state inside found early)
  · exact exec_of_answers rfl granted (serveRenew_of_address inside found at_ state other)
  · exact exec_of_answers rfl granted (serveRenew_of_pinned inside found life same)
  · intro deadline ok counted renewed
    have counts : (t.withLease i (t.entry i) a lease deadline).countRenewal i = renewed :=
      countRenewal_withLease t i a lease deadline
    refine ⟨fun old life => ?_, fun old life => ?_, fun old life => ?_⟩
    · have renews : t.withRenewal now i =
          some (a, t.withLease i (t.entry i) a lease deadline, remainingSeconds now deadline, false) := by
        simp only [Table.withRenewal, life]
        rfl
      have serves := serveRenew_of_renews inside found renews (by rw [life]; rfl) same
      exact exec_of_answers rfl granted (serves.trans (congrArg (Prod.mk (ok 0)) counts))
    · have renews : t.withRenewal now i = some (a, { t.withLease i (t.entry i) a lease deadline with
          changeSet := insertAscending i t.changeSet }, remainingSeconds now deadline, false) := by
        simp only [Table.withRenewal, life]
        rfl
      have serves := serveRenew_of_renews inside found renews (by rw [life]; rfl) same
      exact exec_of_answers rfl granted (serves.trans (by rw [← counts]; rfl))
    · have renews : t.withRenewal now i = some (a, { t.withLease i (t.entry i) a lease deadline with
          map := t.map.set a (.bound i), classes := t.classesWith (t.entry i).cls i
          changeSet := insertAscending i t.changeSet }, remainingSeconds now deadline, true) := by
        simp only [Table.withRenewal, life]
        rfl
      have serves := serveRenew_of_renews inside found renews (by rw [life]; rfl) same
      exact exec_of_answers rfl granted (serves.trans (by rw [← counts]; rfl))

/-! ### RELEASE (R130, R131) -/

section Release

variable {now : Time} {t : Table} {identity : Identity} {address : Byte} {i : EntryIx} {a : Addr}

theorem serveRelease_of_outside (outside : 0x7F < address.toNat) :
    serveRelease now t identity address = (.badRequest .argument, t) := if_pos (addrOf_of_lt outside)

variable (inside : address.toNat ≤ 0x7F)

include inside

theorem serveRelease_of_run (run : t.run ≠ none) : serveRelease now t identity address = (.retryLater .rehash 1000, t) := by
  simp only [serveRelease, if_neg (addrOf_ne_none inside), if_pos (Option.isSome_iff_ne_none.2 run), Config.retryHint]

variable (noRun : t.run = none)

include noRun

theorem serveRelease_of_unknown (unknown : t.lookup identity = none) : serveRelease now t identity address = (.notFound, t) := by
  simp only [serveRelease, if_neg (addrOf_ne_none inside), noRun, Option.isSome_none, Bool.false_eq_true, if_false, unknown]

variable (found : t.lookup identity = some i)

include found

theorem serveRelease_of_awaiting {j : SlotIx} (life : (t.entry i).life = .awaiting j) : serveRelease now t identity address =
    if address ≠ 0 then (.mismatchAddress 0, t) else (.ok [0], t.retireAndEvaluate now false i) := by
  simp only [serveRelease, if_neg (addrOf_ne_none inside), noRun, Option.isSome_none, Bool.false_eq_true, if_false, found, life]

/-- An entry with an address: the address, the pin, then the retirement. -/
theorem serveRelease_of_address (at_ : (t.entry i).life.address = some a) : serveRelease now t identity address =
    if address ≠ addrByte a then (.mismatchAddress (addrByte a), t)
    else if (t.entry i).life.pinned then (.denied .pinned, t)
    else (.ok [addrByte a], t.retireAndEvaluate now false i) := by
  cases life : (t.entry i).life with
  | vacant | awaiting _ => simp [life, EntryLife.address] at at_
  | offered _ b _ _ | bound b _ _ | unverified b _ _ | lapsed b _ _ =>
    rw [life] at at_
    cases at_
    simp only [serveRelease, if_neg (addrOf_ne_none inside), noRun, Option.isSome_none, Bool.false_eq_true, if_false, found, life]

/-- Past the checks the entry is retired, whatever its state. -/
theorem serveRelease_of_retires (at_ : (t.entry i).life.address = some a) (same : address = addrByte a)
    (leased : (t.entry i).life.pinned = false) :
    serveRelease now t identity address = (.ok [address], t.retireAndEvaluate now false i) := by
  rw [serveRelease_of_address inside noRun found at_, if_neg (not_not_intro same), leased, same]
  rfl

end Release

/-- Settles O28: the address, a run, the identity, the address again, the pin; then the entry retires as its state has it. -/
theorem releaseRetiresTheEntry : Obligations.ReleaseRetiresTheEntry := by
  unfold Obligations.ReleaseRetiresTheEntry
  intro s identity address t now run granted
  refine ⟨fun outside => exec_of_answers rfl granted (serveRelease_of_outside outside), fun inside running =>
    exec_of_answers rfl granted (serveRelease_of_run inside running), fun inside noRun => ⟨fun unknown =>
      exec_of_answers rfl granted (serveRelease_of_unknown inside noRun unknown), fun i found => ⟨fun j life => ?_, fun a at_ => ?_⟩⟩⟩
  · have serves := serveRelease_of_awaiting (now := now) inside noRun found life
    refine ⟨fun other => exec_of_answers rfl granted (serves.trans (if_pos other)), fun same =>
      exec_of_answers rfl granted ((serves.trans (if_neg (not_not_intro same))).trans ?_)⟩
    rw [Table.retireAndEvaluate, Table.retireEntry_awaiting now false life]
  · have serves := serveRelease_of_address (now := now) inside noRun found at_
    have retires (same : address = addrByte a) (leased : (t.entry i).life.pinned = false) {u : Table}
        (retired : t.retireEntry now false i = u) : run (.ok [address]) u.evaluateAdmission :=
      exec_of_answers rfl granted ((serveRelease_of_retires inside noRun found at_ same leased).trans
        (congrArg (fun u : Table => (Answer.ok [address], u.evaluateAdmission)) retired))
    refine ⟨fun other => exec_of_answers rfl granted (serves.trans (if_pos other)), fun same pinned =>
      exec_of_answers rfl granted (serves.trans ((if_neg (not_not_intro same)).trans (if_pos pinned))), fun j lease old same life =>
        retires same (by rw [life]; rfl) (Table.retireEntry_offered now false life), fun same leased state =>
        retires same leased (Table.retireEntry_listed now false at_ state), fun same lapsed => retires same ?_
        (Table.retireEntry_lapsed now false at_ lapsed)⟩
    cases life : (t.entry i).life with
    | lapsed _ _ _ => rfl
    | vacant | awaiting _ | offered _ _ _ _ | bound _ _ _ | unverified _ _ _ => rw [life] at lapsed; cases lapsed

end Sys2Proof.Proofs.MemberRequests

/-! PROOFS. What claims and commands share: the choice of an address (R50, R51), the admission verdict and state (R105 to R107, R113),
and the replacement of a descriptor (R16 to R18). -/

namespace Sys2Proof.Proofs.SharedDecisions

open Sys2Proof.Machine

/-! ### The choice of an address (R50, R51) -/

section Choice

variable {t : Table} {low high : Addr} {preferred : Option Addr}

theorem inRange_iff (a : Addr) : Table.inRange low high a = true ↔ low ≤ a ∧ a ≤ high := by
  rw [Table.inRange, Bool.and_eq_true_iff, decide_eq_true_iff, decide_eq_true_iff]

theorem usable_iff (a : Addr) : (Table.inRange low high a && decide (t.addr a = .free)) = true ↔
    low ≤ a ∧ a ≤ high ∧ t.addr a = .free := by
  rw [Bool.and_eq_true_iff, inRange_iff, decide_eq_true_iff, and_assoc]

/-- A usable preference is the choice. -/
theorem chooseAddr_of_preferred {p : Addr} (nonzero : p ≠ 0) (usable : low ≤ p ∧ p ≤ high ∧ t.addr p = .free) :
    t.chooseAddr low high (some p) = some p := by
  have passes : (decide (p ≠ 0) && Table.inRange low high p && decide (t.addr p = .free)) = true := by
    rw [Bool.and_assoc, Bool.and_eq_true_iff, decide_eq_true_iff, usable_iff]
    exact ⟨nonzero, usable⟩
  simp only [Table.chooseAddr, Option.filter_some, passes, if_true, Option.some_or]

/-- Without a usable preference, the search of the range, then early reuse. -/
theorem chooseAddr_of_no_preference
    (unusable : ∀ p, preferred = some p → p = 0 ∨ ¬ (low ≤ p ∧ p ≤ high ∧ t.addr p = .free)) :
    t.chooseAddr low high preferred = ((List.finRange 128).find? fun a => Table.inRange low high a && decide (t.addr a = .free)).or
      (if t.params.earlyReuse then (t.quarantine.map (·.address)).find? (Table.inRange low high) else none) := by
  have dropped : (preferred.filter fun a => a ≠ 0 && Table.inRange low high a && t.addr a = .free) = none := by
    refine Option.filter_eq_none_iff.2 fun p asks passes => ?_
    rw [Bool.and_assoc, Bool.and_eq_true_iff, decide_eq_true_iff, usable_iff] at passes
    exact (unusable p asks).elim passes.1 fun not => not passes.2
  rw [Table.chooseAddr, dropped, Option.none_or]

/-- The lowest free address of the range. -/
theorem find_usable {a : Addr} (usable : low ≤ a ∧ a ≤ high ∧ t.addr a = .free)
    (least : ∀ b, b < a → ¬ (low ≤ b ∧ b ≤ high ∧ t.addr b = .free)) :
    ((List.finRange 128).find? fun a => Table.inRange low high a && decide (t.addr a = .free)) = some a :=
  find_finRange _ a ((usable_iff a).2 usable) fun b lower => Bool.eq_false_iff.2 fun passes => least b lower ((usable_iff b).1 passes)

theorem find_usable_none (unusable : ∀ a, ¬ (low ≤ a ∧ a ≤ high ∧ t.addr a = .free)) :
    ((List.finRange 128).find? fun a => Table.inRange low high a && decide (t.addr a = .free)) = none :=
  find_finRange_none _ fun b => Bool.eq_false_iff.2 fun passes => unusable b ((usable_iff b).1 passes)

/-- The first address of the range in the quarantine queue. -/
theorem find_quarantined {before after : List QuarantineItem} {x : QuarantineItem} (inside : low ≤ x.address ∧ x.address ≤ high)
    (first : ∀ y ∈ before, ¬ (low ≤ y.address ∧ y.address ≤ high)) :
    ((before ++ x :: after).map (·.address)).find? (Table.inRange low high) = some x.address := by
  rw [List.map_append, List.find?_append, List.find?_eq_none.2, Option.none_or, List.map_cons,
    List.find?_cons_of_pos ((inRange_iff _).2 inside)]
  intro a among
  obtain ⟨y, listed, rfl⟩ := List.mem_map.1 among
  exact fun passes => first y listed ((inRange_iff _).1 passes)

theorem find_quarantined_none {queue : List QuarantineItem} (outside : ∀ y ∈ queue, ¬ (low ≤ y.address ∧ y.address ≤ high)) :
    (queue.map (·.address)).find? (Table.inRange low high) = none := by
  refine List.find?_eq_none.2 fun a among passes => ?_
  obtain ⟨y, listed, rfl⟩ := List.mem_map.1 among
  exact outside y listed ((inRange_iff _).1 passes)

end Choice

/-- Settles O31: the preference, the lowest free address, early reuse, in that order. -/
theorem addressIsChosen : Obligations.AddressIsChosen := by
  unfold Obligations.AddressIsChosen
  intro t low high preferred usable choice
  refine ⟨fun p asks nonzero free => ?_, fun unusable => ?_⟩
  · subst asks
    exact chooseAddr_of_preferred nonzero free
  · have searches : choice = _ := chooseAddr_of_no_preference unusable
    rw [searches]
    refine ⟨fun a free least => by rw [find_usable free least, Option.some_or], fun none_ => ?_⟩
    rw [find_usable_none none_, Option.none_or]
    refine ⟨fun off => by rw [off]; rfl, fun on => ?_⟩
    rw [if_pos on]
    refine ⟨fun before x after queue inside first => ?_, find_quarantined_none⟩
    rw [queue]
    exact find_quarantined inside first

/-! ### The admission verdict and state (R105 to R107, R113) -/

theorem matchesClaim_iff (r : AdmissionRule) (identity : Identity) (cls : ClassIx) : r.matchesClaim identity cls = true ↔
    (∀ n, n < r.prefixLength.val → r.value.getLsbD (47 - n) = identity.getLsbD (47 - n)) ∧
      (r.classMatch = none ∨ r.classMatch = some cls) := by
  rw [AdmissionRule.matchesClaim, Bool.and_eq_true_iff, Bool.or_eq_true_iff, decide_eq_true_iff, decide_eq_true_iff,
    leadingBitsEqual_iff _ (Nat.le_of_lt_succ r.prefixLength.isLt)]

section Verdict

variable {t : Table} {identity : Identity} {cls : ClassIx} {r : AdmissionRule}

theorem getElem?_rules (n : RuleIx) : t.rules.toList[n.val]? = some (t.rules.get n) := by
  rw [Vector.getElem?_toList, Vector.getElem?_eq_getElem n.isLt]
  rfl

theorem rule_of_getElem? {m : Nat} {q : AdmissionRule} (listed : t.rules.toList[m]? = some (some q)) :
    ∃ valid : m < 16, t.rules.get ⟨m, valid⟩ = some q := by
  rw [Vector.getElem?_toList] at listed
  obtain ⟨valid, rule⟩ := Vector.getElem?_eq_some_iff.1 listed
  exact ⟨valid, rule⟩

theorem verdict_of_rule (n : RuleIx) (valid : t.rules.get n = some r) (decides : r.matchesClaim identity cls = true)
    (first : ∀ m q, m < n → t.rules.get m = some q → ¬ q.matchesClaim identity cls = true) :
    t.verdict identity cls = r.verdict := by
  have found : ((t.rules.toList.filterMap id).find? fun r => r.matchesClaim identity cls) = some r := by
    refine find_filterMap _ _ n.val r (by rw [getElem?_rules, valid]) decides fun m lower q listed => ?_
    obtain ⟨inside, rule⟩ := rule_of_getElem? listed
    exact Bool.eq_false_iff.2 (first ⟨m, inside⟩ q lower rule)
  rw [Table.verdict, found]

theorem verdict_of_none (none_ : ∀ n r, t.rules.get n = some r → ¬ r.matchesClaim identity cls = true) :
    t.verdict identity cls = t.params.defaultAction.verdict := by
  have found : ((t.rules.toList.filterMap id).find? fun r => r.matchesClaim identity cls) = none := by
    refine List.find?_eq_none.2 fun r among => ?_
    obtain ⟨o, listed, rule⟩ := List.mem_filterMap.1 among
    obtain ⟨m, at_⟩ := List.mem_iff_getElem?.1 listed
    obtain ⟨inside, valid⟩ := rule_of_getElem? (at_.trans (congrArg some rule))
    exact none_ ⟨m, inside⟩ r valid
  rw [Table.verdict, found]

/-- The range of a rule counts for ADMIT_IN_RANGE alone. -/
theorem verdict_eq (r : AdmissionRule) : r.verdict = {
    action := r.action, override := r.override, priority := r.priority
    low := if r.action = .admitInRange then r.low else 0x08
    high := if r.action = .admitInRange then r.high else 0x77 } := by
  unfold AdmissionRule.verdict
  split <;> rfl

end Verdict

/-- Settles O32: the first rule that matches decides, else the default; the state changes at the marks. -/
theorem admissionIsDecided : Obligations.AdmissionIsDecided := by
  unfold Obligations.AdmissionIsDecided
  intro t
  refine ⟨?verdict, fun opened low => ?_, fun restricted high => ?_, fun stays => ?_⟩
  case verdict =>
    intro identity cls fits
    simp only [fits, ← matchesClaim_iff]
    refine ⟨fun n r valid decides first => (verdict_of_rule n valid decides first).trans (verdict_eq r), fun none_ => ?_⟩
    rw [verdict_of_none none_]
    cases t.params.defaultAction <;> rfl
  · rw [Table.evaluateAdmission, opened]
    exact if_pos low
  · rw [Table.evaluateAdmission, restricted]
    exact if_pos high
  · obtain ⟨opened, high⟩ | ⟨restricted, low⟩ := stays
    · rw [Table.evaluateAdmission, opened]
      exact if_neg high.not_gt
    · rw [Table.evaluateAdmission, restricted]
      exact if_neg low.not_ge

/-! ### The replacement of a descriptor (R16 to R18) -/

section Descriptors

variable {t : Table} {i : EntryIx} {d bytes : List Byte} {cut truncate : Bool} {available : Nat}

theorem fitDescriptor_of_room (room : Table.blocksNeeded d.length ≤ available) :
    Table.fitDescriptor truncate available d = some (d, false) := if_pos room

theorem fitDescriptor_of_tight (tight : available < Table.blocksNeeded d.length) : Table.fitDescriptor truncate available d =
    if truncate then some (d.take (8 + 16 * available), true) else none := if_neg tight.not_ge

/-- What fits is no longer than what was given. -/
theorem length_of_fitDescriptor (fits : Table.fitDescriptor truncate available d = some (bytes, cut)) :
    bytes.length ≤ d.length := by
  by_cases room : Table.blocksNeeded d.length ≤ available
  · cases (fitDescriptor_of_room room).symm.trans fits
    exact le_rfl
  · rw [fitDescriptor_of_tight (Nat.lt_of_not_le room)] at fits
    cases truncate with
    | false => cases fits
    | true =>
      cases fits
      exact List.length_take_le' ..

/-- Blocks for all of a descriptor of at most 40 bytes have room for what is beyond its eighth byte. -/
theorem blocksNeeded_room {n : Nat} (short : n ≤ 40) : n - 8 ≤ 16 * Table.blocksNeeded n := by
  unfold Table.blocksNeeded
  split
  · omega
  · split <;> omega

theorem descriptor_replaceDescriptor (k : EntryIx) : (t.replaceDescriptor i bytes cut).descriptor k =
    ((t.dropDescriptor i).storeDescriptor i bytes cut).descriptor k := by
  unfold Table.replaceDescriptor
  simp only
  split <;> rfl

theorem descriptor_of_replaced (partitioned : t.PoolIsPartitioned) (short : bytes.length ≤ 40)
    (room : Table.blocksNeeded bytes.length ≤ (t.entry i).blocks.length + t.freeBlocks.length) :
    (t.replaceDescriptor i bytes cut).descriptor i = bytes := by
  have all : (bytes.drop 8).length ≤ 16 * Table.blocksNeeded bytes.length := by
    rw [List.length_drop]
    exact blocksNeeded_room short
  rw [descriptor_replaceDescriptor, Table.descriptor_storeDescriptor, List.length_take,
    Table.length_freeBlocks_dropDescriptor i partitioned, Nat.min_eq_left room, List.take_of_length_le all, List.take_append_drop]

/-- Another entry's blocks are neither the replaced entry's nor free, so they stay as they are. -/
theorem descriptor_of_other (partitioned : t.PoolIsPartitioned) {k : EntryIx} (other : k ≠ i) :
    (t.replaceDescriptor i bytes cut).descriptor k = t.descriptor k := by
  have entry : (t.replaceDescriptor i bytes cut).entry k = t.entry k := by rw [Table.entry_replaceDescriptor, if_neg other]
  refine Table.descriptor_congr (by rw [entry]) (by rw [entry]) fun b listed => ?_
  have apart : b ∉ (t.entry i).blocks := partitioned.apart k i other b listed
  have occupied : b ∉ (t.dropDescriptor i).freeBlocks := by
    intro free
    rw [Table.freeBlocks_dropDescriptor, List.mem_filter, decide_eq_true_iff] at free
    obtain own | empty := free.2
    · exact apart own
    · have := partitioned.occupied k b listed
      rw [empty] at this
      cases this
  rw [Table.replaceDescriptor_eq]
  show (Table.fillBlocks _ _ _).get b = _
  rw [Table.get_fillBlocks_of_not_mem _ _ _ _ fun taken => occupied (List.mem_of_mem_take taken), Table.get_emptyBlocks,
    if_neg apart]

end Descriptors

/-- Settles O33: what fits is the whole or its first bytes; a replacement drops the old bytes and stores the new ones in the lowest
free blocks. -/
theorem descriptorsAreReplaced : Obligations.DescriptorsAreReplaced := by
  unfold Obligations.DescriptorsAreReplaced
  intro t i d short needed
  refine ⟨fun truncate available => ⟨fitDescriptor_of_room, fun tight =>
    ⟨fitDescriptor_of_tight tight, fitDescriptor_of_tight tight⟩⟩, ?replaced⟩
  intro bytes cut partitioned own fits
  refine ⟨?_, ?_, fun k other => ⟨?_, descriptor_of_other partitioned other⟩, ?_⟩
  · exact descriptor_of_replaced partitioned ((length_of_fitDescriptor fits).trans short) (Table.fitDescriptor_room fits)
  · rw [Table.entry_replaceDescriptor, if_pos rfl, Table.freeBlocks_dropDescriptor]
    rfl
  · rw [Table.entry_replaceDescriptor, if_neg other]
  · rw [Table.replaceDescriptor_eq]

end Sys2Proof.Proofs.SharedDecisions

/-! PROOFS. INSERT (R161, R162) and RETIRE (R6, R167): the checks in their order, and the table after the command. -/

namespace Sys2Proof.Proofs.InsertAndRetire

open Sys2Proof.Machine
open Sys2Proof.Proofs.ShortAddresses (exec_of_serves inUseAddr_of_entry addrState_entry_eq_some_iff)

/-! ### IN_USE (13.4) -/

section InUse

variable {t : Table} {k : EntryIx} {a : Addr}

theorem inUseIdentity_of_address (at_ : (t.entry k).life.address = some a) : t.inUseIdentity k =
    { code := 0x03, payload := [1, addrByte a, (t.addr a).code, byteOf k.val, (t.entry k).generation] } := by
  rw [Table.inUseIdentity, at_]
  rfl

theorem inUseIdentity_of_none (nowhere : (t.entry k).life.address = none) : t.inUseIdentity k =
    { code := 0x03, payload := [1, 0, 0, byteOf k.val, (t.entry k).generation] } := by
  rw [Table.inUseIdentity, nowhere]
  rfl

theorem inUseAddr_of_no_entry (unnamed : (t.addr a).entry = none) : t.inUseAddr a =
    { code := 0x03, payload := [2, addrByte a, (t.addr a).code, 0, 0] } := by
  rw [Table.inUseAddr, unnamed]
  rfl

theorem addrState_entry_eq_none_iff (x : AddrState) :
    x.entry = none ↔ x = .fixed ∨ x = .reserved ∨ x = .free ∨ ∃ d, x = .quarantined d := by
  cases x <;> simp [AddrState.entry]

end InUse

/-! ### The checks of INSERT, each under the ones before it (R161) -/

section Insert

variable {now : Time} {t : Table} {identity : Identity} {cls address pinned : Byte} {lease : Half} {n : Byte} {d : List Byte}
  {c : ClassIx} {a : Addr} {pin : Bool} {k : EntryIx}

theorem serveInsert_of_argument (wrong : 15 < cls.toNat ∨ 0x7F < address.toNat ∨ 1 < pinned.toNat ∨ 40 < n.toNat ∨
    n.toNat ≠ d.length) : serveInsert now t identity cls address pinned lease n d = (.badArgument, t) := by
  unfold serveInsert
  split
  · next spelled_cls spelled_address spelled_pin =>
    refine if_pos (wrong.elim (fun beyond => ?_) fun wrong => wrong.elim (fun beyond => ?_) fun wrong =>
      wrong.resolve_left fun beyond => ?_)
    · cases (indexOf_of_le (n := 16) beyond).symm.trans spelled_cls
    · cases (addrOf_of_lt beyond).symm.trans spelled_address
    · cases (yesNoOf_of_lt beyond).symm.trans spelled_pin
  · rfl

theorem length_fits (short : n.toNat ≤ 40) (whole : n.toNat = d.length) : ¬ (40 < n.toNat ∨ n.toNat ≠ d.length) := by omega

theorem not_fixed_of_usable (usable : t.addr a = .free ∨ t.addr a = .reserved) : ¬ t.addr a = .fixed := by
  rintro fixed
  obtain free | reserved := usable
  · cases fixed.symm.trans free
  · cases fixed.symm.trans reserved

theorem not_taken_of_usable (usable : t.addr a = .free ∨ t.addr a = .reserved) :
    ¬ (t.addr a ≠ .free ∧ t.addr a ≠ .reserved) := fun ⟨notFree, notReserved⟩ => usable.elim notFree notReserved

variable (class_ : cls.toNat = c.val) (number : address.toNat = a.val) (pins : pinned = yesNo pin)
  (short : n.toNat ≤ 40) (whole : n.toNat = d.length)

include class_ number pins short whole

theorem serveInsert_of_known (known : t.lookup identity = some k) :
    serveInsert now t identity cls address pinned lease n d = (t.inUseIdentity k, t) := by
  simp only [serveInsert, indexOf_of_eq class_, addrOf_of_eq number, pins, yesNoOf_yesNo, if_neg (length_fits short whole), known]

variable (unknown : t.lookup identity = none)

include unknown

theorem serveInsert_of_fixed (fixed : t.addr a = .fixed) :
    serveInsert now t identity cls address pinned lease n d = (.badArgument, t) := by
  simp only [serveInsert, indexOf_of_eq class_, addrOf_of_eq number, pins, yesNoOf_yesNo, if_neg (length_fits short whole), unknown, if_pos fixed]

theorem serveInsert_of_taken (notFixed : t.addr a ≠ .fixed) (notFree : t.addr a ≠ .free) (notReserved : t.addr a ≠ .reserved) :
    serveInsert now t identity cls address pinned lease n d = (t.inUseAddr a, t) := by
  simp only [serveInsert, indexOf_of_eq class_, addrOf_of_eq number, pins, yesNoOf_yesNo, if_neg (length_fits short whole), unknown,
    if_neg notFixed, if_pos (And.intro notFree notReserved)]

variable (usable : t.addr a = .free ∨ t.addr a = .reserved)

include usable

theorem serveInsert_of_fullBucket (full : 4 ≤ (t.bucket (bucketOf t.seed identity)).length) :
    serveInsert now t identity cls address pinned lease n d = (.bucketFull (bucketOf t.seed identity), t) := by
  simp only [serveInsert, indexOf_of_eq class_, addrOf_of_eq number, pins, yesNoOf_yesNo, if_neg (length_fits short whole), unknown,
    if_neg (not_fixed_of_usable usable), if_neg (not_taken_of_usable usable), Config.bucketCapacity, if_pos full]

variable (room : (t.bucket (bucketOf t.seed identity)).length < 4)

include room

theorem serveInsert_of_noEntry (noEntry : t.lowestVacant = none) :
    serveInsert now t identity cls address pinned lease n d = (.full .entries, t) := by
  simp only [serveInsert, indexOf_of_eq class_, addrOf_of_eq number, pins, yesNoOf_yesNo, if_neg (length_fits short whole), unknown,
    if_neg (not_fixed_of_usable usable), if_neg (not_taken_of_usable usable), Config.bucketCapacity, if_neg room.not_ge, noEntry]

variable (entry : t.lowestVacant = some k)

include entry

theorem serveInsert_of_noFit
    (noFit : Table.fitDescriptor t.params.truncateDescriptors t.freeBlocks.length d = none) :
    serveInsert now t identity cls address pinned lease n d = (.full .descriptor, t) := by
  simp only [serveInsert, indexOf_of_eq class_, addrOf_of_eq number, pins, yesNoOf_yesNo, if_neg (length_fits short whole), unknown,
    if_neg (not_fixed_of_usable usable), if_neg (not_taken_of_usable usable), Config.bucketCapacity, if_neg room.not_ge, entry,
    noFit]

theorem serveInsert_of_fit {bytes : List Byte} {cut : Bool}
    (fits : Table.fitDescriptor t.params.truncateDescriptors t.freeBlocks.length d = some (bytes, cut)) :
    serveInsert now t identity cls address pinned lease n d =
      (.ok ([byteOf k.val, ((insertEntry now t k identity c a pin lease bytes cut).entry k).generation, addrByte a] ++
        halfBytes (t.fixedLease c lease) ++ [yesNo cut]), insertEntry now t k identity c a pin lease bytes cut) := by
  simp only [serveInsert, indexOf_of_eq class_, addrOf_of_eq number, pins, yesNoOf_yesNo, if_neg (length_fits short whole), unknown,
    if_neg (not_fixed_of_usable usable), if_neg (not_taken_of_usable usable), Config.bucketCapacity, if_neg room.not_ge, entry,
    fits]

end Insert

theorem generation_insertEntry (now : Time) (t : Table) (k : EntryIx) (identity : Identity) (c : ClassIx) (a : Addr) (pin : Bool)
    (lease : Half) (bytes : List Byte) (cut : Bool) :
    ((insertEntry now t k identity c a pin lease bytes cut).entry k).generation = (t.entry k).generation + 1 := by
  rw [insertEntry_eq]
  simp only [Table.entry_evaluateAdmission]
  cases t.refusedSlot identity <;> cases pin <;> simp [Table.entry, Table.withTaken, Table.get_set]

/-- Settles O36: the bytes of IN_USE, the checks of R161 one under the other, and the entry bound as R162 has it. -/
theorem insertBinds : Obligations.InsertBinds := by
  unfold Obligations.InsertBinds
  refine ⟨fun t k => ⟨fun a => inUseIdentity_of_address, inUseIdentity_of_none⟩, fun t a => ⟨fun k names =>
    inUseAddr_of_entry ((addrState_entry_eq_some_iff _ k).2 names), fun unnamed =>
    inUseAddr_of_no_entry ((addrState_entry_eq_none_iff _).2 unnamed)⟩, ?_⟩
  intro s identity cls address pinned lease n d i t now b run granted
  refine ⟨fun wrong => exec_of_serves rfl granted (serveInsert_of_argument wrong),
    fun c a pin class_ number pins short whole => ⟨fun k known =>
      exec_of_serves rfl granted (serveInsert_of_known class_ number pins short whole known), fun unknown => ⟨fun fixed =>
      exec_of_serves rfl granted (serveInsert_of_fixed class_ number pins short whole unknown fixed),
      fun notFixed notFree notReserved => exec_of_serves rfl granted
        (serveInsert_of_taken class_ number pins short whole unknown notFixed notFree notReserved), fun usable => ⟨fun full =>
      exec_of_serves rfl granted (serveInsert_of_fullBucket class_ number pins short whole unknown usable full),
      fun room => ⟨fun noEntry => exec_of_serves rfl granted
        (serveInsert_of_noEntry class_ number pins short whole unknown usable room noEntry), ?_⟩⟩⟩⟩⟩
  intro k entry fit
  refine ⟨fun noFit => exec_of_serves rfl granted
    (serveInsert_of_noFit class_ number pins short whole unknown usable room entry noFit), ?_⟩
  intro bytes cut fits duration deadline ok unrefused
  have serves := serveInsert_of_fit (now := now) (lease := lease) class_ number pins short whole unknown usable room entry fits
  rw [generation_insertEntry] at serves
  refine ⟨fun yes => ?_, fun no => ?_⟩
  · subst yes
    rw [insertEntry_eq] at serves
    refine exec_of_serves rfl granted (serves.trans ?_)
    simp only [unrefused]
    cases t.refusedSlot identity <;> rfl
  · subst no
    rw [insertEntry_eq] at serves
    refine exec_of_serves rfl granted (serves.trans ?_)
    simp only [unrefused]
    cases t.refusedSlot identity <;> rfl

/-! ### RETIRE (R6, R167) -/

section Retire

variable {now : Time} {t : Table} {index generation freeNow : Byte} {k : EntryIx}

theorem serveRetire_of_error {r : Result} (refuses : t.guardEntry index generation = .error r) :
    serveRetire now t index generation freeNow = (r, t) := by
  simp only [serveRetire, refuses]

theorem serveRetire_of_flag (passes : t.guardEntry index generation = .ok k) (wrong : 1 < freeNow.toNat) :
    serveRetire now t index generation freeNow = (.badArgument, t) := by
  simp only [serveRetire, passes, yesNoOf_of_lt wrong]

/-- Past the checks the entry is retired, and the result reports what it was. -/
theorem serveRetire_of_ok {free : Bool} (passes : t.guardEntry index generation = .ok k) (flag : freeNow = yesNo free) :
    serveRetire now t index generation freeNow = (.ok [byteOf k.val, (t.entry k).generation, (t.entry k).life.state.code,
      indexByte (t.entry k).life.address,
      ((t.entry k).life.address.map fun a => ((t.retireAndEvaluate now free k).addr a).code).getD 0],
      t.retireAndEvaluate now free k) := by
  simp only [serveRetire, passes, flag, yesNoOf_yesNo]

end Retire

theorem life_ne_vacant_of_state {l : EntryLife} (live : l.state ≠ .vacant) : l ≠ .vacant := by
  rintro rfl
  exact live rfl

/-- Settles O39: the guard, the flag, and the retirement that the entry's state has. -/
theorem retireRetires : Obligations.RetireRetires := by
  unfold Obligations.RetireRetires
  intro s index generation freeNow i t now run granted
  obtain ⟨beyond, guards⟩ := guardEntry_cases t index generation
  refine ⟨fun outside => exec_of_serves rfl granted (serveRetire_of_error (beyond outside)), fun k number => ?_⟩
  obtain ⟨vacant, stale, passes⟩ := guards k number
  refine ⟨fun empty => exec_of_serves rfl granted (serveRetire_of_error (vacant empty)),
    fun live other => exec_of_serves rfl granted (serveRetire_of_error (stale live other)),
    fun live same wrong => exec_of_serves rfl granted (serveRetire_of_flag (passes live same) wrong), fun free same flag => ?_⟩
  have retires (live : (t.entry k).life ≠ .vacant) := serveRetire_of_ok (now := now) (passes live same) flag
  simp only [byteOf_of_eq number, ← same, Table.retireAndEvaluate] at retires
  refine ⟨fun j life => ?_, fun j a l old life => ?_, fun a at_ => ⟨fun state => ?_, fun lapsed => ?_⟩⟩
  · have serves := retires (by rw [life]; exact nofun)
    rw [Table.retireEntry_awaiting now free life, life] at serves
    exact exec_of_serves rfl granted serves
  · have serves := retires (by rw [life]; exact nofun)
    rw [Table.retireEntry_offered now free life, life] at serves
    simp only [EntryLife.address, Option.map_some, Option.getD_some, Table.addr, Table.map_evaluateAdmission, Table.get_set,
      if_true] at serves
    exact exec_of_serves rfl granted serves
  · have serves := retires (life_ne_vacant_of_state (by obtain state | state := state <;> rw [state] <;> exact nofun))
    rw [Table.retireEntry_listed now free at_ state, at_] at serves
    simp only [Option.map_some, Option.getD_some, code_withReleased] at serves
    exact exec_of_serves rfl granted serves
  · have serves := retires (life_ne_vacant_of_state (by rw [lapsed]; exact nofun))
    rw [Table.retireEntry_lapsed now free at_ lapsed, at_, lapsed] at serves
    simp only [Option.map_some, Option.getD_some, code_withReleased] at serves
    exact exec_of_serves rfl granted serves

end Sys2Proof.Proofs.InsertAndRetire

/-! PROOFS. MODIFY (R6, R164, R165): its result, the guard and the checks in their order, and the fields one by one. -/

namespace Sys2Proof.Proofs.Modifications

open Sys2Proof.Machine
open Sys2Proof.Proofs.ShortAddresses (exec_of_serves)
open Sys2Proof.Proofs.InsertAndRetire (life_ne_vacant_of_state)

/-! ### The checks (R6, R164) -/

section Checks

variable {now : Time} {t : Table} {index generation selection cls pinned : Byte} {lease : Half} {address n : Byte} {d : List Byte}
  {k : EntryIx} {x : Edit}

theorem serveModify_of_error {r : Result} (refuses : t.guardEntry index generation = .error r) :
    serveModify now t index generation selection cls pinned lease address n d = (r, t) := by
  simp only [serveModify, refuses]

variable (passes : t.guardEntry index generation = .ok k)

include passes

theorem serveModify_of_state (other : (t.entry k).life.state = .awaiting ∨ (t.entry k).life.state = .offered ∨
    (t.entry k).life.state = .lapsed) : serveModify now t index generation selection cls pinned lease address n d =
      (.refusedState [(t.entry k).life.state.code], t) := by
  cases life : (t.entry k).life with
  | awaiting _ | offered _ _ _ _ | lapsed _ _ _ => simp only [serveModify, passes, life]
  | vacant | bound _ _ _ | unverified _ _ _ => simp [life, EntryLife.state] at other

variable (state : (t.entry k).life.state = .bound ∨ (t.entry k).life.state = .unverified)

include state

theorem serveModify_of_unspelled (unspelled : ∀ x : Edit, ¬ x.Spelled t selection cls pinned lease address n d) :
    serveModify now t index generation selection cls pinned lease address n d = (.badArgument, t) := by
  have none_ : editOf t selection cls pinned lease address n d = none :=
    Option.eq_none_iff_forall_ne_some.2 fun x spelled => unspelled x ((editOf_iff ..).1 spelled)
  cases life : (t.entry k).life with
  | bound _ _ _ | unverified _ _ _ => simp only [serveModify, passes, life, none_]
  | vacant | awaiting _ | offered _ _ _ _ | lapsed _ _ _ => simp [life, EntryLife.state] at state

theorem serveModify_of_spelled (spelled : x.Spelled t selection cls pinned lease address n d) :
    serveModify now t index generation selection cls pinned lease address n d = serveEdit now t k x := by
  have edit := (editOf_iff ..).2 spelled
  cases life : (t.entry k).life with
  | bound _ _ _ | unverified _ _ _ => simp only [serveModify, passes, life, edit]
  | vacant | awaiting _ | offered _ _ _ _ | lapsed _ _ _ => simp [life, EntryLife.state] at state

end Checks

section Edits

variable {now : Time} {t : Table} {k : EntryIx} {x : Edit}

theorem moves_iff (a : Addr) : (decide (some a ≠ (t.entry k).life.address) && decide (t.addr a ≠ .free)) = true ↔
    (t.entry k).life.address ≠ some a ∧ t.addr a ≠ .free := by
  rw [Bool.and_eq_true_iff, decide_eq_true_iff, decide_eq_true_iff, ne_comm]

theorem serveEdit_of_taken {a : Addr} (asks : x.address = some a) (moves : (t.entry k).life.address ≠ some a)
    (taken : t.addr a ≠ .free) : serveEdit now t k x = (t.inUseAddr a, t) := by
  simp only [serveEdit, asks, Option.filter_some, (moves_iff a).2 ⟨moves, taken⟩, if_true]

variable (clear : ∀ a, x.address = some a ∧ (t.entry k).life.address ≠ some a → t.addr a = .free)

include clear

theorem moves_eq_none :
    (x.address.filter fun a => decide (some a ≠ (t.entry k).life.address) && decide (t.addr a ≠ .free)) = none :=
  Option.filter_eq_none_iff.2 fun a asks passes =>
    let ⟨moves, taken⟩ := (moves_iff a).1 passes
    taken (clear a ⟨asks, moves⟩)

theorem serveEdit_of_no_descriptor (without : x.descriptor = none) : serveEdit now t k x =
    (.ok (modifyPayload (applyEdit now t k x none) k), applyEdit now t k x none) := by
  simp only [serveEdit, moves_eq_none clear, without, Option.map_none, Option.join_none]

theorem serveEdit_of_noFit {d : List Byte} (replaces : x.descriptor = some d) (noFit : t.fitReplacement k d = none) :
    serveEdit now t k x = (.full .descriptor, t) := by
  simp only [serveEdit, moves_eq_none clear, replaces, Option.map_some, noFit]

theorem serveEdit_of_fit {d : List Byte} {stored : List Byte × Bool} (replaces : x.descriptor = some d)
    (fits : t.fitReplacement k d = some stored) : serveEdit now t k x =
      (.ok (modifyPayload (applyEdit now t k x (some stored)) k), applyEdit now t k x (some stored)) := by
  simp only [serveEdit, moves_eq_none clear, replaces, Option.map_some, fits, Option.join_some]

end Edits

/-- Settles O37: the fields of the result, and R164's checks one under the other. -/
theorem modifyIsChecked : Obligations.ModifyIsChecked := by
  unfold Obligations.ModifyIsChecked
  refine ⟨fun t k => ⟨fun a lease life => ?_, fun a lease d life => ?_, fun a lease d life => ?_⟩, ?_⟩
  · simp only [modifyPayload, life]
    rfl
  · simp only [modifyPayload, life]
    rfl
  · simp only [modifyPayload, life]
    rfl
  intro s index generation selection cls pinned lease address n d i t run spells granted
  obtain ⟨beyond, guards⟩ := guardEntry_cases t index generation
  refine ⟨fun outside => exec_of_serves rfl granted (serveModify_of_error (beyond outside)), fun k number => ?_⟩
  obtain ⟨vacant, stale, passes⟩ := guards k number
  refine ⟨fun empty => exec_of_serves rfl granted (serveModify_of_error (vacant empty)),
    fun live other => exec_of_serves rfl granted (serveModify_of_error (stale live other)), fun same state => ?_,
    fun same state => ?_⟩
  · have live : (t.entry k).life ≠ .vacant :=
      life_ne_vacant_of_state (by obtain state | state | state := state <;> rw [state] <;> exact nofun)
    exact exec_of_serves rfl granted (serveModify_of_state (passes live same) state)
  · have live : (t.entry k).life ≠ .vacant :=
      life_ne_vacant_of_state (by obtain state | state := state <;> rw [state] <;> exact nofun)
    have passes := passes live same
    refine ⟨fun unspelled => exec_of_serves rfl granted (serveModify_of_unspelled passes state unspelled), ?_⟩
    intro x spelled moves fit
    have edits := serveModify_of_spelled (now := s.expiry.time) passes state spelled
    refine ⟨fun a asks taken => exec_of_serves rfl granted (edits.trans (serveEdit_of_taken asks.1 asks.2 taken)), ?_⟩
    intro clear edited
    refine ⟨fun without => exec_of_serves rfl granted (edits.trans (serveEdit_of_no_descriptor clear without)), fun d' replaces =>
      ⟨fun noFit => exec_of_serves rfl granted (edits.trans (serveEdit_of_noFit clear replaces noFit)),
        fun stored fits => exec_of_serves rfl granted (edits.trans (serveEdit_of_fit clear replaces fits))⟩⟩

/-! ### The fields in order (R165) -/

section Fields

variable {now : Time} {t : Table} {k : EntryIx} {a b : Addr} {l : Half}

theorem changeSet_withReleased (t : Table) (freeNow : Bool) : (t.withReleased now freeNow a).changeSet = t.changeSet := by
  unfold Table.withReleased
  simp only
  split <;> rfl

theorem editLease_of_bound {old : Option Time} (life : (t.entry k).life = .bound a l old) (lease : Half) :
    editLease t k (some lease) = { t with entries := t.entries.set k { t.entry k with life := .bound a lease old } } := by
  simp only [editLease, life]
  rfl

theorem editLease_of_unverified {old : Time} (life : (t.entry k).life = .unverified a l old) (lease : Half) :
    editLease t k (some lease) = { t with entries := t.entries.set k { t.entry k with life := .unverified a lease old } } := by
  simp only [editLease, life]
  rfl

theorem editPin_true_of_pinned (life : (t.entry k).life = .bound a l none) : editPin now t k (some true) = t := by
  simp only [editPin, life]

/-- Clearing the pin starts a lease. -/
theorem editPin_false_of_pinned (life : (t.entry k).life = .bound a l none) : editPin now t k (some false) =
    { t.withLease k (t.entry k) a l (afterSeconds now l) with changeSet := insertAscending k t.changeSet } := by
  simp only [editPin, life]
  rfl

theorem editPin_false_of_leased {d : Time} (life : (t.entry k).life = .bound a l (some d)) :
    editPin now t k (some false) = t := by
  simp only [editPin, life]

/-- Setting the pin ends the lease. -/
theorem editPin_true_of_leased {d : Time} (life : (t.entry k).life = .bound a l (some d)) : editPin now t k (some true) = { t with
    entries := t.entries.set k { t.entry k with life := .bound a l none }
    deadlines := t.deadlines.filter fun x => x.kind.owner ≠ Owner.entry k
    changeSet := insertAscending k t.changeSet } := by
  simp only [editPin, life]
  rfl

theorem editPin_false_of_unverified {old : Time} (life : (t.entry k).life = .unverified a l old) :
    editPin now t k (some false) = t := by
  simp only [editPin, life]

theorem editPin_true_of_unverified {old : Time} (life : (t.entry k).life = .unverified a l old) :
    editPin now t k (some true) = { t with
      entries := t.entries.set k { t.entry k with life := .bound a l none }
      deadlines := t.deadlines.filter fun x => x.kind.owner ≠ Owner.entry k
      changeSet := insertAscending k t.changeSet } := by
  simp only [editPin, life]
  rfl

theorem editAddress_of_eq (at_ : (t.entry k).life.address = some a) : editAddress now t k (some a) = t := by
  simp only [editAddress, at_, if_true]

theorem editClass_of_ne {c : ClassIx} (other : c ≠ (t.entry k).cls) : editClass t k (some c) = { t with
    entries := t.entries.set k { t.entry k with cls := c }
    classes := (t.classes.set (t.entry k).cls { t.classRecord (t.entry k).cls with
        members := (t.classRecord (t.entry k).cls).members.filter (· ≠ k)
        generation := (t.classRecord (t.entry k).cls).generation + 1 }).set c { t.classRecord c with
        members := (t.classRecord c).members ++ [k], generation := (t.classRecord c).generation + 1 }
    changeSet := insertAscending k t.changeSet } := by
  have record : (t.removeMember (t.entry k).cls k).classRecord c = t.classRecord c := by
    rw [Table.removeMember_eq]
    exact (Table.get_set ..).trans (if_neg other)
  simp only [editClass, if_neg other, Table.appendMember, record]
  rfl

theorem editAddress_of_ne (other : a ≠ b) (at_ : (t.entry k).life.address = some a) : editAddress now t k (some b) =
    { (({ t with
        entries := t.entries.set k { t.entry k with life := (t.entry k).life.movedTo b }
        map := t.map.set b (.bound k) } : Table).withReleased now false a) with
      changeSet := insertAscending k t.changeSet } := by
  simp only [editAddress, at_, if_neg other.symm, Table.releaseAddr_eq, Table.addChange, changeSet_withReleased]
  rfl

end Fields

/-- Settles O38: each field's edit from the state it finds. -/
theorem modifyAppliesFieldsInOrder : Obligations.ModifyAppliesFieldsInOrder := by
  unfold Obligations.ModifyAppliesFieldsInOrder
  intro t now k e ends relived changed itemless
  refine ⟨fun _ _ => rfl, rfl, rfl, rfl, rfl, rfl, fun _ _ => rfl, fun a l old life => ⟨editLease_of_bound life, fun pinned => ?_,
    fun leased => ?_⟩, fun a l old life => ⟨editLease_of_unverified life, editPin_false_of_unverified life,
      editPin_true_of_unverified life⟩, if_pos rfl, fun c other => editClass_of_ne other, fun a at_ => editAddress_of_eq at_,
    fun a b l old other life => ?_, fun a b l old other life => ?_⟩
  · subst pinned
    exact ⟨editPin_true_of_pinned life, editPin_false_of_pinned life⟩
  · obtain ⟨d, rfl⟩ := Option.ne_none_iff_exists'.1 leased
    exact ⟨editPin_false_of_leased life, editPin_true_of_leased life⟩
  · have moves := editAddress_of_ne (now := now) (t := t) (k := k) other (by rw [life]; rfl)
    rw [life] at moves
    exact moves
  · have moves := editAddress_of_ne (now := now) (t := t) (k := k) other (by rw [life]; rfl)
    rw [life] at moves
    exact moves

end Sys2Proof.Proofs.Modifications

/-! PROOFS. APPROVE (R96, R97) and NEXT CHANGE (R174): the guard, the address, and the table after the command. -/

namespace Sys2Proof.Proofs.Approvals

open Sys2Proof.Machine
open Sys2Proof.Proofs.ShortAddresses (exec_of_serves)

/-! ### The address of an APPROVE (R96) -/

section Address

variable {t : Table} {claim : SlotClaim} {address : Byte} {a : Addr}

theorem approveAddr_of_none (choice : address = 0) (none_ : t.chooseAddr claim.low claim.high none = none) :
    approveAddr t claim address = .error (.full .addresses) := by
  rw [approveAddr, if_pos choice, none_]

theorem approveAddr_of_choice (choice : address = 0) (chosen : t.chooseAddr claim.low claim.high none = some a) :
    approveAddr t claim address = .ok a := by
  rw [approveAddr, if_pos choice, chosen]

theorem approveAddr_of_beyond (beyond : 0x7F < address.toNat) : approveAddr t claim address = .error .badArgument := by
  have named : address ≠ 0 := by
    rintro rfl
    exact absurd beyond (by decide)
  rw [approveAddr, if_neg named, addrOf_of_lt beyond]

variable (named : address ≠ 0) (number : address.toNat = a.val)

include named number

theorem approveAddr_of_outside (outside : a < claim.low ∨ claim.high < a ∨ t.addr a = .fixed) :
    approveAddr t claim address = .error .badArgument := by
  have refused : Table.inRange claim.low claim.high a = false ∨ t.addr a = .fixed := by
    rw [Table.inRange, Bool.and_eq_false_iff, decide_eq_false_iff_not, decide_eq_false_iff_not, not_le, not_le, or_assoc]
    exact outside
  simp only [approveAddr, if_neg named, addrOf_of_eq number, if_pos refused]

variable (low : claim.low ≤ a) (high : a ≤ claim.high)

include low high

/-- An address of the range that is not FIXED is taken or chosen. -/
theorem approveAddr_of_inside (notFixed : t.addr a ≠ .fixed) : approveAddr t claim address =
    if t.addr a ≠ .free then .error (t.inUseAddr a) else .ok a := by
  have allowed : ¬ (Table.inRange claim.low claim.high a = false ∨ t.addr a = .fixed) := by
    rw [Table.inRange, decide_eq_true low, decide_eq_true high]
    simpa using notFixed
  simp only [approveAddr, if_neg named, addrOf_of_eq number, if_neg allowed]

end Address

/-! ### APPROVE (R96, R97) -/

section Approve

variable {now : Time} {t : Table} {slot generation address : Byte} {j : SlotIx} {claim : SlotClaim} {k : EntryIx} {a : Addr}

theorem serveApprove_of_error {r : Result} (refuses : t.guardSlot slot generation = .error r) :
    serveApprove now t slot generation address = (r, t) := by
  simp only [serveApprove, refuses]

variable (passes : t.guardSlot slot generation = .ok (j, claim, k))

include passes

theorem serveApprove_of_no_address {r : Result} (refuses : approveAddr t claim address = .error r) :
    serveApprove now t slot generation address = (r, t) := by
  simp only [serveApprove, passes, refuses]

theorem serveApprove_of_address (chosen : approveAddr t claim address = .ok a) : serveApprove now t slot generation address =
    (.ok ([byteOf j.val, byteOf k.val, (t.entry k).generation, addrByte a] ++ halfBytes t.params.offerTime),
      approveClaim now t j claim k a) := by
  simp only [serveApprove, passes, chosen]

end Approve

/-- Settles O42: the guard, the address, and the AWAITING entry OFFERED with its slot and its item. -/
theorem approveOffers : Obligations.ApproveOffers := by
  unfold Obligations.ApproveOffers
  intro s slot generation address i t run granted
  obtain ⟨beyond, guards⟩ := guardSlot_cases t slot generation
  refine ⟨fun outside => exec_of_serves rfl granted (serveApprove_of_error (beyond outside)), fun j number => ?_⟩
  obtain ⟨idle, stale, passes⟩ := guards j number
  refine ⟨fun free => exec_of_serves rfl granted (serveApprove_of_error (idle free)),
    fun claim k awaits other => exec_of_serves rfl granted (serveApprove_of_error (stale claim k awaits other)),
    fun claim k awaits same => ?_⟩
  have passes := passes claim k awaits same
  have refuses {r : Result} (address : approveAddr t claim address = .error r) : run r t :=
    exec_of_serves rfl granted (serveApprove_of_no_address passes address)
  refine ⟨fun choice none_ => refuses (approveAddr_of_none choice none_), fun a named at_ => ⟨fun outside =>
    refuses (approveAddr_of_outside named at_ outside), fun low high notFixed taken =>
    refuses ((approveAddr_of_inside named at_ low high notFixed).trans (if_pos taken))⟩, fun far =>
    refuses (approveAddr_of_beyond far), fun a chosen => ?_⟩
  have address_ : approveAddr t claim address = .ok a := by
    obtain ⟨choice, chosen⟩ | ⟨named, at_, low, high, free⟩ := chosen
    · exact approveAddr_of_choice choice chosen
    · exact (approveAddr_of_inside named at_ low high (by rw [free]; exact nofun)).trans (if_neg (not_not_intro free))
  have serves := serveApprove_of_address (now := s.expiry.time) passes address_
  rw [byteOf_of_eq number, ← same] at serves
  exact exec_of_serves rfl granted serves

/-! ### NEXT CHANGE (R174) -/

section NextChange

variable {now : Time} {t : Table}

theorem serveNextChange_of_empty (empty : t.changeSet = []) : serveNextChange now t = (.empty, t) := by
  simp only [serveNextChange, empty]

theorem serveNextChange_of_cons {i : EntryIx} {rest : List EntryIx} (changes : t.changeSet = i :: rest) :
    serveNextChange now t = (.ok (t.entryRecord now i ++ [byteOf rest.length]), { t with changeSet := rest }) := by
  simp only [serveNextChange, changes]

/-- The head of an ascending change set is its least index. -/
theorem lt_of_changeSetSorted {i : EntryIx} {rest : List EntryIx} (changes : t.changeSet = i :: rest)
    (sorted : t.ChangeSetSorted) : ∀ k ∈ rest, i < k := by
  rw [Table.ChangeSetSorted, changes] at sorted
  exact (List.pairwise_cons.1 sorted).1

end NextChange

/-- Settles O47: the change set is empty, or its head goes, which is the lowest while the set ascends. -/
theorem nextChangeTakesTheLowest : Obligations.NextChangeTakesTheLowest := by
  unfold Obligations.NextChangeTakesTheLowest
  intro s granted t run
  exact ⟨fun empty => exec_of_serves rfl granted (serveNextChange_of_empty empty), fun i rest changes =>
    ⟨exec_of_serves rfl granted (serveNextChange_of_cons changes), lt_of_changeSetSorted changes⟩⟩

end Sys2Proof.Proofs.Approvals

/-! PROOFS. The expiry operations (R36, R37, R47, R71 to R74, R94, R99, R101): whether an item still stands, and the table after its
operation. -/

namespace Sys2Proof.Proofs.Expiries

open Sys2Proof.Machine

/-- A granted expiry operation leaves the table that it serves. -/
theorem exec_of_expires {s : State} {i : Instr} {u t' : Table} (dispatch : exec i s = s.grantExpiry i u)
    (granted : Granted s .expiry i) (serves : u = t') : exec i s = .next (s.served .expiry t' .expiry) := by
  subst serves
  exact dispatch.trans (grantExpiry_of_granted granted _)

/-! ### An item at the service of its operation (R36, R71) -/

section Stands

variable {t : Table} {now : Time} {x : DeadlineItem}

theorem itemStands_iff : t.itemStands now x = true ↔
    (x ∈ t.deadlines ∧ due now x.deadline = true) ∧ ¬ (t.run ≠ none ∧ x.kind.deferred = true) := by
  rw [Table.itemStands, Bool.and_eq_true_iff, Bool.and_eq_true_iff, List.contains_iff_mem, Bool.not_eq_true',
    Bool.and_eq_false_iff, ← Bool.not_eq_true, ← Bool.not_eq_true, Option.isSome_iff_ne_none, not_and_or]

/-- A deferred kind stands only outside a run. -/
theorem itemStands_iff_of_deferred (deferred : x.kind.deferred = true) : t.itemStands now x = true ↔
    x ∈ t.deadlines ∧ due now x.deadline = true ∧ t.run = none := by
  simp only [itemStands_iff, deferred, and_true, not_not, ne_eq, and_assoc]

theorem itemStands_iff_of_not_deferred (prompt : x.kind.deferred = false) : t.itemStands now x = true ↔
    x ∈ t.deadlines ∧ due now x.deadline = true := by
  simp only [itemStands_iff, prompt, Bool.false_eq_true, and_false, not_false_eq_true, and_true]

theorem expire_of_stands (effect : Table) (stands : t.itemStands now x = true) : t.expire now x effect = effect := if_pos stands

theorem expire_of_fallen (effect : Table) (fallen : ¬ t.itemStands now x = true) : t.expire now x effect = t := if_neg fallen

end Stands

/-! ### What each operation does -/

section Effects

variable {now : Time} {t : Table} {k : EntryIx} {j : SlotIx} {a : Addr} {l : Half}

theorem offerExpired_of_offered {old : Time} (life : (t.entry k).life = .offered j a l old) : offerExpired now t k =
    { t.withoutEntry k with slots := t.slots.set j .free, map := t.map.set a .free }.evaluateAdmission := by
  simp only [offerExpired, life, Table.retireAndEvaluate, Table.retireEntry_offered now false life]

theorem approvalExpired_of_awaiting {claim : SlotClaim} (slot : t.slot j = .awaiting claim k)
    (life : (t.entry k).life = .awaiting j) : approvalExpired now t j = { t.withoutEntry k with
      slots := t.slots.set j .free
      deadlines := (t.withoutEntry k).deadlines.filter fun x => x.kind.owner ≠ Owner.slot j }.evaluateAdmission := by
  simp only [approvalExpired, slot, Table.retireAndEvaluate, Table.retireEntry_awaiting now false life]

theorem leaseLapsed_of_bound {old : Time} (life : (t.entry k).life = .bound a l (some old)) :
    leaseLapsed now t k = t.lapseEntry now k a l := by
  simp only [leaseLapsed, life]

theorem revalidationEnded_of_unverified {old : Time} (life : (t.entry k).life = .unverified a l old) :
    revalidationEnded now t k = t.lapseEntry now k a l := by
  simp only [revalidationEnded, life]

theorem holdEnded_of_lapsed {old : Time} (life : (t.entry k).life = .lapsed a l old) :
    holdEnded now t k = ((t.withoutEntry k).withReleased now false a).evaluateAdmission := by
  simp only [holdEnded, life, Table.retireAndEvaluate]
  rw [Table.retireEntry_lapsed (a := a) now false (by rw [life]; rfl) (by rw [life]; rfl)]

theorem quarantineEnded_of_due {d : Time} (queued : t.addr a = .quarantined d) (ended : due now d = true) :
    quarantineEnded now t a d = { t with
      map := t.map.set a .free, quarantine := t.quarantine.filter fun x => x.address ≠ a } := if_pos ⟨queued, ended⟩

theorem quarantineEnded_of_not {d : Time} (stays : t.addr a ≠ .quarantined d ∨ due now d = false) :
    quarantineEnded now t a d = t := by
  refine if_neg fun ⟨queued, ended⟩ => ?_
  obtain moved | early := stays
  · exact moved queued
  · cases ended.symm.trans early

end Effects

/-- Settles O52: an item that stands ends its claim; one that does not changes nothing. -/
theorem claimsAndQuarantinesExpire : Obligations.ClaimsAndQuarantinesExpire := by
  unfold Obligations.ClaimsAndQuarantinesExpire
  intro s deadline t now stands run
  have standing {kind : ItemKind} (deferred : kind.deferred = true) :
      t.itemStands now { kind, deadline } = true ↔ stands kind := itemStands_iff_of_deferred deferred
  refine ⟨fun k granted => ⟨fun fallen => ?_, fun j a l old up life => ?_⟩, fun j granted => ⟨fun fallen => ?_,
    fun claim k up slot life => ?_⟩, fun j granted => ⟨fun fallen => ?_, fun up => ?_⟩, fun a granted =>
    ⟨fun queued ended => exec_of_expires rfl granted (quarantineEnded_of_due queued ended),
      fun stays => exec_of_expires rfl granted (quarantineEnded_of_not stays)⟩⟩
  · exact exec_of_expires rfl granted (expire_of_fallen _ fun up => fallen ((standing rfl).1 up))
  · exact exec_of_expires rfl granted ((expire_of_stands _ ((standing rfl).2 up)).trans (offerExpired_of_offered life))
  · exact exec_of_expires rfl granted (expire_of_fallen _ fun up => fallen ((standing rfl).1 up))
  · exact exec_of_expires rfl granted ((expire_of_stands _ ((standing rfl).2 up)).trans (approvalExpired_of_awaiting slot life))
  · exact exec_of_expires rfl granted (expire_of_fallen _ fun up => fallen ((standing rfl).1 up))
  · exact exec_of_expires rfl granted (expire_of_stands _ ((standing rfl).2 up))

/-- Settles O53: an item that stands lapses or retires its binding; one that does not changes nothing. -/
theorem bindingsLapse : Obligations.BindingsLapse := by
  unfold Obligations.BindingsLapse
  intro s k deadline a l t now e hold ended stands run lapsed gone lapse
  have lapses {i : Instr} {u : Table} (dispatch : exec i s = s.grantExpiry i u) (granted : Granted s .expiry i)
      (serves : u = t.lapseEntry now k a l) : lapse i :=
    ⟨fun held => exec_of_expires dispatch granted (serves.trans (Table.lapseEntry_held now a l held)),
      fun short noRun => exec_of_expires dispatch granted (serves.trans (Table.lapseEntry_retired now l short noRun))⟩
  have standing {kind : ItemKind} (prompt : kind.deferred = false) :
      t.itemStands now { kind, deadline } = true ↔ stands kind := itemStands_iff_of_not_deferred prompt
  have holding : t.itemStands now { kind := .hold k, deadline } = true ↔ stands (.hold k) ∧ t.run = none :=
    (itemStands_iff_of_deferred rfl).trans and_assoc.symm
  refine ⟨fun granted => ⟨fun fallen => ?_, fun old up life => ?_⟩, fun granted => ⟨fun fallen => ?_, fun old up life => ?_⟩,
    fun granted => ⟨fun fallen => ?_, fun old up noRun life => ?_⟩⟩
  · exact exec_of_expires rfl granted (expire_of_fallen _ fun up => fallen ((standing rfl).1 up))
  · exact lapses rfl granted ((expire_of_stands _ ((standing rfl).2 up)).trans (leaseLapsed_of_bound life))
  · exact exec_of_expires rfl granted (expire_of_fallen _ fun up => fallen ((standing rfl).1 up))
  · exact lapses rfl granted ((expire_of_stands _ ((standing rfl).2 up)).trans (revalidationEnded_of_unverified life))
  · exact exec_of_expires rfl granted (expire_of_fallen _ fun up => fallen (holding.1 up))
  · exact exec_of_expires rfl granted ((expire_of_stands _ (holding.2 ⟨up, noRun⟩)).trans (holdEnded_of_lapsed life))

end Sys2Proof.Proofs.Expiries

/-! PROOFS. The REHASH run (R31 to R34, R38, R157): its first step, the visit of the entry at the cursor, the switch, and how a run goes
on or is aborted. -/

namespace Sys2Proof.Proofs.RehashRuns

open Sys2Proof.Machine
open Sys2Proof.Proofs.IdentityIndex (exec_rehashStep_of_granted)

/-! ### The visit of one entry (R32, R33) -/

section Visit

variable {t : Table} {r : RehashRun}

/-- The shadow index after the visit of the entry at the cursor. -/
def shadowAfter (t : Table) (r : RehashRun) : Vector (List EntryIx) 32 :=
  let b := bucketOf r.newSeed (t.entry r.cursor).identity
  if (t.entry r.cursor).life = .vacant then r.shadow else r.shadow.set b (insertAscending r.cursor (r.shadow.get b))

/-- A visit that does not overflow, then the cursor. -/
theorem visitEntry_eq_advanceCursor (room : (t.entry r.cursor).life = .vacant ∨
    (r.shadow.get (bucketOf r.newSeed (t.entry r.cursor).identity)).length < 4) :
    visitEntry t r = advanceCursor t r.newSeed (shadowAfter t r) r.cursor := by
  by_cases vacant : (t.entry r.cursor).life = .vacant
  · simp only [visitEntry, if_pos ((isVacant_iff _).2 vacant), shadowAfter, if_pos vacant]
  · have live : ¬ (t.entry r.cursor).life.isVacant = true := fun empty => vacant ((isVacant_iff _).1 empty)
    simp only [visitEntry, if_neg live, Config.bucketCapacity, if_neg (room.resolve_left vacant).not_ge, shadowAfter,
      if_neg vacant]

/-- After entry 95 the index switches. -/
theorem advanceCursor_last (seed : Half) (shadow : Vector (List EntryIx) 32) {k : EntryIx} (last : k = 95) :
    advanceCursor t seed shadow k = (.command (.ok (byteOf (Table.depth shadow) :: halfBytes seed)),
      { t with seed, index := shadow, run := none }) := by
  subst last
  rfl

end Visit

/-! ### The first step (R31) -/

section First

variable {t : Table} {seed : Half}

theorem serveRehash_of_eq (same : seed = t.seed) : serveRehash t seed =
    (.command (.ok (byteOf (Table.depth t.index) :: halfBytes t.seed)), t) := if_pos same

theorem get_replicate_nil (b : BucketIx) : (Vector.replicate 32 ([] : List EntryIx)).get b = [] :=
  Vector.getElem_replicate b.isLt

/-- A different seed begins a run with an empty shadow index, and visits entry 0. -/
theorem serveRehash_of_ne (other : seed ≠ t.seed) : serveRehash t seed = (.step, { t with run := some {
    newSeed := seed, cursor := 1
    shadow := shadowAfter t { newSeed := seed, shadow := Vector.replicate 32 [], cursor := 0 } } }) := by
  have begins : serveRehash t seed = visitEntry t { newSeed := seed, shadow := Vector.replicate 32 [], cursor := 0 } :=
    if_neg other
  rw [begins, visitEntry_eq_advanceCursor (.inr (by rw [get_replicate_nil]; decide))]
  exact advanceCursor_next t seed _ 0 1 rfl

end First

/-- Settles O48: the first step compares the seeds; a later one visits, then moves the cursor or switches. -/
theorem rehashVisitsEveryEntry : Obligations.RehashVisitsEveryEntry := by
  unfold Obligations.RehashVisitsEveryEntry
  intro s t run deepest
  refine ⟨fun seed granted => ?_, fun r granted going => ?_⟩
  · have serves {outcome : Service × Table} (eq : serveRehash t seed = outcome) :
        run (.rehash seed) outcome.1 outcome.2 := by
      subst eq
      exact grantHost_of_granted granted _
    refine ⟨fun same => serves (serveRehash_of_eq same), fun other vacant => ?_, fun other live => ?_⟩
    · have begins := serveRehash_of_ne other
      rw [shadowAfter, if_pos vacant] at begins
      exact serves begins
    · have begins := serveRehash_of_ne other
      simp only [shadowAfter, if_neg live, get_replicate_nil, insertAscending] at begins
      exact serves begins
  · intro k b room shadow
    have visits := visitEntry_eq_advanceCursor room
    exact ⟨fun next after => exec_rehashStep_of_granted granted going (visits.trans (advanceCursor_next t _ _ k next after)),
      fun last => exec_rehashStep_of_granted granted going (visits.trans (advanceCursor_last _ _ last))⟩

/-! ### How a run goes on, and ABORT (R32, R38, R157) -/

section Ends

variable {s : State}

theorem exec_stepCompletion (served : s.service = some .step) : exec .stepOperationCompletion s =
    .next { s.endService false with arbiter := { s.arbiter with host := some s.port.nextStep } }.lookForDue := by
  simp only [exec, execStepOperationCompletion, served]
  rfl

theorem serveRehashAbortEnding_of_run {t : Table} {r : RehashRun} (going : t.run = some r) :
    serveRehashAbortEnding t = (.command (.aborted r.cursor.val), { t with run := none }) := by
  rw [serveRehashAbortEnding, going]
  rfl

theorem exec_abort_of_waiting (waits : s.arbiter.host = some .abort) :
    exec .abort s = s.grantCommand .abort (.ok [], s.table) := if_pos waits

theorem exec_abort_of_request (none_ : s.arbiter.host ≠ some .abort) :
    exec .abort s = .next { s with port := s.port.requestAbort } := if_neg none_

theorem requestAbort_of_rehash {p : Port} (rehashes : p.executingRehash = true) :
    p.requestAbort = { p with abortRequest := true } := by
  rw [Port.requestAbort, rehashes, Bool.or_true]

theorem requestAbort_of_other {p : Port} (other : p.executingRehash = false) : p.requestAbort = p := by
  rw [Port.requestAbort, other, Bool.or_false]

end Ends

/-- Settles O50: a step's completion submits what comes next; ABORT is an operation when it waits, else a request. -/
theorem runsGoOnAndAbort : Obligations.RunsGoOnAndAbort := by
  unfold Obligations.RunsGoOnAndAbort
  intro s t
  refine ⟨?steps, fun r granted going => ?ending, fun granted => ?granted, fun seed none_ executes => ?rehash,
    fun i none_ executes other => ?other, fun none_ idle => ?idle, fun waits refused => ?waiting⟩
  case steps =>
    intro served ended
    refine ⟨fun goesOn => ?_, fun aborts => ?_⟩
    · have next : s.port.nextStep = .rehashStep := by rw [Port.nextStep, goesOn]; rfl
      rw [exec_stepCompletion served, next]
      rfl
    · have next : s.port.nextStep = .rehashAbortEnding := by rw [Port.nextStep, aborts]; rfl
      rw [exec_stepCompletion served, next]
      rfl
  case ending =>
    have grants : exec .rehashAbortEnding s = _ := grantHost_of_granted granted (serveRehashAbortEnding t)
    rw [grants, serveRehashAbortEnding_of_run going]
    rfl
  case granted =>
    have ⟨_, _, _, waits⟩ := granted
    exact (exec_abort_of_waiting waits).trans (grantCommand_of_granted granted _)
  case rehash =>
    have rehashes : s.port.executingRehash = true := by rw [Port.executingRehash, executes]; rfl
    rw [exec_abort_of_request none_, requestAbort_of_rehash rehashes]
  case other =>
    have not : s.port.executingRehash = false := by rw [Port.executingRehash, executes]; exact other
    rw [exec_abort_of_request none_, requestAbort_of_other not]
  case idle =>
    have not : s.port.executingRehash = false := by rw [Port.executingRehash, idle]
    rw [exec_abort_of_request none_, requestAbort_of_other not]
  case waiting => exact (exec_abort_of_waiting waits).trans (grantCommand_of_not_granted refused _)

end Sys2Proof.Proofs.RehashRuns

/-! PROOFS. RESET KEEP (R117, R185 to R188): the visit of one entry by its state, and the table and the counts that the walk leaves. -/

namespace Sys2Proof.Proofs.RetentionReset

open Sys2Proof.Machine

/-! ### One visit (R186) -/

section Visit

variable {now : Time} {w : Walk} {i : EntryIx} {j : SlotIx} {a : Addr} {l : Half}

theorem visit_of_awaiting (life : (w.table.entry i).life = .awaiting j) : (w.visit now i).table = { w.table.withoutEntry i with
    slots := w.table.slots.set j .free
    deadlines := (w.table.withoutEntry i).deadlines.filter fun x => x.kind.owner ≠ Owner.slot j } := by
  simp only [Walk.visit, life, Table.retireEntry_awaiting now false life]

theorem visit_of_offered {d : Time} (life : (w.table.entry i).life = .offered j a l d) : (w.visit now i).table =
    { w.table.withoutEntry i with slots := w.table.slots.set j .free, map := w.table.map.set a .free } := by
  simp only [Walk.visit, life, Table.retireEntry_offered now false life]

theorem visit_of_lapsed {d : Time} (life : (w.table.entry i).life = .lapsed a l d) :
    (w.visit now i).table = (w.table.withoutEntry i).withReleased now false a := by
  simp only [Walk.visit, life]
  exact Table.retireEntry_lapsed now false (by rw [life]; rfl) (by rw [life]; rfl)

theorem visit_of_leased {d : Time} (life : (w.table.entry i).life = .bound a l (some d)) :
    (w.visit now i).table = { w.table with
      entries := w.table.entries.set i
        { w.table.entry i with life := .unverified a l (afterSeconds now w.table.params.revalidateTime) }
      deadlines := insertBehind (fun x => !earlier (afterSeconds now w.table.params.revalidateTime) x.deadline)
        { kind := .revalidate i, deadline := afterSeconds now w.table.params.revalidateTime }
        (w.table.deadlines.filter fun x => x.kind.owner ≠ Owner.entry i)
      changeSet := insertAscending i w.table.changeSet } := by
  simp only [Walk.visit, life]
  rfl

theorem visit_of_stays (stays : (w.table.entry i).leaves = false) (quiet : (w.table.entry i).goesOnProbation = false) :
    (w.visit now i).table = w.table := by
  cases life : (w.table.entry i).life with
  | awaiting _ | offered _ _ _ _ | lapsed _ _ _ => simp [Entry.leaves, life, EntryLife.state] at stays
  | bound _ _ d =>
    cases d with
    | none => simp only [Walk.visit, life]
    | some d => simp [Entry.goesOnProbation, life, EntryLife.state, EntryLife.pinned] at quiet
  | vacant | unverified _ _ _ => simp only [Walk.visit, life]

end Visit

/-! ### Which entries a retention reset changes (R186) -/

section Entries

variable {e : Entry}

theorem leaves_iff : e.leaves = true ↔ e.life.state = .awaiting ∨ e.life.state = .offered ∨ e.life.state = .lapsed := by
  simp only [Entry.leaves, Bool.or_eq_true, decide_eq_true_iff, or_assoc]

theorem goesOnProbation_iff : e.goesOnProbation = true ↔ e.life.state = .bound ∧ e.life.pinned = false := by
  simp only [Entry.goesOnProbation, Bool.and_eq_true, decide_eq_true_iff, Bool.not_eq_true']

theorem afterRetention_of_leaves (now : Time) (p : Params) (leaves : e.leaves = true) : e.afterRetention now p =
    { e with life := .vacant, inlineBytes := [], blocks := [], truncated := false } := by
  cases life : e.life with
  | awaiting _ | offered _ _ _ _ | lapsed _ _ _ => simp only [Entry.afterRetention, life]
  | vacant | bound _ _ _ | unverified _ _ _ => simp [Entry.leaves, life, EntryLife.state] at leaves

theorem afterRetention_of_leased (now : Time) (p : Params) {a : Addr} {l : Half} {d : Time} (life : e.life = .bound a l (some d)) :
    e.afterRetention now p = { e with life := .unverified a l (afterSeconds now p.revalidateTime) } := by
  simp only [Entry.afterRetention, life]

theorem afterRetention_of_stays (now : Time) (p : Params) (stays : e.leaves = false) (quiet : e.goesOnProbation = false) :
    e.afterRetention now p = e := by
  cases life : e.life with
  | awaiting _ | offered _ _ _ _ | lapsed _ _ _ => simp [Entry.leaves, life, EntryLife.state] at stays
  | bound _ _ d =>
    cases d with
    | none => simp only [Entry.afterRetention, life]
    | some d => simp [Entry.goesOnProbation, life, EntryLife.state, EntryLife.pinned] at quiet
  | vacant | unverified _ _ _ => simp only [Entry.afterRetention, life]

end Entries

/-! ### The settled table (R117, R187) -/

section Settled

variable (t : Table)

theorem settleRetention_eq : t.settleRetention = { t with
    slots := Vector.replicate 4 .free
    deadlines := t.deadlines.filter fun x => match x.kind with
      | .lease _ | .revalidate _ => true
      | .offer _ | .hold _ | .approval _ | .refusal _ => false
    admission := if t.vacantCount < t.params.lowMark.toNat then .restricted else .opened } := rfl

theorem slot_settleRetention (j : SlotIx) : t.settleRetention.slot j = .free := Vector.getElem_replicate j.isLt

theorem kept_of_settleRetention : ∀ x ∈ t.settleRetention.deadlines, x.kind.kept = true := fun _ listed =>
  (List.mem_filter.1 listed).2

theorem restricted_settleRetention :
    t.settleRetention.admission = .restricted ↔ t.settleRetention.vacantCount < t.params.lowMark.toNat := by
  show (if t.vacantCount < t.params.lowMark.toNat then Admission.restricted else .opened) = .restricted ↔ t.vacantCount < _
  split
  · next low => exact iff_of_true rfl low
  · next high => exact iff_of_false nofun high

end Settled

/-- Settles O51: the walk visits each entry once in its state at the start; then slots, items and the admission state are settled. -/
theorem resetKeepKeepsBindings : Obligations.ResetKeepKeepsBindings := by
  unfold Obligations.ResetKeepKeepsBindings
  intro s granted t now deadline leaving probation
  obtain ⟨walk, start, steps, done, serves⟩ := serveResetKeep_steps now t
  obtain ⟨classes, rules, params, seed, run⟩ := done.rest
  replace params : (walk 96).table.params = t.params := params
  have retained (i : EntryIx) : ((walk 96).table.settleRetention.entry i) = (t.entry i).afterRetention now t.params :=
    (done.entry i).trans (if_pos (List.mem_finRange i))
  have stays_of {e : Entry} (stays : ¬ leaving e) : e.leaves = false := Bool.eq_false_iff.2 fun leaves => stays (leaves_iff.1 leaves)
  have quiet_of {e : Entry} (quiet : ¬ probation e) : e.goesOnProbation = false :=
    Bool.eq_false_iff.2 fun goes => quiet (goesOnProbation_iff.1 goes)
  refine ⟨fun n => (walk n).table, (walk 96).table.settleRetention, (walk 96).unverified, (walk 96).retired, ?runs,
    done.u.trans (Nat.zero_add _), done.r.trans (Nat.zero_add _), congrArg Walk.table start, fun i => ?visit, ?settled,
    fun i => ⟨fun leaves => ?_, fun a l d life => ?_, fun stays quiet => ?_⟩, fun i => ?changes, slot_settleRetention _,
    kept_of_settleRetention _, ?admission, classes, rules, params, seed, run⟩
  case runs =>
    have grants : exec .resetKeep s = _ := grantHost_of_granted granted (serveResetKeep now t)
    rw [grants, serves]
  case visit =>
    obtain ⟨next, entry, kept⟩ := steps i
    intro before after gone e
    have visits : after = ((walk i.val).visit now i).table := congrArg Walk.table next
    have holds {life : EntryLife} (own : e.life = life) : ((walk i.val).table.entry i).life = life := by rw [entry]; exact own
    refine ⟨entry, fun j life => visits.trans (visit_of_awaiting (holds life)), fun j a l d life =>
      visits.trans (visit_of_offered (holds life)), fun a l d life => visits.trans (visit_of_lapsed (holds life)),
      fun a l d life => ?_, fun stays quiet => visits.trans (visit_of_stays ?_ ?_)⟩
    · have leased := visit_of_leased (now := now) (holds life)
      rw [entry, kept] at leased
      exact visits.trans leased
    · rw [entry]
      exact stays_of stays
    · rw [entry]
      exact quiet_of quiet
  case settled =>
    rw [← params]
    exact settleRetention_eq _
  case changes =>
    refine (done.cs i).trans (or_congr_right ?_)
    rw [leaves_iff, goesOnProbation_iff]
    exact and_iff_right (List.mem_finRange i)
  case admission =>
    rw [← params]
    exact restricted_settleRetention _
  · rw [retained]
    exact afterRetention_of_leaves now t.params (leaves_iff.2 leaves)
  · rw [retained]
    exact afterRetention_of_leased now t.params life
  · rw [retained]
    exact afterRetention_of_stays now t.params (stays_of stays) (quiet_of quiet)

end Sys2Proof.Proofs.RetentionReset
